-- ==== Sys2Proof/Word.lean ====
section
/-! DEFINITION. Bytes, and the small types the commands carry as operands: lanes, leads, levers, valves,
alarm kinds. -/

namespace Sys2Proof

/-- A byte: of a telegram, of the configuration image, of a diagnostic page. -/
abbrev Byte := BitVec 8

/-- The two lanes of the loop (spec/00_scope.md 1.3). -/
inductive LaneId where
  | a
  | b
  deriving DecidableEq, Repr

/-- The other lane. -/
def LaneId.other : LaneId → LaneId
  | .a => .b
  | .b => .a

/-- The level inputs that are debounced for 40 ms, keys apart (1.7, R4, R33, R63). -/
inductive Lead where
  | cla
  | clb
  | olm
  | loa
  | lob
  | lca
  | lcb
  | mains
  deriving DecidableEq, Repr

/-- The three limit inputs (R33). -/
inductive Limit where
  | cla
  | clb
  | olm
  deriving DecidableEq, Repr

/-- The lead of a limit input. -/
def Limit.lead : Limit → Lead
  | .cla => .cla
  | .clb => .clb
  | .olm => .olm

/-- The two sides of the bulkhead, each with an open and a close lever (1.3 of Door Control). -/
inductive Side where
  | a
  | b
  deriving DecidableEq, Repr

/-- The lead of the open lever of a side. -/
def Side.openLead : Side → Lead
  | .a => .loa
  | .b => .lob

/-- The lead of the close lever of a side. -/
def Side.closeLead : Side → Lead
  | .a => .lca
  | .b => .lcb

/-- The close valve VCL and the open valve VOP (R27, R28). -/
inductive Valve where
  | vcl
  | vop
  deriving DecidableEq, Repr

/-- One value for each debounced lead. -/
structure PerLead (α : Type) where
  cla : α
  clb : α
  olm : α
  loa : α
  lob : α
  lca : α
  lcb : α
  mains : α
  deriving DecidableEq, Repr

/-- The value of one lead. -/
def PerLead.get {α : Type} (p : PerLead α) : Lead → α
  | .cla => p.cla
  | .clb => p.clb
  | .olm => p.olm
  | .loa => p.loa
  | .lob => p.lob
  | .lca => p.lca
  | .lcb => p.lcb
  | .mains => p.mains

/-- The record with the value of one lead replaced. -/
def PerLead.set {α : Type} (p : PerLead α) (l : Lead) (v : α) : PerLead α :=
  match l with
  | .cla => { p with cla := v }
  | .clb => { p with clb := v }
  | .olm => { p with olm := v }
  | .loa => { p with loa := v }
  | .lob => { p with lob := v }
  | .lca => { p with lca := v }
  | .lcb => { p with lcb := v }
  | .mains => { p with mains := v }

/-- The same value for every lead. -/
def PerLead.all {α : Type} (v : α) : PerLead α := ⟨v, v, v, v, v, v, v, v⟩

/-- The twenty alarm kinds of R82, in the order of their numbers. -/
inductive AlarmKind where
  | closeTimeout
  | openTimeout
  | stall
  | limitDiscord
  | limitConflict
  | positionFault
  | handMove
  | pressureSensor
  | energyLow
  | pumpFail
  | mainsLoss
  | noPanel
  | configMismatch
  | laneFault
  | openTooLong
  | passageExcess
  | stationLost
  | laneDegraded
  | keyStuck
  | modeConflict
  deriving DecidableEq, Repr

end Sys2Proof
end

