-- ==== Sys2Proof/Syntax.lean ====
section
/-! DEFINITION. The commands: one constructor for each row of spec/opcode_table.json. Each is one whole step of
the part (spec/95_what_each_step_holds.md); its operands are what the outside supplies with it. -/

namespace Sys2Proof

/-- The commands of the table, in its order. -/
inductive Instr where
  /-- Power-on or a low RESET, with the level of each lead and of the straps ADS1, ADS0 at the end of reset. -/
  | reset (leads : PerLead Bool) (straps : BitVec 2)
  | configAddressNotAcked
  | configRetryWaitExpiry
  /-- The 128 bytes read from offset 0 on, and the first key scan (position p in bit p), made keys 1. -/
  | configReadDone (image : List Byte) (keys : BitVec 32)
  | listenTimerExpiry
  | flashEdge
  | levelInputEdge (lead : Lead) (made : Bool)
  | limitDebouncedChange (limit : Limit) (made : Bool)
  /-- The debounced level of the close lever of a side becomes made. -/
  | lcPressed (side : Side)
  /-- The debounced level of the close lever of a side becomes open. -/
  | lcReleased (side : Side)
  /-- The debounced level of the open lever of a side becomes made. -/
  | loPressed (side : Side)
  /-- The debounced level of the open lever of a side becomes open. -/
  | loReleased (side : Side)
  | warningTimerExpiry
  | pauseTimerExpiry (valve : Valve)
  | heldOpenLimit
  | discordTimerExpiry
  | conflictTimerExpiry
  /-- A rising edge on PPU, the level of PDR, and the ns since the last edge that was taken. -/
  | positionPulse (pdrHigh : Bool) (sinceTakenNs : Nat)
  | closeMaximumPassed
  | openMaximumPassed
  | stallWindowEnd
  | handMoveArmingExpiry
  | handMoveWindowEnd
  /-- A rising edge on PFQ and the ns since the last edge that was taken. -/
  | pfqPulse (sinceTakenNs : Nat)
  | gateEnd
  | mainsDebouncedChange (made : Bool)
  | pumpRunLimit
  | claimHoldExpiry
  | alarmAgeTick (kind : AlarmKind)
  | telegramTaken
  | entryGoesStale (station : Nat)
  | laneHeardAgeLimit (station : Nat) (lane : LaneId)
  | spacingTimerEnd
  | refreshTimerExpiry
  | identTimerExpiry
  | laneQuiet (lane : LaneId)
  | dominantEdgeQuietLane (lane : LaneId)
  /-- The measured dominant part of the start mark, ns. -/
  | startMarkMeasured (lane : LaneId) (lengthNs : Nat)
  /-- The levels sampled in the eight cells of the arbitration byte, true for dominant. -/
  | arbitrationByteReceived (lane : LaneId) (levels : List Bool)
  | arbitrationLost (lane : LaneId)
  /-- A bit error, with the levels sampled in the cells of the telegram up to it, from the arbitration byte on. -/
  | bitError (lane : LaneId) (readBack : List Bool)
  | withdrawalEnd (lane : LaneId)
  /-- The level sampled in the own telegram's accept slot, true for dominant: the telegram is heard. -/
  | telegramSendComplete (lane : LaneId) (heard : Bool)
  /-- The last check cell arrives; `rest` is the levels sampled in the cells behind the bytes already in the receive buffer. -/
  | telegramReceiveComplete (lane : LaneId) (rest : List Bool)
  /-- No edge within two cells; `rest` is the levels sampled in the cells behind the bytes already in the receive buffer. -/
  | receptionCutShort (lane : LaneId) (rest : List Bool)
  | lineStuck (lane : LaneId)
  | silenceTimerExpiry (lane : LaneId)
  /-- One scan of the 4 x 8 matrix, position p in bit p, made keys 1. -/
  | keyScan (keys : BitVec 32)
  | groupClosePress (group : Nat)
  | modeSelectorChange (made : Bool)
  | ackPress
  | silencePress
  | lampTestPress
  | lampTestRelease
  | keyRelease (position : Nat)
  | lampTestTimeout
  | keyHeldLimit (position : Nat)
  | modeConflictTimerExpiry
  | lampFrame
  /-- A start or repeated start and the address byte after it. -/
  | diagAddress (byte : Byte)
  | diagStop
  | diagOutOfSequence
  | diagSubaddress (byte : Byte)
  | pageSelect (byte : Byte)
  | counterClear (byte : Byte)
  | diagWriteRefused (byte : Byte)
  | diagReadCopy
  /-- One byte sent, and whether the master acknowledged it at the ninth clock. -/
  | diagReadByte (acked : Bool)
  | captureAgeTick
  | arbitrationWon (lane : LaneId)
  | csdLowAfterNineClocks
  deriving DecidableEq, Repr

end Sys2Proof
end

