-- ==== Sys2Proof/Decode.lean ====
section
/-! DEFINITION. The decoder of the table's bits: no row of spec/opcode_table.json gives any, so no word spells a command
(log 8). -/

namespace Sys2Proof

/-- The command that `nbits` bits `w` spell by the table: none for every word. -/
def decodeTableWord (_nbits _w : Nat) : Option Instr := none

end Sys2Proof
end

