-- ==== Sys2Proof/Config.lean ====
section
/-! DEFINITION. What a configuration image fixes (the accepted configuration of R171), the constant times of
the manual, and the free values: what the manual leaves open, as constants without a body. -/

namespace Sys2Proof

/-- The two roles (1.2). -/
inductive Role where
  | door
  | panel
  deriving DecidableEq, Repr

/-- The mode a panel selects and a door obeys (1.8). -/
inductive Mode where
  | localControl
  | doorsClosed
  deriving DecidableEq, Repr

/-- The loop rates of the table of 8.1. -/
inductive LoopRate where
  | r25
  | r50
  | r100
  deriving DecidableEq, Repr

/-- The capture mode of R179. -/
inductive CaptureMode where
  | first
  | latest
  deriving DecidableEq, Repr

/-- The accepted configuration: the field values of 10.4 after clamps, and the config digest (R170, R171).
In the panel role the door fields are 0, as page 2 shows them (R178). -/
structure Cfg where
  role : Role
  /-- 1 to 63 -/
  station : Nat
  rate : LoopRate
  /-- in 100 ms units, 5 to 50 -/
  refresh : Nat
  defaultMode : Mode
  captureMode : CaptureMode
  group : Nat
  passageLimit : Nat
  /-- ms -/
  warningTime : Nat
  /-- ms -/
  recloseDelay : Nat
  /-- ms -/
  claimHold : Nat
  /-- s -/
  passageMax : Nat
  /-- ms -/
  reversalPause : Nat
  travelCount : Nat
  /-- per-mille -/
  slowZone : Nat
  overrunSlack : Nat
  /-- s -/
  closeMax : Nat
  /-- s -/
  openMax : Nat
  stallMin : Nat
  reserve : Nat
  /-- ms -/
  discordTime : Nat
  n0 : Nat
  kP : Nat
  nmin : Nat
  nmax : Nat
  /-- deci-bar -/
  p0 : Nat
  /-- deci-bar -/
  pmin : Nat
  /-- mL -/
  v0 : Nat
  /-- mL -/
  vc : Nat
  /-- mL -/
  vo : Nat
  /-- deci-bar -/
  pOn : Nat
  /-- deci-bar -/
  pOff : Nat
  /-- s -/
  pumpMax : Nat
  digest : BitVec 16
  deriving DecidableEq, Repr

namespace Config

/-- The values blocks read while no configuration is accepted. No rule reads a configured value then (R171:
the accepted configuration is in place before any block sees the start-up state change); the record makes
the reading functions total. -/
def absent : Cfg where
  role := .door
  station := 0
  rate := .r25
  refresh := 0
  defaultMode := .localControl
  captureMode := .first
  group := 0
  passageLimit := 0
  warningTime := 0
  recloseDelay := 0
  claimHold := 0
  passageMax := 0
  reversalPause := 0
  travelCount := 0
  slowZone := 0
  overrunSlack := 0
  closeMax := 0
  openMax := 0
  stallMin := 0
  reserve := 0
  discordTime := 0
  n0 := 0
  kP := 0
  nmin := 0
  nmax := 0
  p0 := 0
  pmin := 0
  v0 := 0
  vc := 0
  vo := 0
  pOn := 0
  pOff := 0
  pumpMax := 0
  digest := 0

/-- Debounce of the level inputs, ms (1.7). -/
def debounceMs : Nat := 40

/-- Half period of the fast flash, ms (1.7). -/
def fastFlashMs : Nat := 125

/-- Wait before the configuration read is tried again, ms (R169). -/
def retryWaitMs : Nat := 5

/-- Attempts of the configuration read (R169). -/
def maxAttempts : Nat := 3

/-- Reversal pause until a configuration is accepted, ms (R2). -/
def unconfiguredPauseMs : Nat := 1000

/-- Hand-move arming time, ms (R49). -/
def armingMs : Nat := 2000

/-- Stall and hand-move windows, ms (R47, R49). -/
def windowMs : Nat := 1000

/-- Pressure gate, ms (R53). -/
def gateMs : Nat := 100

/-- Least time between two position pulses taken, ns (R37). -/
def pulseGapNs : Nat := 200000

/-- Least time between two transducer pulses taken, ns (R53). -/
def transducerGapNs : Nat := 1000

/-- Greatest pressure figure, deci-bar (R56). -/
def maxPressure : Nat := 4000

/-- Greatest number of closes available (R60). -/
def maxCloses : Nat := 15

/-- Snapshot spacing, ms (R128). -/
def spacingMs : Nat := 50

/-- Withdrawal, ms (R143). -/
def withdrawalMs : Nat := 1000

/-- Bit errors in a row that withdraw a lane (R143). -/
def maxBitErrors : Nat := 16

/-- Unheard telegrams that make a lane ALONE (R150). -/
def maxUnheard : Nat := 8

/-- Places of the receive queue (R147). -/
def queuePlaces : Nat := 4

/-- Key scan period, ms, and the scans that change a debounced level (R154). -/
def scanMs : Nat := 5
def debounceScans : Nat := 8

/-- Lamp frame period, ms (R159). -/
def frameMs : Nat := 10

/-- Lamp-test limit, ms (R163). -/
def lampTestMs : Nat := 30000

/-- Key-held limit, ms (R166). -/
def keyHeldMs : Nat := 60000

/-- Mode-conflict time, ms (R167). -/
def modeConflictMs : Nat := 10000

/-- Places of a diagnostic page whose coding R178 and R179 name but do not lay out. -/
inductive Site where
  /-- byte 2 of page 0: FLT, write-refused latch, capture present -/
  | summaryFlags
  /-- activity of a lane -/
  | laneActivity
  /-- held conditions and reported health of a lane -/
  | laneHealth
  /-- presence of the three last-sent records of a lane -/
  | sentPresence
  /-- the flags of bytes 64 to 95 of page 0 -/
  | snapshotRegion
  /-- bytes 96 to 111 of page 0 in the door role: INACTIVE and the closing cause -/
  | doorRegion
  /-- byte 112: the debounced limits -/
  | travelLimits
  /-- bytes 113 to 135: the stroke -/
  | travelRegion
  /-- bytes 136 to 163 -/
  | energyRegion
  /-- bytes 164 to 171 -/
  | passageRegion
  /-- bytes 96 to 98 of page 0 in the panel role -/
  | keyLevels
  /-- a flag byte of a summary record -/
  | summaryRecord
  /-- byte 265: silence, lamp-test, lockout and PSND flags -/
  | panelFlags
  /-- byte 0 of an entry page -/
  | entryFlags
  /-- byte 1 of an entry page -/
  | partFlags
  /-- byte 6 of page 3 -/
  | captureFlags
  deriving DecidableEq, Repr

/-- FREE VALUE (log 4). Byte `i` of a place of a diagnostic page whose values R178 lists without giving their code
or the bit of each flag: some function of the values, in the order the manual lists them (a flag as 0 or 1). -/
opaque layout (site : Site) (values : List Int) (i : Nat) : Byte

/-- FREE VALUE (log 4). Byte `i` of what the energy and the passage region hold behind their last item; R178 gives zero fill for
the snapshot unit's alone. -/
opaque filler (site : Site) (i : Nat) : Byte

/-- FREE VALUE (log 4). What each payload byte of a newest snapshot that has not been made reads as; R178 says what an absent figure,
a stopped timer and an absent part of an entry read as, and no more. -/
opaque absentByte : Byte

end Config

end Sys2Proof
end

