-- ==== Sys2Proof/Machine/State.lean ====
section
/-! DEFINITION. The state of one Somarc 4160: a record for each block of 1.4 with the items of that block's state
table, the leads, and the queue of the commands that wait. Plain data. -/

namespace Sys2Proof.Machine

/-- The reasons a step could stop the machine. There is none: the manual names no event that halts the part
(a fault of the ship or of the part is an alarm, a counter, a health condition, CONFIG_FAULT or MUTE, all of
them state), so no constructor is raised by anything. -/
inductive Fault where
  deriving DecidableEq, Repr

/-- The reasons a command could have no meaning. -/
inductive Refusal where
  /-- Raised by an arm of `exec` for a row of the table that has no meaning yet, with the row's mnemonic; no
  arm raises it now. Safe: nothing can be proved about the row's effect. -/
  | notModelled (mnemonic : String)
  deriving DecidableEq, Repr

/-- A timer that stops counting when it has reached or passed its limit, and is told apart from one that was
stopped before (R25, R35, R36, R44, R166, R167). Times in ms. -/
inductive Watch where
  | stopped
  | running (ms : Nat)
  | past (ms : Nat)
  deriving DecidableEq, Repr

/-- Start-up states (10.1). -/
inductive StartUp where
  | loading
  | configFault
  | listen
  | joined
  | mute
  deriving DecidableEq, Repr

/-- Fault reasons (10.1). -/
inductive FaultReason where
  | noReason
  | noAnswer
  | check
  | field
  deriving DecidableEq, Repr

/-- Control states (1.1 of Door Control). -/
inductive Ctl where
  | inactive
  | idleClosed
  | idleOpen
  | idlePartial
  | warning
  | closing
  | claiming
  | opening
  | heldOpen
  deriving DecidableEq, Repr

/-- Closing causes (1.1 of Door Control). -/
inductive Cause where
  | noCause
  | lever
  | demand
  | reclose
  deriving DecidableEq, Repr

/-- Warning causes (1.1 of Door Control). -/
inductive WarningCause where
  | remote
  | reclose
  deriving DecidableEq, Repr

/-- Position states (R34). -/
inductive Position where
  | closed
  | opened
  | between
  | unknown
  deriving DecidableEq, Repr

/-- Directions of a stroke (R44). -/
inductive Dir where
  | closing
  | opening
  deriving DecidableEq, Repr

/-- Phases of a passage claim (4.1). -/
inductive Phase where
  | noClaim
  | fresh
  | waiting
  deriving DecidableEq, Repr

/-- States of an alarm record (5.2). -/
inductive AlarmState where
  | activeUnacked
  | activeAcked
  | clearedUnacked
  deriving DecidableEq, Repr

/-- Telegram classes (R118). -/
inductive Cls where
  | demand
  | state
  | ident
  deriving DecidableEq, Repr

/-- Kinds of an entry (R99). -/
inductive Kind where
  | door
  | panel
  deriving DecidableEq, Repr

/-- Lane activities (8.1). -/
inductive Activity where
  | idle
  | contending
  | sending
  | receiving
  | withdrawn
  deriving DecidableEq, Repr

/-- Reported health of a lane (8.1, R151). -/
inductive Health where
  | good
  | stuck
  | errored
  | silent
  | alone
  deriving DecidableEq, Repr

/-- What the telegram a lane unit is taking follows: nothing of its own, or an own telegram it abandoned on a
bit error (R140) or at the passage to MUTE (R142). -/
inductive Own where
  | peer
  | bitError
  | mute
  deriving DecidableEq, Repr

/-- Lamp patterns (9.5). -/
inductive Pattern where
  | dark
  | steady
  | slow
  | fast
  deriving DecidableEq, Repr

/-- Port states (Chapter 11). -/
inductive Port where
  | idle
  | addressedWrite
  | addressedRead
  deriving DecidableEq, Repr

/-- Reasons of a rejected telegram (R145), in the coding of page 3. -/
inductive Reject where
  | check
  | format
  | rate
  deriving DecidableEq, Repr

/-- The common flash timing of R1: the eighth of the 1 s slow period it stands in, and the ms since that
eighth began. -/
structure Flash where
  phase : Nat
  ms : Nat
  deriving DecidableEq, Repr

/-- What the part, as master of the configuration port, gives on CSC and CSD (R169): up to nine clocks until CSD reads high;
the conditions of R175; a byte sent, which the memory acknowledges; a byte read, with the part's acknowledgement or without. -/
inductive BusAct where
  | free
  | start
  | repeatedStart
  | stop
  | send (byte : Byte)
  | read (byte : Byte) (acked : Bool)
  deriving DecidableEq, Repr

/-- Start-up control (10.1), with the progress of the configuration read (R169): `bus` is what the present attempt gives on
the configuration port, and nothing between two attempts. -/
structure Suc where
  startUp : StartUp
  image : List Byte
  reason : FaultReason
  refused : Option Nat
  clamps : Nat
  accepted : Option Cfg
  listenTimer : Option Nat
  flt : Bool
  attempts : Nat
  retryWait : Option Nat
  bus : List BusAct
  deriving DecidableEq, Repr

/-- The door control unit (1.1 of Door Control) with its two valve outputs. `warnTimer` holds the ms that
remain; a pause timer holds the ms elapsed while it runs and is `none` when expired. -/
structure Dcu where
  ctl : Ctl
  cause : Cause
  wcause : WarningCause
  warnTimer : Option Nat
  vclPause : Option Nat
  vopPause : Option Nat
  held : Watch
  mode : Mode
  groupDemand : Bool
  panelHeard : Bool
  cd : Bool
  lockout : Bool
  vcl : Bool
  vop : Bool
  deriving DecidableEq, Repr

/-- The stall window of R47. -/
structure StallWindow where
  tally : Nat
  number : Nat
  ms : Nat
  deriving DecidableEq, Repr

/-- Which of the two findings of R48 has stopped an open stroke at this moment, so that the other, if it comes at the
same moment, adds its alarm: OPEN_TIMEOUT, with the stall window it cut off, or STALL. -/
inductive Finding where
  | timeout (w : StallWindow)
  | stall
  deriving DecidableEq, Repr

/-- The hand-move window of R49. -/
structure HandWindow where
  tally : Nat
  ms : Nat
  deriving DecidableEq, Repr

/-- The travel monitor (2.1). The position figure is `positionFigure`, a function of the count (R42). `finding` is the
model's own field (log 1). -/
structure Trm where
  pos : Position
  running : Bool
  discord : Watch
  conflict : Watch
  count : Int
  ref : Bool
  overrun : Nat
  stroke : Option Dir
  strokeTimer : Watch
  slow : Bool
  stall : Option StallWindow
  finding : Option Finding
  arming : Option Nat
  hand : Option HandWindow
  vsl : Bool
  deriving DecidableEq, Repr

/-- The energy unit (3.1). -/
structure Enu where
  running : Bool
  gate : Option Nat
  tally : Nat
  lastN : Option Nat
  oob : Nat
  inb : Nat
  p : Option Nat
  u : Option Nat
  closes : Option Nat
  permStart : Bool
  permCont : Bool
  pumpOn : Bool
  run : Option Nat
  locked : Bool
  deriving DecidableEq, Repr

/-- The passage unit (4.1). `claimTimer` holds the ms that remain. -/
structure Psu where
  inForce : Bool
  phase : Phase
  claimTimer : Option Nat
  occupants : Nat
  ahead : Nat
  excess : Bool
  deriving DecidableEq, Repr

/-- A record of the alarm list (R88): `age` in whole seconds, `ms` since the last of them. -/
structure AlarmRecord where
  kind : AlarmKind
  st : AlarmState
  count : Nat
  age : Nat
  ms : Nat
  deriving DecidableEq, Repr

/-- A request to the alarm unit (R82, R83). -/
inductive AlarmRequest where
  | becameTrue (k : AlarmKind)
  | becameFalse (k : AlarmKind)
  | occurred (k : AlarmKind)
  | acknowledge
  deriving DecidableEq, Repr

/-- The content of a STATE telegram (R121) and the door part of an entry (R99). -/
structure DoorPart where
  group : Nat
  ctl : Ctl
  pos : Position
  figure : Option Nat
  closes : Option Nat
  phase : Phase
  mode : Mode
  cd : Bool
  wcause : WarningCause
  active : BitVec 16
  unacked : BitVec 16
  goodA : Bool
  goodB : Bool
  deriving DecidableEq, Repr

/-- The content of a DEMAND telegram (R120). -/
structure PanelPart where
  mode : Mode
  groups : BitVec 16
  ack : Byte
  goodA : Bool
  goodB : Bool
  deriving DecidableEq, Repr

/-- The panel part of an entry: the content of the last accepted DEMAND and the ack baseline (R99, R110). -/
structure HeldDemand where
  part : PanelPart
  base : Byte
  deriving DecidableEq, Repr

/-- The content of an IDENT telegram (R122) and the ident part of an entry. -/
structure IdentPart where
  role : Role
  group : Nat
  limit : Nat
  refresh : Nat
  digest : BitVec 16
  deriving DecidableEq, Repr

/-- An entry of the station table (R99), with its single-lane marking (R109). Ages in ms. -/
structure Entry where
  num : Nat
  kind : Kind
  live : Bool
  age : Nat
  heardA : Nat
  heardB : Nat
  single : Bool
  serD : Option Byte
  serS : Option Byte
  serI : Option Byte
  door : Option DoorPart
  panel : Option HeldDemand
  ident : Option IdentPart
  deriving DecidableEq, Repr

/-- A change notice (R111); `liveBefore` is absent for a new entry, `cls` for a passage to STALE. -/
structure Notice where
  num : Nat
  kindBefore : Option Kind
  kindAfter : Kind
  groupBefore : Option Nat
  groupAfter : Option Nat
  liveBefore : Option Bool
  liveAfter : Bool
  cls : Option Cls
  deriving DecidableEq, Repr

/-- The station table engine: the table in rising order of station number, its counters (R116), and the last
outcome of each derivation (R112 to R114). -/
structure Ste where
  table : List Entry
  kindConflicts : Nat
  duplicates : Nat
  lateCopies : Nat
  mismatch : Bool
  lost : Bool
  degraded : Bool
  deriving DecidableEq, Repr

/-- The snapshot unit's items for STATE or DEMAND (7.3). -/
structure Keeper (α : Type) where
  newest : Option α
  serial : Byte
  pending : Bool
  spacing : Option Nat
  refresh : Option Nat
  deriving DecidableEq, Repr

/-- The snapshot unit's items for IDENT (7.3). -/
structure IdentKeeper where
  newest : Option IdentPart
  serial : Byte
  timer : Option Nat
  deriving DecidableEq, Repr

/-- The snapshot unit (7.3). -/
structure Snu where
  state : Keeper DoorPart
  demand : Keeper PanelPart
  ident : IdentKeeper
  deriving DecidableEq, Repr

/-- The frozen content of one snapshot. -/
inductive Content where
  | demand (c : PanelPart)
  | state (c : DoorPart)
  | ident (c : IdentPart)
  deriving DecidableEq, Repr

/-- The send copy of a lane: a snapshot with its serial (8.1, R132). -/
structure SendCopy where
  content : Content
  serial : Byte
  deriving DecidableEq, Repr

/-- The seven counters of a lane (R152). -/
structure LaneCounters where
  accepted : Nat
  checkErrors : Nat
  formatErrors : Nat
  rateErrors : Nat
  losses : Nat
  bitErrors : Nat
  unheard : Nat
  deriving DecidableEq, Repr

/-- A lane unit (8.1). `rx` is `some []` while a reception has begun and no whole byte is in. -/
structure Lane where
  activity : Activity
  quiet : Bool
  stuck : Bool
  errored : Bool
  silent : Bool
  alone : Bool
  health : Health
  silence : Option Nat
  unheard : Nat
  bitErr : Nat
  withdraw : Option Nat
  sentD : Option Byte
  sentS : Option Byte
  sentI : Option Byte
  copy : Option SendCopy
  rx : Option (List Byte)
  own : Own
  slot : Bool
  ctr : LaneCounters
  deriving DecidableEq, Repr

/-- A telegram of the receive queue (R147). -/
structure Telegram where
  lane : LaneId
  cls : Cls
  origin : Nat
  serial : Byte
  payload : List Byte
  deriving DecidableEq, Repr

/-- The receive queue, oldest first, and its overflow counter (R147). -/
structure Rxq where
  queue : List Telegram
  overflow : Nat
  deriving DecidableEq, Repr

/-- A summary record of the panel (R158). -/
structure Summary where
  empty : Bool
  allClosed : Bool
  anyOpen : Bool
  anyMoving : Bool
  anyUnacked : Bool
  anyActive : Bool
  anyLost : Bool
  deriving DecidableEq, Repr

/-- The panel unit (9.1). Lists indexed by key position (20), record (17: groups 1 to 16, then the ship),
station number less 1 (63) and lamp position (272). `frame` holds the levels fixed for the last frame, `shifted` the levels set
on LDA for it in the order sent, and `strobed` what the chain's latches took at its strobe, the stage nearest the part first
(R159); both are empty until a frame has been shifted, and in the door role, which shifts none. -/
structure Pnu where
  running : Bool
  keys : BitVec 20
  scans : List Nat
  contacts : BitVec 32
  scanTimer : Nat
  heldKeys : List Watch
  mode : Mode
  groups : BitVec 16
  ack : Byte
  summaries : List Summary
  lastSeen : List (BitVec 16)
  silence : Bool
  lampTest : Option Nat
  lockout : Bool
  conflict : Watch
  patterns : List Pattern
  frame : List Bool
  shifted : List Bool
  strobed : List Bool
  frameTimer : Nat
  psnd : Bool
  deriving DecidableEq, Repr

/-- The record of the rejected-telegram capture (R179): the items the offer supplied, `age` in whole
seconds, `ms` since the last of them. -/
structure Capture where
  lane : LaneId
  reason : Reject
  arb : Option Byte
  serial : Option Byte
  length : Option Byte
  received : Option (BitVec 16)
  computed : Option (BitVec 16)
  age : Nat
  ms : Nat
  deriving DecidableEq, Repr

/-- The diagnostic port (Chapter 11). -/
structure Dgp where
  addr : BitVec 7
  port : Port
  page : Nat
  sub : Nat
  copy : Option (List Byte)
  latch : Bool
  capture : Option Capture
  wantSub : Bool
  holdClock : Bool
  muted : Bool
  sent : Option Byte
  ackGiven : Option Bool
  deriving DecidableEq, Repr

/-- The output pins that follow the state of their block at once (R29, R30, R64). The other outputs stand
with their blocks: VCL, VOP, VSL, FLT, PSND. -/
structure Outs where
  sndr : Bool
  bcn : Bool
  lmc : Bool
  lmo : Bool
  lmw : Bool
  pump : Bool
  deriving DecidableEq, Repr

/-- The state of the part, and the commands that wait. -/
structure State where
  lead : PerLead Bool
  deb : PerLead Bool
  settle : PerLead (Option Nat)
  flash : Flash
  suc : Suc
  dcu : Dcu
  trm : Trm
  enu : Enu
  psu : Psu
  alu : List AlarmRecord
  ste : Ste
  snu : Snu
  laneA : Lane
  laneB : Lane
  rxq : Rxq
  pnu : Pnu
  dgp : Dgp
  outs : Outs
  pending : List Instr
  deriving DecidableEq, Repr

/-- Start-up control after reset (10.1), the configuration read begun (R169): the memory is at 0x51. -/
def Suc.reset : Suc where
  startUp := .loading
  image := List.replicate 128 0xFF#8
  reason := .noReason
  refused := none
  clamps := 0
  accepted := none
  listenTimer := none
  flt := false
  attempts := 0
  retryWait := none
  bus := [.free, .stop, .start, .send 0xA2#8, .send 0#8, .repeatedStart, .send 0xA3#8]

/-- The door control unit after reset (R2). -/
def Dcu.reset : Dcu where
  ctl := .inactive
  cause := .noCause
  wcause := .remote
  warnTimer := none
  vclPause := some 0
  vopPause := some 0
  held := .stopped
  mode := .localControl
  groupDemand := false
  panelHeard := false
  cd := false
  lockout := false
  vcl := false
  vop := false

/-- The travel monitor after reset with every limit open, which gives BETWEEN (2.1, R32, R34). -/
def Trm.reset : Trm where
  pos := .between
  running := false
  discord := .stopped
  conflict := .stopped
  count := 0
  ref := false
  overrun := 0
  stroke := none
  strokeTimer := .stopped
  slow := false
  stall := none
  finding := none
  arming := none
  hand := none
  vsl := false

/-- The energy unit after reset (3.1, R52). -/
def Enu.reset : Enu where
  running := false
  gate := none
  tally := 0
  lastN := none
  oob := 0
  inb := 0
  p := none
  u := none
  closes := none
  permStart := false
  permCont := false
  pumpOn := false
  run := none
  locked := false

/-- The passage unit after reset (4.1, R68). -/
def Psu.reset : Psu where
  inForce := false
  phase := .noClaim
  claimTimer := none
  occupants := 0
  ahead := 0
  excess := false

/-- The station table engine after reset (R100). -/
def Ste.reset : Ste where
  table := []
  kindConflicts := 0
  duplicates := 0
  lateCopies := 0
  mismatch := false
  lost := false
  degraded := false

/-- A STATE or DEMAND keeper after reset (7.3). -/
def Keeper.reset {α : Type} : Keeper α where
  newest := none
  serial := 0
  pending := false
  spacing := none
  refresh := none

/-- The snapshot unit after reset (7.3, R124). -/
def Snu.reset : Snu where
  state := Keeper.reset
  demand := Keeper.reset
  ident := { newest := none, serial := 0, timer := none }

/-- A lane unit after reset (8.1, R135). -/
def Lane.reset : Lane where
  activity := .idle
  quiet := false
  stuck := false
  errored := false
  silent := false
  alone := false
  health := .good
  silence := none
  unheard := 0
  bitErr := 0
  withdraw := none
  sentD := none
  sentS := none
  sentI := none
  copy := none
  rx := none
  own := .peer
  slot := false
  ctr := ⟨0, 0, 0, 0, 0, 0, 0⟩

/-- A summary record over no door (R158). -/
def Summary.reset : Summary where
  empty := true
  allClosed := false
  anyOpen := false
  anyMoving := false
  anyUnacked := false
  anyActive := false
  anyLost := false

/-- The panel unit after reset (9.1, R153). DEDUCED (log 21): the debounce counts, the last scan, the scan timer and the frame
levels, which 9.1 does not list. DESIGN CHOICE (log 25): the first frame falls 10 ms after the reset. -/
def Pnu.reset : Pnu where
  running := false
  keys := 0
  scans := List.replicate 20 0
  contacts := 0
  scanTimer := 0
  heldKeys := List.replicate 20 .stopped
  mode := .localControl
  groups := 0
  ack := 0
  summaries := List.replicate 17 Summary.reset
  lastSeen := List.replicate 63 0#16
  silence := false
  lampTest := none
  lockout := false
  conflict := .stopped
  patterns := List.replicate 272 .dark
  frame := List.replicate 272 false
  shifted := []
  strobed := []
  frameTimer := 0
  psnd := false

/-- The diagnostic port after reset (Chapter 11, R175), at 0x2C: straps 0. -/
def Dgp.reset : Dgp where
  addr := 0x2C#7
  port := .idle
  page := 0
  sub := 0
  copy := none
  latch := false
  capture := none
  wantSub := false
  holdClock := false
  muted := false
  sent := none
  ackGiven := none

/-- The output pins after reset (R2, R52). -/
def Outs.reset : Outs where
  sndr := false
  bcn := false
  lmc := false
  lmo := false
  lmw := false
  pump := false

/-- The machine right after reset: each block at its chapter's value after reset (R169), no command waiting.
DESIGN CHOICE (log 3, unsafe): every lead open and straps 0, which the manual leaves to the board; a RESET
command gives both. -/
def State.reset : State where
  lead := PerLead.all false
  deb := PerLead.all false
  settle := PerLead.all none
  flash := ⟨0, 0⟩
  suc := Suc.reset
  dcu := Dcu.reset
  trm := Trm.reset
  enu := Enu.reset
  psu := Psu.reset
  alu := []
  ste := Ste.reset
  snu := Snu.reset
  laneA := Lane.reset
  laneB := Lane.reset
  rxq := ⟨[], 0⟩
  pnu := Pnu.reset
  dgp := Dgp.reset
  outs := Outs.reset
  pending := []

end Sys2Proof.Machine
end

