-- ==== Sys2Proof/Machine/Operands.lean ====
section
/-! DEFINITION. The codings: bytes and words, the check of R119, the header and the three payloads of 7.2 in both
directions (R118, R120 to R123), and the fields of the configuration image with their judgement (10.4, R171). -/

namespace Sys2Proof.Machine

/-- The byte of a number below 256. -/
def byteOf (n : Nat) : Byte := BitVec.ofNat 8 n

/-- A two-byte field, most significant byte first (1.7). -/
def wordBytes (w : BitVec 16) : List Byte := [w.extractLsb' 8 8, w.extractLsb' 0 8]

/-- A number in two bytes, most significant byte first. -/
def natBytes (n : Nat) : List Byte := wordBytes (BitVec.ofNat 16 n)

/-- The number of two bytes, most significant byte first (1.7). -/
def wordOf (hi lo : Byte) : BitVec 16 := hi ++ lo

/-- Byte `i` of a list of bytes; past its end, what an image byte that was never read holds (R169). -/
def byteAt (bs : List Byte) (i : Nat) : Byte := bs.getD i 0xFF#8

/-- One place of the check register of R119. -/
def checkShift (r : BitVec 16) : BitVec 16 :=
  if r.msb then (r <<< 1) ^^^ 0x1021#16 else r <<< 1

/-- One byte taken into the check register (R119). -/
def checkByte (r : BitVec 16) (b : Byte) : BitVec 16 :=
  let r := r ^^^ (b ++ 0#8)
  checkShift (checkShift (checkShift (checkShift
    (checkShift (checkShift (checkShift (checkShift r)))))))

/-- The check of R119 over the bytes in the order sent. -/
def check16 (bs : List Byte) : BitVec 16 := bs.foldl checkByte 0xFFFF#16

/-- Class codes (R118). -/
def Cls.code : Cls → Nat
  | .demand => 0
  | .state => 1
  | .ident => 2

/-- The class of an arbitration byte's upper two bits; code 3 names none (R118). -/
def classOf (arb : Byte) : Option Cls :=
  match (arb.extractLsb' 6 2).toNat with
  | 0 => some .demand
  | 1 => some .state
  | 2 => some .ident
  | _ => none

/-- The origin in an arbitration byte's lower six bits (R118). -/
def originOf (arb : Byte) : Nat := (arb.extractLsb' 0 6).toNat

/-- Payload lengths (R118). -/
def Cls.payloadLength : Cls → Nat
  | .demand => 5
  | .state => 11
  | .ident => 6

/-- Bytes of a whole telegram of a class: three header bytes, the payload, two check bytes (R118, R144). -/
def Cls.telegramLength (c : Cls) : Nat := 3 + c.payloadLength + 2

/-- The arbitration byte of a class and a station (R118). -/
def arbitrationByte (c : Cls) (station : Nat) : Byte :=
  BitVec.ofNat 2 c.code ++ BitVec.ofNat 6 station

/-- Codes of the control states (1.1 of Door Control). INACTIVE has none and is never sent (R121); its arm
only makes the function total. -/
def Ctl.code : Ctl → BitVec 3
  | .inactive => 0
  | .idleClosed => 0
  | .idleOpen => 1
  | .idlePartial => 2
  | .warning => 3
  | .closing => 4
  | .claiming => 5
  | .opening => 6
  | .heldOpen => 7

/-- The control state of three bits; every pattern gives one (R123). -/
def ctlOf (c : BitVec 3) : Ctl :=
  match c.toNat with
  | 0 => .idleClosed
  | 1 => .idleOpen
  | 2 => .idlePartial
  | 3 => .warning
  | 4 => .closing
  | 5 => .claiming
  | 6 => .opening
  | _ => .heldOpen

/-- Codes of the position states (7.2). -/
def Position.code : Position → BitVec 2
  | .closed => 0
  | .opened => 1
  | .between => 2
  | .unknown => 3

/-- The position state of two bits (R123). -/
def posOfCode (c : BitVec 2) : Position :=
  match c.toNat with
  | 0 => .closed
  | 1 => .opened
  | 2 => .between
  | _ => .unknown

/-- Codes of the claim phases (7.2). -/
def Phase.code : Phase → BitVec 2
  | .noClaim => 0
  | .fresh => 1
  | .waiting => 2

/-- The claim phase of two bits; code 3 is taken as WAITING (R123). -/
def phaseOfCode (c : BitVec 2) : Phase :=
  match c.toNat with
  | 0 => .noClaim
  | 1 => .fresh
  | _ => .waiting

/-- The mode bit (7.2). -/
def modeBit : Mode → Bool
  | .localControl => false
  | .doorsClosed => true

def modeOf (b : Bool) : Mode := if b then .doorsClosed else .localControl

/-- The warning-cause bit (7.2). -/
def WarningCause.bit : WarningCause → Bool
  | .remote => false
  | .reclose => true

def wcauseOf (b : Bool) : WarningCause := if b then .reclose else .remote

/-- The role bit (7.2). -/
def roleBit : Role → Bool
  | .door => false
  | .panel => true

def roleOf (b : Bool) : Role := if b then .panel else .door

/-- A position figure in two bytes, 0xFFFF when absent (7.2). -/
def figureWord : Option Nat → BitVec 16
  | none => 0xFFFF#16
  | some f => BitVec.ofNat 16 f

/-- A received position figure: above 1000 is absent (R123). -/
def figureOf (w : BitVec 16) : Option Nat := if w.toNat ≤ 1000 then some w.toNat else none

/-- Closes available in one byte, 0xFF when absent (7.2). -/
def closesByte : Option Nat → Byte
  | none => 0xFF#8
  | some c => byteOf c

/-- Received closes available: above 15 is absent (R123). -/
def closesOf (b : Byte) : Option Nat := if b.toNat ≤ 15 then some b.toNat else none

/-- A byte from its eight bits, bit 7 first. -/
def bits8 (b7 b6 b5 b4 b3 b2 b1 b0 : Bool) : Byte :=
  BitVec.ofBool b7 ++ BitVec.ofBool b6 ++ BitVec.ofBool b5 ++ BitVec.ofBool b4 ++
    BitVec.ofBool b3 ++ BitVec.ofBool b2 ++ BitVec.ofBool b1 ++ BitVec.ofBool b0

/-- The DEMAND payload (R120, 7.2). -/
def encodeDemand (c : PanelPart) : List Byte :=
  [bits8 false false false false false false false (modeBit c.mode)] ++ wordBytes c.groups ++
    [c.ack, bits8 false false false false false false c.goodA c.goodB]

/-- The STATE payload (R121, 7.2). -/
def encodeState (c : DoorPart) : List Byte :=
  [byteOf c.group, 0#5 ++ c.ctl.code, 0#6 ++ c.pos.code] ++ wordBytes (figureWord c.figure) ++
    [closesByte c.closes,
     c.phase.code ++ BitVec.ofBool (modeBit c.mode) ++ BitVec.ofBool c.cd ++ BitVec.ofBool c.wcause.bit ++
       0#1 ++ BitVec.ofBool c.goodA ++ BitVec.ofBool c.goodB] ++
    wordBytes c.active ++ wordBytes c.unacked

/-- The IDENT payload (R122, 7.2). -/
def encodeIdent (c : IdentPart) : List Byte :=
  [bits8 false false false false false false false (roleBit c.role), byteOf c.group, byteOf c.limit,
    byteOf c.refresh] ++ wordBytes c.digest

/-- What a receiver takes from a DEMAND payload (R123). -/
def decodeDemand (p : List Byte) : PanelPart where
  mode := modeOf ((byteAt p 0).getLsbD 0)
  groups := wordOf (byteAt p 1) (byteAt p 2)
  ack := byteAt p 3
  goodA := (byteAt p 4).getLsbD 1
  goodB := (byteAt p 4).getLsbD 0

/-- What a receiver takes from a STATE payload (R123). -/
def decodeState (p : List Byte) : DoorPart where
  group := (byteAt p 0).toNat
  ctl := ctlOf ((byteAt p 1).extractLsb' 0 3)
  pos := posOfCode ((byteAt p 2).extractLsb' 0 2)
  figure := figureOf (wordOf (byteAt p 3) (byteAt p 4))
  closes := closesOf (byteAt p 5)
  phase := phaseOfCode ((byteAt p 6).extractLsb' 6 2)
  mode := modeOf ((byteAt p 6).getLsbD 5)
  cd := (byteAt p 6).getLsbD 4
  wcause := wcauseOf ((byteAt p 6).getLsbD 3)
  goodA := (byteAt p 6).getLsbD 1
  goodB := (byteAt p 6).getLsbD 0
  active := wordOf (byteAt p 7) (byteAt p 8)
  unacked := wordOf (byteAt p 9) (byteAt p 10)

/-- What a receiver takes from an IDENT payload (R123). -/
def decodeIdent (p : List Byte) : IdentPart where
  role := roleOf ((byteAt p 0).getLsbD 0)
  group := (byteAt p 1).toNat
  limit := (byteAt p 2).toNat
  refresh := (byteAt p 3).toNat
  digest := wordOf (byteAt p 4) (byteAt p 5)

/-- The class a content travels in (R118). -/
def Content.cls : Content → Cls
  | .demand _ => .demand
  | .state _ => .state
  | .ident _ => .ident

/-- The payload of a content. -/
def Content.payload : Content → List Byte
  | .demand c => encodeDemand c
  | .state c => encodeState c
  | .ident c => encodeIdent c

/-- The bytes of the telegram that carries a send copy from a station, in the order sent: header, payload,
check (R118, R119). -/
def telegramBytes (station : Nat) (c : SendCopy) : List Byte :=
  let body := [arbitrationByte c.content.cls station, c.serial, byteOf c.content.cls.payloadLength] ++
    c.content.payload
  body ++ wordBytes (check16 body)

/-- A field of the configuration image (10.4): its first offset, whether it has two bytes, its range, and
whether a value out of range is clamped or refused. -/
structure Field where
  off : Nat
  wide : Bool
  lo : Nat
  hi : Nat
  clamps : Bool
  deriving DecidableEq, Repr

/-- The value of a field as read, most significant byte first. -/
def Field.raw (f : Field) (img : List Byte) : Nat :=
  if f.wide then (wordOf (byteAt img f.off) (byteAt img (f.off + 1))).toNat else (byteAt img f.off).toNat

/-- Whether a value lies in the field's range. -/
def Field.inRange (f : Field) (v : Nat) : Bool := f.lo ≤ v && v ≤ f.hi

/-- The value taken: an out-of-range value of a clamp field is replaced by the nearest bound (10.4). -/
def Field.taken (f : Field) (img : List Byte) : Nat :=
  if f.clamps then max f.lo (min f.hi (f.raw img)) else f.raw img

/-- The fields both roles judge, in order of offset (10.4). -/
def commonFields : List Field :=
  [⟨0, false, 0, 1, false⟩, ⟨1, false, 1, 63, false⟩, ⟨2, false, 0, 2, false⟩, ⟨3, false, 5, 50, true⟩,
   ⟨4, false, 0, 1, false⟩, ⟨5, false, 0, 1, false⟩]

/-- The fields the door role judges after them, in order of offset (10.4). -/
def doorFields : List Field :=
  [⟨6, false, 1, 16, false⟩, ⟨7, false, 0, 4, true⟩, ⟨8, true, 3000, 20000, true⟩,
   ⟨10, true, 2000, 10000, true⟩, ⟨12, true, 200, 2000, true⟩, ⟨14, true, 30, 600, true⟩,
   ⟨16, true, 200, 1000, true⟩, ⟨18, true, 200, 4095, true⟩, ⟨20, true, 0, 300, true⟩,
   ⟨22, true, 4, 400, true⟩, ⟨24, false, 10, 120, true⟩, ⟨25, false, 10, 120, true⟩,
   ⟨26, false, 1, 50, true⟩, ⟨27, false, 1, 3, true⟩, ⟨28, true, 500, 5000, true⟩,
   ⟨30, true, 0, 65535, false⟩, ⟨32, true, 1, 4095, true⟩, ⟨34, true, 0, 65535, false⟩,
   ⟨36, true, 0, 65535, false⟩, ⟨38, true, 10, 4000, true⟩, ⟨40, true, 10, 4000, true⟩,
   ⟨42, true, 1000, 60000, true⟩, ⟨44, true, 100, 20000, true⟩, ⟨46, true, 100, 20000, true⟩,
   ⟨48, true, 10, 4000, true⟩, ⟨50, true, 10, 4000, true⟩, ⟨52, true, 30, 1800, true⟩]

/-- The field at an offset of the image. -/
def fieldAt (off : Nat) : Field :=
  ((commonFields ++ doorFields).find? (·.off == off)).getD ⟨off, false, 0, 255, false⟩

/-- The value taken of the field at an offset. -/
def takenAt (img : List Byte) (off : Nat) : Nat := (fieldAt off).taken img

/-- The first pass of R171: the clamp counter, and the offset of the field that refuses, if one does. -/
def firstPass (img : List Byte) : List Field → Nat → Nat × Option Nat
  | [], n => (n, none)
  | f :: fs, n =>
    if f.inRange (f.raw img) then firstPass img fs n
    else if f.clamps then firstPass img fs (n + 1)
    else (n, some f.off)

/-- The second pass of R171: the offset of the first relational test that fails. -/
def secondPass (img : List Byte) : Option Nat :=
  if ¬ takenAt img 30 < takenAt img 36 then some 30
  else if ¬ takenAt img 34 < takenAt img 36 then some 34
  else if ¬ takenAt img 38 < takenAt img 40 then some 38
  else if ¬ takenAt img 48 < takenAt img 50 then some 48
  else none

/-- The role an image names (offset 0). -/
def imageRole (img : List Byte) : Role := roleOf (byteAt img 0 == 1#8)

/-- The loop rate code (offset 2). -/
def rateOf (n : Nat) : LoopRate :=
  match n with
  | 0 => .r25
  | 1 => .r50
  | _ => .r100

/-- The judgement of the fields (R171): the clamp counter and the refused-field offset. -/
def judgeFields (img : List Byte) : Nat × Option Nat :=
  match imageRole img with
  | .panel => firstPass img commonFields 0
  | .door =>
    match firstPass img (commonFields ++ doorFields) 0 with
    | (n, some off) => (n, some off)
    | (n, none) => (n, secondPass img)

/-- The configuration an accepted image gives: the values after clamps, door fields 0 in the panel role, and
the digest, which is the check value the image holds (R170, R171, R178). -/
def configOf (img : List Byte) : Cfg :=
  let role := imageRole img
  let door (off : Nat) : Nat := if role = .door then takenAt img off else 0
  { role := role
    station := takenAt img 1
    rate := rateOf (takenAt img 2)
    refresh := takenAt img 3
    defaultMode := modeOf (takenAt img 4 == 1)
    captureMode := if takenAt img 5 == 1 then .latest else .first
    group := door 6
    passageLimit := door 7
    warningTime := door 8
    recloseDelay := door 10
    claimHold := door 12
    passageMax := door 14
    reversalPause := door 16
    travelCount := door 18
    slowZone := door 20
    overrunSlack := door 22
    closeMax := door 24
    openMax := door 25
    stallMin := door 26
    reserve := door 27
    discordTime := door 28
    n0 := door 30
    kP := door 32
    nmin := door 34
    nmax := door 36
    p0 := door 38
    pmin := door 40
    v0 := door 42
    vc := door 44
    vo := door 46
    pOn := door 48
    pOff := door 50
    pumpMax := door 52
    digest := wordOf (byteAt img 126) (byteAt img 127) }

/-- The computed check of an image over its first 126 bytes (R170). -/
def imageCheck (img : List Byte) : BitVec 16 := check16 ((List.range 126).map (byteAt img))

/-- The check an image holds (R170). -/
def storedCheck (img : List Byte) : BitVec 16 := wordOf (byteAt img 126) (byteAt img 127)

/-- The loop rate's code. -/
def rateCode : LoopRate → Nat
  | .r25 => 0
  | .r50 => 1
  | .r100 => 2

/-- A cell length, ns (8.1). -/
def cellNs : LoopRate → Nat
  | .r25 => 40000
  | .r50 => 20000
  | .r100 => 10000

/-- An accepted configuration in the image coding of offsets 0 to 53 (R178). -/
def cfgBytes (c : Cfg) : List Byte :=
  [byteOf (if c.role = .panel then 1 else 0), byteOf c.station, byteOf (rateCode c.rate), byteOf c.refresh,
    byteOf (if c.defaultMode = .doorsClosed then 1 else 0),
    byteOf (if c.captureMode = .latest then 1 else 0), byteOf c.group, byteOf c.passageLimit] ++
  natBytes c.warningTime ++ natBytes c.recloseDelay ++ natBytes c.claimHold ++ natBytes c.passageMax ++
  natBytes c.reversalPause ++ natBytes c.travelCount ++ natBytes c.slowZone ++ natBytes c.overrunSlack ++
  [byteOf c.closeMax, byteOf c.openMax, byteOf c.stallMin, byteOf c.reserve] ++
  natBytes c.discordTime ++ natBytes c.n0 ++ natBytes c.kP ++ natBytes c.nmin ++ natBytes c.nmax ++
  natBytes c.p0 ++ natBytes c.pmin ++ natBytes c.v0 ++ natBytes c.vc ++ natBytes c.vo ++
  natBytes c.pOn ++ natBytes c.pOff ++ natBytes c.pumpMax

end Sys2Proof.Machine
end

