-- ==== Sys2Proof/Machine/Flags.lean ====
section
/-! DEFINITION. The figures and flags the rules derive from the state, as functions that change nothing: levers and
requests (R4, R12), position (R34, R42, R43), energy (R54 to R61), alarm sets (R95), lane health (R151), group
peers (R72 to R74), mode and demand (R6), table alarms (R109, R112 to R114), summaries and lamps (R157 to R164),
and the reported contents (R120 to R122). -/

namespace Sys2Proof.Machine

/-- The values of the accepted configuration. -/
def State.conf (s : State) : Cfg := s.suc.accepted.getD Config.absent

/-- The start-up state is LISTEN, JOINED or MUTE. -/
def StartUp.running : StartUp → Bool
  | .listen => true
  | .joined => true
  | .mute => true
  | .loading => false
  | .configFault => false

/-- The part runs in the door role. No role is in force until a configuration is accepted (R169). -/
def State.doorRuns (s : State) : Bool := s.suc.startUp.running && s.conf.role == .door

/-- The part runs in the panel role. -/
def State.panelRuns (s : State) : Bool := s.suc.startUp.running && s.conf.role == .panel

/-- The refresh interval, ms (10.4). -/
def State.refreshMs (s : State) : Nat := s.conf.refresh * 100

/-- The staleness limit: three refresh intervals (R99). Also the silence limit (R149). -/
def State.staleMs (s : State) : Nat := 3 * s.refreshMs

/-- A timer has reached a limit. -/
def reached (t : Option Nat) (limit : Nat) : Bool := t.any (fun ms => limit ≤ ms)

/-- A counter one higher, saturating at 65535 (1.7). -/
def bump (n : Nat) : Nat := min (n + 1) 65535

/-! ### Levers and requests -/

/-- Local close is held: either close lever made (R4). -/
def leverClose (d : PerLead Bool) : Bool := d.lca || d.lcb

/-- Local open is held: either open lever made and LC not held (R4). -/
def leverOpen (d : PerLead Bool) : Bool := (d.loa || d.lob) && !leverClose d

/-- LC (R4). -/
def lcHeld (s : State) : Bool := leverClose s.deb

/-- LO (R4). -/
def loHeld (s : State) : Bool := leverOpen s.deb

/-- An open request stands (R12). -/
def requestStands (s : State) : Bool := loHeld s && s.trm.pos != .opened

/-- The idle state matching a position state (1.1 of Door Control). -/
def idleFor : Position → Ctl
  | .closed => .idleClosed
  | .opened => .idleOpen
  | .between => .idlePartial
  | .unknown => .idlePartial

/-- One of the three idle states. -/
def Ctl.isIdle : Ctl → Bool
  | .idleClosed => true
  | .idleOpen => true
  | .idlePartial => true
  | _ => false

/-- The length of a pause timer, ms: 1000 until a configuration is accepted (R2, R27). -/
def pauseMs (s : State) : Nat :=
  match s.suc.accepted with
  | none => Config.unconfiguredPauseMs
  | some c => c.reversalPause

/-! ### Position -/

/-- The position state of three debounced limits (R34). -/
def positionOf (d : PerLead Bool) : Position :=
  match d.cla, d.clb, d.olm with
  | true, true, false => .closed
  | false, false, true => .opened
  | true, _, true => .unknown
  | _, true, true => .unknown
  | _, _, _ => .between

/-- The position figure of a travel monitor (R42): the quotient is rounded toward zero. -/
def figureFor (c : Cfg) (t : Trm) : Option Nat :=
  if t.ref then some (t.count.toNat * 1000 / c.travelCount) else none

/-- The position figure (R42). -/
def positionFigure (s : State) : Option Nat := figureFor s.conf s.trm

/-- The band of a figure (R126). -/
def bandOf (f : Option Nat) : Option Nat := f.map (· / 50)

/-- VSL by the table of R43. -/
def vslFor (c : Cfg) (t : Trm) : Bool :=
  match t.stroke with
  | none => false
  | some d =>
    match figureFor c t with
    | none => true
    | some f => t.slow ||
      match d with
      | .closing => f ≤ c.slowZone
      | .opening => 1000 - c.slowZone ≤ f

/-! ### Energy -/

/-- The gate is in-band (R54). -/
def inBand (c : Cfg) (n : Nat) : Bool := c.nmin ≤ n && n ≤ c.nmax

/-- The pressure figure of an in-band gate (R56). -/
def pressureOf (c : Cfg) (n : Nat) : Nat :=
  if n ≤ c.n0 then 0 else min ((n - c.n0) * c.kP / 256) Config.maxPressure

/-- The usable volume of a pressure (R57). -/
def usableOf (c : Cfg) (p : Nat) : Nat :=
  if p ≤ c.pmin then 0 else c.v0 * c.p0 * (p - c.pmin) / (c.pmin * p)

/-- The usable volume below which an opening may not start (R58). -/
def startThreshold (c : Cfg) : Nat := c.vo + c.vc * c.reserve

/-- The usable volume below which an opening may not continue (R59). -/
def continueThreshold (c : Cfg) : Nat := c.vc * c.reserve

/-- The figure is present and at least the threshold. -/
def atLeast (u : Option Nat) (t : Nat) : Bool :=
  match u with
  | none => false
  | some v => t ≤ v

/-- Closes available of a usable volume (R60). -/
def closesFor (c : Cfg) (u : Nat) : Nat := min (u / c.vc) Config.maxCloses

/-- ENERGY_LOW is held: usable volume present and permission to start not held (R61). -/
def energyLow (e : Enu) : Bool := e.u.isSome && !e.permStart

/-- The energy unit after a gate of `n` pulses has been judged and every figure set (R54 to R60), with the
next gate started (R53). -/
def judgeGate (c : Cfg) (e : Enu) : Enu :=
  let n := e.tally
  let good := inBand c n
  let oob := if good then 0 else min (e.oob + 1) 3
  let inb := if good then min (e.inb + 1) 3 else 0
  let p := if good then some (pressureOf c n) else if oob = 3 then none else e.p
  let u := p.map (usableOf c)
  { e with
    gate := some 0
    tally := 0
    lastN := some n
    oob := oob
    inb := inb
    p := p
    u := u
    closes := u.map (closesFor c)
    permStart := atLeast u (startThreshold c)
    permCont := atLeast u (continueThreshold c) }

/-! ### Alarm sets -/

/-- The number of an alarm kind (R82). -/
def kindNumber : AlarmKind → Nat
  | .closeTimeout => 1
  | .openTimeout => 2
  | .stall => 3
  | .limitDiscord => 4
  | .limitConflict => 5
  | .positionFault => 6
  | .handMove => 7
  | .pressureSensor => 8
  | .energyLow => 9
  | .pumpFail => 10
  | .mainsLoss => 11
  | .noPanel => 12
  | .configMismatch => 13
  | .laneFault => 14
  | .openTooLong => 15
  | .passageExcess => 16
  | .stationLost => 17
  | .laneDegraded => 18
  | .keyStuck => 19
  | .modeConflict => 20

/-- The set of one kind: member k in bit k - 1, as the layouts code sets (7.2, R178). -/
def kindBit (k : AlarmKind) : BitVec 24 := 1#24 <<< (kindNumber k - 1)

/-- The set of the kinds of the records a test picks. -/
def setOf (test : AlarmRecord → Bool) (l : List AlarmRecord) : BitVec 24 :=
  l.foldr (fun r acc => if test r then kindBit r.kind ||| acc else acc) 0#24

/-- In the active set (R95). -/
def AlarmState.active : AlarmState → Bool
  | .activeUnacked => true
  | .activeAcked => true
  | .clearedUnacked => false

/-- In the unacknowledged set (R95). -/
def AlarmState.unacked : AlarmState → Bool
  | .activeUnacked => true
  | .activeAcked => false
  | .clearedUnacked => true

/-- The active set (R95). -/
def activeSet (l : List AlarmRecord) : BitVec 24 := setOf (·.st.active) l

/-- The unacknowledged set (R95). -/
def unackedSet (l : List AlarmRecord) : BitVec 24 := setOf (·.st.unacked) l

/-- A door's set over kinds 1 to 16, as STATE carries it (R95). -/
def doorSet (x : BitVec 24) : BitVec 16 := x.setWidth 16

/-! ### Lanes -/

/-- The reported health: the first held condition in the order of R151. -/
def healthOf (l : Lane) : Health :=
  if l.stuck then .stuck
  else if l.errored then .errored
  else if l.silent then .silent
  else if l.alone then .alone
  else .good

/-- The lane is good (R151). -/
def Lane.good (l : Lane) : Bool := l.health == .good

/-- The last-sent record of a class (8.1). -/
def Lane.sent (l : Lane) : Cls → Option Byte
  | .demand => l.sentD
  | .state => l.sentS
  | .ident => l.sentI

/-- The snapshot of a class that is work for a lane: the newest exists and the lane's record is absent or
differs from its serial (R132). -/
def workOf (newest : Option Content) (serial : Byte) (sent : Option Byte) : Option SendCopy :=
  match newest with
  | none => none
  | some c => if sent = some serial then none else some ⟨c, serial⟩

/-- The snapshot a lane would send: of the class with the lowest code that has work (R132). -/
def laneWork (n : Snu) (l : Lane) : Option SendCopy :=
  (workOf (n.demand.newest.map .demand) n.demand.serial l.sentD).or
    ((workOf (n.state.newest.map .state) n.state.serial l.sentS).or
      (workOf (n.ident.newest.map .ident) n.ident.serial l.sentI))

/-! ### The station table -/

/-- The entry of a station, if its place holds one (R99). -/
def entryOf (s : State) (n : Nat) : Option Entry := s.ste.table.find? (·.num == n)

/-- The group an entry's door part reports. -/
def Entry.groupOf (e : Entry) : Option Nat := e.door.map (·.group)

/-- A group peer of a door of the given group (R72). -/
def isPeer (group : Nat) (e : Entry) : Bool := e.kind == .door && e.groupOf == some group

/-- A door part that counts as occupying (R73). -/
def occupying (d : DoorPart) : Bool :=
  d.ctl == .opening || d.ctl == .heldOpen || d.pos != .closed

/-- An occupying group peer (R73). -/
def occupies (group : Nat) (e : Entry) : Bool := isPeer group e && e.door.any occupying

/-- A group peer ahead of a door of the given number (R74). -/
def isAhead (group station : Nat) (e : Entry) : Bool :=
  isPeer group e && e.live && e.door.any (·.phase == .waiting) && e.num < station

/-- The occupants figure (R73). -/
def occupantsOf (s : State) : Nat := s.ste.table.countP (occupies s.conf.group)

/-- The ahead figure (R74). -/
def aheadOf (s : State) : Nat := s.ste.table.countP (isAhead s.conf.group s.conf.station)

/-- Occupying group peers with a lower station number (R80). -/
def lowerOccupants (s : State) : Nat :=
  s.ste.table.countP (fun e => occupies s.conf.group e && e.num < s.conf.station)

/-- The limit is in force at a given CD (R69). -/
def limitFor (c : Cfg) (cd : Bool) : Bool := cd && (1 ≤ c.passageLimit && c.passageLimit ≤ 4)

/-- The condition of PASSAGE_EXCESS (R80). -/
def excessNow (s : State) : Bool :=
  (s.dcu.ctl == .opening || s.dcu.ctl == .heldOpen) && s.psu.inForce &&
    s.conf.passageLimit ≤ lowerOccupants s

/-- A LIVE entry of kind PANEL (R6). -/
def Entry.livePanel (e : Entry) : Bool := e.kind == .panel && e.live

/-- Some panel entry is LIVE (R6, R8). -/
def somePanelLive (s : State) : Bool := s.ste.table.any (·.livePanel)

/-- A LIVE panel entry that holds DOORS_CLOSED (R6). -/
def Entry.demandsClosed (e : Entry) : Bool :=
  e.livePanel && e.panel.any (fun h => h.part.mode == .doorsClosed)

/-- Group g is in a group set: member g in bit g - 1 (7.2). -/
def inGroups (x : BitVec 16) (g : Nat) : Bool := 1 ≤ g && x.getLsbD (g - 1)

/-- A LIVE panel entry whose group demand set contains a group (R6). -/
def Entry.demandsGroup (g : Nat) (e : Entry) : Bool :=
  e.livePanel && e.panel.any (fun h => inGroups h.part.groups g)

/-- The effective mode a recomputation gives (R6). -/
def modeNow (s : State) : Mode :=
  if somePanelLive s then
    if s.ste.table.any (·.demandsClosed) then .doorsClosed else .localControl
  else if s.dcu.panelHeard then s.dcu.mode
  else s.conf.defaultMode

/-- The group demand a recomputation gives (R6). -/
def demandNow (s : State) : Bool :=
  if somePanelLive s then s.ste.table.any (Entry.demandsGroup s.conf.group)
  else if s.dcu.panelHeard then s.dcu.groupDemand
  else false

/-- A lane is heard for an entry while its heard age is below the staleness limit (R108). -/
def Entry.hears (e : Entry) (limit : Nat) : LaneId → Bool
  | .a => e.heardA < limit
  | .b => e.heardB < limit

/-- Single-lane: LIVE and exactly one lane heard (R109). -/
def singleNow (limit : Nat) (e : Entry) : Bool := e.live && (e.hears limit .a != e.hears limit .b)

/-- A LIVE entry whose ident part disagrees (R112). -/
def Entry.mismatches (c : Cfg) (e : Entry) : Bool :=
  e.live && e.ident.any (fun i => i.refresh != c.refresh ||
    (c.role == .door && i.role == .door && i.group == c.group && i.limit != c.passageLimit))

/-- CONFIG_MISMATCH holds (R112). -/
def mismatchNow (s : State) : Bool := s.ste.table.any (Entry.mismatches s.conf)

/-- STATION_LOST holds (R113). -/
def lostNow (s : State) : Bool := s.ste.table.any (fun e => !e.live)

/-- An entry reports a lane not good (R114). -/
def Entry.reportsBadLane (e : Entry) : Bool :=
  match e.kind with
  | .door => e.door.any (fun d => !(d.goodA && d.goodB))
  | .panel => e.panel.any (fun h => !(h.part.goodA && h.part.goodB))

/-- LANE_DEGRADED holds (R114). -/
def degradedNow (s : State) : Bool := s.ste.table.any (fun e => e.live && (e.single || e.reportsBadLane))

/-! ### The panel -/

/-- A disagreement stands (R167). -/
def disagreement (s : State) : Bool :=
  s.ste.table.any (fun e => e.livePanel && e.panel.any (fun h => h.part.mode != s.pnu.mode))

/-- A DOOR entry with a door part (R157). -/
def Entry.isDoorEntry (e : Entry) : Bool := e.kind == .door && e.door.isSome

/-- A door entry's part passes a test. -/
def Entry.doorIs (test : DoorPart → Bool) (e : Entry) : Bool := e.kind == .door && e.door.any test

/-- WARNING, CLOSING or OPENING. -/
def Ctl.moving : Ctl → Bool
  | .warning => true
  | .closing => true
  | .opening => true
  | _ => false

/-- The flags of a summary record over the door entries of its scope (R158). -/
def summaryOf (scope : List Entry) : Summary where
  empty := scope.isEmpty
  allClosed := !scope.isEmpty && scope.all (fun e => e.live &&
    e.doorIs (fun d => d.pos == .closed && d.ctl != .opening && d.ctl != .claiming))
  anyOpen := scope.any (Entry.doorIs (fun d => d.pos != .closed))
  anyMoving := scope.any (fun e => e.live && e.doorIs (fun d => d.ctl.moving))
  anyUnacked := scope.any (Entry.doorIs (fun d => d.unacked != 0))
  anyActive := scope.any (Entry.doorIs (fun d => d.active != 0))
  anyLost := scope.any (fun e => !e.live)

/-- The door entries of a group (R157). -/
def groupScope (t : List Entry) (g : Nat) : List Entry :=
  t.filter (fun e => e.isDoorEntry && e.groupOf == some g)

/-- The seventeen records: groups 1 to 16, then the ship (R157). -/
def summariesOf (t : List Entry) : List Summary :=
  (List.range 16).map (fun i => summaryOf (groupScope t (i + 1))) ++
    [summaryOf (t.filter (·.isDoorEntry))]

/-- The slow flash is in its on phase: the first half of the slow period (R1). -/
def slowOn (f : Flash) : Bool := f.phase % 8 < 4

/-- The fast flash is in its on phase: every other eighth, from the first (R1). -/
def fastOn (f : Flash) : Bool := f.phase % 2 == 0

/-- Whether a pattern is lit at a flash phase (R159). -/
def Pattern.lit (f : Flash) : Pattern → Bool
  | .dark => false
  | .steady => true
  | .slow => slowOn f
  | .fast => fastOn f

/-- The pattern of one lamp of a door cell: 0 green, 1 red, 2 amber (R160). -/
def doorLamp (e : Entry) (lamp : Nat) : Pattern :=
  match lamp with
  | 0 =>
    match e.door with
    | none => .dark
    | some d => if d.ctl.moving then .dark else if d.pos == .closed then .steady else .dark
  | 1 =>
    match e.door with
    | none => .dark
    | some d =>
      if d.pos == .unknown then .fast
      else if d.ctl.moving then .slow
      else if d.pos == .opened || d.pos == .between then .steady
      else .dark
  | _ =>
    if e.door.any (fun d => d.unacked != 0) then .fast
    else if !e.live then .slow
    else if e.door.any (fun d => d.active != 0) then .steady
    else .dark

/-- The pattern of one lamp of the door cell of a station (R160). -/
def doorCell (s : State) (n lamp : Nat) : Pattern :=
  if n == s.conf.station then .dark
  else
    match entryOf s n with
    | none => .dark
    | some e => if e.kind == .door then doorLamp e lamp else .dark

/-- The pattern of one lamp of a group or ship cell, with the panel's own sets for the ship cell's amber and
empty sets for a group cell (R161). -/
def summaryLamp (r : Summary) (ownUnacked ownActive : BitVec 24) (lamp : Nat) : Pattern :=
  match lamp with
  | 0 => if r.empty then .dark else if r.allClosed then .steady else .dark
  | 1 => if r.empty then .dark else if r.anyMoving then .slow else if r.anyOpen then .steady else .dark
  | _ =>
    if r.empty && ownUnacked == 0 && ownActive == 0 then .dark
    else if r.anyUnacked || ownUnacked != 0 then .fast
    else if r.anyLost then .slow
    else if r.anyActive || ownActive != 0 then .steady
    else .dark

/-- The pattern of lamp position `i` (R159 to R162). -/
def lampPattern (s : State) (i : Nat) : Pattern :=
  if i < 189 then doorCell s (i / 3 + 1) (i % 3)
  else if i < 237 then summaryLamp (s.pnu.summaries.getD ((i - 189) / 3) Summary.reset) 0 0 ((i - 189) % 3)
  else if i < 240 then
    summaryLamp (s.pnu.summaries.getD 16 Summary.reset) (unackedSet s.alu) (activeSet s.alu) (i - 237)
  else if i = 240 then (if s.pnu.mode == .doorsClosed then .steady else .dark)
  else if i = 241 then (if s.pnu.mode == .localControl then .steady else .dark)
  else if i = 242 then (if s.ste.table.any (·.demandsClosed) then .steady else .dark)
  else if i < 259 then
    let g := i - 242
    if inGroups s.pnu.groups g then .steady
    else if s.ste.table.any (Entry.demandsGroup g) then .slow
    else .dark
  else if i = 259 then (if s.pnu.silence then .steady else .dark)
  else if i = 260 then (if s.laneA.good then .steady else .dark)
  else if i = 261 then (if s.laneB.good then .steady else .dark)
  else .dark

/-- The patterns of all 272 positions. -/
def lampPatterns (s : State) : List Pattern := (List.range 272).map (lampPattern s)

/-- The unacknowledged set a panel takes from an entry (R164). -/
def Entry.unackedNow (e : Entry) : BitVec 16 :=
  if e.kind == .door then
    match e.door with
    | none => 0
    | some d => d.unacked
  else 0

/-- An unacknowledged alarm exists at the panel (R164). -/
def alarmExists (s : State) : Bool :=
  unackedSet s.alu != 0 || s.ste.table.any (fun e => e.unackedNow != 0)

/-- A momentary key: positions 0 to 15 and 17 to 19 (R155, R166). -/
def momentary (p : Nat) : Bool := p < 20 && p != 16

/-- A key is stuck: its timer has reached 60 s (R166). -/
def Watch.isPast : Watch → Bool
  | .past _ => true
  | _ => false

/-- The timer runs. -/
def Watch.isRunning : Watch → Bool
  | .running _ => true
  | _ => false

/-- Some key is stuck (R166). -/
def someStuck (p : Pnu) : Bool := p.heldKeys.any (·.isPast)

/-! ### Reported contents -/

/-- The STATE content as it stands (R121). -/
def doorContent (s : State) : DoorPart where
  group := s.conf.group
  ctl := s.dcu.ctl
  pos := s.trm.pos
  figure := positionFigure s
  closes := s.enu.closes
  phase := s.psu.phase
  mode := s.dcu.mode
  cd := s.dcu.cd
  wcause := s.dcu.wcause
  active := doorSet (activeSet s.alu)
  unacked := doorSet (unackedSet s.alu)
  goodA := s.laneA.good
  goodB := s.laneB.good

/-- The DEMAND content as it stands (R120). -/
def panelContent (s : State) : PanelPart where
  mode := s.pnu.mode
  groups := s.pnu.groups
  ack := s.pnu.ack
  goodA := s.laneA.good
  goodB := s.laneB.good

/-- The IDENT content, from the accepted configuration (R122). -/
def identContent (s : State) : IdentPart where
  role := s.conf.role
  group := s.conf.group
  limit := s.conf.passageLimit
  refresh := s.conf.refresh
  digest := s.conf.digest

end Sys2Proof.Machine
end

