-- ==== Sys2Proof/Machine/Alarms.lean ====
section
/-! DEFINITION. The command of the alarm unit: a record's age (R90). -/

namespace Sys2Proof.Machine

/-- A record one second older, saturating at 65535 s; its next second begins (R90). -/
def AlarmRecord.older (r : AlarmRecord) : AlarmRecord := { r with age := bump r.age, ms := 0 }

/-- ALARM_AGE_TICK (R90). -/
def execAlarmAgeTick (kind : AlarmKind) (s : State) : Host.Outcome State Fault Refusal :=
  .next { s with alu := s.alu.map (fun r => if r.kind = kind then r.older else r) }

end Sys2Proof.Machine
end

