-- ==== Sys2Proof/Machine/Ops.lean ====
section
/-! DEFINITION. The shared operations of the send side, the alarm unit, the pump, the lanes' health, the panel's
lamps and sounder, the debounced leads and the output pins. Each changes the state as its rule says; the meanings and
the operations of the door and of the table call them. -/

namespace Sys2Proof.Machine

/-! ### Leads -/

/-- A debounced lead takes a level: the lead has stood at it for 40 ms (1.7, R4, R33, R63). -/
def setDebounced (l : Lead) (made : Bool) (s : State) : State :=
  { s with lead := s.lead.set l made, deb := s.deb.set l made, settle := s.settle.set l none }

/-- A level change on a lead starts or restarts its debounce; a return to the debounced level ends it (1.7,
R33). A command that names the level the lead already has is no change. -/
def leadEdge (l : Lead) (made : Bool) (s : State) : State :=
  if s.lead.get l = made then s
  else
    { s with
      lead := s.lead.set l made
      settle := s.settle.set l (if s.deb.get l = made then none else some 0) }

/-! ### Lanes and snapshots -/

/-- One lane unit. -/
def State.lane (s : State) : LaneId → Lane
  | .a => s.laneA
  | .b => s.laneB

/-- The state with one lane unit replaced. -/
def State.setLane (s : State) (id : LaneId) (l : Lane) : State :=
  match id with
  | .a => { s with laneA := l }
  | .b => { s with laneB := l }

/-- A lane unit that begins a telegram: it holds its send copy, contends, and its own start mark makes the line
not quiet (R138). -/
def beginTelegram (l : Lane) (c : SendCopy) : Lane :=
  { l with activity := .contending, quiet := false, copy := some c, rx := none, own := .peer, slot := false }

/-- A lane unit begins a telegram if its activity is IDLE, the start-up state is JOINED, the lane is quiet and it
has work (R138). -/
def tryBegin (id : LaneId) (s : State) : State :=
  let l := s.lane id
  if s.suc.startUp = .joined ∧ l.activity = .idle ∧ l.quiet = true then
    match laneWork s.snu l with
    | some c => s.setLane id (beginTelegram l c)
    | none => s
  else s

/-- Both lane units look for work, as the snapshot unit notifies them at each making (R134). -/
def tryBegins (s : State) : State := tryBegin .b (tryBegin .a s)

/-- A snapshot of a STATE or DEMAND class is made: the next serial, both timers restarted (R125, R128). The
pending change is in it (R128, R129). -/
def Keeper.make {α : Type} (k : Keeper α) (c : α) : Keeper α where
  newest := some c
  serial := if k.newest.isNone then 0 else k.serial + 1
  pending := false
  spacing := some 0
  refresh := some 0

/-- The spacing timer is stopped or has reached 50 ms (R128). -/
def Keeper.ready {α : Type} (k : Keeper α) : Bool :=
  match k.spacing with
  | none => true
  | some t => Config.spacingMs ≤ t

/-- A snapshot of the own class is made with every field as it stands: STATE in the door role, DEMAND in the
panel role; both lanes look for work (R128, R134). -/
def makeOwn (s : State) : State :=
  match s.conf.role with
  | .door => tryBegins { s with snu := { s.snu with state := s.snu.state.make (doorContent s) } }
  | .panel => tryBegins { s with snu := { s.snu with demand := s.snu.demand.make (panelContent s) } }

/-- An IDENT snapshot is made and the IDENT timer restarted (R125, R131). -/
def makeIdent (s : State) : State :=
  tryBegins { s with
    snu := { s.snu with
      ident :=
        { newest := some (identContent s)
          serial := if s.snu.ident.newest.isNone then 0 else s.snu.ident.serial + 1
          timer := some 0 } } }

/-- An owner offers a change of a reported field that is a trigger (R126, R128): a snapshot at once if the spacing
has ended, else the pending flag. Offers are not kept outside JOINED (R124). DESIGN CHOICE (log 5): at once means at the offer. -/
def offer (s : State) : State :=
  if s.suc.startUp = .joined then
    match s.conf.role with
    | .door =>
      if s.snu.state.ready then makeOwn s
      else { s with snu := { s.snu with state := { s.snu.state with pending := true } } }
    | .panel =>
      if s.snu.demand.ready then makeOwn s
      else { s with snu := { s.snu with demand := { s.snu.demand with pending := true } } }
  else s

/-- The figure carried in the newest STATE snapshot. -/
def newestFigure (s : State) : Option Nat := s.snu.state.newest.bind (·.figure)

/-- The travel monitor offers the position figure, which was `old`: a trigger only in another band than the
newest snapshot's, or at a change between present and absent (R126). -/
def offerFigure (old : Option Nat) (s : State) : State :=
  let new := positionFigure s
  if new ≠ old ∧ (bandOf new ≠ bandOf (newestFigure s) ∨ new.isSome ≠ old.isSome) then offer s else s

/-! ### The panel's lamps and sounder -/

/-- Every lamp's pattern from what now stands (R160 to R162). -/
def repaint (s : State) : State := { s with pnu := { s.pnu with patterns := lampPatterns s } }

/-- The silence flag is cleared when no unacknowledged alarm remains, and PSND follows (R164, R165). -/
def sound (s : State) : State :=
  let exists' := alarmExists s
  let silence := s.pnu.silence && exists'
  { s with pnu := { s.pnu with silence := silence, psnd := exists' && !silence } }

/-- A new alarm ends a silence (R165). -/
def endSilence (s : State) : State := { s with pnu := { s.pnu with silence := false } }

/-! ### Pump and alarms -/

/-- Pump control by the table of R64, on the pressure figure of the last gate end. -/
def pumpControl (c : Cfg) (mains : Bool) (e : Enu) : Enu :=
  if e.running then
    if e.pumpOn then
      if !mains || e.p.isNone || atLeast e.p c.pOff || e.locked then
        { e with pumpOn := false, run := none }
      else e
    else if mains && e.p.any (· < c.pOn) && !e.locked then
      { e with pumpOn := true, run := some 0 }
    else e
  else e

/-- Pump control acts (R64). -/
def pumpActs (s : State) : State := { s with enu := pumpControl s.conf s.deb.mains s.enu }

/-- The locked flag takes a value, and pump control acts on its change (R64, R66). -/
def setLocked (b : Bool) (s : State) : State := pumpActs { s with enu := { s.enu with locked := b } }

/-- A record of the kind is in the list. -/
def hasKind (k : AlarmKind) (l : List AlarmRecord) : Bool := l.any (·.kind == k)

/-- An occurrence count one higher, saturating at 255 (R89). -/
def bumpCount (n : Nat) : Nat := min (n + 1) 255

/-- The list after a request, by the table of R83 (R84 to R89). -/
def applyRequest (q : AlarmRequest) (l : List AlarmRecord) : List AlarmRecord :=
  match q with
  | .becameTrue k =>
    if hasKind k l then
      l.map (fun r => if r.kind = k ∧ r.st = .clearedUnacked then
        { r with st := .activeUnacked, count := bumpCount r.count } else r)
    else l ++ [⟨k, .activeUnacked, 1, 0, 0⟩]
  | .becameFalse k =>
    (l.filter (fun r => !(r.kind = k ∧ r.st = .activeAcked))).map
      (fun r => if r.kind = k ∧ r.st = .activeUnacked then { r with st := .clearedUnacked } else r)
  | .occurred k =>
    if hasKind k l then
      l.map (fun r => if r.kind = k ∧ r.st = .clearedUnacked then
        { r with count := bumpCount r.count } else r)
    else l ++ [⟨k, .clearedUnacked, 1, 0, 0⟩]
  | .acknowledge =>
    (l.filter (fun r => r.st ≠ .clearedUnacked)).map
      (fun r => if r.st = .activeUnacked then { r with st := .activeAcked } else r)

/-- The request enters a record in ACTIVE_UNACKED, or moves one there from CLEARED_UNACKED: the panel's
new-alarm notice (R96). -/
def newAlarm (q : AlarmRequest) (l : List AlarmRecord) : Bool :=
  match q with
  | .becameTrue k => !l.any (fun r => r.kind == k && r.st.active)
  | _ => false

/-- The alarm unit reports to the energy unit that a PUMP_FAIL record entered or left the list (R96). -/
def pumpReport (before after : List AlarmRecord) (s : State) : State :=
  if hasKind .pumpFail after && !hasKind .pumpFail before then setLocked true s
  else if hasKind .pumpFail before && !hasKind .pumpFail after then setLocked false s
  else s

/-- The alarm unit takes a request: the record, the sets, and the hand-on in the order of R97 (R95, R96). -/
def alarm (q : AlarmRequest) (s : State) : State :=
  let after := applyRequest q s.alu
  let changed := activeSet after ≠ activeSet s.alu ∨ unackedSet after ≠ unackedSet s.alu
  let s1 := { s with alu := after }
  if s.doorRuns then
    let s2 := pumpReport s.alu after s1
    if changed then offer s2 else s2
  else if s.panelRuns then
    let s2 := if newAlarm q s.alu then endSilence s1 else s1
    if changed then repaint (sound s2) else s2
  else s1

/-- A condition has become true or false (R82). -/
def condition (k : AlarmKind) (b : Bool) : AlarmRequest := if b then .becameTrue k else .becameFalse k

/-! ### Lane health -/

/-- The reported health is set from the held conditions, and a change is handed on in the order of R151. -/
def rehealth (id : LaneId) (s : State) : State :=
  let l := s.lane id
  let h := healthOf l
  if h = l.health then s
  else
    let s1 := s.setLane id { l with health := h }
    if (h == .good) = (l.health == .good) then s1
    else
      let s2 := if (s.lane id.other).good then alarm (condition .laneFault (h != .good)) s1 else s1
      let s3 := offer s2
      if s.panelRuns then repaint s3 else s3

/-- A rejection is offered to the capture, which keeps or drops it by the capture mode (R179). -/
def captureOffer (c : Capture) (s : State) : State :=
  match s.conf.captureMode, s.dgp.capture with
  | .first, some _ => s
  | _, _ => { s with dgp := { s.dgp with capture := some c } }

/-! ### Output pins -/

/-- The pins that follow the state of their block at once: SNDR and BCN (R29), LMC, LMO and LMW (R30), PUMP
(R64). -/
def outsFor (s : State) : Outs where
  sndr := s.dcu.ctl == .warning || s.dcu.ctl == .closing
  bcn := s.dcu.ctl.moving && slowOn s.flash
  lmc := s.dcu.ctl != .inactive && s.trm.pos == .closed
  lmo := s.dcu.ctl != .inactive && s.trm.pos == .opened
  lmw := s.dcu.ctl != .inactive && requestStands s && s.dcu.ctl != .opening
  pump := s.enu.pumpOn

/-- The pins set from the state. -/
def setOuts (s : State) : State := { s with outs := outsFor s }

/-- The next state of a command that may move a door, its leads, its flash phase or its pump: the pins follow. -/
def finish (s : State) : Host.Outcome State Fault Refusal := .next (setOuts s)

/-- A timer that reaches or passes its limit stops counting and is marked so. -/
def Watch.expire (limit : Nat) : Watch → Watch
  | .running ms => .past (max ms limit)
  | w => w

end Sys2Proof.Machine
end

