-- ==== Sys2Proof/Machine/Diag.lean ====
section
/-! DEFINITION. The diagnostic port: transfers (R175), writes (R176), reads (R177), the pages (R178, R98, R117) and the
capture's age (R179). The codes and the bits of flags that R178 leaves open are free values (Config.layout, Config.filler,
Config.absentByte, log 4); which bytes of a region an item takes is log 26. -/

namespace Sys2Proof.Machine

/-! ### Codes of pages -/

/-- Start-up state codes (R178). -/
def StartUp.code : StartUp → Nat
  | .loading => 0
  | .configFault => 1
  | .listen => 2
  | .joined => 3
  | .mute => 4

/-- Fault reason codes (R178). -/
def FaultReason.code : FaultReason → Nat
  | .noReason => 0
  | .noAnswer => 1
  | .check => 2
  | .field => 3

/-- Record state codes (R178). -/
def AlarmState.code : AlarmState → Nat
  | .activeUnacked => 0
  | .activeAcked => 1
  | .clearedUnacked => 2

/-- Reason codes of the capture (R179). -/
def Reject.code : Reject → Nat
  | .check => 0
  | .format => 1
  | .rate => 2

/-- Lane codes of the capture (R179). -/
def laneCode : LaneId → Nat
  | .a => 0
  | .b => 1

/-- Three bytes of a set, members 24 to 1 (R178). -/
def setBytes (x : BitVec 24) : List Byte := [x.extractLsb' 16 8, x.extractLsb' 8 8, x.extractLsb' 0 8]

/-- A timer in two bytes: all ones when stopped, saturating (R178). -/
def timer16 : Option Nat → List Byte
  | none => wordBytes 0xFFFF#16
  | some ms => natBytes (min ms 65535)

/-- A timer in one byte and a unit of ms: all ones when stopped, saturating (R178). -/
def timer8 (unit : Nat) : Option Nat → Byte
  | none => 0xFF#8
  | some ms => byteOf (min (ms / unit) 255)

/-- The ms of a timer that stops counting past its limit. -/
def Watch.ms : Watch → Option Nat
  | .stopped => none
  | .running t => some t
  | .past t => some t

/-! ### Places whose coding the manual leaves open -/

/-- A flag as a value of a place. -/
def flag (b : Bool) : Int := if b then 1 else 0

/-- The `n` bytes of a place whose flags or codes the manual does not lay out (log 4). -/
def openBytes (site : Config.Site) (n : Nat) (values : List Int) : List Byte :=
  (List.range n).map (Config.layout site values)

/-- The activity as a value, in the order of 8.1. -/
def Activity.value : Activity → Int
  | .idle => 0
  | .contending => 1
  | .sending => 2
  | .receiving => 3
  | .withdrawn => 4

/-- The reported health as a value, in the order of 8.1. -/
def Health.value : Health → Int
  | .good => 0
  | .stuck => 1
  | .errored => 2
  | .silent => 3
  | .alone => 4

/-- The closing cause as a value. -/
def Cause.value : Cause → Int
  | .noCause => 0
  | .lever => 1
  | .demand => 2
  | .reclose => 3

/-- The stroke as a value. -/
def strokeValue : Option Dir → Int
  | none => 0
  | some .closing => 1
  | some .opening => 2

/-! ### Items of a region -/

/-- A flag that stands alone, 1 when set (log 9). -/
def flagByte (b : Bool) : Byte := byteOf b.toNat

/-- A code in one byte. -/
def codeByte {w : Nat} (c : BitVec w) : Byte := c.setWidth 8

/-- The control state in one byte: the code of 1.1 of Door Control, and an open one for INACTIVE, which has none (log 4). -/
def Ctl.byte : Ctl → Byte
  | .inactive => Config.layout .doorRegion [-1] 0
  | c => codeByte c.code

/-- A figure in two bytes, all ones when absent (R178). -/
def figure16 (v : Option Nat) : List Byte := (v.map natBytes).getD (wordBytes 0xFFFF#16)

/-- A figure in one byte, all ones when absent (R178). -/
def figure8 (v : Option Nat) : Byte := (v.map byteOf).getD 0xFF#8

/-- The `n` bytes of a region: its items, then bytes the manual gives no content (log 4). -/
def region (site : Config.Site) (n : Nat) (items : List Byte) : List Byte :=
  items ++ (List.range (n - items.length)).map (Config.filler site)

/-- Eight levels in a byte, the first in bit 7 (R178); 0 past the end. -/
def levelByte (levels : List Bool) (i : Nat) : Byte :=
  let at' (k : Nat) : Bool := levels.getD (8 * i + k) false
  bits8 (at' 0) (at' 1) (at' 2) (at' 3) (at' 4) (at' 5) (at' 6) (at' 7)

/-! ### Page 0 -/

/-- A last serial or last-sent value: all ones when absent (R178, 1.7). -/
def sentByte (v : Option Byte) : Byte := v.getD 0xFF#8

/-- The seven counters (R152). -/
def LaneCounters.bytes (c : LaneCounters) : List Byte :=
  natBytes c.accepted ++ natBytes c.checkErrors ++ natBytes c.formatErrors ++ natBytes c.rateErrors ++
    natBytes c.losses ++ natBytes c.bitErrors ++ natBytes c.unheard

/-- The 26 bytes of a lane unit (R178), in the order of 8.1. DEDUCED (log 9): that order where the row of page 0 names the tallies
before the timers; one byte each for activity, for conditions with health, for each tally and for the presence flags, two for each
timer and counter, which is the one division of the 26 bytes into whole bytes. -/
def laneBytes (l : Lane) : List Byte :=
  openBytes .laneActivity 1 [l.activity.value] ++
  openBytes .laneHealth 1 [flag l.stuck, flag l.errored, flag l.silent, flag l.alone, l.health.value] ++
  timer16 l.silence ++ [byteOf l.unheard, byteOf l.bitErr] ++ timer16 l.withdraw ++
  openBytes .sentPresence 1 [flag l.sentD.isSome, flag l.sentS.isSome, flag l.sentI.isSome] ++
  [sentByte l.sentD, sentByte l.sentS, sentByte l.sentI] ++
  l.ctr.bytes

/-- The newest payload of the own class, a DEMAND in the first 5 of the 11 bytes (R134, R178). -/
def ownPayload (role : Role) (n : Snu) : List Byte :=
  match role with
  | .door => (n.state.newest.map encodeState).getD (List.replicate 11 Config.absentByte)
  | .panel => (n.demand.newest.map encodeDemand).getD (List.replicate 5 Config.absentByte) ++ List.replicate 6 0#8

/-- The newest IDENT payload (R134, R178). -/
def identPayload (n : Snu) : List Byte :=
  (n.ident.newest.map encodeIdent).getD (List.replicate 6 Config.absentByte)

/-- The pending and presence flags of the snapshot unit, by class (R178). -/
def snapshotFlags (n : Snu) : List Int :=
  [flag n.demand.pending, flag n.state.pending, flag n.demand.newest.isSome, flag n.state.newest.isSome,
    flag n.ident.newest.isSome]

/-- Bytes 64 to 95 (R134, R178), in the order of 7.3: the newest snapshots in the layouts of 7.2, whole, the newest serial
of each class, the flags, the timers, zero fill. DEDUCED (logs 9, 26): classes in the order of their codes, the flags in one byte,
two bytes for a timer. -/
def snapshotBytes (role : Role) (n : Snu) : List Byte :=
  ownPayload role n ++ identPayload n ++ [n.demand.serial, n.state.serial, n.ident.serial] ++
    openBytes .snapshotRegion 1 (snapshotFlags n) ++ timer16 n.demand.spacing ++ timer16 n.state.spacing ++
    timer16 n.demand.refresh ++ timer16 n.state.refresh ++ timer16 n.ident.timer ++ [0#8]

/-- Bytes 96 to 111 in the door role (R31, R178): the control state and every item of 1.1 of Door Control in order. DEDUCED
(log 26): that every row is held; one byte for a flag or a code, two for a timer; mode and warning cause in their codes of 7.2. -/
def doorBytes (d : Dcu) : List Byte :=
  [d.ctl.byte, Config.layout .doorRegion [d.cause.value] 1, flagByte d.wcause.bit] ++ timer16 d.warnTimer ++
    timer16 d.vclPause ++ timer16 d.vopPause ++ timer16 d.held.ms ++
    [flagByte (modeBit d.mode), flagByte d.groupDemand, flagByte d.panelHeard, flagByte d.cd, flagByte d.lockout]

/-- The debounced limits, the first row of 2.1, in one byte whose bits are open (log 4). -/
def limitsByte (d : PerLead Bool) : List Byte := openBytes .travelLimits 1 [flag d.cla, flag d.clb, flag d.olm]

/-- Bytes 112 to 135 (R51, R178): every row of 2.1 in its order, the count signed. DEDUCED (log 26): that every row is held; one
byte for a flag, a code and each tally and number of a window, two for a timer, the count, the overrun tally and the figure; the position
state in its code of 7.2; a stopped window all ones. -/
def travelBytes (s : State) : List Byte :=
  let t := s.trm
  limitsByte s.deb ++ [codeByte t.pos.code, flagByte t.running] ++ timer16 t.discord.ms ++ timer16 t.conflict.ms ++
    wordBytes (BitVec.ofInt 16 t.count) ++ [flagByte t.ref] ++ natBytes t.overrun ++ figure16 (positionFigure s) ++
    [Config.layout .travelRegion [strokeValue t.stroke] 0] ++ timer16 t.strokeTimer.ms ++
    [flagByte t.slow, timer8 1 (t.stall.map (·.tally)), timer8 1 (t.stall.map (·.number))] ++ timer16 t.arming ++
    [timer8 1 (t.hand.map (·.tally)), flagByte t.vsl]

/-- The items of the energy unit: every row of 3.1 in its order. DEDUCED (log 26): that every row is held; one byte for
a flag, a run and closes available, two for a timer, a tally and a figure. -/
def energyItems (mains : Bool) (e : Enu) : List Byte :=
  [flagByte e.running] ++ timer16 e.gate ++ natBytes e.tally ++ figure16 e.lastN ++ [byteOf e.oob, byteOf e.inb] ++
    figure16 e.p ++ figure16 e.u ++
    [figure8 e.closes, flagByte e.permStart, flagByte e.permCont, flagByte mains, flagByte e.pumpOn] ++ timer16 e.run ++
    [flagByte e.locked]

/-- Bytes 136 to 163 (R62, R178). -/
def energyBytes (s : State) : List Byte := region .energyRegion 28 (energyItems s.deb.mains s.enu)

/-- The items of the passage unit: every row of 4.1 in its order. DEDUCED (log 26): that every row is held; the phase in
its code of 7.2; one byte each, two for the timer. -/
def passageItems (p : Psu) : List Byte :=
  [flagByte p.inForce, codeByte p.phase.code] ++ timer16 p.claimTimer ++
    [byteOf p.occupants, byteOf p.ahead, flagByte p.excess]

/-- Bytes 164 to 171 (R81, R178). -/
def passageBytes (p : Psu) : List Byte := region .passageRegion 8 (passageItems p)

/-- The positions with a key-held timer, in order (R166). -/
def momentaryKeys : List Nat := (List.range 20).filter momentary

/-- The flags of a summary record as values, in the order of R158. -/
def Summary.values (r : Summary) : List Int :=
  [flag r.empty, flag r.allClosed, flag r.anyOpen, flag r.anyMoving, flag r.anyUnacked, flag r.anyActive,
    flag r.anyLost]

/-- Bytes 96 to 301 in the panel role (R168, R178). -/
def panelBytes (s : State) : List Byte :=
  let p := s.pnu
  openBytes .keyLevels 3 ((List.range 20).map (fun k => flag (p.keys.getLsbD k))) ++
  momentaryKeys.map (fun k => timer8 1000 (p.heldKeys.getD k .stopped).ms) ++
  (encodeDemand (panelContent s)).take 4 ++
  ((List.range 17).map (fun i => openBytes .summaryRecord 1 (p.summaries.getD i Summary.reset).values)).flatten ++
  ((List.range 63).map (fun i => wordBytes (p.lastSeen.getD i 0))).flatten ++
  openBytes .panelFlags 1 [flag p.silence, flag p.lampTest.isSome, flag p.lockout, flag p.psnd] ++
  [timer8 1000 p.lampTest, timer8 100 p.conflict.ms] ++
  (List.range 34).map (levelByte p.frame)

/-- Page 0, the node summary (R178): in the panel layout once a panel configuration is accepted, else in the door
layout. Role and station number are 0 while no configuration is accepted (R169). -/
def page0 (s : State) : List Byte :=
  [byteOf s.suc.startUp.code, BitVec.ofBool (roleBit s.conf.role) ++ BitVec.ofNat 7 s.conf.station] ++
  openBytes .summaryFlags 1 [flag s.suc.flt, flag s.dgp.latch, flag s.dgp.capture.isSome] ++
  laneBytes s.laneA ++ laneBytes s.laneB ++
  [byteOf s.rxq.queue.length] ++ natBytes s.rxq.overflow ++
  natBytes s.ste.kindConflicts ++ natBytes s.ste.duplicates ++ natBytes s.ste.lateCopies ++
  snapshotBytes s.conf.role s.snu ++
  match s.conf.role with
  | .door => doorBytes s.dcu ++ travelBytes s ++ energyBytes s ++ passageBytes s.psu
  | .panel => panelBytes s

/-! ### The other pages -/

/-- A record's place on page 1 (R98, R178). -/
def AlarmRecord.bytes (r : AlarmRecord) : List Byte :=
  [byteOf (kindNumber r.kind), byteOf r.st.code, byteOf r.count] ++ natBytes r.age

/-- Page 1, the alarm list (R98, R178). -/
def page1 (s : State) : List Byte :=
  [byteOf s.alu.length] ++
  ((List.range 16).map (fun i => ((s.alu[i]?).map (·.bytes)).getD (List.replicate 5 0#8))).flatten ++
  setBytes (activeSet s.alu) ++ setBytes (unackedSet s.alu)

/-- Page 2, the configuration (R178). -/
def page2 (s : State) : List Byte :=
  (List.range 128).map (byteAt s.suc.image) ++
  [byteOf s.suc.reason.code, (s.suc.refused.map byteOf).getD 0xFF#8, byteOf s.suc.clamps,
    byteOf (if s.suc.accepted.isSome then 1 else 0)] ++
  ((s.suc.accepted.map cfgBytes).getD (List.replicate 54 0#8))

/-- A supplied byte, 0 when not supplied (R179). -/
def suppliedByte (b : Option Byte) : Byte := b.getD 0#8

/-- A supplied check, 0 when not supplied (R179). -/
def suppliedWord (w : Option (BitVec 16)) : List Byte := wordBytes (w.getD 0#16)

/-- Page 3, the capture (R179). -/
def page3 (s : State) : List Byte :=
  match s.dgp.capture with
  | none => List.replicate 13 0#8
  | some c =>
    [1#8, byteOf (laneCode c.lane), byteOf c.reason.code, suppliedByte c.arb, suppliedByte c.serial,
      suppliedByte c.length] ++
    openBytes .captureFlags 1 [flag c.arb.isSome, flag c.serial.isSome, flag c.length.isSome, flag c.received.isSome,
      flag c.computed.isSome] ++
    suppliedWord c.received ++ suppliedWord c.computed ++ natBytes c.age

/-- The page of an entry (R117, R178). -/
def Entry.bytes (e : Entry) : List Byte :=
  openBytes .entryFlags 1 [1, flag (e.kind == .panel), flag (!e.live), flag e.single, flag e.serD.isSome,
    flag e.serS.isSome, flag e.serI.isSome] ++
  openBytes .partFlags 1 [flag e.door.isSome, flag e.panel.isSome, flag e.ident.isSome] ++
  natBytes e.age ++ natBytes e.heardA ++ natBytes e.heardB ++
  [sentByte e.serD, sentByte e.serS, sentByte e.serI] ++
  (e.door.map encodeState).getD (List.replicate 11 0#8) ++
  (e.panel.map (fun h => encodeDemand h.part ++ [h.base])).getD (List.replicate 6 0#8) ++
  (e.ident.map encodeIdent).getD (List.replicate 6 0#8)

/-- The page of a station: every byte 0 where the place holds no entry (R178). -/
def entryPage (s : State) (n : Nat) : List Byte := ((entryOf s n).map (·.bytes)).getD (List.replicate 34 0#8)

/-- A page number that exists (Chapter 11). -/
def pageExists (n : Nat) : Bool := n < 4 || (16 ≤ n && n ≤ 78)

/-- The bytes of a page as they stand (R177, R178). -/
def pageBytes (s : State) (n : Nat) : List Byte :=
  if n = 0 then page0 s
  else if n = 1 then page1 s
  else if n = 2 then page2 s
  else if n = 3 then page3 s
  else entryPage s (n - 15)

/-! ### Transfers -/

/-- A transfer ends, or is out of sequence: IDLE, the copy discarded, both lines released (R175, R177). -/
def Dgp.idles (d : Dgp) : Dgp :=
  { d with
    port := .idle
    copy := none
    wantSub := false
    holdClock := false
    muted := false
    sent := none
    ackGiven := none }

/-- An address byte is of this port (R175). -/
def Dgp.addressed (d : Dgp) (byte : Byte) : Bool := byte.extractLsb' 1 7 == d.addr

/-- The port after an address byte (R175, R177). -/
def Dgp.address (d : Dgp) (byte : Byte) : Dgp :=
  if !d.addressed byte then { d.idles with ackGiven := some false }
  else if byte.getLsbD 0 then { d.idles with port := .addressedRead, holdClock := true, ackGiven := some true }
  else { d.idles with port := .addressedWrite, wantSub := true, ackGiven := some true }

/-- DIAG_ADDRESS (R175). -/
def execDiagAddress (byte : Byte) (s : State) : Host.Outcome State Fault Refusal :=
  .next { s with dgp := s.dgp.address byte }

/-- DIAG_STOP (R175). -/
def execDiagStop (s : State) : Host.Outcome State Fault Refusal := .next { s with dgp := s.dgp.idles }

/-- DIAG_OUT_OF_SEQUENCE (R175): page, subaddress and latch keep their values. -/
def execDiagOutOfSequence (s : State) : Host.Outcome State Fault Refusal := .next { s with dgp := s.dgp.idles }

/-- The next byte is the subaddress byte (R176). -/
def Dgp.awaitsSub (d : Dgp) : Bool := d.port == .addressedWrite && d.wantSub

/-- The next byte is a data byte (R176). -/
def Dgp.awaitsData (d : Dgp) : Bool := d.port == .addressedWrite && !d.wantSub

/-- DIAG_SUBADDRESS (R176). -/
def execDiagSubaddress (byte : Byte) (s : State) : Host.Outcome State Fault Refusal :=
  if s.dgp.awaitsSub then
    .next { s with dgp := { s.dgp with sub := byte.toNat, wantSub := false, ackGiven := some true } }
  else .next s

/-- A data byte selects a page (R176). -/
def Dgp.selects (d : Dgp) (byte : Byte) : Bool := d.sub == 255 && pageExists byte.toNat

/-- A data byte clears the counters (R176). -/
def Dgp.clears (d : Dgp) : Bool := d.sub == 254 && d.page == 0

/-- PAGE_SELECT (R176). -/
def execPageSelect (byte : Byte) (s : State) : Host.Outcome State Fault Refusal :=
  if s.dgp.awaitsData && s.dgp.selects byte then
    .next { s with dgp := { s.dgp with page := byte.toNat, sub := 0, ackGiven := some true } }
  else .next s

/-- A lane's counters at 0 (R152). -/
def Lane.cleared (l : Lane) : Lane := { l with ctr := ⟨0, 0, 0, 0, 0, 0, 0⟩ }

/-- The counter clear (R176). -/
def clearCounters (s : State) : State :=
  { s with
    laneA := s.laneA.cleared
    laneB := s.laneB.cleared
    rxq := { s.rxq with overflow := 0 }
    ste := { s.ste with kindConflicts := 0, duplicates := 0, lateCopies := 0 }
    dgp := { s.dgp with latch := false, capture := none } }

/-- COUNTER_CLEAR (R176): any value of the byte. -/
def execCounterClear (_byte : Byte) (s : State) : Host.Outcome State Fault Refusal :=
  if s.dgp.awaitsData && s.dgp.clears then
    let s1 := clearCounters s
    .next { s1 with dgp := { s1.dgp with sub := 255, ackGiven := some true } }
  else .next s

/-- The port after a data byte that is refused (R176): at 255 the latch stays. -/
def Dgp.refuses (d : Dgp) : Dgp :=
  { d with latch := d.latch || d.sub != 255, sub := min (d.sub + 1) 511, ackGiven := some false }

/-- DIAG_WRITE_REFUSED (R176): any other data byte. -/
def execDiagWriteRefused (byte : Byte) (s : State) : Host.Outcome State Fault Refusal :=
  if s.dgp.awaitsData && !s.dgp.selects byte && !s.dgp.clears then .next { s with dgp := s.dgp.refuses }
  else .next s

/-- DIAG_READ_COPY (R177): the page as it stands at that moment, then DSC is released. -/
def execDiagReadCopy (s : State) : Host.Outcome State Fault Refusal :=
  if s.dgp.port = .addressedRead ∧ s.dgp.copy = none then
    .next { s with dgp := { s.dgp with copy := some (pageBytes s s.dgp.page), holdClock := false } }
  else .next s

/-- The byte a read sends at a subaddress: past the page's last byte, that byte (R177). -/
def readByte (copy : List Byte) (sub : Nat) : Byte := byteAt copy (min sub (copy.length - 1))

/-- DIAG_READ_BYTE (R177): nothing more is sent after a missing acknowledgement. -/
def execDiagReadByte (acked : Bool) (s : State) : Host.Outcome State Fault Refusal :=
  match s.dgp.port, s.dgp.copy, s.dgp.muted with
  | .addressedRead, some c, false =>
    .next { s with dgp := { s.dgp with
      sent := some (readByte c s.dgp.sub)
      sub := min (s.dgp.sub + 1) 511
      muted := !acked } }
  | _, _, _ => .next s

/-- The capture a second older (R179). -/
def Capture.older (c : Capture) : Capture := { c with age := bump c.age, ms := 0 }

/-- CAPTURE_AGE_TICK (R179). -/
def execCaptureAgeTick (s : State) : Host.Outcome State Fault Refusal :=
  .next { s with dgp := { s.dgp with capture := s.dgp.capture.map (·.older) } }

end Sys2Proof.Machine
end

