-- ==== Sys2Proof/Machine/DoorOps.lean ====
section
/-! DEFINITION. The shared operations of the door: the strokes of the travel monitor (R43, R44), the claim and the
excess of the passage unit (R70, R75, R77, R80), and the door control unit's transitions (R2 to R31), each written
once and called by every command that can bring it about. -/

namespace Sys2Proof.Machine

/-! ### Travel monitor -/

/-- The travel monitor takes new values, and VSL is decided afresh from them (R43). -/
def setTrm (t : Trm) (s : State) : State := { s with trm := { t with vsl := vslFor s.conf t } }

/-- The stroke-start notice (R44): a new stroke with its own timer and window 1, hand-move supervision stopped, and
the slow-stroke flag set while unreferenced (R43). -/
def strokeStart (d : Dir) (s : State) : State :=
  setTrm { s.trm with
    stroke := some d
    strokeTimer := .running 0
    slow := !s.trm.ref
    stall := some ⟨0, 1, 0⟩
    finding := none
    arming := none
    hand := none } s

/-- The stroke-end notice (R44): the stroke, its timer and its window end, CLOSE_TIMEOUT is cleared if this stroke
raised it (R45), and hand-move arming starts. -/
def strokeEnd (s : State) : State :=
  let raised := s.trm.stroke == some .closing && s.trm.strokeTimer.isPast
  let s1 := setTrm { s.trm with
    stroke := none
    strokeTimer := .stopped
    slow := false
    stall := none
    arming := some 0 } s
  if raised then alarm (.becameFalse .closeTimeout) s1 else s1

/-! ### Passage unit -/

/-- The passage unit looks at PASSAGE_EXCESS again (R80): an edge sets or clears the flag and the alarm. -/
def excessLook (s : State) : State :=
  let e := excessNow s
  if e = s.psu.excess then s
  else alarm (condition .passageExcess e) { s with psu := { s.psu with excess := e } }

/-- The limit-in-force flag is set from CD (R69), and PASSAGE_EXCESS is looked at on its change (R80). -/
def setLimit (s : State) : State :=
  let f := limitFor s.conf s.dcu.cd
  if f = s.psu.inForce then s
  else excessLook { s with psu := { s.psu with inForce := f } }

/-! ### Door control unit: entering states -/

/-- The items that hold only in one state take their values outside it (R13, R15, R20, R24). -/
def Dcu.leave (d : Dcu) (ctl : Ctl) : Dcu :=
  { d with ctl := ctl, cause := .noCause, warnTimer := none, held := .stopped }

/-- The valves follow the control state (R27, R28): the valve the state does not command is switched off, which
restarts the other valve's pause timer and ends the stroke; the commanded one is energised if its pause timer has
expired and, for VOP, the permission to continue is held, which starts a stroke. -/
def valves (s : State) : State :=
  let s1 :=
    if s.dcu.vcl && s.dcu.ctl != .closing then
      strokeEnd { s with dcu := { s.dcu with vcl := false, vopPause := some 0 } }
    else s
  let s2 :=
    if s1.dcu.vop && s1.dcu.ctl != .opening then
      strokeEnd { s1 with dcu := { s1.dcu with vop := false, vclPause := some 0 } }
    else s1
  if !s2.dcu.vcl && s2.dcu.ctl == .closing && s2.dcu.vclPause.isNone then
    strokeStart .closing { s2 with dcu := { s2.dcu with vcl := true } }
  else if !s2.dcu.vop && s2.dcu.ctl == .opening && s2.dcu.vopPause.isNone && s2.enu.permCont then
    strokeStart .opening { s2 with dcu := { s2.dcu with vop := true } }
  else s2

/-- The passage unit's items at a move between control states: a claim begins in FRESH with a full hold on entry to
CLAIMING (R70), and ends on leaving it (R77). -/
def claimFor (hold : Nat) (was now : Ctl) (p : Psu) : Psu :=
  if now = .claiming then
    if was = .claiming then p else { p with phase := .fresh, claimTimer := some hold }
  else if was = .claiming then { p with phase := .noClaim, claimTimer := none }
  else p

/-- The door control unit moves to the control state of `d` with the items of `d`: the claim, then the valves follow;
OPEN_TOO_LONG is cleared on leaving HELD_OPEN if it was raised there (R25). -/
def moveTo (d : Dcu) (s : State) : State :=
  let s1 := valves { s with dcu := d, psu := claimFor s.conf.claimHold s.dcu.ctl d.ctl s.psu }
  if s.dcu.ctl = .heldOpen ∧ d.ctl ≠ .heldOpen ∧ s.dcu.held.isPast = true then
    alarm (.becameFalse .openTooLong) s1
  else s1

/-- To an idle state. -/
def toIdle (c : Ctl) (s : State) : State := moveTo (s.dcu.leave c) s

/-- To WARNING with a cause, the timer set to the warning time or the reclose delay (R17, R21, R22, R23, R24). -/
def toWarning (w : WarningCause) (s : State) : State :=
  let ms :=
    match w with
    | .remote => s.conf.warningTime
    | .reclose => s.conf.recloseDelay
  moveTo { s.dcu.leave .warning with wcause := w, warnTimer := some ms } s

/-- To CLOSING with a cause (R10, R18). -/
def toClosing (c : Cause) (s : State) : State := moveTo { s.dcu.leave .closing with cause := c } s

/-- To OPENING, cause NONE (R13). -/
def toOpening (s : State) : State := moveTo (s.dcu.leave .opening) s

/-- To CLAIMING (R26). -/
def toClaiming (s : State) : State := moveTo (s.dcu.leave .claiming) s

/-- To HELD_OPEN, the held-open timer from 0 (R24). -/
def toHeldOpen (s : State) : State := moveTo { s.dcu.leave .heldOpen with held := .running 0 } s

/-! ### Door control unit: requests and standing conditions -/

/-- A refused request: the idle state matching the position state; an idle state stays (R14). -/
def refuse (s : State) : State := if s.dcu.ctl.isIdle then s else toIdle (idleFor s.trm.pos) s

/-- The evaluation of an open request, first case that applies (R13). -/
def evaluate (s : State) : State :=
  if !s.enu.permStart then refuse s
  else if s.psu.inForce then
    if s.suc.startUp = .joined then
      if s.dcu.ctl = .claiming then s else toClaiming s
    else refuse s
  else toOpening s

/-- A standing request that is not locked out is evaluated, but not while OPENING or INACTIVE (R12). -/
def evaluateStanding (s : State) : State :=
  if requestStands s && !s.dcu.lockout && s.dcu.ctl != .opening && s.dcu.ctl != .inactive then evaluate s
  else s

/-- What the standing conditions bring about in an idle state: local close (R10), the open request (R12), HELD_OPEN
(R24), the warning hold (R17). In any other state nothing. -/
def idleRules (s : State) : State :=
  if !s.dcu.ctl.isIdle then s
  else if lcHeld s && s.trm.pos != .closed then toClosing .lever s
  else if requestStands s && !s.dcu.lockout then evaluate s
  else if s.dcu.cd && s.dcu.ctl == .idleOpen && loHeld s then toHeldOpen s
  else if s.dcu.cd && (s.dcu.ctl == .idleOpen || (s.dcu.ctl == .idlePartial &&
      (!loHeld s || s.dcu.lockout))) then toWarning .remote s
  else s

/-- To the idle state matching the position state, where the standing conditions then apply as to any idle state
(R3). -/
def toMatching (s : State) : State := idleRules (toIdle (idleFor s.trm.pos) s)

/-- To WARNING RECLOSE, or to IDLE_CLOSED at CLOSED, under CD; to the matching idle state otherwise (R22, R23,
R26). -/
def stopOrReclose (s : State) : State :=
  if s.dcu.cd then
    if s.trm.pos = .closed then toIdle .idleClosed s else toWarning .reclose s
  else toMatching s

/-! ### Door control unit: events -/

/-- LO is pressed (R12, R15, R16, R24). -/
def onLoPressed (s : State) : State :=
  match s.dcu.ctl with
  | .warning => if s.trm.pos = .opened then toHeldOpen s else evaluate s
  | .closing => if requestStands s then evaluate s else toMatching s
  | _ => idleRules s

/-- LO is released (R12, R17, R22, R24, R26): the lockout is cleared (R23). -/
def onLoReleased (s : State) : State :=
  let s1 := { s with dcu := { s.dcu with lockout := false } }
  match s.dcu.ctl with
  | .opening => stopOrReclose s1
  | .claiming => stopOrReclose s1
  | .heldOpen => toWarning .reclose s1
  | _ => idleRules s1

/-- LC is pressed, with LO held before or not (R10). A release of LO that comes with it clears the lockout, and acts as
an event only where the press does not bring CLOSING (R4, R10, R26). -/
def onLcPressed (loWas : Bool) (s : State) : State :=
  let s1 := if loWas then { s with dcu := { s.dcu with lockout := false } } else s
  if s.trm.pos ≠ .closed ∧ s.dcu.ctl ≠ .closing ∧ s.dcu.ctl ≠ .inactive then toClosing .lever s1
  else if loWas then onLoReleased s1
  else s1

/-- LC is released (R11); an open lever still made then presses LO (R4). -/
def onLcReleased (s : State) : State :=
  let s1 :=
    if s.dcu.ctl = .closing ∧ s.dcu.cause = .lever then
      if s.dcu.cd then { s with dcu := { s.dcu with cause := .demand } } else toMatching s
    else s
  if loHeld s1 then onLoPressed s1 else s1

/-- The warning timer expires (R18). -/
def onWarningExpiry (s : State) : State :=
  match s.dcu.wcause with
  | .remote => toClosing .demand s
  | .reclose => toClosing .reclose s

/-- The position state has changed (R3, R10, R12, R18, R20, R21, R24, R26). -/
def onPosition (s : State) : State :=
  if s.dcu.ctl = .inactive then s
  else if lcHeld s = true ∧ s.trm.pos ≠ .closed ∧ s.dcu.ctl ≠ .closing then toClosing .lever s
  else
    match s.dcu.ctl with
    | .warning => if s.trm.pos = .closed then toIdle .idleClosed s else s
    | .closing => if s.trm.pos = .closed then toIdle .idleClosed s else s
    | .claiming =>
      if s.trm.pos = .opened then if s.dcu.cd then toHeldOpen s else toIdle .idleOpen s
      else s
    | .opening =>
      if s.trm.pos = .opened then
        if s.dcu.cd then if loHeld s then toHeldOpen s else toWarning .reclose s
        else toIdle .idleOpen s
      else s
    | .heldOpen =>
      if s.trm.pos ≠ .opened then
        if requestStands s && !s.dcu.lockout then evaluate s else toMatching s
      else s
    | _ => toMatching s

/-- CD has changed (R7, R12, R17, R19, R24, R26). -/
def onCdChange (s : State) : State :=
  if s.dcu.cd then idleRules s
  else
    match s.dcu.ctl with
    | .warning => toMatching s
    | .claiming => evaluate s
    | .heldOpen => toIdle .idleOpen s
    | _ => idleRules s

/-- A stop for the opening stroke (R23): acts in OPENING alone. -/
def onStop (s : State) : State :=
  if s.dcu.ctl = .opening then stopOrReclose { s with dcu := { s.dcu with lockout := true } } else s

/-- A passage grant: OPENING with open permission to start held, refused otherwise (R26, R75). -/
def onGrant (s : State) : State := if s.enu.permStart then toOpening s else refuse s

/-! ### Door control unit: what it hands on -/

/-- The four items of R31 differ. -/
def reportDiffers (a b : Dcu) : Bool :=
  a.ctl != b.ctl || a.mode != b.mode || a.cd != b.cd || a.wcause != b.wcause

/-- What a door event hands on, after `before`: the door control unit's four items (R31), the claim phase (R70, R71,
R77), and the look at PASSAGE_EXCESS at a change of control state (R80). DESIGN CHOICE (log 5): the net change of one event
is offered, once and after the event, so that a control state passed through within it is not offered by itself, and it is offered before
the look at PASSAGE_EXCESS. -/
def report (before s : State) : State :=
  let s1 := if reportDiffers before.dcu s.dcu then offer s else s
  let s2 := if before.psu.phase ≠ s.psu.phase then offer s1 else s1
  if before.dcu.ctl ≠ s.dcu.ctl then excessLook s2 else s2

/-- An event acts in the door control unit, and what it changed is handed on. -/
def doorEvent (f : State → State) (s : State) : State := report s (f s)

/-- NO_PANEL is raised or cleared (R8). -/
def noPanelCheck (s : State) : State :=
  if somePanelLive s then alarm (.becameFalse .noPanel) s
  else if s.suc.startUp = .joined ∨ s.suc.startUp = .mute then alarm (.becameTrue .noPanel) s
  else s

/-- Effective mode, group demand, CD and the panel-heard flag are recomputed (R5, R6); a change of CD goes to the
passage unit first, and then acts in the door control unit's state (R7). -/
def rederive (s : State) : State :=
  let m := modeNow s
  let g := demandNow s
  let cd := m == .doorsClosed || g
  let s1 := { s with
    dcu := { s.dcu with mode := m, groupDemand := g, panelHeard := s.dcu.panelHeard || somePanelLive s, cd := cd } }
  if cd = s.dcu.cd then s1 else onCdChange (setLimit s1)

/-- A recomputation on a change notice, with what it hands on and NO_PANEL (R5 to R8). DESIGN CHOICE (log 5): the door reacts and
offers first, then NO_PANEL is raised or cleared. -/
def recompute (s : State) : State := noPanelCheck (doorEvent rederive s)

/-! ### Passage unit: judging a claim -/

/-- The claim is evaluated: both figures stored, and granted when their sum is below L (R75). -/
def evaluateClaim (s : State) : State :=
  let o := occupantsOf s
  let a := aheadOf s
  let s1 := { s with psu := { s.psu with occupants := o, ahead := a } }
  if o + a < s.conf.passageLimit then onGrant s1 else s1

/-- A change notice that concerns a group peer: a WAITING claim is evaluated (R76), and PASSAGE_EXCESS looked at
(R80). -/
def peerNotice (s : State) : State :=
  excessLook (if s.psu.phase = .waiting then doorEvent evaluateClaim s else s)

/-- The claim hold ends: WAITING, and the first evaluation (R71). -/
def onHoldExpiry (s : State) : State :=
  evaluateClaim { s with psu := { s.psu with phase := .waiting, claimTimer := none } }

end Sys2Proof.Machine
end

