-- ==== Sys2Proof/Machine/Door.lean ====
section
/-! DEFINITION. The commands of the door control unit: levers, warning timer, pause timers, held-open limit (R10 to
R30). -/

namespace Sys2Proof.Machine

/-- A debounced lever level changes, and an event acts in a running door if it is a press or a release (R4): `changed`
says so from the debounced levels before and after. -/
def leverChange (lead : Lead) (made : Bool) (changed : PerLead Bool → PerLead Bool → Bool) (event : State → State)
    (s : State) : State :=
  if s.deb.get lead = made then s
  else
    let s1 := setDebounced lead made s
    if s.doorRuns && changed s.deb s1.deb then doorEvent event s1 else s1

/-- A flag computed from the debounced levels rises. -/
def rises (f : PerLead Bool → Bool) (before after : PerLead Bool) : Bool := !f before && f after

/-- A flag computed from the debounced levels falls. -/
def falls (f : PerLead Bool → Bool) (before after : PerLead Bool) : Bool := f before && !f after

/-- LC_PRESSED (R10). -/
def execLcPressed (side : Side) (s : State) : Host.Outcome State Fault Refusal :=
  finish (leverChange side.closeLead true (rises leverClose) (onLcPressed (loHeld s)) s)

/-- LC_RELEASED (R11). -/
def execLcReleased (side : Side) (s : State) : Host.Outcome State Fault Refusal :=
  finish (leverChange side.closeLead false (falls leverClose) onLcReleased s)

/-- LO_PRESSED (R12, R15, R16, R24). -/
def execLoPressed (side : Side) (s : State) : Host.Outcome State Fault Refusal :=
  finish (leverChange side.openLead true (rises leverOpen) onLoPressed s)

/-- LO_RELEASED (R12, R22, R24, R26). -/
def execLoReleased (side : Side) (s : State) : Host.Outcome State Fault Refusal :=
  finish (leverChange side.openLead false (falls leverOpen) onLoReleased s)

/-- WARNING_TIMER_EXPIRY (R18). -/
def execWarningTimerExpiry (s : State) : Host.Outcome State Fault Refusal :=
  if s.dcu.ctl = .warning then finish (doorEvent onWarningExpiry s) else .next s

/-- A valve's pause timer has expired (R27). -/
def Dcu.pauseEnds (d : Dcu) : Valve → Dcu
  | .vcl => { d with vclPause := none }
  | .vop => { d with vopPause := none }

/-- PAUSE_TIMER_EXPIRY (R27, R28): the commanded valve is energised if it waited for this timer. -/
def execPauseTimerExpiry (valve : Valve) (s : State) : Host.Outcome State Fault Refusal :=
  finish (valves { s with dcu := s.dcu.pauseEnds valve })

/-- HELD_OPEN_LIMIT (R25): the timer has passed the passage maximum, and OPEN_TOO_LONG is raised. -/
def execHeldOpenLimit (s : State) : Host.Outcome State Fault Refusal :=
  if s.dcu.held.isRunning then
    finish (alarm (.becameTrue .openTooLong) { s with
      dcu := { s.dcu with held := s.dcu.held.expire (s.conf.passageMax * 1000 + 1) } })
  else .next s

end Sys2Proof.Machine
end

