-- ==== Sys2Proof/Machine/Energy.lean ====
section
/-! DEFINITION. The commands of the energy unit: transducer pulses and gates (R53 to R62), mains (R63), pump run limit
(R65). -/

namespace Sys2Proof.Machine

/-- PFQ_PULSE (R53): counted while running, 1 µs or more after the last edge that was taken; the tally saturates. -/
def execPfqPulse (sinceTakenNs : Nat) (s : State) : Host.Outcome State Fault Refusal :=
  if s.enu.running && decide (Config.transducerGapNs ≤ sinceTakenNs) then
    .next { s with enu := { s.enu with tally := bump s.enu.tally } }
  else .next s

/-- Step 1 of R62: PRESSURE_SENSOR at the third out-of-band and the third in-band gate in a row (R55), ENERGY_LOW at its
edges (R61). -/
def gateAlarms (before after : Enu) (s : State) : State :=
  let s1 :=
    if before.oob ≠ 3 ∧ after.oob = 3 then alarm (.becameTrue .pressureSensor) s
    else if before.inb ≠ 3 ∧ after.inb = 3 then alarm (.becameFalse .pressureSensor) s
    else s
  if energyLow before = energyLow after then s1
  else alarm (condition .energyLow (energyLow after)) s1

/-- Step 4 of R62: a change of closes available is offered, but where steps 2 and 3 have changed a reported item of the door
control unit it is gathered into the snapshot of that change: the figure stood before its offer. -/
def offerCloses (before after : Enu) (dcuBefore : Dcu) (s : State) : State :=
  if before.closes = after.closes || reportDiffers dcuBefore s.dcu then s else offer s

/-- What a gate end hands on, in the order of R62, with every figure already set. -/
def gateHandsOn (before after : Enu) (s : State) : State :=
  let s1 := gateAlarms before after s
  let s2 := if before.permStart = after.permStart then s1 else doorEvent evaluateStanding s1
  let s3 := if after.permCont then s2 else doorEvent onStop s2
  pumpActs (offerCloses before after s1.dcu s3)

/-- GATE_END (R53 to R62, R64). -/
def execGateEnd (s : State) : Host.Outcome State Fault Refusal :=
  if s.enu.running then
    let e := judgeGate s.conf s.enu
    finish (gateHandsOn s.enu e { s with enu := e })
  else .next s

/-- MAINS_DEBOUNCED_CHANGE (R63, R64): MAINS_LOSS while the part runs, in either role; pump control in the door role,
where alone the unit runs. -/
def execMainsDebouncedChange (made : Bool) (s : State) : Host.Outcome State Fault Refusal :=
  if s.deb.mains = made then .next s
  else
    let s1 := setDebounced .mains made s
    if s.suc.startUp.running then finish (pumpActs (alarm (condition .mainsLoss (!made)) s1)) else finish s1

/-- PUMP_RUN_LIMIT (R65): PUMP off, PUMP_FAIL as an event, the locked flag. -/
def execPumpRunLimit (s : State) : Host.Outcome State Fault Refusal :=
  if s.enu.pumpOn then
    finish (setLocked true (alarm (.occurred .pumpFail)
      { s with enu := { s.enu with pumpOn := false, run := none } }))
  else .next s

end Sys2Proof.Machine
end

