-- ==== Sys2Proof/Machine/Cells.lean ====
section
/-! DEFINITION. The cells of a lane (R136): how a bit is driven, what the line is where stations drive one cell, which bit a lane
unit samples, and how bits spell bytes. A level is true where the line is dominant. -/

namespace Sys2Proof.Machine

/-! ### One cell -/

/-- How long a cell sent with a bit is dominant, ns: a quarter of it for a 1, three quarters for a 0 (R136, 8.1). -/
def dominantNs (rate : LoopRate) (bit : Bool) : Nat := if bit then cellNs rate / 4 else 3 * cellNs rate / 4

/-- The level of the line, ns after the start of a cell that stations drive with these bits: dominant while any of them drives
(R136). -/
def levelAt (rate : LoopRate) (bits : List Bool) (ns : Nat) : Bool := bits.any (fun b => ns < dominantNs rate b)

/-- The level a lane unit samples, half a cell after the start of the cell (R136). -/
def sampleOf (rate : LoopRate) (bits : List Bool) : Bool := levelAt rate bits (cellNs rate / 2)

/-- The bit of a sampled level: dominant is 0, recessive is 1 (R136). -/
def bitOf (level : Bool) : Bool := !level

/-! ### Bytes in cells -/

/-- The bits of a byte in the order sent, the most significant first (R136). -/
def byteBits (b : Byte) : List Bool := (List.range 8).map (fun i => b.getLsbD (7 - i))

/-- The whole bytes that sampled levels spell, the first cell the most significant bit (R136); cells short of a byte spell none. -/
def spelled : List Bool → List Byte
  | a :: b :: c :: d :: e :: f :: g :: h :: rest =>
    bits8 (bitOf a) (bitOf b) (bitOf c) (bitOf d) (bitOf e) (bitOf f) (bitOf g) (bitOf h) :: spelled rest
  | _ => []

/-- The bits of a telegram behind its start mark, in the order sent: its bytes, then the accept slot, which the sender sends as a 1
(R136, R141). -/
def telegramBits (station : Nat) (c : SendCopy) : List Bool := (telegramBytes station c).flatMap byteBits ++ [true]

/-! ### What a lane drives -/

/-- The lane unit drives its line: from its start mark to its accept slot, or the accept slot of another station's
telegram (R138 to R141, R146). -/
def Lane.drives (l : Lane) : Bool :=
  (l.activity == .contending || (l.activity == .sending && l.copy.isSome)) || l.slot

/-- The bits of the cells a lane unit drives on TX in what it now does, in the order sent: the telegram it contends with or sends, or
the accept slot of another station's telegram, which it drives as a 0; none where it drives nothing (R136, R139 to R141, R146). -/
def Lane.tx (station : Nat) (l : Lane) : List Bool :=
  if l.slot then [false]
  else if l.drives then ((l.copy.map (telegramBits station)).getD [])
  else []

end Sys2Proof.Machine
end

