-- ==== Sys2Proof/Machine/Lanes.lean ====
section
/-! DEFINITION. The commands of the lane units: quiet and edges (R138, R144), start mark (R137), arbitration (R139), bit
errors and withdrawal (R140, R143), completion (R141), reception (R144 to R147), STUCK and SILENT (R148, R149). Outside
LISTEN, JOINED and MUTE the lanes are off and take nothing (R135). What is received comes as the levels sampled in its cells, and
spells bytes (R136, Machine/Cells). -/

namespace Sys2Proof.Machine

/-- A command of a lane acts only while the lanes are on (R135). -/
def onLane (id : LaneId) (f : Lane → State → State) (s : State) : Host.Outcome State Fault Refusal :=
  if s.suc.startUp.running then .next (f (s.lane id) s) else .next s

/-- A reception ends: IDLE, or still WITHDRAWN (R144). -/
def Lane.endReception (l : Lane) : Lane :=
  { l with
    activity := if l.activity = .withdrawn then .withdrawn else .idle
    rx := none
    own := .peer }

/-- The lane goes to RECEIVING with the bytes of the telegram so far. -/
def Lane.receives (l : Lane) (bytes : List Byte) (own : Own) : Lane :=
  { l with activity := .receiving, copy := none, rx := some bytes, own := own }

/-- The lane takes a telegram: RECEIVING, or WITHDRAWN with a reception under way. -/
def Lane.taking (l : Lane) : Bool := (l.activity == .receiving || l.activity == .withdrawn) && l.rx.isSome

/-- The lane takes a telegram of which no whole byte is in. -/
def Lane.takingFirst (l : Lane) : Bool := l.taking && l.rx == some []

/-- The lane sends an own telegram that is not complete. -/
def Lane.inFlight (l : Lane) : Bool :=
  l.activity == .contending || (l.activity == .sending && l.copy.isSome)

/-- A capture record with no byte field (R145, R179). -/
def Capture.bare (id : LaneId) (reason : Reject) : Capture where
  lane := id
  reason := reason
  arb := none
  serial := none
  length := none
  received := none
  computed := none
  age := 0
  ms := 0

/-- A capture record with the header bytes received so far (R145, R179). -/
def Capture.header (id : LaneId) (reason : Reject) (bytes : List Byte) : Capture :=
  { Capture.bare id reason with arb := bytes[0]?, serial := bytes[1]?, length := bytes[2]? }

/-! ### Quiet and edges -/

/-- The lane becomes quiet: an own telegram's end gap is over (R141), STUCK is left (R148). -/
def Lane.becomesQuiet (l : Lane) : Lane :=
  { l with
    quiet := true
    slot := false
    stuck := false
    activity := if l.activity = .sending ∧ l.copy = none then .idle else l.activity }

/-- LANE_QUIET (R138, R141, R148, R151). -/
def execLaneQuiet (id : LaneId) (s : State) : Host.Outcome State Fault Refusal :=
  onLane id (fun l s => if l.quiet then s else tryBegin id (rehealth id (s.setLane id l.becomesQuiet))) s

/-- A dominant edge on a quiet lane begins an own telegram, if there is work and it may be sent, or a reception (R138,
R144). -/
def edgeTaken (id : LaneId) (l : Lane) (s : State) : State :=
  match l.activity with
  | .idle =>
    match (if s.suc.startUp = .joined then laneWork s.snu l else none) with
    | some c => s.setLane id (beginTelegram l c)
    | none => s.setLane id ({ l with quiet := false }.receives [] .peer)
  | .withdrawn => s.setLane id { l with quiet := false, rx := some [], own := .peer }
  | _ => s.setLane id { l with quiet := false }

/-- DOMINANT_EDGE_QUIET_LANE (R138, R144). -/
def execDominantEdgeQuietLane (id : LaneId) (s : State) : Host.Outcome State Fault Refusal :=
  onLane id (fun l s => if l.quiet then edgeTaken id l s else s) s

/-! ### Reception up to the check -/

/-- The dominant part of a start mark passes: 3.5 to 4.5 cell lengths inclusive (R137). -/
def startMarkPasses (cell len : Nat) : Bool := 7 * cell ≤ 2 * len && 2 * len ≤ 9 * cell

/-- A rate error (R137, R145). An own start mark abandoned at MUTE counts nothing (R142). -/
def rateError (id : LaneId) (l : Lane) (s : State) : State :=
  if l.own = .mute then s.setLane id l.endReception
  else
    captureOffer (Capture.bare id .rate) (s.setLane id
      { l.endReception with ctr := { l.ctr with rateErrors := bump l.ctr.rateErrors } })

/-- START_MARK_MEASURED (R137). -/
def execStartMarkMeasured (id : LaneId) (lengthNs : Nat) (s : State) : Host.Outcome State Fault Refusal :=
  onLane id (fun l s =>
    if l.takingFirst && !startMarkPasses (cellNs s.conf.rate) lengthNs then rateError id l s else s) s

/-- A format error (R145). -/
def formatError (id : LaneId) (l : Lane) (c : Capture) (s : State) : State :=
  captureOffer c (s.setLane id
    { l.endReception with ctr := { l.ctr with formatErrors := bump l.ctr.formatErrors } })

/-- The arbitration byte is in (R144, R145): class 3 is a format error with the arbitration byte alone. -/
def arbitrationTaken (id : LaneId) (byte : Byte) (l : Lane) (s : State) : State :=
  match classOf byte with
  | none => formatError id l (Capture.header id .format [byte]) s
  | some _ => s.setLane id { l with rx := some [byte] }

/-- ARBITRATION_BYTE_RECEIVED (R136, R144, R145). Fewer than eight cells are no arbitration byte and act nowhere (log 6). -/
def execArbitrationByteReceived (id : LaneId) (levels : List Bool) (s : State) : Host.Outcome State Fault Refusal :=
  onLane id (fun l s =>
    match l.takingFirst, spelled levels with
    | true, byte :: _ => arbitrationTaken id byte l s
    | _, _ => s) s

/-- RECEPTION_CUT_SHORT (R144, R145): a format error with the header bytes received so far; not counted for a telegram
this unit abandoned as sender (R140, R142), nor offered to the capture (log 12). -/
def execReceptionCutShort (id : LaneId) (rest : List Bool) (s : State) : Host.Outcome State Fault Refusal :=
  onLane id (fun l s =>
    if l.taking then
      if l.own = .peer then formatError id l (Capture.header id .format (l.rx.getD [] ++ spelled rest)) s
      else s.setLane id l.endReception
    else s) s

/-! ### Arbitration and bit errors -/

/-- ARBITRATION_WON (R139). -/
def execArbitrationWon (id : LaneId) (s : State) : Host.Outcome State Fault Refusal :=
  onLane id (fun l s =>
    if l.activity = .contending then s.setLane id { l with activity := .sending } else s) s

/-- ARBITRATION_LOST (R139): the copy is discarded, the loss counted, the winner's telegram received. -/
def execArbitrationLost (id : LaneId) (s : State) : Host.Outcome State Fault Refusal :=
  onLane id (fun l s =>
    if l.activity = .contending then
      s.setLane id { l.receives [] .peer with
        bitErr := 0
        ctr := { l.ctr with losses := bump l.ctr.losses } }
    else s) s

/-- A lane after a bit error (R140), withdrawn at the sixteenth in a row (R143). -/
def Lane.bitErrs (l : Lane) (readBack : List Byte) : Lane :=
  let n := l.bitErr + 1
  let l1 := { l.receives readBack .bitError with
    bitErr := n
    ctr := { l.ctr with bitErrors := bump l.ctr.bitErrors } }
  if Config.maxBitErrors ≤ n then { l1 with activity := .withdrawn, errored := true, withdraw := some 0 } else l1

/-- BIT_ERROR (R136, R140, R143, R151): the bytes read back whole stay in the receive buffer. -/
def execBitError (id : LaneId) (readBack : List Bool) (s : State) : Host.Outcome State Fault Refusal :=
  onLane id (fun l s => if l.inFlight then rehealth id (s.setLane id (l.bitErrs (spelled readBack))) else s) s

/-- A lane at the end of its withdrawal (R143). -/
def Lane.returns (l : Lane) : Lane :=
  { l with
    activity := if l.rx.isSome then .receiving else .idle
    bitErr := 0
    errored := false
    withdraw := none }

/-- WITHDRAWAL_END (R143, R151): ERRORED is left, and the lane may begin again. -/
def execWithdrawalEnd (id : LaneId) (s : State) : Host.Outcome State Fault Refusal :=
  onLane id (fun l s =>
    if l.activity = .withdrawn then tryBegin id (rehealth id (s.setLane id l.returns)) else s) s

/-! ### Completion -/

/-- The last-sent record of a class takes a serial (R132). -/
def Lane.record (l : Lane) (c : SendCopy) : Lane :=
  match c.content.cls with
  | .demand => { l with sentD := some c.serial }
  | .state => { l with sentS := some c.serial }
  | .ident => { l with sentI := some c.serial }

/-- The tallies after an own telegram completed heard or unheard (R141, R150). -/
def Lane.completes (l : Lane) (heard : Bool) : Lane :=
  if heard then { l with unheard := 0, bitErr := 0, alone := false }
  else
    let n := min (l.unheard + 1) Config.maxUnheard
    { l with
      unheard := n
      bitErr := 0
      alone := l.alone || n == Config.maxUnheard
      ctr := { l.ctr with unheard := bump l.ctr.unheard } }

/-- TELEGRAM_SEND_COMPLETE (R132, R141, R150, R151): the end gap still runs. -/
def execTelegramSendComplete (id : LaneId) (heard : Bool) (s : State) : Host.Outcome State Fault Refusal :=
  onLane id (fun l s =>
    match l.activity, l.copy with
    | .sending, some c => rehealth id (s.setLane id { (l.record c).completes heard with copy := none })
    | _, _ => s) s

/-- What is found at the end of the last check cell (R145). -/
inductive ReceiveFinding where
  | rejected (reason : Reject)
  | valid (t : Telegram)
  deriving DecidableEq, Repr

/-- The check computed over a whole telegram's bytes, and the check it carries (R119, R145). -/
def computedCheck (bytes : List Byte) : BitVec 16 := check16 (bytes.take (bytes.length - 2))

/-- The check a whole telegram carries in its last two bytes (R119). -/
def carriedCheck (bytes : List Byte) : BitVec 16 :=
  wordOf (byteAt bytes (bytes.length - 2)) (byteAt bytes (bytes.length - 1))

/-- The judgement of a complete telegram of a class, first finding that applies (R145). -/
def judgeTelegram (id : LaneId) (c : Cls) (bytes : List Byte) : ReceiveFinding :=
  if computedCheck bytes ≠ carriedCheck bytes then .rejected .check
  else if originOf (byteAt bytes 0) = 0 then .rejected .format
  else if (byteAt bytes 2).toNat ≠ c.payloadLength then .rejected .format
  else .valid
    { lane := id
      cls := c
      origin := originOf (byteAt bytes 0)
      serial := byteAt bytes 1
      payload := (bytes.drop 3).take c.payloadLength }

/-- The capture record of a complete telegram that is rejected: header and both checks (R145, R179). -/
def Capture.whole (id : LaneId) (reason : Reject) (bytes : List Byte) : Capture :=
  { Capture.header id reason bytes with
    received := some (carriedCheck bytes)
    computed := some (computedCheck bytes) }

/-- A lane after any valid telegram from another station: SILENT and ALONE are left (R146, R149, R150). -/
def Lane.hearsPeer (l : Lane) : Lane :=
  { l.endReception with silence := some 0, silent := false, unheard := 0, alone := false }

/-- A valid telegram is placed and acknowledged in the accept slot, or counted as an overflow (R146, R147). -/
def place (id : LaneId) (l : Lane) (t : Telegram) (s : State) : State :=
  if s.rxq.queue.length < Config.queuePlaces then
    { s with rxq := { s.rxq with queue := s.rxq.queue ++ [t] } }.setLane id
      { l.hearsPeer with slot := true, ctr := { l.ctr with accepted := bump l.ctr.accepted } }
  else { s with rxq := { s.rxq with overflow := bump s.rxq.overflow } }.setLane id l.hearsPeer

/-- A telegram is complete at the end of its last check cell (R145 to R147, R149 to R151). -/
def receiveComplete (id : LaneId) (l : Lane) (c : Cls) (bytes : List Byte) (s : State) : State :=
  match judgeTelegram id c bytes with
  | .valid t => rehealth id (place id l t s)
  | .rejected .check =>
    captureOffer (Capture.whole id .check bytes) (s.setLane id
      { l.endReception with ctr := { l.ctr with checkErrors := bump l.ctr.checkErrors } })
  | .rejected reason => formatError id l (Capture.whole id reason bytes) s

/-- TELEGRAM_RECEIVE_COMPLETE (R144 to R147): the bytes are those the class of the arbitration byte gives, whatever the
length byte says. -/
def execTelegramReceiveComplete (id : LaneId) (rest : List Bool) (s : State) : Host.Outcome State Fault Refusal :=
  onLane id (fun l s =>
    let bytes := l.rx.getD [] ++ spelled rest
    match l.taking, classOf (byteAt bytes 0) with
    | true, some c => if bytes.length = c.telegramLength then receiveComplete id l c bytes s else s
    | _, _ => s) s

/-! ### Health timers -/

/-- LINE_STUCK (R148, R151): a dominant line is not quiet, and an accept slot driven before is long over (R146). -/
def execLineStuck (id : LaneId) (s : State) : Host.Outcome State Fault Refusal :=
  onLane id (fun l s => if l.quiet then s else rehealth id (s.setLane id { l with stuck := true, slot := false })) s

/-- SILENCE_TIMER_EXPIRY (R149, R151): a timer that a telegram of the same moment has restarted has not reached its limit. -/
def execSilenceTimerExpiry (id : LaneId) (s : State) : Host.Outcome State Fault Refusal :=
  onLane id (fun l s =>
    if reached l.silence s.staleMs then rehealth id (s.setLane id { l with silence := none, silent := true }) else s) s

end Sys2Proof.Machine
end

