-- ==== Sys2Proof/Machine/TableOps.lean ====
section
/-! DEFINITION. The shared operations of the station table (R99 to R116), of what its notices bring about at a door and
at a panel (R111, R157, R164, R167), and the passage to MUTE (R174). -/

namespace Sys2Proof.Machine

/-! ### The table -/

/-- The table with an entry put at its number's place (R99): in rising order, at most one for each number. -/
def putEntry (e : Entry) : List Entry → List Entry
  | [] => [e]
  | x :: xs =>
    if e.num < x.num then e :: x :: xs
    else if e.num = x.num then e :: xs
    else x :: putEntry e xs

/-- The state with an entry put into the table. -/
def setEntry (e : Entry) (s : State) : State :=
  { s with ste := { s.ste with table := putEntry e s.ste.table } }

/-- Single-lane marking judged afresh (R109). -/
def rejudge (limit : Nat) (e : Entry) : Entry := { e with single := singleNow limit e }

/-- A lane's heard age takes a value (R108). -/
def Entry.setHeard (e : Entry) (lane : LaneId) (ms : Nat) : Entry :=
  match lane with
  | .a => { e with heardA := ms }
  | .b => { e with heardB := ms }

/-- The last serial of a class. -/
def Entry.serial (e : Entry) : Cls → Option Byte
  | .demand => e.serD
  | .state => e.serS
  | .ident => e.serI

/-- The last serial of a class replaced. -/
def Entry.setSerial (e : Entry) (c : Cls) (v : Option Byte) : Entry :=
  match c with
  | .demand => { e with serD := v }
  | .state => { e with serS := v }
  | .ident => { e with serI := v }

/-- The kind of a telegram: DOOR for STATE, PANEL for DEMAND, the role it carries for IDENT (R103). -/
def telegramKind (t : Telegram) : Kind :=
  match t.cls with
  | .demand => .panel
  | .state => .door
  | .ident =>
    match (decodeIdent t.payload).role with
    | .door => .door
    | .panel => .panel

/-- The judgement of R104 on a telegram not discarded before. -/
inductive Verdict where
  | accepted
  | duplicate
  | lateCopy
  deriving DecidableEq, Repr

/-- The verdict of R104: an absent or STALE entry, or an absent last serial, accepts; else d = s - last modulo 256 is
newer from 1 to 127, a duplicate at 0, a late copy from 128 on. -/
def verdictOf (old : Option Entry) (t : Telegram) : Verdict :=
  match old with
  | none => .accepted
  | some e =>
    if !e.live then .accepted
    else
      match e.serial t.cls with
      | none => .accepted
      | some last =>
        let d := (t.serial - last).toNat
        if d = 0 then .duplicate else if d ≤ 127 then .accepted else .lateCopy

/-- A kind conflict: a LIVE entry of another kind (R103). -/
def kindConflict (old : Option Entry) (t : Telegram) : Bool :=
  old.any (fun e => e.live && e.kind != telegramKind t)

/-- An entry with no part and no last serial, both lanes given their grace start (R105, R108). -/
def Entry.blank (num : Nat) (kind : Kind) : Entry where
  num := num
  kind := kind
  live := true
  age := 0
  heardA := 0
  heardB := 0
  single := false
  serD := none
  serS := none
  serI := none
  door := none
  panel := none
  ident := none

/-- The entry an accepted telegram starts from (R105): a new one, the parts and serials of another kind removed, or on
a return from STALE with the same kind the serials made absent and the parts kept. -/
def baseEntry (old : Option Entry) (t : Telegram) : Entry :=
  match old with
  | none => Entry.blank t.origin (telegramKind t)
  | some e =>
    if e.live then e
    else if e.kind = telegramKind t then
      { e with serD := none, serS := none, serI := none, heardA := 0, heardB := 0 }
    else Entry.blank e.num (telegramKind t)

/-- The ack baseline after a DEMAND with the given counter (R110): the counter in every row of the table (a kept
baseline equals it). -/
def newBaseline (ack : Byte) : Byte := ack

/-- The part of the telegram's class replaced as a whole (R105, R110, R123). -/
def Entry.withPart (e : Entry) (t : Telegram) : Entry :=
  match t.cls with
  | .demand =>
    let c := decodeDemand t.payload
    { e with panel := some ⟨c, newBaseline c.ack⟩ }
  | .state => { e with door := some (decodeState t.payload) }
  | .ident => { e with ident := some (decodeIdent t.payload) }

/-- The entry after an acceptance (R105), its single-lane marking judged afresh (R109). -/
def acceptedEntry (limit : Nat) (old : Option Entry) (t : Telegram) : Entry :=
  let e := ((baseEntry old t).withPart t).setSerial t.cls (some t.serial)
  rejudge limit ({ e with age := 0, live := true }.setHeard t.lane 0)

/-- An acceptance gives an acknowledge request: a DEMAND into a LIVE entry with a panel part, whose counter differs
from the baseline (R110). DESIGN CHOICE (log 24): an entry that an IDENT brought back from STALE with its panel part kept is such
an entry, so that the table of R110 and not the sentence behind it decides. -/
def asksAck (old : Option Entry) (t : Telegram) : Bool :=
  t.cls == .demand &&
    old.any (fun e => e.live && e.panel.any (fun h => h.base != (decodeDemand t.payload).ack))

/-! ### Derivations -/

/-- CONFIG_MISMATCH is derived afresh (R112). -/
def deriveMismatch (s : State) : State :=
  let m := mismatchNow s
  if m = s.ste.mismatch then s
  else alarm (condition .configMismatch m) { s with ste := { s.ste with mismatch := m } }

/-- STATION_LOST is derived afresh, in the panel role (R113). -/
def deriveLost (s : State) : State :=
  let m := lostNow s
  if !s.panelRuns || m = s.ste.lost then s
  else alarm (condition .stationLost m) { s with ste := { s.ste with lost := m } }

/-- LANE_DEGRADED is derived afresh, in the panel role (R114). -/
def deriveDegraded (s : State) : State :=
  let m := degradedNow s
  if !s.panelRuns || m = s.ste.degraded then s
  else alarm (condition .laneDegraded m) { s with ste := { s.ste with degraded := m } }

/-- The derivations of an acceptance or a passage to STALE (R112 to R114). DESIGN CHOICE (log 5): their order among
themselves, CONFIG_MISMATCH, STATION_LOST, LANE_DEGRADED. -/
def derive (s : State) : State := deriveDegraded (deriveLost (deriveMismatch s))

/-! ### The panel's reading of a notice -/

/-- The mode disagreement is judged (R167). -/
def judgeConflict (s : State) : State :=
  let raised := s.pnu.conflict.isPast
  if disagreement s then
    if s.pnu.conflict = .stopped then { s with pnu := { s.pnu with conflict := .running 0 } } else s
  else
    let s1 := { s with pnu := { s.pnu with conflict := .stopped } }
    if raised then alarm (.becameFalse .modeConflict) s1 else s1

/-- A kind the new set holds and the last-seen set did not (R164). -/
def gains (new old : BitVec 16) : Bool := new &&& ~~~old != 0

/-- A new door alarm is looked for in an entry, and its set stored as last seen (R164); a new one ends a silence
(R165). -/
def seeAlarms (n : Nat) (s : State) : State :=
  let new := ((entryOf s n).map (·.unackedNow)).getD 0
  let old := s.pnu.lastSeen.getD (n - 1) 0
  let s1 := { s with pnu := { s.pnu with lastSeen := s.pnu.lastSeen.set (n - 1) new } }
  if gains new old then endSilence s1 else s1

/-- The summary records are computed from the table (R157, R158). -/
def summarise (s : State) : State := { s with pnu := { s.pnu with summaries := summariesOf s.ste.table } }

/-- A notice concerns a PANEL entry, before or after (R5, R162, R167). -/
def Notice.ofPanel (n : Notice) : Bool := n.kindBefore == some .panel || n.kindAfter == .panel

/-- A notice concerns a group peer of a group, before or after (R76, R80). -/
def Notice.ofPeer (group : Nat) (n : Notice) : Bool :=
  (n.kindBefore == some .door && n.groupBefore == some group) ||
    (n.kindAfter == .door && n.groupAfter == some group)

/-- A notice at a panel (R157 to R167). -/
def panelNotice (n : Notice) (s : State) : State :=
  let s1 := seeAlarms n.num (summarise s)
  let s2 := if n.ofPanel then judgeConflict s1 else s1
  repaint (sound s2)

/-- A change notice to its readers (R111): at a door first the door control unit, then the passage unit. DESIGN CHOICE
(log 5): that order, where one notice concerns both. -/
def giveNotice (n : Notice) (s : State) : State :=
  if s.doorRuns then
    let s1 := if n.ofPanel then recompute s else s
    if n.ofPeer s.conf.group then peerNotice s1 else s1
  else if s.panelRuns then panelNotice n s
  else s

/-- The notice of a change from `old` to `new` (R111). -/
def noticeOf (old : Option Entry) (new : Entry) (c : Option Cls) : Notice where
  num := new.num
  kindBefore := old.map (·.kind)
  kindAfter := new.kind
  groupBefore := old.bind (·.groupOf)
  groupAfter := new.groupOf
  liveBefore := old.map (·.live)
  liveAfter := new.live
  cls := c

/-! ### Acceptance, duplicates, late copies, staleness -/

/-- An acceptance in the order of R111: the entry, the acknowledge request in the door role, the derivations, the
notice. -/
def acceptTelegram (old : Option Entry) (t : Telegram) (s : State) : State :=
  let e := acceptedEntry s.staleMs old t
  let s1 := setEntry e s
  let s2 := if asksAck old t && s.doorRuns then alarm .acknowledge s1 else s1
  giveNotice (noticeOf old e (some t.cls)) (derive s2)

/-- A copy that is not accepted restarts its lane's heard age; the marking is judged afresh, and LANE_DEGRADED with it
(R107, R109). -/
def hearCopy (e : Entry) (lane : LaneId) (s : State) : State :=
  deriveDegraded (setEntry (rejudge s.staleMs (e.setHeard lane 0)) s)

/-- A LIVE entry becomes STALE, keeping its parts, kind and serials; derivations and notice follow (R108). -/
def goStale (e : Entry) (s : State) : State :=
  let e' := { e with live := false, single := false }
  giveNotice (noticeOf (some e) e' none) (derive (setEntry e' s))

/-! ### MUTE -/

/-- A lane unit at the passage to MUTE: one that contends or sends stops driving, discards its copy uncounted and goes
on as a receiver (R142). A telegram whose slot is past is complete and only its end gap runs on. -/
def muteLane (station : Nat) (l : Lane) : Lane :=
  match l.activity, l.copy with
  | .contending, _ => { l with activity := .receiving, copy := none, rx := some [], own := .mute }
  | .sending, some c =>
    { l with
      activity := .receiving
      copy := none
      rx := some [arbitrationByte c.content.cls station]
      own := .mute }
  | _, _ => l

/-- A keeper that stops: snapshot and serial kept, timers stopped, pending flag cleared (R124). -/
def Keeper.stop {α : Type} (k : Keeper α) : Keeper α := { k with pending := false, spacing := none, refresh := none }

/-- The passage to MUTE on a duplicate station number (R102, R174): FLT on, the listen timer stopped, the lanes stop
sending (R142), the snapshot unit stops (R124), a claim ends with its request evaluated again (R9), NO_PANEL is judged
(R8). -/
def toMute (s : State) : State :=
  let s1 := { s with
    suc := { s.suc with startUp := .mute, flt := true, listenTimer := none }
    laneA := muteLane s.conf.station s.laneA
    laneB := muteLane s.conf.station s.laneB
    snu :=
      { state := s.snu.state.stop
        demand := s.snu.demand.stop
        ident := { s.snu.ident with timer := none } } }
  if s1.doorRuns then
    noPanelCheck (doorEvent (fun x => if x.dcu.ctl = .claiming then evaluate x else x) s1)
  else s1

end Sys2Proof.Machine
end

