-- ==== Sys2Proof/Machine/Panel.lean ====
section
/-! DEFINITION. The commands of the panel unit: scans and presses (R154 to R156), silence (R165), lamp test (R163), stuck
keys (R166), mode conflict (R167) and lamp frames (R159). -/

namespace Sys2Proof.Machine

/-! ### Keys -/

/-- The position of the mode selector (R155). -/
def selectorKey : Nat := 16

/-- The position of ACK (R155). -/
def ackKey : Nat := 17

/-- The position of SILENCE (R155). -/
def silenceKey : Nat := 18

/-- The position of LAMP_TEST (R155). -/
def lampTestKey : Nat := 19

/-- The debounced level of a key. -/
def Pnu.made (p : Pnu) (key : Nat) : Bool := p.keys.getLsbD key

/-- The debounced levels with one replaced. -/
def setKey (keys : BitVec 20) (key : Nat) (made : Bool) : BitVec 20 :=
  if made then keys ||| (1#20 <<< key) else keys &&& ~~~(1#20 <<< key)

/-- A key's debounced level changes: its debounce count starts again, and a momentary key's held timer starts or stops
(R154, R166). -/
def Pnu.change (p : Pnu) (key : Nat) (made : Bool) : Pnu :=
  { p with
    keys := setKey p.keys key made
    scans := p.scans.set key 0
    heldKeys := if momentary key then p.heldKeys.set key (if made then .running 0 else .stopped) else p.heldKeys }

/-- The debounce count of one key after a scan (R154): a sample of the old level starts it again; at eight it waits for
the change it has brought. -/
def scanCount (level sample : Bool) (count : Nat) : Nat :=
  if Config.debounceScans ≤ count then count else if sample = level then 0 else count + 1

/-- The panel unit after a scan of the matrix (R154). -/
def Pnu.scan (p : Pnu) (contacts : BitVec 32) : Pnu :=
  { p with
    contacts := contacts
    scanTimer := 0
    scans := (List.range 20).map (fun k => scanCount (p.made k) (contacts.getLsbD k) (p.scans.getD k 0)) }

/-- The panel unit runs: in LISTEN, JOINED and MUTE, in the panel role (R153). -/
def State.panelOn (s : State) : Bool := s.panelRuns && s.pnu.running

/-- KEY_SCAN (R154). -/
def execKeyScan (keys : BitVec 32) (s : State) : Host.Outcome State Fault Refusal :=
  if s.panelOn then .next { s with pnu := s.pnu.scan keys } else .next s

/-- A press: the debounced level becomes made, and the key acts once (R154, R155). -/
def press (key : Nat) (act : State → State) (s : State) : Host.Outcome State Fault Refusal :=
  if s.panelOn && !s.pnu.made key then .next (act { s with pnu := s.pnu.change key true }) else .next s

/-- Group g toggled in a set: member g in bit g - 1 (R156). -/
def toggleGroup (g : Nat) (x : BitVec 16) : BitVec 16 := x ^^^ (1#16 <<< (g - 1))

/-- GROUP_CLOSE_PRESS (R155, R156, R162). -/
def execGroupClosePress (group : Nat) (s : State) : Host.Outcome State Fault Refusal :=
  if 1 ≤ group ∧ group ≤ 16 then
    press (group - 1) (fun s =>
      offer (repaint { s with pnu := { s.pnu with groups := toggleGroup group s.pnu.groups } })) s
  else .next s

/-- The own mode takes the selector's level; the disagreement is judged, the lamps and the snapshot follow (R156, R162,
R167). -/
def selectMode (made : Bool) (s : State) : State :=
  offer (repaint (judgeConflict { s with pnu := { s.pnu with mode := modeOf made } }))

/-- MODE_SELECTOR_CHANGE (R155, R156): the own mode follows in both directions. -/
def execModeSelectorChange (made : Bool) (s : State) : Host.Outcome State Fault Refusal :=
  if s.panelOn && s.pnu.made selectorKey != made then
    .next (selectMode made { s with pnu := s.pnu.change selectorKey made })
  else .next s

/-- ACK_PRESS (R87, R94, R156): the acknowledge request, then the counter. -/
def execAckPress (s : State) : Host.Outcome State Fault Refusal :=
  press ackKey (fun s =>
    let s1 := alarm .acknowledge s
    offer { s1 with pnu := { s1.pnu with ack := s1.pnu.ack + 1 } }) s

/-- SILENCE while PSND is on (R165). -/
def silenceNow (s : State) : State :=
  if s.pnu.psnd then repaint (sound { s with pnu := { s.pnu with silence := true } }) else s

/-- SILENCE_PRESS (R165). -/
def execSilencePress (s : State) : Host.Outcome State Fault Refusal := press silenceKey silenceNow s

/-- LAMP_TEST_PRESS (R163). -/
def execLampTestPress (s : State) : Host.Outcome State Fault Refusal :=
  press lampTestKey (fun s =>
    if s.pnu.lockout then s else { s with pnu := { s.pnu with lampTest := some 0 } }) s

/-- A momentary key's debounced level becomes open: its timer stops, and KEY_STUCK is cleared with the last stuck key
(R166). -/
def releaseKey (key : Nat) (s : State) : State :=
  let s1 := { s with pnu := s.pnu.change key false }
  if someStuck s.pnu && !someStuck s1.pnu then alarm (.becameFalse .keyStuck) s1 else s1

/-- LAMP_TEST_RELEASE (R163, R166): the test ends, or the lockout is cleared. -/
def execLampTestRelease (s : State) : Host.Outcome State Fault Refusal :=
  if s.panelOn && s.pnu.made lampTestKey then
    .next (releaseKey lampTestKey { s with pnu := { s.pnu with lampTest := none, lockout := false } })
  else .next s

/-- KEY_RELEASE (R155, R166): of a momentary key other than LAMP_TEST, whose release is LAMP_TEST_RELEASE. -/
def execKeyRelease (position : Nat) (s : State) : Host.Outcome State Fault Refusal :=
  if s.panelOn && momentary position && position != lampTestKey && s.pnu.made position then
    .next (releaseKey position s)
  else .next s

/-! ### Timers -/

/-- LAMP_TEST_TIMEOUT (R163). -/
def execLampTestTimeout (s : State) : Host.Outcome State Fault Refusal :=
  if s.pnu.lampTest.isSome then .next { s with pnu := { s.pnu with lampTest := none, lockout := true } }
  else .next s

/-- KEY_HELD_LIMIT (R166): KEY_STUCK is raised when no other key is stuck. -/
def execKeyHeldLimit (position : Nat) (s : State) : Host.Outcome State Fault Refusal :=
  let w := s.pnu.heldKeys.getD position .stopped
  if w.isRunning then
    let s1 := { s with pnu := { s.pnu with heldKeys := s.pnu.heldKeys.set position (w.expire Config.keyHeldMs) } }
    .next (if someStuck s.pnu then s1 else alarm (.becameTrue .keyStuck) s1)
  else .next s

/-- MODE_CONFLICT_TIMER_EXPIRY (R167). -/
def execModeConflictTimerExpiry (s : State) : Host.Outcome State Fault Refusal :=
  if s.pnu.conflict.isRunning then
    .next (alarm (.becameTrue .modeConflict)
      { s with pnu := { s.pnu with conflict := s.pnu.conflict.expire Config.modeConflictMs } })
  else .next s

/-! ### Frames -/

/-- The levels of the frame that starts now (R153, R159, R163): all dark before a configuration is accepted, all lit in a
lamp test, else each position by its pattern and the flash phase. -/
def frameNow (s : State) : List Bool :=
  if s.panelRuns then
    if s.pnu.lampTest.isSome then List.replicate 272 true else s.pnu.patterns.map (Pattern.lit s.flash)
  else List.replicate 272 false

/-- The levels set on LDA for a frame, in the order sent (R159): position 271 first and position 0 last, high for lit. -/
def ldaOrder (frame : List Bool) : List Bool := frame.reverse

/-- One rising edge of LCK (R159): the chain's 272 stages, nearest the part first, each take the level before them. -/
def chainShift (stages : List Bool) (level : Bool) : List Bool := (level :: stages).take 272

/-- The chain's stages after a frame's levels have been shifted in. -/
def chainAfter (stages levels : List Bool) : List Bool := levels.foldl chainShift stages

/-- LAMP_FRAME (R159): a frame is fixed, shifted through the chain and strobed. A door shifts none (R153). -/
def execLampFrame (s : State) : Host.Outcome State Fault Refusal :=
  if s.doorRuns then .next s
  else
    let frame := frameNow s
    .next { s with pnu := { s.pnu with
      frame := frame
      shifted := ldaOrder frame
      strobed := chainAfter s.pnu.strobed (ldaOrder frame)
      frameTimer := 0 } }

end Sys2Proof.Machine
end

