-- ==== Sys2Proof/Machine/Passage.lean ====
section
/-! DEFINITION. The command of the passage unit: the end of a claim hold (R71). -/

namespace Sys2Proof.Machine

/-- CLAIM_HOLD_EXPIRY (R71): WAITING and the first evaluation; a grant comes before the phase is offered. -/
def execClaimHoldExpiry (s : State) : Host.Outcome State Fault Refusal :=
  if s.psu.phase = .fresh then finish (doorEvent onHoldExpiry s) else .next s

end Sys2Proof.Machine
end

