-- ==== Sys2Proof/Machine/Snapshot.lean ====
section
/-! DEFINITION. The commands of the snapshot unit: the ends of its spacing, refresh and IDENT timers (R128, R129,
R131). -/

namespace Sys2Proof.Machine

/-- The spacing timer of a keeper ends with nothing pending: it stops (R128). -/
def Keeper.rest {α : Type} (k : Keeper α) : Keeper α := { k with spacing := none }

/-- The spacing timer and the pending flag of the class the role sends, STATE or DEMAND. -/
def ownSpacing (s : State) : Option Nat × Bool :=
  match s.conf.role with
  | .door => (s.snu.state.spacing, s.snu.state.pending)
  | .panel => (s.snu.demand.spacing, s.snu.demand.pending)

/-- The refresh timer of the class the role sends. -/
def ownRefresh (s : State) : Option Nat :=
  match s.conf.role with
  | .door => s.snu.state.refresh
  | .panel => s.snu.demand.refresh

/-- The own class's spacing timer stops. -/
def restOwn (s : State) : State :=
  match s.conf.role with
  | .door => { s with snu := { s.snu with state := s.snu.state.rest } }
  | .panel => { s with snu := { s.snu with demand := s.snu.demand.rest } }

/-- SPACING_TIMER_END (R128): the pending snapshot is made, or the timer stops. A timer that a making at the same moment has
restarted is below 50 ms, and nothing comes of its end (R133). -/
def execSpacingTimerEnd (s : State) : Host.Outcome State Fault Refusal :=
  if s.suc.startUp = .joined ∧ reached (ownSpacing s).1 Config.spacingMs = true then
    if (ownSpacing s).2 then .next (makeOwn s) else .next (restOwn s)
  else .next s

/-- REFRESH_TIMER_EXPIRY (R129): a timer that a trigger at the same moment has restarted makes nothing (R133). -/
def execRefreshTimerExpiry (s : State) : Host.Outcome State Fault Refusal :=
  if s.suc.startUp = .joined ∧ reached (ownRefresh s) s.refreshMs = true then .next (makeOwn s) else .next s

/-- IDENT_TIMER_EXPIRY (R131). -/
def execIdentTimerExpiry (s : State) : Host.Outcome State Fault Refusal :=
  if s.suc.startUp = .joined ∧ reached s.snu.ident.timer (10 * s.refreshMs) = true then .next (makeIdent s) else .next s

end Sys2Proof.Machine
end

