-- ==== Sys2Proof/Machine/StartUp.lean ====
section
/-! DEFINITION. Start-up: reset, the configuration read and its judgement, the passages to LISTEN and JOINED (R169 to
R174), the flash timing (R1) and the level changes on the leads (R33). -/

namespace Sys2Proof.Machine

/-- The configuration read goes on: LOADING, and no retry wait running (R169). -/
def State.reads (s : State) : Bool := s.suc.startUp == .loading && s.suc.retryWait.isNone

/-- The memory's fixed address on the configuration port (R169). -/
def memoryAddress : BitVec 7 := 0x51#7

/-- An address byte: seven address bits, then the direction bit, 0 for a write and 1 for a read by the master (R175). -/
def addressByte (addr : BitVec 7) (reads : Bool) : Byte := addr ++ BitVec.ofBool reads

/-- An attempt of the configuration read up to its first byte (R169): the port freed and a stop condition, the memory addressed
for writing, the offset 0, a repeated start, the memory addressed for reading. -/
def readAttempt : List BusAct :=
  [.free, .stop, .start, .send (addressByte memoryAddress false), .send 0#8, .repeatedStart,
    .send (addressByte memoryAddress true)]

/-- The bytes of one sequential transfer (R169): each acknowledged but the last. -/
def sequentialRead : List Byte → List BusAct
  | [] => []
  | [b] => [.read b false]
  | b :: c :: rest => .read b true :: sequentialRead (c :: rest)

/-- A complete read (R169): the attempt, the bytes from offset 0 onward, and a stop condition. -/
def wholeRead (image : List Byte) : List BusAct := readAttempt ++ sequentialRead image ++ [.stop]

/-- The part enters CONFIG_FAULT: FLT on, the reason kept (R172). -/
def enterFault (reason : FaultReason) (s : State) : State :=
  { s with suc := { s.suc with startUp := .configFault, reason := reason, flt := true, retryWait := none } }

/-- The travel monitor starts (R32): a reference at a limit without drift check, the discord, conflict and arming
timers. -/
def startTrm (s : State) : State :=
  let t := s.trm
  setTrm { t with
    running := true
    count := if t.pos = .opened then (s.conf.travelCount : Int) else if t.pos = .closed then 0 else t.count
    ref := t.pos == .closed || t.pos == .opened
    overrun := 0
    discord := if s.deb.cla = s.deb.clb then .stopped else .running 0
    conflict := if t.pos = .unknown then .running 0 else .stopped
    arming := some 0 } s

/-- The energy unit starts its first gate (R52). -/
def startEnu (s : State) : State :=
  { s with enu := { s.enu with running := true, gate := some 0, tally := 0 } }

/-- A MAINS already open raises MAINS_LOSS at the passage to LISTEN, in either role (R63). -/
def startMains (s : State) : State := if s.deb.mains then s else alarm (.becameTrue .mainsLoss) s

/-- The door control unit leaves INACTIVE (R2): mode and CD as R6 gives them, then the idle state that matches the
position state and what the standing levels bring about. -/
def startDcu (s : State) : State := doorEvent (fun x => toMatching (rederive x)) s

/-- The panel unit starts (R153): key levels loaded by the first scan without a press, the own mode from the selector,
key-held timers of keys loaded as made (R154, R166), summaries, patterns and sounder. -/
def startPnu (keys : BitVec 32) (s : State) : State :=
  sound (repaint (summarise { s with
    pnu := { s.pnu with
      running := true
      keys := keys.setWidth 20
      scans := List.replicate 20 0
      contacts := keys
      scanTimer := 0
      heldKeys := (List.range 20).map (fun p => if momentary p && keys.getLsbD p then .running 0 else .stopped)
      mode := modeOf (keys.getLsbD 16) } }))

/-- The part enters LISTEN with the accepted configuration in place: listen timer and lanes' silence timers from 0
(R135, R171, R173). -/
def enterListen (c : Cfg) (s : State) : State :=
  { s with
    suc := { s.suc with startUp := .listen, accepted := some c, listenTimer := some 0 }
    laneA := { s.laneA with silence := some 0 }
    laneB := { s.laneB with silence := some 0 } }

/-- The blocks of the role start at the passage to LISTEN: travel monitor and energy unit before the door control unit
reads them (R2, R32, R52, R68); in the door role the panel unit stops in its reset state, in the panel role the limits
are watched no longer (R153, 2). -/
def startBlocks (keys : BitVec 32) (s : State) : State :=
  match s.conf.role with
  | .door => startDcu (startMains (startEnu (startTrm { s with pnu := Pnu.reset })))
  | .panel =>
    startMains (startPnu keys { s with
      settle := { s.settle with cla := none, clb := none, olm := none } })

/-- RESET (R169): every block takes its value after reset, the debounced leads their lead levels (R4, R33, R63), the
port its address (R175), and the configuration read begins. The commands that wait are outside the part and stay. -/
def execReset (leads : PerLead Bool) (straps : BitVec 2) (s : State) : Host.Outcome State Fault Refusal :=
  .next { State.reset with
    suc := { Suc.reset with bus := readAttempt }
    lead := leads
    deb := leads
    trm := { Trm.reset with pos := positionOf leads }
    dgp := { Dgp.reset with addr := 0x2C#7 + straps.setWidth 7 }
    pending := s.pending }

/-- CONFIG_ADDRESS_NOT_ACKED (R169), of the address or of the offset: the attempt ends in a 5 ms wait, or in NO_ANSWER after the
third. -/
def execConfigAddressNotAcked (s : State) : Host.Outcome State Fault Refusal :=
  if s.reads then
    let n := s.suc.attempts + 1
    let s1 := { s with suc := { s.suc with attempts := n, bus := [] } }
    if Config.maxAttempts ≤ n then .next (enterFault .noAnswer s1)
    else .next { s1 with suc := { s1.suc with retryWait := some 0 } }
  else .next s

/-- CONFIG_RETRY_WAIT_EXPIRY (R169): the read begins again from the freeing of the port. -/
def execConfigRetryWaitExpiry (s : State) : Host.Outcome State Fault Refusal :=
  if s.suc.retryWait.isSome then .next { s with suc := { s.suc with retryWait := none, bus := readAttempt } }
  else .next s

/-- CSD_LOW_AFTER_NINE_CLOCKS (R169): the port cannot be freed, and the memory is not addressed. -/
def execCsdLowAfterNineClocks (s : State) : Host.Outcome State Fault Refusal :=
  if s.reads then .next (enterFault .noAnswer { s with suc := { s.suc with bus := [.free] } }) else .next s

/-- CONFIG_READ_DONE (R169 to R173): the transfer ends with its 128 bytes in the buffer (log 23), its check is judged, then its
fields; a refusal is CONFIG_FAULT and an acceptance LISTEN. -/
def execConfigReadDone (image : List Byte) (keys : BitVec 32) (s : State) : Host.Outcome State Fault Refusal :=
  if s.reads && image.length == 128 then
    let s1 := { s with suc := { s.suc with image := image, bus := wholeRead image } }
    if imageCheck image ≠ storedCheck image then .next (enterFault .check s1)
    else
      let (clamps, refused) := judgeFields image
      let s2 := { s1 with suc := { s1.suc with clamps := clamps, refused := refused } }
      if refused.isSome then .next (enterFault .field s2)
      else finish (startBlocks keys (enterListen (configOf image) s2))
  else .next s

/-- The passage to JOINED at a door (R8, R9): NO_PANEL, and a standing request evaluated again. -/
def joinDoor (s : State) : State :=
  if s.doorRuns then doorEvent evaluateStanding (noPanelCheck s) else s

/-- LISTEN_TIMER_EXPIRY (R173): JOINED, the first snapshots (R130, R131), the lanes' work (R134), then the door. DESIGN CHOICE
(log 5): the first snapshots come before NO_PANEL is raised (R8). -/
def execListenTimerExpiry (s : State) : Host.Outcome State Fault Refusal :=
  if s.suc.startUp = .listen then
    finish (joinDoor (makeIdent (makeOwn { s with
      suc := { s.suc with startUp := .joined, listenTimer := none } })))
  else .next s

/-- FLASH_EDGE (R1): the next eighth of the slow period begins, and the flashing output BCN follows (R29); lamps follow
at their next frame (R159). -/
def execFlashEdge (s : State) : Host.Outcome State Fault Refusal :=
  finish { s with flash := ⟨(s.flash.phase + 1) % 8, 0⟩ }

/-- A limit lead of a part that runs as a panel: its travel monitor holds its reset state (2). -/
def State.limitIgnored (s : State) : Lead → Bool
  | .cla => s.panelRuns
  | .clb => s.panelRuns
  | .olm => s.panelRuns
  | _ => false

/-- LEVEL_INPUT_EDGE (1.7, R4, R33, R63): the debounce starts, starts again, or ends at a return to the debounced
level. -/
def execLevelInputEdge (lead : Lead) (made : Bool) (s : State) : Host.Outcome State Fault Refusal :=
  if s.limitIgnored lead then .next { s with lead := s.lead.set lead made }
  else .next (leadEdge lead made s)

end Sys2Proof.Machine
end

