-- ==== Sys2Proof/Machine/Station.lean ====
section
/-! DEFINITION. The commands of the station table engine: taking a telegram (R101 to R107), staleness (R108) and the
lane-heard ages (R108, R109). -/

namespace Sys2Proof.Machine

/-- A telegram of the part's own number is discarded; in LISTEN or JOINED it brings MUTE (R102, R174). -/
def takeOwn (s : State) : State :=
  if s.suc.startUp = .listen ∨ s.suc.startUp = .joined then toMute s else s

/-- A telegram of another station, judged against the entry as it stands (R103 to R107). -/
def takeOther (t : Telegram) (s : State) : State :=
  let old := entryOf s t.origin
  if kindConflict old t then { s with ste := { s.ste with kindConflicts := bump s.ste.kindConflicts } }
  else
    match verdictOf old t, old with
    | .duplicate, some e =>
      hearCopy e t.lane { s with ste := { s.ste with duplicates := bump s.ste.duplicates } }
    | .lateCopy, some e =>
      hearCopy e t.lane { s with ste := { s.ste with lateCopies := bump s.ste.lateCopies } }
    | _, _ => acceptTelegram old t s

/-- A telegram is taken whole (R101, R102). -/
def takeTelegram (t : Telegram) (s : State) : State :=
  if t.origin = s.conf.station then takeOwn s else takeOther t s

/-- TELEGRAM_TAKEN (R101): the head of the receive queue is removed and taken. -/
def execTelegramTaken (s : State) : Host.Outcome State Fault Refusal :=
  match s.suc.startUp.running, s.rxq.queue with
  | true, t :: rest => finish (takeTelegram t { s with rxq := { s.rxq with queue := rest } })
  | _, _ => .next s

/-- ENTRY_GOES_STALE (R108): a LIVE entry's age has reached the staleness limit. An age that a telegram taken at the same moment
has restarted has not (R115). -/
def execEntryGoesStale (station : Nat) (s : State) : Host.Outcome State Fault Refusal :=
  match entryOf s station with
  | none => .next s
  | some e => if e.live && decide (s.staleMs ≤ e.age) then finish (goStale e s) else .next s

/-- The lane-heard age of a lane. -/
def Entry.heard (e : Entry) : LaneId → Nat
  | .a => e.heardA
  | .b => e.heardB

/-- LANE_HEARD_AGE_LIMIT (R108, R109): a LIVE entry's lane-heard age has reached the staleness limit, and marking and
LANE_DEGRADED are judged afresh. An age that a copy taken at the same moment has restarted has not reached it (R115). -/
def execLaneHeardAgeLimit (station : Nat) (lane : LaneId) (s : State) : Host.Outcome State Fault Refusal :=
  match entryOf s station with
  | none => .next s
  | some e =>
    if e.live && decide (s.staleMs ≤ e.heard lane) then
      .next (deriveDegraded (setEntry (rejudge s.staleMs e) s))
    else .next s

end Sys2Proof.Machine
end

