-- ==== Sys2Proof/Machine/Travel.lean ====
section
/-! DEFINITION. The commands of the travel monitor: limits and references (R33 to R36, R40), position pulses (R37 to
R42), stroke maxima (R45, R46), stall windows (R47, R48) and hand movement (R49, R50). -/

namespace Sys2Proof.Machine

/-! ### Limits -/

/-- The discord timer after a change of one debounced limit (R35): started when exactly one closed limit is made, stopped
when the two agree, untouched by OLM. -/
def discordAfter (limit : Limit) (deb : PerLead Bool) (w : Watch) : Watch :=
  match limit with
  | .olm => w
  | .cla => if deb.cla = deb.clb then .stopped else .running 0
  | .clb => if deb.cla = deb.clb then .stopped else .running 0

/-- The conflict timer after a change of the position state (R36). -/
def conflictAfter (before after : Position) (w : Watch) : Watch :=
  if before = after then w else if after = .unknown then .running 0 else .stopped

/-- The count at a limit: 0 for a closed reference, the travel count for an open one (R40). -/
def limitValue (c : Cfg) : Position → Option Int
  | .closed => some 0
  | .opened => some c.travelCount
  | .between => none
  | .unknown => none

/-- The travel monitor after the position state has changed, with the reference the new state brings (R40). -/
def arrive (c : Cfg) (pos : Position) (t : Trm) : Trm :=
  match limitValue c pos with
  | none => { t with pos := pos }
  | some v => { t with pos := pos, count := v, overrun := 0, ref := true }

/-- A reference finds drift: made while referenced, the count farther from the limit's value than the slack (R40). -/
def drifts (c : Cfg) (pos : Position) (t : Trm) : Bool :=
  match limitValue c pos with
  | none => false
  | some v => t.ref && decide (c.overrunSlack < (t.count - v).natAbs)

/-- What a change of the position state hands on (R51): the reference and the figure with the position state, in one offer, then
the alarm of a drift, with the state and the count already set. -/
def handPosition (drift : Bool) (s : State) : State :=
  let s1 := offer s
  if drift then alarm (.occurred .positionFault) s1 else s1

/-- A condition whose timer had passed its limit is cleared when the timer is stopped or started afresh (R35, R36). -/
def clearWatch (k : AlarmKind) (before after : Watch) (s : State) : State :=
  if before.isPast && !after.isPast then alarm (.becameFalse k) s else s

/-- A debounced limit has changed and the travel monitor runs (R34 to R36, R40, R51). DESIGN CHOICE (log 5): the alarms of a
drift and of the limit timers are raised before the door control unit acts on the arrival. -/
def limitActs (limit : Limit) (s : State) : State :=
  let t := s.trm
  let pos := positionOf s.deb
  let discord := discordAfter limit s.deb t.discord
  let conflict := conflictAfter t.pos pos t.conflict
  if pos = t.pos then
    clearWatch .limitDiscord t.discord discord (setTrm { t with discord := discord } s)
  else
    let s1 := setTrm (arrive s.conf pos { t with discord := discord, conflict := conflict }) s
    let s2 := handPosition (drifts s.conf pos t) s1
    let s3 := clearWatch .limitConflict t.conflict conflict (clearWatch .limitDiscord t.discord discord s2)
    doorEvent onPosition s3

/-- LIMIT_DEBOUNCED_CHANGE (R33 to R36, R40). -/
def execLimitDebouncedChange (limit : Limit) (made : Bool) (s : State) : Host.Outcome State Fault Refusal :=
  if s.limitIgnored limit.lead || s.deb.get limit.lead == made then .next s
  else
    let s1 := setDebounced limit.lead made s
    if s1.trm.running then finish (limitActs limit s1)
    else finish { s1 with trm := { s1.trm with pos := positionOf s1.deb } }

/-- DISCORD_TIMER_EXPIRY (R35). -/
def execDiscordTimerExpiry (s : State) : Host.Outcome State Fault Refusal :=
  if s.trm.discord.isRunning then
    finish (alarm (.becameTrue .limitDiscord)
      { s with trm := { s.trm with discord := s.trm.discord.expire s.conf.discordTime } })
  else .next s

/-- CONFLICT_TIMER_EXPIRY (R36). -/
def execConflictTimerExpiry (s : State) : Host.Outcome State Fault Refusal :=
  if s.trm.conflict.isRunning then
    finish (alarm (.becameTrue .limitConflict)
      { s with trm := { s.trm with conflict := s.trm.conflict.expire s.conf.discordTime } })
  else .next s

/-! ### Position pulses -/

/-- A pulse would carry a referenced count past its bound (R39). -/
def overruns (c : Cfg) (opening : Bool) (t : Trm) : Bool :=
  t.ref && t.pos != .closed && t.pos != .opened &&
    (if opening then decide ((c.travelCount : Int) ≤ t.count) else decide (t.count ≤ 0))

/-- The count after a pulse (R38, R39, R41): held at a limit or a bound while referenced, free between its outer bounds
while not. -/
def countAfter (c : Cfg) (opening : Bool) (t : Trm) : Int :=
  if t.ref then
    if t.pos = .closed ∨ t.pos = .opened ∨ overruns c opening t = true then t.count
    else if opening then t.count + 1 else t.count - 1
  else if opening then min (t.count + 1) 32767 else max (t.count - 1) (-32768)

/-- The travel monitor after a pulse has reached the count, the stall window and the hand-move window (R37 to R39, R41,
R43, R47, R49). -/
def pulse (c : Cfg) (opening : Bool) (t : Trm) : Trm :=
  let beyond := overruns c opening t
  let tally := if beyond then t.overrun + 1 else t.overrun
  let drop := beyond && decide (c.overrunSlack < tally)
  { t with
    count := countAfter c opening t
    overrun := tally
    ref := t.ref && !drop
    slow := t.slow || (drop && t.stroke.isSome)
    stall := t.stall.map (fun w => { w with tally := w.tally + 1 })
    hand := t.hand.map (fun w => { w with tally := w.tally + 1 }) }

/-- The pulse brings the hand-move tally to the stall minimum (R50). -/
def handMoves (c : Cfg) (t : Trm) : Bool := t.hand.any (fun w => w.tally + 1 == c.stallMin)

/-- A pulse is taken (R37 to R43, R50): the figure is handed on first (R51). DESIGN CHOICE (log 5): where one pulse raises both,
POSITION_FAULT enters the alarm list before HAND_MOVE. -/
def takePulse (opening : Bool) (s : State) : State :=
  let old := positionFigure s
  let t := pulse s.conf opening s.trm
  let s1 := offerFigure old (setTrm t s)
  let s2 := if s.trm.ref && !t.ref then alarm (.occurred .positionFault) s1 else s1
  if handMoves s.conf s.trm then alarm (.occurred .handMove) s2 else s2

/-- POSITION_PULSE (R37): taken while running, 200 µs or more after the last edge that was taken. -/
def execPositionPulse (pdrHigh : Bool) (sinceTakenNs : Nat) (s : State) : Host.Outcome State Fault Refusal :=
  if s.trm.running && decide (Config.pulseGapNs ≤ sinceTakenNs) then finish (takePulse pdrHigh s) else .next s

/-! ### Strokes and windows -/

/-- The stroke timer has passed the maximum of its direction and stops counting (R44). -/
def passMaximum (limitMs : Nat) (s : State) : State :=
  { s with trm := { s.trm with strokeTimer := s.trm.strokeTimer.expire limitMs } }

/-- CLOSE_MAXIMUM_PASSED (R45): CLOSE_TIMEOUT, and the stroke goes on. -/
def execCloseMaximumPassed (s : State) : Host.Outcome State Fault Refusal :=
  if s.trm.stroke = some .closing ∧ s.trm.strokeTimer.isRunning = true then
    finish (alarm (.becameTrue .closeTimeout) (passMaximum (s.conf.closeMax * 1000) s))
  else .next s

/-- The finding that has stopped an open stroke is kept for the other of R48. -/
def setFinding (f : Option Finding) (s : State) : State := { s with trm := { s.trm with finding := f } }

/-- The stall window a timeout cuts off, kept as its finding. -/
def timeoutFinding (t : Trm) : Option Finding := t.stall.map .timeout

/-- OPEN_MAXIMUM_PASSED (R46): OPEN_TIMEOUT and the stop (R23). Where a STALL has stopped the stroke at this moment, the
alarm alone (R48). -/
def execOpenMaximumPassed (s : State) : Host.Outcome State Fault Refusal :=
  if s.trm.stroke = some .opening ∧ s.trm.strokeTimer.isRunning = true then
    let s1 := setFinding (timeoutFinding s.trm) (passMaximum (s.conf.openMax * 1000) s)
    finish (doorEvent onStop (alarm (.occurred .openTimeout) s1))
  else if s.trm.finding = some .stall then
    finish (alarm (.occurred .openTimeout) (setFinding none s))
  else .next s

/-- A window has stalled: judged, as window 1 is not, with a tally below the stall minimum (R47). -/
def stalls (c : Cfg) (w : StallWindow) : Bool := w.number != 1 && decide (w.tally < c.stallMin)

/-- A stall window has ended with its stroke running: the next starts (R47), and a stall raises STALL and stops an open
stroke (R48, R23). -/
def windowEnds (w : StallWindow) (s : State) : State :=
  let s1 := { s with trm := { s.trm with stall := some ⟨0, w.number + 1, 0⟩ } }
  if stalls s.conf w then
    if s.trm.stroke = some .opening then
      doorEvent onStop (alarm (.occurred .stall) (setFinding (some .stall) s1))
    else alarm (.occurred .stall) s1
  else s1

/-- STALL_WINDOW_END (R47, R48). Where OPEN_TIMEOUT has stopped the stroke at this moment, the window it cut off is judged
and adds its alarm alone (R48). -/
def execStallWindowEnd (s : State) : Host.Outcome State Fault Refusal :=
  match s.trm.stall, s.trm.finding with
  | some w, _ => finish (windowEnds w s)
  | none, some (.timeout w) =>
    let s1 := setFinding none s
    if stalls s.conf w then finish (alarm (.occurred .stall) s1) else .next s1
  | none, _ => .next s

/-- HAND_MOVE_ARMING_EXPIRY (R49). -/
def execHandMoveArmingExpiry (s : State) : Host.Outcome State Fault Refusal :=
  if s.trm.arming.isSome then .next { s with trm := { s.trm with arming := none, hand := some ⟨0, 0⟩ } }
  else .next s

/-- HAND_MOVE_WINDOW_END (R49): windows follow one another without gaps. -/
def execHandMoveWindowEnd (s : State) : Host.Outcome State Fault Refusal :=
  if s.trm.hand.isSome then .next { s with trm := { s.trm with hand := some ⟨0, 0⟩ } } else .next s

end Sys2Proof.Machine
end

