-- ==== Sys2Proof/Machine/Dispatch.lean ====
section
/-! DEFINITION. One arm for each command of the table, in its order: each is one direct call of its meaning. -/

namespace Sys2Proof.Machine

/-- The effect of a command on everything but the queue. -/
def exec (i : Instr) (s : State) : Host.Outcome State Fault Refusal :=
  match i with
  | .reset leads straps => Sys2Proof.Machine.execReset leads straps s
  | .configAddressNotAcked => Sys2Proof.Machine.execConfigAddressNotAcked s
  | .configRetryWaitExpiry => Sys2Proof.Machine.execConfigRetryWaitExpiry s
  | .configReadDone image keys => Sys2Proof.Machine.execConfigReadDone image keys s
  | .listenTimerExpiry => Sys2Proof.Machine.execListenTimerExpiry s
  | .flashEdge => Sys2Proof.Machine.execFlashEdge s
  | .levelInputEdge lead made => Sys2Proof.Machine.execLevelInputEdge lead made s
  | .limitDebouncedChange limit made => Sys2Proof.Machine.execLimitDebouncedChange limit made s
  | .lcPressed side => Sys2Proof.Machine.execLcPressed side s
  | .lcReleased side => Sys2Proof.Machine.execLcReleased side s
  | .loPressed side => Sys2Proof.Machine.execLoPressed side s
  | .loReleased side => Sys2Proof.Machine.execLoReleased side s
  | .warningTimerExpiry => Sys2Proof.Machine.execWarningTimerExpiry s
  | .pauseTimerExpiry valve => Sys2Proof.Machine.execPauseTimerExpiry valve s
  | .heldOpenLimit => Sys2Proof.Machine.execHeldOpenLimit s
  | .discordTimerExpiry => Sys2Proof.Machine.execDiscordTimerExpiry s
  | .conflictTimerExpiry => Sys2Proof.Machine.execConflictTimerExpiry s
  | .positionPulse pdrHigh sinceTakenNs => Sys2Proof.Machine.execPositionPulse pdrHigh sinceTakenNs s
  | .closeMaximumPassed => Sys2Proof.Machine.execCloseMaximumPassed s
  | .openMaximumPassed => Sys2Proof.Machine.execOpenMaximumPassed s
  | .stallWindowEnd => Sys2Proof.Machine.execStallWindowEnd s
  | .handMoveArmingExpiry => Sys2Proof.Machine.execHandMoveArmingExpiry s
  | .handMoveWindowEnd => Sys2Proof.Machine.execHandMoveWindowEnd s
  | .pfqPulse sinceTakenNs => Sys2Proof.Machine.execPfqPulse sinceTakenNs s
  | .gateEnd => Sys2Proof.Machine.execGateEnd s
  | .mainsDebouncedChange made => Sys2Proof.Machine.execMainsDebouncedChange made s
  | .pumpRunLimit => Sys2Proof.Machine.execPumpRunLimit s
  | .claimHoldExpiry => Sys2Proof.Machine.execClaimHoldExpiry s
  | .alarmAgeTick kind => Sys2Proof.Machine.execAlarmAgeTick kind s
  | .telegramTaken => Sys2Proof.Machine.execTelegramTaken s
  | .entryGoesStale station => Sys2Proof.Machine.execEntryGoesStale station s
  | .laneHeardAgeLimit station lane => Sys2Proof.Machine.execLaneHeardAgeLimit station lane s
  | .spacingTimerEnd => Sys2Proof.Machine.execSpacingTimerEnd s
  | .refreshTimerExpiry => Sys2Proof.Machine.execRefreshTimerExpiry s
  | .identTimerExpiry => Sys2Proof.Machine.execIdentTimerExpiry s
  | .laneQuiet lane => Sys2Proof.Machine.execLaneQuiet lane s
  | .dominantEdgeQuietLane lane => Sys2Proof.Machine.execDominantEdgeQuietLane lane s
  | .startMarkMeasured lane lengthNs => Sys2Proof.Machine.execStartMarkMeasured lane lengthNs s
  | .arbitrationByteReceived lane levels => Sys2Proof.Machine.execArbitrationByteReceived lane levels s
  | .arbitrationLost lane => Sys2Proof.Machine.execArbitrationLost lane s
  | .bitError lane readBack => Sys2Proof.Machine.execBitError lane readBack s
  | .withdrawalEnd lane => Sys2Proof.Machine.execWithdrawalEnd lane s
  | .telegramSendComplete lane heard => Sys2Proof.Machine.execTelegramSendComplete lane heard s
  | .telegramReceiveComplete lane rest => Sys2Proof.Machine.execTelegramReceiveComplete lane rest s
  | .receptionCutShort lane rest => Sys2Proof.Machine.execReceptionCutShort lane rest s
  | .lineStuck lane => Sys2Proof.Machine.execLineStuck lane s
  | .silenceTimerExpiry lane => Sys2Proof.Machine.execSilenceTimerExpiry lane s
  | .keyScan keys => Sys2Proof.Machine.execKeyScan keys s
  | .groupClosePress group => Sys2Proof.Machine.execGroupClosePress group s
  | .modeSelectorChange made => Sys2Proof.Machine.execModeSelectorChange made s
  | .ackPress => Sys2Proof.Machine.execAckPress s
  | .silencePress => Sys2Proof.Machine.execSilencePress s
  | .lampTestPress => Sys2Proof.Machine.execLampTestPress s
  | .lampTestRelease => Sys2Proof.Machine.execLampTestRelease s
  | .keyRelease position => Sys2Proof.Machine.execKeyRelease position s
  | .lampTestTimeout => Sys2Proof.Machine.execLampTestTimeout s
  | .keyHeldLimit position => Sys2Proof.Machine.execKeyHeldLimit position s
  | .modeConflictTimerExpiry => Sys2Proof.Machine.execModeConflictTimerExpiry s
  | .lampFrame => Sys2Proof.Machine.execLampFrame s
  | .diagAddress byte => Sys2Proof.Machine.execDiagAddress byte s
  | .diagStop => Sys2Proof.Machine.execDiagStop s
  | .diagOutOfSequence => Sys2Proof.Machine.execDiagOutOfSequence s
  | .diagSubaddress byte => Sys2Proof.Machine.execDiagSubaddress byte s
  | .pageSelect byte => Sys2Proof.Machine.execPageSelect byte s
  | .counterClear byte => Sys2Proof.Machine.execCounterClear byte s
  | .diagWriteRefused byte => Sys2Proof.Machine.execDiagWriteRefused byte s
  | .diagReadCopy => Sys2Proof.Machine.execDiagReadCopy s
  | .diagReadByte acked => Sys2Proof.Machine.execDiagReadByte acked s
  | .captureAgeTick => Sys2Proof.Machine.execCaptureAgeTick s
  | .arbitrationWon lane => Sys2Proof.Machine.execArbitrationWon lane s
  | .csdLowAfterNineClocks => Sys2Proof.Machine.execCsdLowAfterNineClocks s

end Sys2Proof.Machine
end

