-- ==== Sys2Proof/Machine/Time.lean ====
section
/-! DEFINITION. The part's own clock (1.7): one millisecond of every timer, and the expiries that have become due. A step
on an empty queue takes the first due expiry, and lets a millisecond pass where none is due (log 2). -/

namespace Sys2Proof.Machine

/-! ### One millisecond -/

/-- A running timer one ms later. -/
def later (t : Option Nat) : Option Nat := t.map (· + 1)

/-- A timer that counts down, one ms later. -/
def sooner (t : Option Nat) : Option Nat := t.map (· - 1)

/-- A timer that stops past its limit, one ms later. -/
def Watch.later : Watch → Watch
  | .running ms => .running (ms + 1)
  | w => w

/-- The debounces one ms later. -/
def settleLater (p : PerLead (Option Nat)) : PerLead (Option Nat) where
  cla := later p.cla
  clb := later p.clb
  olm := later p.olm
  loa := later p.loa
  lob := later p.lob
  lca := later p.lca
  lcb := later p.lcb
  mains := later p.mains

/-- The timers of start-up control one ms later. -/
def Suc.later (u : Suc) : Suc :=
  { u with listenTimer := Machine.later u.listenTimer, retryWait := Machine.later u.retryWait }

/-- The timers of the door control unit one ms later. -/
def Dcu.later (d : Dcu) : Dcu :=
  { d with
    warnTimer := sooner d.warnTimer
    vclPause := Machine.later d.vclPause
    vopPause := Machine.later d.vopPause
    held := d.held.later }

/-- The timers of the travel monitor one ms later; the moment of a finding (R48) is past. -/
def Trm.later (t : Trm) : Trm :=
  { t with
    discord := t.discord.later
    conflict := t.conflict.later
    strokeTimer := t.strokeTimer.later
    stall := t.stall.map (fun w => { w with ms := w.ms + 1 })
    finding := none
    arming := Machine.later t.arming
    hand := t.hand.map (fun w => { w with ms := w.ms + 1 }) }

/-- An age in ms, saturating (R108). -/
def agedMs (n : Nat) : Nat := min (n + 1) 65535

/-- The ages of an entry one ms later (R108). -/
def Entry.later (e : Entry) : Entry :=
  { e with age := agedMs e.age, heardA := agedMs e.heardA, heardB := agedMs e.heardB }

/-- The timers of a keeper one ms later. -/
def Keeper.later {α : Type} (k : Keeper α) : Keeper α :=
  { k with spacing := Machine.later k.spacing, refresh := Machine.later k.refresh }

/-- The timers of the snapshot unit one ms later. -/
def Snu.later (n : Snu) : Snu where
  state := n.state.later
  demand := n.demand.later
  ident := { n.ident with timer := Machine.later n.ident.timer }

/-- The timers of a lane one ms later; an accept slot that was driven is over, as it lasts less than a cell (R146). -/
def Lane.later (l : Lane) : Lane :=
  { l with silence := Machine.later l.silence, withdraw := Machine.later l.withdraw, slot := false }

/-- The timers of the panel unit one ms later: frames until a door configuration is accepted, scans while running (R153,
R154, R159). -/
def Pnu.later (frames : Bool) (p : Pnu) : Pnu :=
  { p with
    scanTimer := if p.running then p.scanTimer + 1 else p.scanTimer
    heldKeys := p.heldKeys.map (·.later)
    lampTest := Machine.later p.lampTest
    conflict := p.conflict.later
    frameTimer := if frames then p.frameTimer + 1 else p.frameTimer }

/-- A record of the alarm list one ms later. -/
def AlarmRecord.later (r : AlarmRecord) : AlarmRecord := { r with ms := r.ms + 1 }

/-- The capture one ms later. -/
def Capture.later (c : Capture) : Capture := { c with ms := c.ms + 1 }

/-- One millisecond passes: every running timer and every age counts, nothing else changes. -/
def tick (s : State) : State :=
  { s with
    settle := settleLater s.settle
    flash := { s.flash with ms := s.flash.ms + 1 }
    suc := s.suc.later
    dcu := s.dcu.later
    trm := s.trm.later
    enu := { s.enu with gate := later s.enu.gate, run := later s.enu.run }
    psu := { s.psu with claimTimer := sooner s.psu.claimTimer }
    alu := s.alu.map (·.later)
    ste := { s.ste with table := s.ste.table.map (·.later) }
    snu := s.snu.later
    laneA := s.laneA.later
    laneB := s.laneB.later
    pnu := s.pnu.later (!s.doorRuns)
    dgp := { s.dgp with capture := s.dgp.capture.map (·.later) } }

/-! ### What is due -/

/-- A watch that still runs has reached a limit. -/
def Watch.reached (w : Watch) (limit : Nat) : Bool :=
  match w with
  | .running ms => limit ≤ ms
  | _ => false

/-- A command if a condition holds. -/
def dueIf (b : Bool) (c : Instr) : List Instr := if b then [c] else []

/-- The command that takes a debounced change of a lead to a level. -/
def settledCommand (made : Bool) : Lead → Instr
  | .cla => .limitDebouncedChange .cla made
  | .clb => .limitDebouncedChange .clb made
  | .olm => .limitDebouncedChange .olm made
  | .loa => if made then .loPressed .a else .loReleased .a
  | .lob => if made then .loPressed .b else .loReleased .b
  | .lca => if made then .lcPressed .a else .lcReleased .a
  | .lcb => if made then .lcPressed .b else .lcReleased .b
  | .mains => .mainsDebouncedChange made

/-- A lead has stood at a new level for 40 ms. -/
def dueLead (s : State) (l : Lead) : List Instr :=
  dueIf (reached (s.settle.get l) Config.debounceMs && s.lead.get l != s.deb.get l && !s.limitIgnored l)
    (settledCommand (s.lead.get l) l)

/-- The due changes of the debounced leads. -/
def dueLeads (s : State) : List Instr :=
  dueLead s .cla ++ dueLead s .clb ++ dueLead s .olm ++ dueLead s .loa ++ dueLead s .lob ++ dueLead s .lca ++
    dueLead s .lcb ++ dueLead s .mains

/-- The due expiries of start-up control and of the flash timing. -/
def dueStart (s : State) : List Instr :=
  dueIf (reached s.suc.retryWait Config.retryWaitMs) .configRetryWaitExpiry ++
  dueIf (s.suc.startUp == .listen && reached s.suc.listenTimer (4 * s.refreshMs)) .listenTimerExpiry ++
  dueIf (decide (Config.fastFlashMs ≤ s.flash.ms)) .flashEdge

/-- The due expiries of the door control unit and of the passage unit. -/
def dueDoor (s : State) : List Instr :=
  dueIf (s.dcu.ctl == .warning && s.dcu.warnTimer == some 0) .warningTimerExpiry ++
  dueIf (reached s.dcu.vclPause (pauseMs s)) (.pauseTimerExpiry .vcl) ++
  dueIf (reached s.dcu.vopPause (pauseMs s)) (.pauseTimerExpiry .vop) ++
  dueIf (s.dcu.held.reached (s.conf.passageMax * 1000 + 1)) .heldOpenLimit ++
  dueIf (s.psu.phase == .fresh && s.psu.claimTimer == some 0) .claimHoldExpiry

/-- A window that a timeout cut off ended at the same moment (R48). -/
def findingEnds : Option Finding → Bool
  | some (.timeout w) => Config.windowMs ≤ w.ms
  | _ => false

/-- The due expiries of the travel monitor. The stroke timer passes its maximum at the ms that reaches it, so that a stall
window can end at the same moment (R48; DEDUCED, log 10). -/
def dueTravel (s : State) : List Instr :=
  dueIf (s.trm.discord.reached s.conf.discordTime) .discordTimerExpiry ++
  dueIf (s.trm.conflict.reached s.conf.discordTime) .conflictTimerExpiry ++
  dueIf (s.trm.stroke == some .closing && s.trm.strokeTimer.reached (s.conf.closeMax * 1000)) .closeMaximumPassed ++
  dueIf (s.trm.stroke == some .opening && s.trm.strokeTimer.reached (s.conf.openMax * 1000)) .openMaximumPassed ++
  dueIf (reached (s.trm.stall.map (·.ms)) Config.windowMs || (s.trm.stall.isNone && findingEnds s.trm.finding))
    .stallWindowEnd ++
  dueIf (reached s.trm.arming Config.armingMs) .handMoveArmingExpiry ++
  dueIf (reached (s.trm.hand.map (·.ms)) Config.windowMs) .handMoveWindowEnd

/-- The due expiries of the energy unit. -/
def dueEnergy (s : State) : List Instr :=
  dueIf (s.enu.pumpOn && reached s.enu.run (s.conf.pumpMax * 1000)) .pumpRunLimit ++
  dueIf (s.enu.running && reached s.enu.gate Config.gateMs) .gateEnd

/-- The seconds of the alarm list that are due. -/
def dueAlarms (s : State) : List Instr :=
  (s.alu.filter (fun r => 1000 ≤ r.ms)).map (fun r => .alarmAgeTick r.kind)

/-- The due limits of one LIVE entry: staleness, or a lane-heard age that changes its marking. -/
def dueEntry (limit : Nat) (e : Entry) : List Instr :=
  dueIf (e.live && decide (limit ≤ e.age)) (.entryGoesStale e.num) ++
  dueIf (e.live && decide (limit ≤ e.heardA) && singleNow limit e != e.single) (.laneHeardAgeLimit e.num .a) ++
  dueIf (e.live && decide (limit ≤ e.heardB) && singleNow limit e != e.single) (.laneHeardAgeLimit e.num .b)

/-- What is due at the station table: a telegram to take, and the entries' limits. -/
def dueTable (s : State) : List Instr :=
  if s.suc.startUp.running then
    dueIf (!s.rxq.queue.isEmpty) .telegramTaken ++ (s.ste.table.map (dueEntry s.staleMs)).flatten
  else []

/-- The due expiries of the snapshot unit. -/
def dueSnapshot (s : State) : List Instr :=
  if s.suc.startUp = .joined then
    dueIf (reached (ownRefresh s) s.refreshMs) .refreshTimerExpiry ++
    dueIf (reached (ownSpacing s).1 Config.spacingMs) .spacingTimerEnd ++
    dueIf (reached s.snu.ident.timer (10 * s.refreshMs)) .identTimerExpiry
  else []

/-- The due expiries of one lane. -/
def dueLane (s : State) (id : LaneId) : List Instr :=
  if s.suc.startUp.running then
    dueIf ((s.lane id).activity == .withdrawn && reached (s.lane id).withdraw Config.withdrawalMs) (.withdrawalEnd id) ++
    dueIf (reached (s.lane id).silence s.staleMs) (.silenceTimerExpiry id)
  else []

/-- The command that takes a debounced change of a key to a level. -/
def keyCommand (key : Nat) (made : Bool) : Instr :=
  if key < 16 then (if made then .groupClosePress (key + 1) else .keyRelease key)
  else if key = 16 then .modeSelectorChange made
  else if key = 17 then (if made then .ackPress else .keyRelease key)
  else if key = 18 then (if made then .silencePress else .keyRelease key)
  else (if made then .lampTestPress else .lampTestRelease)

/-- What is due at one key: its debounced change, or its held limit. -/
def dueKey (p : Pnu) (key : Nat) : List Instr :=
  dueIf (decide (Config.debounceScans ≤ p.scans.getD key 0)) (keyCommand key (!p.made key)) ++
  dueIf ((p.heldKeys.getD key .stopped).reached Config.keyHeldMs) (.keyHeldLimit key)

/-- What is due at the panel unit. -/
def duePanel (s : State) : List Instr :=
  (if s.panelOn then
    ((List.range 20).map (dueKey s.pnu)).flatten ++
    dueIf (decide (Config.scanMs ≤ s.pnu.scanTimer)) (.keyScan s.pnu.contacts) ++
    dueIf (reached s.pnu.lampTest Config.lampTestMs) .lampTestTimeout ++
    dueIf (s.pnu.conflict.reached Config.modeConflictMs) .modeConflictTimerExpiry
  else []) ++
  dueIf (!s.doorRuns && decide (Config.frameMs ≤ s.pnu.frameTimer)) .lampFrame

/-- What is due at the diagnostic port: the read copy while DSC is held (R177), and the capture's second (R179). -/
def dueDiag (s : State) : List Instr :=
  dueIf (s.dgp.port == .addressedRead && s.dgp.copy.isNone) .diagReadCopy ++
  dueIf (s.dgp.capture.any (fun c => 1000 ≤ c.ms)) .captureAgeTick

/-- Every expiry that is due, in the order they are taken. DESIGN CHOICE (log 1): the manual leaves the order of events of
one moment open. -/
def dueAll (s : State) : List Instr :=
  dueStart s ++ dueLeads s ++ dueTable s ++ dueTravel s ++ dueDoor s ++ dueEnergy s ++ dueSnapshot s ++
    dueLane s .a ++ dueLane s .b ++ duePanel s ++ dueAlarms s ++ dueDiag s

/-- The expiry that is taken next. -/
def due (s : State) : Option Instr := (dueAll s).head?

end Sys2Proof.Machine
end

