-- ==== Sys2Proof/Machine/Step.lean ====
section
/-! DEFINITION. One step: the command at the front of the queue, or on an empty queue the part's own clock. -/

namespace Sys2Proof.Machine

/-- One step. A command that waits is taken from the front and executed with the rest of the queue left; it takes no time.
On an empty queue the part's own clock acts in place of idling: the first due expiry, or one ms passes. DESIGN CHOICE
(log 2). -/
def step (s : State) : Host.Outcome State Fault Refusal :=
  match s.pending with
  | c :: rest => exec c { s with pending := rest }
  | [] =>
    match due s with
    | some c => exec c s
    | none => .next (tick s)

/-- The state with the command a word spells put at the front of its queue. No word spells one (log 8). -/
def State.withFetchWord (s : State) (nbits w : Nat) : State :=
  match decodeTableWord nbits w with
  | some c => { s with pending := c :: s.pending }
  | none => s

end Sys2Proof.Machine
end

