-- ==== Sys2Proof/Safety.lean ====
section
/-! DEFINITION. The terms claims are made in: what a command may hand on beside its own effect, the parts of the state it
leaves alone, and the invariants every step keeps. -/

namespace Sys2Proof.Machine

/-! ### What is handed on -/

/-- A lane as it was, or an idle and quiet one that has begun a telegram because a snapshot was made (R134, R138). -/
def LaneHanded (l l' : Lane) : Prop :=
  l' = l ∨ (l.activity = .idle ∧ l.quiet = true ∧ ∃ c, l' = beginTelegram l c)

/-- A class as it was; or, with its spacing not ended, with a change pending; or, with its spacing ended, with one new
snapshot made and perhaps a later change pending (R125, R128). -/
def KeeperHanded {α : Type} (k k' : Keeper α) : Prop :=
  k' = k ∨ (k.ready = false ∧ k' = { k with pending := true }) ∨
    (k.ready = true ∧ ∃ c b, k' = { k.make c with pending := b })

/-- An energy unit in which pump control and the lock alone may differ (R64, R66). -/
def PumpHanded (e e' : Enu) : Prop := e' = { e with pumpOn := e'.pumpOn, run := e'.run, locked := e'.locked }

/-- A panel unit in which the silence flag, PSND and the patterns alone may differ (R97). -/
def PanelHanded (p p' : Pnu) : Prop :=
  p' = { p with silence := p'.silence, psnd := p'.psnd, patterns := p'.patterns }

/-- What alarm requests, offers and door events may hand on outside the door's own blocks and the alarm list, and no more:
at most one snapshot of the own class and the telegrams that begin with it, in JOINED alone (R128, R134); pump control and the lock in
a running door (R96); the panel's lamps and sounder outside one (R97). Leads, flash timing, start-up control, station table,
receive queue, diagnostic port and the commands that wait are as they were. -/
structure HandsOn (s t : State) : Prop where
  lead : t.lead = s.lead
  deb : t.deb = s.deb
  settle : t.settle = s.settle
  flash : t.flash = s.flash
  suc : t.suc = s.suc
  ste : t.ste = s.ste
  rxq : t.rxq = s.rxq
  dgp : t.dgp = s.dgp
  pending : t.pending = s.pending
  laneA : LaneHanded s.laneA t.laneA
  laneB : LaneHanded s.laneB t.laneB
  silent : s.suc.startUp ≠ .joined → t.snu = s.snu ∧ t.laneA = s.laneA ∧ t.laneB = s.laneB
  ident : t.snu.ident = s.snu.ident
  demand : s.conf.role = .door → t.snu.demand = s.snu.demand
  state : s.conf.role = .panel → t.snu.state = s.snu.state
  demandOnce : KeeperHanded s.snu.demand t.snu.demand
  stateOnce : KeeperHanded s.snu.state t.snu.state
  pump : PumpHanded s.enu t.enu
  pumpDoor : s.doorRuns = false → t.enu = s.enu
  panel : PanelHanded s.pnu t.pnu
  panelOut : s.doorRuns = true → t.pnu = s.pnu

/-- The door's own blocks are as they were: door control, travel, passage. -/
structure DoorKept (s t : State) : Prop where
  dcu : t.dcu = s.dcu
  trm : t.trm = s.trm
  psu : t.psu = s.psu

/-! ### A move of the door -/

/-- Several requests in order (R97). -/
def applyRequests (qs : List AlarmRequest) (l : List AlarmRecord) : List AlarmRecord :=
  qs.foldl (fun l q => applyRequest q l) l

/-- A request made under a condition. -/
def asked (b : Bool) (q : AlarmRequest) : List AlarmRequest := if b then [q] else []

/-- The valves and pause timers that a control state gives (R27, R28): a valve outside its state is off, and switching it off
restarts the other valve's pause; a valve in its state stays on, or comes on when its pause has expired, the other valve was
off and, for VOP, the permission to continue is held. -/
def Dcu.driven (permCont : Bool) (d : Dcu) : Dcu :=
  { d with
    vcl := d.ctl == .closing && (d.vcl || (!d.vop && d.vclPause.isNone))
    vop := d.ctl == .opening && (d.vop || (!d.vcl && d.vopPause.isNone && permCont))
    vclPause := if d.vop && d.ctl != .opening then some 0 else d.vclPause
    vopPause := if d.vcl && d.ctl != .closing then some 0 else d.vopPause }

/-- VSL by the table of R43. -/
def Trm.slowed (c : Cfg) (t : Trm) : Trm := { t with vsl := vslFor c t }

/-- The travel monitor after a stroke-end notice (R44). -/
def Trm.strokeEnds (c : Cfg) (t : Trm) : Trm :=
  { t with stroke := none, strokeTimer := .stopped, slow := false, stall := none, arming := some 0 }.slowed c

/-- The travel monitor after a stroke-start notice (R43, R44). -/
def Trm.strokeBegins (c : Cfg) (d : Dir) (t : Trm) : Trm :=
  { t with
    stroke := some d
    strokeTimer := .running 0
    slow := !t.ref
    stall := some ⟨0, 1, 0⟩
    finding := none
    arming := none
    hand := none }.slowed c

/-- A valve has been switched off. -/
def switchedOff (before after : Dcu) : Bool := (before.vcl && !after.vcl) || (before.vop && !after.vop)

/-- The travel monitor after the valves have changed: a stroke ends with its valve and begins with its valve (R28, R44). -/
def Trm.driven (c : Cfg) (before after : Dcu) (t : Trm) : Trm :=
  let u := if switchedOff before after then t.strokeEnds c else t
  if !before.vcl && after.vcl then u.strokeBegins c .closing
  else if !before.vop && after.vop then u.strokeBegins c .opening
  else u

/-- The door has moved from the control state of `s` to that of `d`, and nothing else has come about: the items of `d`, which
come with the valves as they stood, with the valves they give; the strokes the valves give; the claim that CLAIMING begins and leaving it ends (R70, R77); CLOSE_TIMEOUT
cleared at the end of the stroke that raised it (R45), OPEN_TOO_LONG on leaving HELD_OPEN (R25), PASSAGE_EXCESS judged afresh
(R80); the pins following (R29, R30); and what these hand on. -/
structure Moved (s : State) (d : Dcu) (t : State) : Prop where
  dcu : t.dcu = d.driven s.enu.permCont
  trm : t.trm = s.trm.driven s.conf d t.dcu
  psu : t.psu = { claimFor s.conf.claimHold s.dcu.ctl d.ctl s.psu with excess := excessNow t }
  alu : t.alu = applyRequests
    (asked (switchedOff d t.dcu && s.trm.stroke == some .closing && s.trm.strokeTimer.isPast)
        (.becameFalse .closeTimeout) ++
      asked (s.dcu.ctl == .heldOpen && d.ctl != .heldOpen && s.dcu.held.isPast) (.becameFalse .openTooLong) ++
      asked (excessNow t != s.psu.excess) (condition .passageExcess (excessNow t))) s.alu
  enu : t.enu = s.enu
  outs : t.outs = outsFor t
  hands : HandsOn s t

/-! ### The table and the lanes -/

/-- What a change of the station table may hand on (R111 to R114): as `HandsOn`, from the state that has the new table and its
derivations, the receive queue as it now stands, and at a panel the summaries, the sets last seen and the mode disagreement. -/
def TableHands (s t : State) : Prop :=
  HandsOn { s with
    ste := t.ste
    rxq := t.rxq
    pnu := { s.pnu with summaries := t.pnu.summaries, lastSeen := t.pnu.lastSeen, conflict := t.pnu.conflict } } t

/-- Every entry but one number's is as it was. -/
def OthersKept (n : Nat) (s t : State) : Prop := ∀ m, m ≠ n → entryOf t m = entryOf s m

/-- A lane that looks for work: idle and quiet, it begins what it has (R132, R138). -/
def Lane.offered (n : Snu) (l : Lane) : Lane :=
  if l.activity = .idle ∧ l.quiet = true then
    match laneWork n l with
    | some c => beginTelegram l c
    | none => l
  else l

/-- A lane has come to `l` with its conditions, and nothing else has come about: the reported health follows (R151), LANE_FAULT is
raised or cleared when that changes between good and not good beside a good other lane, and what these hand on. -/
structure LaneMoved (id : LaneId) (l : Lane) (s t : State) : Prop where
  alu : t.alu = applyRequests
    (asked (((healthOf l == .good) != (l.health == .good)) && (s.lane id.other).good)
      (condition .laneFault (healthOf l != .good))) s.alu
  enu : t.enu = s.enu
  outs : t.outs = s.outs
  door : DoorKept s t
  hands : HandsOn (s.setLane id { l with health := healthOf l }) t

/-! ### Invariants -/

/-- The open permissions are those of the usable volume (R58, R59); outside LISTEN, JOINED and MUTE there is none (R52);
VOP is on only in OPENING and with the permission to continue held (R28). -/
structure OpeningFed (s : State) : Prop where
  start : s.enu.permStart = atLeast s.enu.u (startThreshold s.conf)
  cont : s.enu.permCont = atLeast s.enu.u (continueThreshold s.conf)
  runs : s.enu.running = true → s.suc.startUp.running = true
  stopped : s.suc.startUp.running = false → s.enu.u = none
  valve : s.dcu.vop = true → s.dcu.ctl = .opening ∧ s.enu.permCont = true
  close : s.dcu.vcl = true → s.dcu.ctl = .closing

/-- The pump runs only in a unit that runs, with mains, a pressure figure and no lock; a PUMP_FAIL record holds the lock
(R64, R66). The unit runs only in the door role (R52). -/
structure PumpGuarded (s : State) : Prop where
  runs : s.enu.running = true → s.doorRuns = true
  on : s.enu.pumpOn = true →
    s.enu.running = true ∧ s.deb.mains = true ∧ s.enu.p.isSome = true ∧ s.enu.locked = false
  lock : s.enu.locked = hasKind .pumpFail s.alu
  other : s.doorRuns = false → hasKind .pumpFail s.alu = false

/-- A lane that drives a telegram of its own: it contends, or holds a send copy (R138, R141). -/
def Lane.sends (l : Lane) : Prop := l.activity = .contending ∨ l.copy.isSome = true

/-- A send copy is held in CONTENDING and SENDING alone, and only a part in JOINED sends (R135). -/
structure SendsJoined (s : State) : Prop where
  copyA : s.laneA.copy.isSome = true → s.laneA.activity = .contending ∨ s.laneA.activity = .sending
  copyB : s.laneB.copy.isSome = true → s.laneB.activity = .contending ∨ s.laneB.activity = .sending
  joinedA : s.suc.startUp ≠ .joined → ¬ s.laneA.sends
  joinedB : s.suc.startUp ≠ .joined → ¬ s.laneB.sends

/-- The table is in rising order of station numbers 1 to 63, so no number twice, and the own number never among them (R99,
R102); it is empty until the part runs (R100). The receive queue holds at most four telegrams (R147), of such numbers. -/
structure TableOrdered (s : State) : Prop where
  rising : s.ste.table.Pairwise (fun e f => e.num < f.num)
  range : ∀ e ∈ s.ste.table, 1 ≤ e.num ∧ e.num ≤ 63
  own : ∀ e ∈ s.ste.table, e.num ≠ s.conf.station
  origins : ∀ t ∈ s.rxq.queue, 1 ≤ t.origin ∧ t.origin ≤ 63
  places : s.rxq.queue.length ≤ 4
  idle : s.suc.startUp.running = false → s.ste.table = []

/-- An event kind (R82). -/
def isEvent : AlarmKind → Bool
  | .openTimeout => true
  | .stall => true
  | .positionFault => true
  | .handMove => true
  | .pumpFail => true
  | _ => false

/-- The alarm list holds at most one record of each kind, counts 1 to 255, ages to 65535 s, and event records in
CLEARED_UNACKED alone (R88 to R90, 5.2). -/
structure AlarmsListed (s : State) : Prop where
  once : (s.alu.map (·.kind)).Nodup
  count : ∀ r ∈ s.alu, 1 ≤ r.count ∧ r.count ≤ 255
  age : ∀ r ∈ s.alu, r.age ≤ 65535
  event : ∀ r ∈ s.alu, isEvent r.kind = true → r.st = .clearedUnacked

/-- The position count keeps its bounds (2.1): 0 to the travel count while referenced, with the overrun tally no more than
the slack, and -32768 to 32767 while not. The monitor runs in every door that runs, and runs and is referenced only in a part that
runs (R32). -/
structure CountBounded (s : State) : Prop where
  referenced : s.trm.ref = true →
    0 ≤ s.trm.count ∧ s.trm.count ≤ s.conf.travelCount ∧ s.trm.overrun ≤ s.conf.overrunSlack
  free : s.trm.ref = false → -32768 ≤ s.trm.count ∧ s.trm.count ≤ 32767
  runs : s.trm.running = true → s.suc.startUp.running = true
  monitor : s.doorRuns = true → s.trm.running = true
  idle : s.suc.startUp.running = false → s.trm.ref = false
  travel : s.conf.travelCount ≤ 32767

/-- The door control unit is INACTIVE exactly while no door runs; a claim stands exactly in CLAIMING, its timer in FRESH,
and only in JOINED; WARNING, CLAIMING and HELD_OPEN are under closure demand; the limit flag is that of CD (R2, R26, R69,
R70, R77, R79). -/
structure ClaimsJoined (s : State) : Prop where
  inactive : s.dcu.ctl = .inactive ↔ s.doorRuns = false
  quietDemand : s.dcu.ctl = .inactive → s.dcu.cd = false
  claim : s.psu.phase ≠ .noClaim ↔ s.dcu.ctl = .claiming
  timer : s.psu.claimTimer.isSome = true ↔ s.psu.phase = .fresh
  joined : s.dcu.ctl = .claiming → s.suc.startUp = .joined
  demanded : s.dcu.ctl = .warning ∨ s.dcu.ctl = .claiming ∨ s.dcu.ctl = .heldOpen → s.dcu.cd = true
  limit : s.psu.inForce = limitFor s.conf s.dcu.cd

/-- The position state is that of the debounced limits (R34), and the pins are those of the state (R29, R30, R64). A stroke runs
exactly with its valve (R28, R44), and VSL, off without a stroke, is that of R43 in a door that runs. -/
structure PinsFollow (s : State) : Prop where
  position : s.trm.pos = positionOf s.deb
  pins : s.outs = outsFor s
  closing : s.trm.stroke = some .closing ↔ s.dcu.vcl = true
  opening : s.trm.stroke = some .opening ↔ s.dcu.vop = true
  fast : s.trm.stroke = none → s.trm.vsl = false
  slow : s.doorRuns = true → s.trm.vsl = vslFor s.conf s.trm

/-- The panel unit runs exactly in a panel that runs (R153). There the summaries are those of the table (R157, R158), every lamp has the
pattern of what stands (R160 to R162), and PSND is on exactly while an unacknowledged alarm exists and the silence flag is
clear, which is set only while one exists (R164, R165). Elsewhere both are off. -/
structure PanelShows (s : State) : Prop where
  running : s.pnu.running = s.panelRuns
  summaries : s.panelRuns = true → s.pnu.summaries = summariesOf s.ste.table
  patterns : s.panelRuns = true → s.pnu.patterns = lampPatterns s
  sounder : s.panelRuns = true → s.pnu.psnd = (alarmExists s && !s.pnu.silence)
  silence : s.panelRuns = true → s.pnu.silence = true → alarmExists s = true
  off : s.panelRuns = false → s.pnu.silence = false ∧ s.pnu.psnd = false

end Sys2Proof.Machine
end

