-- ==== Sys2Proof/Certificates/Slice0/Obligations.lean ====
section
/-! DEFINITION. The statements for the provers. Each docstring names the rules a statement comes from; where a clause rests on a
choice of the model, it names the log entry. -/

open Sys2Proof Sys2Proof.Machine

/-! ### Start-up -/

/-- RESET gives every block its value after reset, from any state (R2, R32, R52, R68, R91, R100, R124, R135, R147, R153, R169,
R175, R179): the debounced levels are loaded from the leads (R4, R33, R63), the port's address from the straps, both pauses run
with 1000 ms, every output is off, and the configuration port is freed, the memory addressed at 0x51 for writing, sent the offset 0
and addressed for reading. The commands that wait stay. That the items the chapters' tables do not list (debounce counts, last
contacts, scan and frame timers, frame levels, attempts, bytes of a transfer) are 0, dark, stopped or none is the model's (log 21), and so is
that the first frame is due 10 ms after reset (log 25). -/
def Obligations.ResetGivesEveryBlockItsValueAfterReset : Prop :=
  ∀ (leads : PerLead Bool) (straps : BitVec 2) (s : State), ∃ t,
    exec (.reset leads straps) s = .next t ∧
    t.lead = leads ∧ t.deb = leads ∧ t.settle = PerLead.all none ∧ t.flash = ⟨0, 0⟩ ∧
    t.suc = ⟨.loading, List.replicate 128 0xFF#8, .noReason, none, 0, none, none, false, 0, none,
      [.free, .stop, .start, .send 0xA2, .send 0, .repeatedStart, .send 0xA3]⟩ ∧
    t.dcu = ⟨.inactive, .noCause, .remote, none, some 0, some 0, .stopped, .localControl, false, false, false, false, false,
      false⟩ ∧
    pauseMs t = 1000 ∧
    t.trm = ⟨positionOf leads, false, .stopped, .stopped, 0, false, 0, none, .stopped, false, none, none, none, none, false⟩ ∧
    t.enu = ⟨false, none, 0, none, 0, 0, none, none, none, false, false, false, none, false⟩ ∧
    t.psu = ⟨false, .noClaim, none, 0, 0, false⟩ ∧
    t.alu = [] ∧
    t.ste = ⟨[], 0, 0, 0, false, false, false⟩ ∧
    t.snu = ⟨⟨none, 0, false, none, none⟩, ⟨none, 0, false, none, none⟩, ⟨none, 0, none⟩⟩ ∧
    (∀ id, t.lane id = ⟨.idle, false, false, false, false, false, .good, none, 0, 0, none, none, none, none, none, none, .peer,
      false, ⟨0, 0, 0, 0, 0, 0, 0⟩⟩) ∧
    t.rxq = ⟨[], 0⟩ ∧
    t.pnu = ⟨false, 0, List.replicate 20 0, 0, 0, List.replicate 20 .stopped, .localControl, 0, 0,
      List.replicate 17 ⟨true, false, false, false, false, false, false⟩, List.replicate 63 0, false, none, false, .stopped,
      List.replicate 272 .dark, List.replicate 272 false, [], [], 0, false⟩ ∧
    t.dgp = ⟨0x2C#7 + straps.setWidth 7, .idle, 0, 0, none, false, none, false, false, false, none, none⟩ ∧
    t.outs = ⟨false, false, false, false, false, false⟩ ∧
    t.pending = s.pending

/-- A configuration read that fails, and an image that is refused (R169 to R172): an address that is not acknowledged starts the wait
before the next of three attempts, and the end of the wait begins the read again from the freeing of the port; the third failure, or
a data line still low after the nine clocks, is CONFIG_FAULT with NO_ANSWER; an image whose check differs is CONFIG_FAULT with CHECK; one
whose fields are refused is CONFIG_FAULT with FIELD, the offset and the clamps counted. A whole image has come in one transfer from
offset 0, every byte acknowledged but the 128th, and a stop condition (as one command, log 23). In each case FLT is on, no configuration is accepted and
nothing else changes. -/
def Obligations.ConfigurationFaultsAreReached : Prop :=
  ∀ s : State, s.suc.startUp = .loading →
    let attempt : List BusAct := [.free, .stop, .start, .send 0xA2, .send 0, .repeatedStart, .send 0xA3]
    (s.suc.retryWait.isSome = true →
      exec .configRetryWaitExpiry s = .next { s with suc := { s.suc with retryWait := none, bus := attempt } }) ∧
    (s.suc.retryWait = none →
      (s.suc.attempts + 1 < 3 → exec .configAddressNotAcked s =
        .next { s with suc := { s.suc with attempts := s.suc.attempts + 1, retryWait := some 0, bus := [] } }) ∧
      (3 ≤ s.suc.attempts + 1 → exec .configAddressNotAcked s = .next { s with suc := { s.suc with
        attempts := s.suc.attempts + 1, startUp := .configFault, reason := .noAnswer, flt := true, bus := [] } }) ∧
      (exec .csdLowAfterNineClocks s =
        .next { s with suc := { s.suc with startUp := .configFault, reason := .noAnswer, flt := true, bus := [.free] } }) ∧
      ∀ (image : List Byte) (keys : BitVec 32), image.length = 128 →
        let whole : List BusAct := attempt ++ (image.take 127).map (fun b => .read b true) ++ [.read (byteAt image 127) false, .stop]
        (imageCheck image ≠ wordOf (byteAt image 126) (byteAt image 127) →
          exec (.configReadDone image keys) s = .next { s with suc := { s.suc with
            image := image, startUp := .configFault, reason := .check, flt := true, bus := whole } }) ∧
        (imageCheck image = wordOf (byteAt image 126) (byteAt image 127) →
          ∀ n off, judgeFields image = (n, some off) →
            exec (.configReadDone image keys) s = .next { s with suc := { s.suc with
              image := image, startUp := .configFault, reason := .field, flt := true, bus := whole, clamps := n
              refused := some off } }))

/-- The judgement of an image's fields (10.4, R171). The fields of the role are taken in order of offset: the first refuse field out of
its range ends the judgement with its offset, and the clamp fields out of range before it are counted; without one, a door's first
relational test that fails on the values after clamps refuses with 30, 34, 38 or 48. In an image that is not refused a field in its
range is taken as it stands and one out of it as the nearer bound, a panel's door fields are 0, every value lies in its range, the
four tests hold of a door's, and the clamp counter ends at 0 to 24 in the door role and 0 or 1 in the panel role. -/
def Obligations.AcceptedConfigurationLiesInItsRanges : Prop :=
  (∀ image : List Byte,
    let common : List Field :=
      [⟨0, false, 0, 1, false⟩, ⟨1, false, 1, 63, false⟩, ⟨2, false, 0, 2, false⟩, ⟨3, false, 5, 50, true⟩,
        ⟨4, false, 0, 1, false⟩, ⟨5, false, 0, 1, false⟩]
    let door : List Field :=
      [⟨6, false, 1, 16, false⟩, ⟨7, false, 0, 4, true⟩, ⟨8, true, 3000, 20000, true⟩, ⟨10, true, 2000, 10000, true⟩,
        ⟨12, true, 200, 2000, true⟩, ⟨14, true, 30, 600, true⟩, ⟨16, true, 200, 1000, true⟩, ⟨18, true, 200, 4095, true⟩,
        ⟨20, true, 0, 300, true⟩, ⟨22, true, 4, 400, true⟩, ⟨24, false, 10, 120, true⟩, ⟨25, false, 10, 120, true⟩,
        ⟨26, false, 1, 50, true⟩, ⟨27, false, 1, 3, true⟩, ⟨28, true, 500, 5000, true⟩, ⟨30, true, 0, 65535, false⟩,
        ⟨32, true, 1, 4095, true⟩, ⟨34, true, 0, 65535, false⟩, ⟨36, true, 0, 65535, false⟩, ⟨38, true, 10, 4000, true⟩,
        ⟨40, true, 10, 4000, true⟩, ⟨42, true, 1000, 60000, true⟩, ⟨44, true, 100, 20000, true⟩,
        ⟨46, true, 100, 20000, true⟩, ⟨48, true, 10, 4000, true⟩, ⟨50, true, 10, 4000, true⟩, ⟨52, true, 30, 1800, true⟩]
    let rows : List Field := if byteAt image 0 = 1 then common else common ++ door
    let value (bytes : List Byte) (f : Field) : Nat :=
      if f.wide = true then 256 * (byteAt bytes f.off).toNat + (byteAt bytes (f.off + 1)).toNat else (byteAt bytes f.off).toNat
    let out (f : Field) : Bool := decide (value image f < f.lo ∨ f.hi < value image f)
    let taken (f : Field) : Nat :=
      if value image f < f.lo then f.lo else if f.hi < value image f then f.hi else value image f
    let at' (off : Nat) : Nat := ((rows.find? (fun f => f.off == off)).map taken).getD 0
    judgeFields image = (match rows.find? (fun f => !f.clamps && out f) with
      | some f => (rows.countP (fun g => decide (g.off < f.off) && out g), some f.off)
      | none => (rows.countP out,
        if byteAt image 0 = 1 then none
        else if at' 36 ≤ at' 30 then some 30
        else if at' 36 ≤ at' 34 then some 34
        else if at' 40 ≤ at' 38 then some 38
        else if at' 50 ≤ at' 48 then some 48
        else none)) ∧
    ((judgeFields image).2 = none →
      (∀ f ∈ rows, value (cfgBytes (configOf image)) f = taken f) ∧
      (byteAt image 0 = 1 → (cfgBytes (configOf image)).drop 6 = List.replicate 48 0))) ∧
  ∀ (image : List Byte) (n : Nat), judgeFields image = (n, none) →
    (1 ≤ (configOf image).station ∧ (configOf image).station ≤ 63) ∧
    (5 ≤ (configOf image).refresh ∧ (configOf image).refresh ≤ 50) ∧
    ((configOf image).role = .panel → n ≤ 1 ∧ (configOf image).group = 0 ∧ (configOf image).passageLimit = 0) ∧
    ((configOf image).role = .door →
      n ≤ 24 ∧
      (1 ≤ (configOf image).group ∧ (configOf image).group ≤ 16) ∧
      (configOf image).passageLimit ≤ 4 ∧
      (3000 ≤ (configOf image).warningTime ∧ (configOf image).warningTime ≤ 20000) ∧
      (2000 ≤ (configOf image).recloseDelay ∧ (configOf image).recloseDelay ≤ 10000) ∧
      (200 ≤ (configOf image).claimHold ∧ (configOf image).claimHold ≤ 2000) ∧
      (30 ≤ (configOf image).passageMax ∧ (configOf image).passageMax ≤ 600) ∧
      (200 ≤ (configOf image).reversalPause ∧ (configOf image).reversalPause ≤ 1000) ∧
      (200 ≤ (configOf image).travelCount ∧ (configOf image).travelCount ≤ 4095) ∧
      (configOf image).slowZone ≤ 300 ∧
      (4 ≤ (configOf image).overrunSlack ∧ (configOf image).overrunSlack ≤ 400) ∧
      (10 ≤ (configOf image).closeMax ∧ (configOf image).closeMax ≤ 120) ∧
      (10 ≤ (configOf image).openMax ∧ (configOf image).openMax ≤ 120) ∧
      (1 ≤ (configOf image).stallMin ∧ (configOf image).stallMin ≤ 50) ∧
      (1 ≤ (configOf image).reserve ∧ (configOf image).reserve ≤ 3) ∧
      (500 ≤ (configOf image).discordTime ∧ (configOf image).discordTime ≤ 5000) ∧
      (configOf image).n0 < (configOf image).nmax ∧
      (configOf image).nmin < (configOf image).nmax ∧ (configOf image).nmax ≤ 65535 ∧
      (1 ≤ (configOf image).kP ∧ (configOf image).kP ≤ 4095) ∧
      (10 ≤ (configOf image).p0 ∧ (configOf image).p0 < (configOf image).pmin ∧ (configOf image).pmin ≤ 4000) ∧
      (1000 ≤ (configOf image).v0 ∧ (configOf image).v0 ≤ 60000) ∧
      (100 ≤ (configOf image).vc ∧ (configOf image).vc ≤ 20000) ∧
      (100 ≤ (configOf image).vo ∧ (configOf image).vo ≤ 20000) ∧
      (10 ≤ (configOf image).pOn ∧ (configOf image).pOn < (configOf image).pOff ∧ (configOf image).pOff ≤ 4000) ∧
      (30 ≤ (configOf image).pumpMax ∧ (configOf image).pumpMax ≤ 1800))

/-- An accepted door image starts the door (R2, R32, R52, R63, R69, R135, R153, R173), from a LOADING in which every block stands
at its value after reset but for its debounced inputs and pause timers: LISTEN with the listen timer from 0, a reference taken at
a limit, the first gate, MAINS_LOSS where the mains is open, mode and CD by the default mode, and the control state that the
levers, the position and CD then give: CLOSING under a close lever off the closed limits, a refused open request in its idle
state, HELD_OPEN, WARNING REMOTE, or the matching idle state. No snapshot is made. -/
def Obligations.AcceptedDoorImageStartsTheDoor : Prop :=
  ∀ (image : List Byte) (keys : BitVec 32) (n : Nat) (s : State), image.length = 128 →
    imageCheck image = wordOf (byteAt image 126) (byteAt image 127) → judgeFields image = (n, none) →
    (configOf image).role = .door → s.suc.startUp = .loading → s.suc.retryWait = none →
    s.dcu = { Dcu.reset with vclPause := s.dcu.vclPause, vopPause := s.dcu.vopPause } →
    s.trm = { Trm.reset with pos := positionOf s.deb } → s.enu = Enu.reset → s.psu = Psu.reset → s.alu = [] →
    s.ste = Ste.reset →
    let c : Cfg := configOf image
    let cd : Bool := c.defaultMode == .doorsClosed
    let d : Dcu := { s.dcu with mode := c.defaultMode, cd := cd }
    let pos : Position := positionOf s.deb
    let lc : Bool := s.deb.lca || s.deb.lcb
    let lo : Bool := (s.deb.loa || s.deb.lob) && !lc
    let e : Dcu :=
      if lc = true ∧ pos ≠ .closed then { d with ctl := .closing, cause := .lever }
      else if lo = true ∧ pos ≠ .opened then { d with ctl := idleFor pos }
      else if cd = true ∧ lo = true then { d with ctl := .heldOpen, held := .running 0 }
      else if cd = true ∧ pos ≠ .closed then { d with ctl := .warning, warnTimer := some c.warningTime }
      else { d with ctl := idleFor pos }
    ∃ t, exec (.configReadDone image keys) s = .next t ∧
      t.suc = { s.suc with
        startUp := .listen, image := image, clamps := n, refused := none, accepted := some c, listenTimer := some 0
        bus := t.suc.bus } ∧
      (∀ id, t.lane id = { s.lane id with silence := some 0 }) ∧
      t.enu = { Enu.reset with running := true, gate := some 0 } ∧
      t.dcu = e.driven false ∧
      t.trm = (({ s.trm with
        running := true
        count := if pos = .opened then (c.travelCount : Int) else 0
        ref := pos == .closed || pos == .opened
        discord := if s.deb.cla = s.deb.clb then .stopped else .running 0
        conflict := if pos = .unknown then .running 0 else .stopped
        arming := some 0 } : Trm).slowed c).driven c s.dcu t.dcu ∧
      t.psu = { Psu.reset with inForce := limitFor c cd } ∧
      t.alu = (if s.deb.mains then [] else [⟨.mainsLoss, .activeUnacked, 1, 0, 0⟩]) ∧
      t.pnu = Pnu.reset ∧ t.outs = outsFor t ∧ t.lead = s.lead ∧ t.deb = s.deb ∧ t.settle = s.settle ∧
      t.flash = s.flash ∧ t.ste = s.ste ∧ t.snu = s.snu ∧ t.rxq = s.rxq ∧ t.dgp = s.dgp ∧ t.pending = s.pending

/-- An accepted panel image starts the panel (R63, R135, R153, R154, R157, R164, R166, R173), from a LOADING with an empty table
and no alarm: LISTEN, the key levels loaded by the first scan without a press, momentary keys found made timed from the load, the
own mode from the selector, empty summaries, lamps and sounder from what stands, MAINS_LOSS where the mains is open. The door's
blocks keep their reset state. That the limits are watched no longer, their debounce given up, is the model's choice (log 20). -/
def Obligations.AcceptedPanelImageStartsThePanel : Prop :=
  ∀ (image : List Byte) (keys : BitVec 32) (n : Nat) (s : State), image.length = 128 →
    imageCheck image = wordOf (byteAt image 126) (byteAt image 127) → judgeFields image = (n, none) →
    (configOf image).role = .panel → s.suc.startUp = .loading → s.suc.retryWait = none → s.alu = [] →
    s.ste = Ste.reset → s.pnu.silence = false →
    ∃ t, exec (.configReadDone image keys) s = .next t ∧
      t.suc = { s.suc with
        startUp := .listen, image := image, clamps := n, refused := none, accepted := some (configOf image)
        listenTimer := some 0
        bus := t.suc.bus } ∧
      (∀ id, t.lane id = { s.lane id with silence := some 0 }) ∧
      t.pnu = { s.pnu with
        running := true
        keys := keys.setWidth 20
        scans := List.replicate 20 0
        contacts := keys
        scanTimer := 0
        heldKeys := (List.range 20).map (fun p => if p ≠ 16 ∧ keys.getLsbD p = true then .running 0 else .stopped)
        mode := if keys.getLsbD 16 then .doorsClosed else .localControl
        summaries := List.replicate 17 ⟨true, false, false, false, false, false, false⟩
        patterns := lampPatterns t
        psnd := !s.deb.mains } ∧
      t.alu = (if s.deb.mains then [] else [⟨.mainsLoss, .activeUnacked, 1, 0, 0⟩]) ∧
      t.settle = { s.settle with cla := none, clb := none, olm := none } ∧
      t.dcu = s.dcu ∧ t.trm = s.trm ∧ t.enu = s.enu ∧ t.psu = s.psu ∧ t.outs = outsFor t ∧ t.lead = s.lead ∧
      t.deb = s.deb ∧ t.flash = s.flash ∧ t.ste = s.ste ∧ t.snu = s.snu ∧ t.rxq = s.rxq ∧ t.dgp = s.dgp ∧
      t.pending = s.pending

/-- The end of the listen timer brings JOINED with the first snapshots (R8, R9, R130, R131, R134, R138, R173): serial 0 of the own
class and of IDENT with the content as it stands, their timers from 0, and an idle quiet lane begins the own class's telegram. That
they are made before NO_PANEL is raised, so that serial 0 does not carry it, is the model's choice (log 5). In
the door role NO_PANEL is raised where no panel is LIVE, and a standing request that needs a claim now begins one; where no
request stands the door stays as it is. In the panel role nothing else changes. -/
def Obligations.ListenTimerEndsInJoinedWithFirstSnapshots : Prop :=
  ∀ s : State, s.suc.startUp = .listen → s.snu = Snu.reset → ∃ t,
    exec .listenTimerExpiry s = .next t ∧
    t.suc = { s.suc with startUp := .joined, listenTimer := none } ∧
    t.snu.ident = ⟨some (identContent s), 0, some 0⟩ ∧
    (∀ id, LaneHanded (s.lane id) (t.lane id)) ∧
    (s.conf.role = .door →
      (∃ p, t.snu.state = ⟨some (doorContent s), 0, p, some 0, some 0⟩) ∧
      t.snu.demand = s.snu.demand ∧
      (∀ id, (s.lane id).activity = .idle → (s.lane id).quiet = true → (s.lane id).sentS = none →
        t.lane id = beginTelegram (s.lane id) ⟨.state (doorContent s), 0⟩) ∧
      (requestStands s = false → t.dcu = s.dcu ∧ t.trm = s.trm ∧ t.psu = s.psu ∧
        t.alu = applyRequest (condition .noPanel (!somePanelLive s)) s.alu) ∧
      (requestStands s = true → s.dcu.lockout = false → s.dcu.ctl.isIdle = true → s.psu.inForce = true →
        s.enu.permStart = true → t.dcu.ctl = .claiming ∧ t.psu.phase = .fresh ∧
          t.psu.claimTimer = some s.conf.claimHold)) ∧
    (s.conf.role = .panel →
      t.snu.demand = ⟨some (panelContent s), 0, false, some 0, some 0⟩ ∧ t.snu.state = s.snu.state ∧
      (∀ id, (s.lane id).activity = .idle → (s.lane id).quiet = true → (s.lane id).sentD = none →
        t.lane id = beginTelegram (s.lane id) ⟨.demand (panelContent s), 0⟩) ∧
      t.dcu = s.dcu ∧ t.trm = s.trm ∧ t.psu = s.psu ∧ t.alu = s.alu) ∧
    t.enu = s.enu ∧ t.pnu = s.pnu ∧ t.outs = outsFor t ∧ t.lead = s.lead ∧ t.deb = s.deb ∧ t.settle = s.settle ∧
    t.flash = s.flash ∧ t.ste = s.ste ∧ t.rxq = s.rxq ∧ t.dgp = s.dgp ∧ t.pending = s.pending

/-- A flash edge begins the next eighth of the slow period, and of the pins BCN alone follows: on in the first half of the period
while the door warns, closes or opens (R1, R29). A level change on a lead starts its debounce, or ends it at a return to the
debounced level; a level the lead already has is no change (1.7, R4, R33, R63). That of a panel's limit leads the level alone is taken
is the model's choice (log 20). -/
def Obligations.FlashAndLevelEdgesActOnTheirOwnItems : Prop :=
  (∀ s : State, s.outs = outsFor s → exec .flashEdge s = .next { s with
    flash := ⟨(s.flash.phase + 1) % 8, 0⟩
    outs := { s.outs with bcn :=
      (s.dcu.ctl == .warning || s.dcu.ctl == .closing || s.dcu.ctl == .opening) && decide ((s.flash.phase + 1) % 8 < 4) } }) ∧
  ∀ (l : Lead) (made : Bool) (s : State),
    (s.lead.get l = made → ¬ (s.panelRuns = true ∧ (l = .cla ∨ l = .clb ∨ l = .olm)) →
      exec (.levelInputEdge l made) s = .next s) ∧
    (s.lead.get l ≠ made → ¬ (s.panelRuns = true ∧ (l = .cla ∨ l = .clb ∨ l = .olm)) →
      exec (.levelInputEdge l made) s = .next { s with
        lead := s.lead.set l made
        settle := s.settle.set l (if made = s.deb.get l then none else some 0) }) ∧
    (s.panelRuns = true → (l = .cla ∨ l = .clb ∨ l = .olm) →
      exec (.levelInputEdge l made) s = .next { s with lead := s.lead.set l made })

/-! ### The door: levers, warning, pauses -/

/-- A press of LC closes (R4, R10, R17, R23, R24, R27, R28): the door leaves any state but INACTIVE and CLOSING for CLOSING of cause
LOCAL, off the closed limits, and a press that releases LO clears the lockout. In CLOSING off them it does no more than that. At CLOSED
such a release ends an OPENING or a claim in IDLE_CLOSED, brings WARNING RECLOSE from HELD_OPEN and, under CD, WARNING REMOTE from IDLE_OPEN
and IDLE_PARTIAL, and clears the lockout alone in every other state. A
close lever of one side beside that of the other, a press in CLOSING and a press at CLOSED with LO not held change the debounced
level alone, as every lever does where no door runs. -/
def Obligations.CloseLeverPressCloses : Prop :=
  ∀ (side : Side) (s : State), s.deb.get side.closeLead = false →
    let s1 := setDebounced side.closeLead true s
    let d : Dcu := { s.dcu with warnTimer := none, held := .stopped, lockout := s.dcu.lockout && !loHeld s }
    (s.doorRuns = true → lcHeld s = false → s.trm.pos ≠ .closed → s.dcu.ctl ≠ .closing → s.dcu.ctl ≠ .inactive →
      ∃ t, exec (.lcPressed side) s = .next t ∧ Moved s1 { d with ctl := .closing, cause := .lever } t) ∧
    (s.doorRuns = true → lcHeld s = false → loHeld s = true → s.trm.pos = .closed →
      (s.dcu.ctl = .opening ∨ s.dcu.ctl = .claiming → ∃ t, exec (.lcPressed side) s = .next t ∧
        Moved s1 { d with ctl := .idleClosed, cause := .noCause } t) ∧
      (s.dcu.ctl = .heldOpen → ∃ t, exec (.lcPressed side) s = .next t ∧
        Moved s1 { d with ctl := .warning, cause := .noCause, wcause := .reclose, warnTimer := some s.conf.recloseDelay } t) ∧
      ((s.dcu.ctl = .idleOpen ∨ s.dcu.ctl = .idlePartial) → s.dcu.cd = true → ∃ t, exec (.lcPressed side) s = .next t ∧
        Moved s1 { d with ctl := .warning, cause := .noCause, wcause := .remote, warnTimer := some s.conf.warningTime } t) ∧
      (s.dcu.ctl = .idleClosed ∨ (s.dcu.ctl.isIdle = true ∧ s.dcu.cd = false) ∨ s.dcu.ctl = .warning ∨ s.dcu.ctl = .closing ∨
          s.dcu.ctl = .inactive →
        exec (.lcPressed side) s = .next (setOuts { s1 with dcu := { s.dcu with lockout := false } }))) ∧
    (s.doorRuns = true → lcHeld s = false → loHeld s = true → s.trm.pos ≠ .closed →
      s.dcu.ctl = .closing ∨ s.dcu.ctl = .inactive →
      exec (.lcPressed side) s = .next (setOuts { s1 with dcu := { s.dcu with lockout := false } })) ∧
    (lcHeld s = true ∨ (loHeld s = false ∧ (s.trm.pos = .closed ∨ s.dcu.ctl = .closing)) ∨ s.doorRuns = false →
      exec (.lcPressed side) s = .next (setOuts s1))

/-- A release of the last close lever (R4, R11): a CLOSING of cause LOCAL goes on with cause DEMAND under CD, and stops in the
matching idle state without it; with an open lever made, LO is pressed at that moment and the permitted request opens the door from there
and from an idle state. In any other state without an open lever, in a closing of another cause, and while the other side's lever is made,
a release changes the debounced level alone. -/
def Obligations.CloseLeverReleaseStopsOrYields : Prop :=
  ∀ (side : Side) (s : State), s.deb.get side.closeLead = true →
    let s1 := setDebounced side.closeLead false s
    (s.doorRuns = true → leverClose s1.deb = false → s.deb.loa = false → s.deb.lob = false → s.dcu.ctl = .closing →
      s.dcu.cause = .lever →
      (s.dcu.cd = true → exec (.lcReleased side) s = .next (setOuts { s1 with dcu := { s.dcu with cause := .demand } })) ∧
      (s.dcu.cd = false → ∃ t, exec (.lcReleased side) s = .next t ∧ Moved s1 { s.dcu with
        ctl := idleFor s.trm.pos, cause := .noCause, warnTimer := none, held := .stopped } t)) ∧
    (s.doorRuns = true → leverClose s1.deb = false → (s.deb.loa = true ∨ s.deb.lob = true) →
      (s.dcu.ctl = .closing ∧ s.dcu.cause = .lever) ∨ s.dcu.ctl.isIdle = true → s.trm.pos ≠ .opened →
      s.dcu.lockout = false → s.enu.permStart = true → s.psu.inForce = false → s.dcu.vop = false →
      ∃ t, exec (.lcReleased side) s = .next t ∧ Moved s1 { s.dcu with
        ctl := .opening, cause := .noCause, warnTimer := none, held := .stopped } t) ∧
    (leverClose s1.deb = true ∨ s.doorRuns = false ∨
        ((s.dcu.ctl ≠ .closing ∨ s.dcu.cause ≠ .lever) ∧ s.deb.loa = false ∧ s.deb.lob = false) →
      exec (.lcReleased side) s = .next (setOuts s1))

/-- A press of LO begins a request (R12 to R16, R24, R26, R70): with open permission to start held and no limit in force it opens
the door from an idle state, WARNING or CLOSING; with the limit in force it begins a claim in JOINED; refused, it stops a WARNING or
a CLOSING in the matching idle state and leaves an idle state as it is. At OPEN it brings HELD_OPEN from WARNING, and from
IDLE_OPEN under CD. A lever beside one that is made already, or under a close lever, presses nothing. -/
def Obligations.OpenLeverPressOpensClaimsOrIsRefused : Prop :=
  ∀ (side : Side) (s : State), s.deb.get side.openLead = false →
    let s1 := setDebounced side.openLead true s
    let d : Dcu := { s.dcu with cause := .noCause, warnTimer := none, held := .stopped }
    let presses : Prop := s.doorRuns = true ∧ loHeld s = false ∧ lcHeld s = false ∧ s.dcu.lockout = false
    let refused : Prop := s.enu.permStart = false ∨ (s.psu.inForce = true ∧ s.suc.startUp ≠ .joined)
    (presses → s.trm.pos ≠ .opened → s.dcu.ctl.isIdle = true ∨ s.dcu.ctl = .warning ∨ s.dcu.ctl = .closing →
      (s.enu.permStart = true → s.psu.inForce = false →
        ∃ t, exec (.loPressed side) s = .next t ∧ Moved s1 { d with ctl := .opening } t) ∧
      (s.enu.permStart = true → s.psu.inForce = true → s.suc.startUp = .joined →
        ∃ t, exec (.loPressed side) s = .next t ∧ Moved s1 { d with ctl := .claiming } t) ∧
      (refused → s.dcu.ctl.isIdle = false →
        ∃ t, exec (.loPressed side) s = .next t ∧ Moved s1 { d with ctl := idleFor s.trm.pos } t) ∧
      (refused → s.dcu.ctl.isIdle = true → exec (.loPressed side) s = .next (setOuts s1))) ∧
    (presses → s.trm.pos = .opened → s.dcu.ctl = .warning ∨ (s.dcu.ctl = .idleOpen ∧ s.dcu.cd = true) →
      ∃ t, exec (.loPressed side) s = .next t ∧ Moved s1 { d with ctl := .heldOpen, held := .running 0 } t) ∧
    (s.doorRuns = false ∨ loHeld s = true ∨ lcHeld s = true ∨
        (s.trm.pos = .opened ∧ s.dcu.ctl = .idleOpen ∧ s.dcu.cd = false) →
      exec (.loPressed side) s = .next (setOuts s1))

/-- A release of LO clears the lockout and ends the request (R12, R17, R22, R24, R26): an OPENING and a claim give WARNING RECLOSE
with the reclose delay under CD off the closed limits, IDLE_CLOSED at them, and the matching idle state without CD; HELD_OPEN gives
WARNING RECLOSE; IDLE_OPEN and IDLE_PARTIAL give WARNING REMOTE with the warning time under CD; elsewhere nothing more. A lever let go
beside one that stays made, or under a close lever, releases nothing. -/
def Obligations.OpenLeverReleaseEndsTheRequest : Prop :=
  ∀ (side : Side) (s : State), s.deb.get side.openLead = true →
    let s1 := setDebounced side.openLead false s
    let d : Dcu := { s.dcu with cause := .noCause, warnTimer := none, held := .stopped, lockout := false }
    let reclose : Dcu := { d with ctl := .warning, wcause := .reclose, warnTimer := some s.conf.recloseDelay }
    let releases : Prop := s.doorRuns = true ∧ loHeld s = true ∧ leverOpen (s.deb.set side.openLead false) = false
    (releases → s.dcu.ctl = .opening ∨ s.dcu.ctl = .claiming → ∃ t, exec (.loReleased side) s = .next t ∧
      Moved s1 (if s.dcu.cd = true then if s.trm.pos = .closed then { d with ctl := .idleClosed } else reclose
        else { d with ctl := idleFor s.trm.pos }) t) ∧
    (releases → s.dcu.ctl = .heldOpen → ∃ t, exec (.loReleased side) s = .next t ∧ Moved s1 reclose t) ∧
    (releases → s.dcu.ctl = .idleOpen ∨ s.dcu.ctl = .idlePartial → s.dcu.cd = true → ∃ t, exec (.loReleased side) s = .next t ∧
      Moved s1 { d with ctl := .warning, wcause := .remote, warnTimer := some s.conf.warningTime } t) ∧
    (releases →
      s.dcu.ctl = .idleClosed ∨ (s.dcu.ctl.isIdle = true ∧ s.dcu.cd = false) ∨ s.dcu.ctl = .warning ∨ s.dcu.ctl = .closing →
      exec (.loReleased side) s = .next (setOuts { s1 with dcu := { s.dcu with lockout := false } })) ∧
    (s.doorRuns = false ∨ loHeld s = false ∨ leverOpen (s.deb.set side.openLead false) = true →
      exec (.loReleased side) s = .next (setOuts s1))

/-- The warning timer's expiry brings CLOSING (R18, R28): of cause DEMAND after a warning of cause REMOTE, of cause RECLOSE after
one of cause RECLOSE, with VCL on at once unless its pause still runs. -/
def Obligations.WarningExpiryCloses : Prop :=
  ∀ s : State, s.dcu.ctl = .warning → ∃ t, exec .warningTimerExpiry s = .next t ∧
    Moved s { s.dcu with
      ctl := .closing
      cause := if s.dcu.wcause = .remote then .demand else .reclose
      warnTimer := none
      held := .stopped } t

/-- A pause timer that expires stays expired, and energises the valve that waited for it (R27, R28, R44): VCL in CLOSING; VOP in
OPENING with the permission to continue held. The stroke begins with its valve. Without a waiting valve the timer alone ends: outside
both states, while a valve is on in its state, and for the timer of the valve that the state does not command. -/
def Obligations.PauseExpiryEnergisesTheWaitingValve : Prop :=
  (∀ s : State, (s.dcu.vcl = true → s.dcu.ctl = .closing) → (s.dcu.vop = true → s.dcu.ctl = .opening) →
    (s.dcu.vcl = true ∨ s.dcu.vop = true →
      exec (.pauseTimerExpiry .vcl) s = .next (setOuts { s with dcu := { s.dcu with vclPause := none } }) ∧
      exec (.pauseTimerExpiry .vop) s = .next (setOuts { s with dcu := { s.dcu with vopPause := none } })) ∧
    (s.dcu.ctl = .closing → s.dcu.vclPause.isSome = true →
      exec (.pauseTimerExpiry .vop) s = .next (setOuts { s with dcu := { s.dcu with vopPause := none } })) ∧
    (s.dcu.ctl = .opening → s.dcu.vopPause.isSome = true ∨ s.enu.permCont = false →
      exec (.pauseTimerExpiry .vcl) s = .next (setOuts { s with dcu := { s.dcu with vclPause := none } }))) ∧
  ∀ s : State, s.dcu.vcl = false → s.dcu.vop = false →
    (s.dcu.ctl = .closing → exec (.pauseTimerExpiry .vcl) s = .next (setOuts { s with
      dcu := { s.dcu with vclPause := none, vcl := true }
      trm := s.trm.strokeBegins s.conf .closing })) ∧
    (s.dcu.ctl = .opening → s.enu.permCont = true → exec (.pauseTimerExpiry .vop) s = .next (setOuts { s with
      dcu := { s.dcu with vopPause := none, vop := true }
      trm := s.trm.strokeBegins s.conf .opening })) ∧
    (s.dcu.ctl ≠ .closing → s.dcu.ctl ≠ .opening →
      exec (.pauseTimerExpiry .vcl) s = .next (setOuts { s with dcu := { s.dcu with vclPause := none } }) ∧
      exec (.pauseTimerExpiry .vop) s = .next (setOuts { s with dcu := { s.dcu with vopPause := none } })) ∧
    (s.dcu.ctl = .opening → s.enu.permCont = false →
      exec (.pauseTimerExpiry .vop) s = .next (setOuts { s with dcu := { s.dcu with vopPause := none } }))

/-- Five supervision timers that pass their limit raise their condition and act nowhere else (R25, R35, R36, R45, R167): the
held-open timer OPEN_TOO_LONG past the passage maximum, the discord timer LIMIT_DISCORD, the conflict timer LIMIT_CONFLICT, the
stroke timer of a close stroke CLOSE_TIMEOUT with VCL left on, the mode-conflict timer MODE_CONFLICT. The timer is marked past
its limit, so that it does not raise again; `exceeds` is one ms more than the passage maximum (log 16). -/
def Obligations.SupervisionTimersRaiseTheirConditions : Prop :=
  ∀ (s : State) (ms : Nat),
    (s.dcu.held = .running ms → ∃ t, exec .heldOpenLimit s = .next t ∧
      t.dcu = { s.dcu with held := .past (max ms (s.conf.passageMax * 1000 + 1)) } ∧ t.trm = s.trm ∧ t.psu = s.psu ∧
      t.alu = applyRequest (.becameTrue .openTooLong) s.alu ∧ HandsOn s t ∧ t.enu = s.enu ∧ t.outs = outsFor t) ∧
    (s.trm.discord = .running ms → ∃ t, exec .discordTimerExpiry s = .next t ∧
      t.trm = { s.trm with discord := .past (max ms s.conf.discordTime) } ∧ t.dcu = s.dcu ∧ t.psu = s.psu ∧
      t.alu = applyRequest (.becameTrue .limitDiscord) s.alu ∧ HandsOn s t ∧ t.enu = s.enu ∧ t.outs = outsFor t) ∧
    (s.trm.conflict = .running ms → ∃ t, exec .conflictTimerExpiry s = .next t ∧
      t.trm = { s.trm with conflict := .past (max ms s.conf.discordTime) } ∧ t.dcu = s.dcu ∧ t.psu = s.psu ∧
      t.alu = applyRequest (.becameTrue .limitConflict) s.alu ∧ HandsOn s t ∧ t.enu = s.enu ∧ t.outs = outsFor t) ∧
    (s.trm.stroke = some .closing → s.trm.strokeTimer = .running ms → ∃ t, exec .closeMaximumPassed s = .next t ∧
      t.trm = { s.trm with strokeTimer := .past (max ms (s.conf.closeMax * 1000)) } ∧ t.dcu = s.dcu ∧ t.psu = s.psu ∧
      t.alu = applyRequest (.becameTrue .closeTimeout) s.alu ∧ HandsOn s t ∧ t.enu = s.enu ∧ t.outs = outsFor t) ∧
    (s.panelRuns = true → s.pnu.conflict = .running ms → ∃ t, exec .modeConflictTimerExpiry s = .next t ∧
      t.pnu.conflict = .past (max ms 10000) ∧ t.dcu = s.dcu ∧ t.trm = s.trm ∧ t.psu = s.psu ∧
      t.alu = applyRequest (.becameTrue .modeConflict) s.alu ∧
      HandsOn { s with pnu := { s.pnu with conflict := .past (max ms 10000) } } t ∧ t.outs = s.outs)

/-- Closure demanded starts and ends with the panels heard (R5 to R8, R17, R19, R24, R26, R69, R105). A DEMAND that is newer than the last
of a LIVE panel, with DOORS_CLOSED or the door's group in it, gives an open door with no lever held CD, the limit flag of CD and
WARNING REMOTE with the configured warning time. At every DEMAND that a door accepts, and at every panel entry that goes STALE: mode
and group demand are those of the LIVE panels together, or the last while none is LIVE after one has been heard, or the default mode and
no demand before that; CD follows; NO_PANEL is raised in JOINED and MUTE where no panel is LIVE, and cleared where one is. A rise of CD
brings WARNING REMOTE from IDLE_OPEN and IDLE_PARTIAL without a lever, and HELD_OPEN at OPEN under LO. A fall of CD takes WARNING, of either
cause, to the matching idle state where no lever acts, HELD_OPEN to IDLE_OPEN, and ends a claim: OPENING with the permission to start,
the matching idle state without it. CLOSING of whatever cause, OPENING, and IDLE_CLOSED at CLOSED without a request to judge go on as
they are, valves and stroke with them (R19, R20, R22). -/
def Obligations.ClosureDemandStartsTheWarning : Prop :=
  (∀ (s : State) (tg : Telegram) (rest : List Telegram) (e : Entry) (h : HeldDemand) (last : Byte),
    s.doorRuns = true → s.rxq.queue = tg :: rest → tg.cls = .demand → tg.origin ≠ s.conf.station → entryOf s tg.origin = some e →
    e.kind = .panel → e.live = true → e.panel = some h → e.serD = some last →
    1 ≤ (tg.serial - last).toNat → (tg.serial - last).toNat ≤ 127 →
    (decodeDemand tg.payload).mode = .doorsClosed ∨ inGroups (decodeDemand tg.payload).groups s.conf.group = true →
    s.dcu.ctl = .idleOpen ∨ s.dcu.ctl = .idlePartial → s.dcu.cd = false → lcHeld s = false → loHeld s = false →
    ∃ t, exec .telegramTaken s = .next t ∧ t.dcu.cd = true ∧ t.dcu.ctl = .warning ∧ t.dcu.wcause = .remote ∧
      t.dcu.warnTimer = some s.conf.warningTime ∧ t.psu.inForce = limitFor s.conf true ∧
      t.outs.sndr = true ∧ t.rxq = { s.rxq with queue := rest }) ∧
  ∀ (s : State) (c : Instr), s.doorRuns = true → ClaimsJoined s →
    (c = .telegramTaken ∧ ∃ tg rest, s.rxq.queue = tg :: rest ∧ tg.cls = .demand ∧ tg.origin ≠ s.conf.station ∧
        ∀ e, entryOf s tg.origin = some e → e.live = true → e.kind = .panel ∧ ∀ last, e.serD = some last →
          1 ≤ (tg.serial - last).toNat ∧ (tg.serial - last).toNat ≤ 127) ∨
      (∃ n e, c = .entryGoesStale n ∧ entryOf s n = some e ∧ e.kind = .panel ∧ e.live = true ∧ s.staleMs ≤ e.age) →
    ∃ t, exec c s = .next t ∧
      (let panels : List Entry := t.ste.table.filter (fun e => e.kind == .panel && e.live)
       let heard (test : PanelPart → Bool) : Bool := panels.any (fun e => e.panel.any (fun h => test h.part))
       t.dcu.mode = (if panels ≠ [] then (if heard (fun p => p.mode == .doorsClosed) = true then .doorsClosed else .localControl)
         else if s.dcu.panelHeard = true then s.dcu.mode else s.conf.defaultMode) ∧
       t.dcu.groupDemand = (if panels ≠ [] then heard (fun p => inGroups p.groups s.conf.group)
         else s.dcu.panelHeard && s.dcu.groupDemand) ∧
       t.dcu.panelHeard = (s.dcu.panelHeard || !panels.isEmpty) ∧
       (panels = [] → s.suc.startUp ≠ .listen → ∃ r ∈ t.alu, r.kind = .noPanel ∧ r.st.active = true) ∧
       (panels ≠ [] → ∀ r ∈ t.alu, r.kind = .noPanel → r.st.active = false)) ∧
      t.dcu.cd = (t.dcu.mode == .doorsClosed || t.dcu.groupDemand) ∧ t.psu.inForce = limitFor s.conf t.dcu.cd ∧
      (t.dcu.cd = s.dcu.cd → s.psu.phase ≠ .waiting → t.dcu.ctl = s.dcu.ctl) ∧
      (s.dcu.ctl = .closing ∨ s.dcu.ctl = .opening ∨
          (s.dcu.ctl = .idleClosed ∧ s.trm.pos = .closed ∧ (loHeld s = false ∨ s.dcu.lockout = true)) →
        t.dcu = { s.dcu with
          mode := t.dcu.mode, groupDemand := t.dcu.groupDemand, panelHeard := t.dcu.panelHeard, cd := t.dcu.cd } ∧
        t.trm = s.trm) ∧
      (s.dcu.cd = false → t.dcu.cd = true → lcHeld s = false →
        (loHeld s = false → s.dcu.ctl = .idleOpen ∨ s.dcu.ctl = .idlePartial →
          t.dcu.ctl = .warning ∧ t.dcu.wcause = .remote ∧ t.dcu.warnTimer = some s.conf.warningTime) ∧
        (loHeld s = true → s.dcu.ctl = .idleOpen → s.trm.pos = .opened →
          t.dcu.ctl = .heldOpen ∧ t.dcu.held = .running 0)) ∧
      (s.dcu.cd = true → t.dcu.cd = false →
        (s.dcu.ctl = .warning → lcHeld s = false → requestStands s = false →
          t.dcu.ctl = idleFor s.trm.pos ∧ t.dcu.warnTimer = none) ∧
        (s.dcu.ctl = .heldOpen → t.dcu.ctl = .idleOpen ∧ t.dcu.held = .stopped) ∧
        (s.dcu.ctl = .claiming → t.psu.phase = .noClaim ∧ t.psu.claimTimer = none ∧
          t.dcu.ctl = if s.enu.permStart = true then .opening else idleFor s.trm.pos))

/-! ### Travel -/

/-- A debounced limit change sets the position state by the table of R34. With the monitor stopped it does no more. With it
running, a change that leaves the position state acts on the discord timer alone, and clears LIMIT_DISCORD where that had been
raised (R35); a change of the position state also sets the conflict timer (R36) and takes the reference of CLOSED or OPEN, a
drift beyond the slack leaving a POSITION_FAULT record (R40); BETWEEN and UNKNOWN take and drop no reference. -/
def Obligations.LimitChangeSetsPositionTimersAndReference : Prop :=
  ∀ (limit : Limit) (made : Bool) (s : State), s.panelRuns = false → s.deb.get limit.lead ≠ made →
    let s1 := setDebounced limit.lead made s
    let pos : Position := positionOf s1.deb
    let discord : Watch := if limit = .olm then s.trm.discord else if s1.deb.cla = s1.deb.clb then .stopped else .running 0
    ((pos = .closed ↔ s1.deb.cla = true ∧ s1.deb.clb = true ∧ s1.deb.olm = false) ∧
      (pos = .opened ↔ s1.deb.cla = false ∧ s1.deb.clb = false ∧ s1.deb.olm = true) ∧
      (pos = .unknown ↔ s1.deb.olm = true ∧ (s1.deb.cla = true ∨ s1.deb.clb = true))) ∧
    (s.trm.running = false →
      exec (.limitDebouncedChange limit made) s = .next (setOuts { s1 with trm := { s.trm with pos := pos } })) ∧
    (s.trm.running = true → pos = s.trm.pos → ∃ t, exec (.limitDebouncedChange limit made) s = .next t ∧
      t.trm = { s.trm with discord := discord }.slowed s.conf ∧ t.dcu = s.dcu ∧ t.psu = s.psu ∧ t.enu = s.enu ∧
      t.alu = applyRequests (asked (s.trm.discord.isPast && !discord.isPast) (.becameFalse .limitDiscord)) s.alu ∧
      t.outs = outsFor t ∧ HandsOn s1 t) ∧
    (s.trm.running = true → pos ≠ s.trm.pos → ∃ t, exec (.limitDebouncedChange limit made) s = .next t ∧
      t.trm.pos = pos ∧ t.trm.running = true ∧ t.trm.discord = discord ∧
      t.trm.conflict = (if pos = .unknown then .running 0 else .stopped) ∧
      (pos = .closed → t.trm.count = 0 ∧ t.trm.ref = true ∧ t.trm.overrun = 0 ∧
        (s.trm.ref = true → s.conf.overrunSlack < s.trm.count.natAbs → hasKind .positionFault t.alu = true)) ∧
      (pos = .opened → t.trm.count = s.conf.travelCount ∧ t.trm.ref = true ∧ t.trm.overrun = 0 ∧
        (s.trm.ref = true → s.conf.overrunSlack < (s.trm.count - s.conf.travelCount).natAbs →
          hasKind .positionFault t.alu = true)) ∧
      (pos = .between ∨ pos = .unknown →
        t.trm.count = s.trm.count ∧ t.trm.ref = s.trm.ref ∧ t.trm.overrun = s.trm.overrun) ∧
      t.outs = outsFor t ∧ HandsOn s1 t)

/-- What a change of the position state brings at the door, after the reference (R3, R10, R12 to R14, R17, R18, R20, R21, R24, R26, R40, R51).
With LC held off the closed limits every state but CLOSING gives CLOSING LOCAL. Else: arrival at CLOSED ends CLOSING and
WARNING in IDLE_CLOSED; arrival at OPEN ends OPENING in HELD_OPEN under CD with LO held, in WARNING RECLOSE under CD without it, in
IDLE_OPEN without CD, and ends a claim in HELD_OPEN under CD; HELD_OPEN that leaves OPEN has its request evaluated, and a locked-out one counts
as refused; an idle door moves to the matching idle state, from where the standing request, HELD_OPEN and the warning hold act; any other
change leaves the door as it is. That the monitor's alarms, the drift's
POSITION_FAULT among them, reach the alarm unit before the door acts is the model's choice (log 5). -/
def Obligations.ArrivalsEndStrokes : Prop :=
  ∀ (limit : Limit) (made : Bool) (s : State), s.doorRuns = true → s.trm.running = true → s.deb.get limit.lead ≠ made →
    let s1 := setDebounced limit.lead made s
    let pos : Position := positionOf s1.deb
    let discord : Watch := if limit = .olm then s.trm.discord else if s1.deb.cla = s1.deb.clb then .stopped else .running 0
    let conflict : Watch := if pos = .unknown then .running 0 else .stopped
    let value : Option Int := if pos = .closed then some 0 else if pos = .opened then some s.conf.travelCount else none
    let r : Trm := { s.trm with
      pos := pos
      discord := discord
      conflict := conflict
      count := value.getD s.trm.count
      overrun := if value.isSome then 0 else s.trm.overrun
      ref := value.isSome || s.trm.ref }
    let drift : Bool := value.any (fun v => s.trm.ref && decide (s.conf.overrunSlack < (s.trm.count - v).natAbs))
    let b : State := { s1 with
      trm := r.slowed s.conf
      alu := applyRequests (asked drift (.occurred .positionFault) ++
        asked (s.trm.discord.isPast && !discord.isPast) (.becameFalse .limitDiscord) ++
        asked s.trm.conflict.isPast (.becameFalse .limitConflict)) s.alu }
    let d : Dcu := { s.dcu with cause := .noCause, warnTimer := none, held := .stopped }
    pos ≠ s.trm.pos →
      (pos = .closed → s.dcu.ctl = .closing ∨ s.dcu.ctl = .warning →
        ∃ t, exec (.limitDebouncedChange limit made) s = .next t ∧ Moved b { d with ctl := .idleClosed } t) ∧
      (pos = .opened → s.dcu.ctl = .opening → lcHeld s = false →
        ∃ t, exec (.limitDebouncedChange limit made) s = .next t ∧
          Moved b (if s.dcu.cd = true then
            if loHeld s = true then { d with ctl := .heldOpen, held := .running 0 }
            else { d with ctl := .warning, wcause := .reclose, warnTimer := some s.conf.recloseDelay }
          else { d with ctl := .idleOpen }) t) ∧
      (((pos ≠ .closed ∧ s.dcu.ctl = .closing) ∨
          ((lcHeld s = false ∨ pos = .closed) ∧
            ((pos ≠ .closed ∧ s.dcu.ctl = .warning) ∨ (pos ≠ .opened ∧ (s.dcu.ctl = .opening ∨ s.dcu.ctl = .claiming)) ∨
              (pos = .opened ∧ s.dcu.ctl = .heldOpen)))) →
        ∃ t, exec (.limitDebouncedChange limit made) s = .next t ∧
          t.dcu = s.dcu ∧ t.trm = b.trm ∧ t.psu = s.psu ∧ t.alu = b.alu ∧ t.enu = s.enu ∧ t.outs = outsFor t ∧ HandsOn s1 t) ∧
      (lcHeld s = true → pos ≠ .closed → s.dcu.ctl ≠ .closing → s.dcu.ctl ≠ .inactive →
        ∃ t, exec (.limitDebouncedChange limit made) s = .next t ∧ Moved b { d with ctl := .closing, cause := .lever } t) ∧
      (lcHeld s = false → pos = .opened → s.dcu.ctl = .claiming → ∃ t, exec (.limitDebouncedChange limit made) s = .next t ∧
        Moved b (if s.dcu.cd = true then { d with ctl := .heldOpen, held := .running 0 } else { d with ctl := .idleOpen }) t) ∧
      (s.dcu.ctl.isIdle = true → s.dcu.ctl ≠ idleFor pos → s.dcu.cd = false → lcHeld s = false → loHeld s = false →
        ∃ t, exec (.limitDebouncedChange limit made) s = .next t ∧ Moved b { d with ctl := idleFor pos } t) ∧
      (let matching : Dcu := { d with ctl := idleFor pos }
       let warns : Dcu := { d with ctl := .warning, wcause := .remote, warnTimer := some s.conf.warningTime }
       let judged : Dcu :=
         if s.enu.permStart = false then matching
         else if s.psu.inForce = false then { d with ctl := .opening }
         else if s.suc.startUp = .joined then { d with ctl := .claiming }
         else matching
       let rest : Dcu :=
         if loHeld s = true ∧ pos ≠ .opened ∧ s.dcu.lockout = false then judged
         else if s.dcu.cd = false ∨ pos = .closed then matching
         else if pos = .opened ∧ loHeld s = true then { d with ctl := .heldOpen, held := .running 0 }
         else warns
       s.dcu.vcl = false → s.dcu.vop = false → lcHeld s = false ∨ pos = .closed →
         ((pos ≠ .opened ∧ s.dcu.ctl = .heldOpen) ∨ (s.dcu.ctl.isIdle = true ∧ s.dcu.ctl ≠ rest.ctl) →
           ∃ t, exec (.limitDebouncedChange limit made) s = .next t ∧ Moved b rest t) ∧
         (s.dcu.ctl.isIdle = true → s.dcu.ctl = rest.ctl → ∃ t, exec (.limitDebouncedChange limit made) s = .next t ∧
           t.dcu = rest ∧ t.trm = b.trm ∧ t.psu = s.psu ∧ t.alu = b.alu ∧ t.enu = s.enu ∧ t.outs = outsFor t ∧ HandsOn s1 t))

/-- A position pulse (R37 to R39, R41, R43, R47, R49, R50). A stopped monitor, and an edge sooner than 200 µs after the last that was
taken, take none. Else: referenced, the count moves by one with PDR, but is held at a limit, and at a bound, where the pulse is an
overrun; the overrun that passes the slack drops the reference with POSITION_FAULT; unreferenced, the count moves between -32768
and 32767 and no overrun is tallied. Both windows count the pulse, and the one that brings the hand-move tally to the stall minimum
raises HAND_MOVE. -/
def Obligations.PositionPulseMovesCountAndWindows : Prop :=
  ∀ (up : Bool) (since : Nat) (s : State),
    let held : Bool := s.trm.pos == .closed || s.trm.pos == .opened
    let beyond : Bool := s.trm.ref && !held &&
      (if up then decide ((s.conf.travelCount : Int) ≤ s.trm.count) else decide (s.trm.count ≤ 0))
    let dropped : Bool := beyond && decide (s.conf.overrunSlack < s.trm.overrun + 1)
    (s.trm.running = false ∨ since < 200000 → exec (.positionPulse up since) s = .next s) ∧
    (s.trm.running = true → 200000 ≤ since → ∃ t, exec (.positionPulse up since) s = .next t ∧
      t.trm = { s.trm with
        count :=
          if s.trm.ref = true then
            if held = true ∨ beyond = true then s.trm.count else if up then s.trm.count + 1 else s.trm.count - 1
          else if up then min (s.trm.count + 1) 32767 else max (s.trm.count - 1) (-32768)
        overrun := if beyond then s.trm.overrun + 1 else s.trm.overrun
        ref := s.trm.ref && !dropped
        slow := s.trm.slow || (dropped && s.trm.stroke.isSome)
        stall := s.trm.stall.map (fun w : StallWindow => { w with tally := w.tally + 1 })
        hand := s.trm.hand.map (fun w : HandWindow => { w with tally := w.tally + 1 }) }.slowed s.conf ∧
      t.alu = applyRequests (asked dropped (.occurred .positionFault) ++
        asked (s.trm.hand.any (fun w => w.tally + 1 == s.conf.stallMin)) (.occurred .handMove)) s.alu ∧
      t.dcu = s.dcu ∧ t.psu = s.psu ∧ t.enu = s.enu ∧ t.outs = outsFor t ∧ HandsOn s t)

/-- An OPENING is stopped by OPEN_TIMEOUT, by a stalled window, and by a gate end without the permission to continue (R23, R46, R48,
R59): VOP off, the lockout set, and under CD WARNING RECLOSE with the reclose delay, or IDLE_CLOSED at CLOSED, without CD the
matching idle state. The first two raise their events. A second finding of the same moment, on the stroke already stopped, adds
only its alarm (R48; which finding was first is the model's own field `finding`, log 1). Event and stop are taken
in the order in which R46 and R48 name them. -/
def Obligations.OpeningStrokeIsStopped : Prop :=
  ∀ s : State, s.doorRuns = true → lcHeld s = false →
    let d : Dcu := { s.dcu with cause := .noCause, warnTimer := none, held := .stopped, lockout := true }
    let stopped : Dcu :=
      if s.dcu.cd = true then
        if s.trm.pos = .closed then { d with ctl := .idleClosed }
        else { d with ctl := .warning, wcause := .reclose, warnTimer := some s.conf.recloseDelay }
      else { d with ctl := idleFor s.trm.pos }
    (s.dcu.ctl = .opening →
      (∀ ms w, s.trm.stroke = some .opening → s.trm.strokeTimer = .running ms → s.trm.stall = some w →
        ∃ t, exec .openMaximumPassed s = .next t ∧
          Moved { s with
            trm := { s.trm with
              strokeTimer := .past (max ms (s.conf.openMax * 1000)), finding := some (.timeout w) }
            alu := applyRequest (.occurred .openTimeout) s.alu } stopped t) ∧
      (∀ w, s.trm.stroke = some .opening → s.trm.stall = some w → w.number ≠ 1 → w.tally < s.conf.stallMin →
        ∃ t, exec .stallWindowEnd s = .next t ∧
          Moved { s with
            trm := { s.trm with stall := some ⟨0, w.number + 1, 0⟩, finding := some .stall }
            alu := applyRequest (.occurred .stall) s.alu } stopped t) ∧
      (s.enu.running = true → (judgeGate s.conf s.enu).permCont = false → ∃ t, exec .gateEnd s = .next t ∧
        t.dcu = stopped.driven false ∧ t.dcu.vop = false ∧ t.trm = s.trm.driven s.conf stopped t.dcu ∧
        t.outs = outsFor t)) ∧
    (s.trm.stroke = none → s.trm.stall = none → (∀ ms : Nat, s.trm.finding = some .stall → s.trm.strokeTimer ≠ .running ms →
        ∃ t, exec .openMaximumPassed s = .next t ∧ t.trm = { s.trm with finding := none } ∧
          t.alu = applyRequest (.occurred .openTimeout) s.alu ∧ t.dcu = s.dcu ∧ t.psu = s.psu ∧ t.enu = s.enu ∧
          t.outs = outsFor t ∧ HandsOn s t) ∧
      (∀ w, s.trm.finding = some (.timeout w) → w.number ≠ 1 → w.tally < s.conf.stallMin →
        ∃ t, exec .stallWindowEnd s = .next t ∧ t.trm = { s.trm with finding := none } ∧
          t.alu = applyRequest (.occurred .stall) s.alu ∧ t.dcu = s.dcu ∧ t.psu = s.psu ∧ t.enu = s.enu ∧
          t.outs = outsFor t ∧ HandsOn s t))

/-- Supervision windows follow one another (R47 to R49). A stall window that is the first of its stroke, or whose tally reaches the
stall minimum, gives way to the next with a tally of 0 and nothing more; a stalled one in a close stroke raises STALL besides, and
the stroke goes on. The end of the arming time starts the first hand-move window, and the end of a window the next. -/
def Obligations.SupervisionWindowsFollowOneAnother : Prop :=
  ∀ s : State,
    (∀ w, s.trm.stall = some w → w.number = 1 ∨ s.conf.stallMin ≤ w.tally →
      exec .stallWindowEnd s = .next (setOuts { s with trm := { s.trm with stall := some ⟨0, w.number + 1, 0⟩ } })) ∧
    (∀ w, s.trm.stall = some w → w.number ≠ 1 → w.tally < s.conf.stallMin → s.trm.stroke = some .closing →
      ∃ t, exec .stallWindowEnd s = .next t ∧ t.trm = { s.trm with stall := some ⟨0, w.number + 1, 0⟩ } ∧
        t.alu = applyRequest (.occurred .stall) s.alu ∧ t.dcu = s.dcu ∧ t.psu = s.psu ∧ t.enu = s.enu ∧
        t.outs = outsFor t ∧ HandsOn s t) ∧
    (s.trm.arming.isSome = true → exec .handMoveArmingExpiry s =
      .next { s with trm := { s.trm with arming := none, hand := some ⟨0, 0⟩ } }) ∧
    (s.trm.hand.isSome = true → exec .handMoveWindowEnd s = .next { s with trm := { s.trm with hand := some ⟨0, 0⟩ } })

/-! ### Energy -/

/-- Pulses and gates (R53 to R55, R58 to R62, R64). An edge 1 µs or more after the last that was taken adds one to the tally, up to
65535; a sooner one, and one on a stopped unit, acts nowhere. At a gate end the tally is judged against the band, the runs, the
figures and the permissions follow, and the next gate starts with a tally of 0. The third out-of-band gate in a row leaves
PRESSURE_SENSOR active, the third in-band gate in a row clears it, and ENERGY_LOW is raised and cleared at the gates at which a present
usable volume comes to lie below the start threshold and no longer does; pump control acts on the new figure; a door that is not
OPENING and whose request does not stand, is locked out or finds the permission to start as it was is left as it is. A request that
stands is judged where the permission to start comes or goes (R12, R13, R58): gained, it opens the door, or claims with the limit in
force, a claim staying one; refused, and lost, it leaves an idle state as it is and takes any other, a claim among them, to the
matching idle state. An OPENING with the permission to continue goes on (R59). With the spacing ended, what the door control unit changes and the change of
closes available are gathered into one STATE snapshot (R62). -/
def Obligations.GatesCountAndJudge : Prop :=
  (∀ (since : Nat) (s : State),
    (s.enu.running = true → 1000 ≤ since →
      exec (.pfqPulse since) s = .next { s with enu := { s.enu with tally := min (s.enu.tally + 1) 65535 } }) ∧
    (s.enu.running = false ∨ since < 1000 → exec (.pfqPulse since) s = .next s)) ∧
  ∀ s : State, s.enu.running = true → ∃ t, exec .gateEnd s = .next t ∧
    let good : Bool := decide (s.conf.nmin ≤ s.enu.tally ∧ s.enu.tally ≤ s.conf.nmax)
    t.enu.running = true ∧ t.enu.gate = some 0 ∧ t.enu.tally = 0 ∧ t.enu.lastN = some s.enu.tally ∧
    t.enu.oob = (if good then 0 else min (s.enu.oob + 1) 3) ∧ t.enu.inb = (if good then min (s.enu.inb + 1) 3 else 0) ∧
    (good = true → t.enu.p = some (pressureOf s.conf s.enu.tally)) ∧
    (good = false → t.enu.p = if t.enu.oob = 3 then none else s.enu.p) ∧
    t.enu.u = t.enu.p.map (usableOf s.conf) ∧
    t.enu.closes = t.enu.u.map (fun u => min (u / s.conf.vc) 15) ∧
    (t.enu.permStart = true ↔ ∃ u, t.enu.u = some u ∧ s.conf.vo + s.conf.vc * s.conf.reserve ≤ u) ∧
    (t.enu.permCont = true ↔ ∃ u, t.enu.u = some u ∧ s.conf.vc * s.conf.reserve ≤ u) ∧
    (s.enu.oob ≠ 3 → t.enu.oob = 3 → ∃ r ∈ t.alu, r.kind = .pressureSensor ∧ r.st.active = true) ∧
    (s.enu.inb ≠ 3 → t.enu.inb = 3 → ∀ r ∈ t.alu, r.kind = .pressureSensor → r.st.active = false) ∧
    (let low (e : Enu) : Bool := e.u.isSome && !e.permStart
     (low s.enu = false → low t.enu = true → ∃ r ∈ t.alu, r.kind = .energyLow ∧ r.st.active = true) ∧
     (low s.enu = true → low t.enu = false → ∀ r ∈ t.alu, r.kind = .energyLow → r.st.active = false)) ∧
    (s.suc.startUp = .joined → s.doorRuns = true → s.snu.state.ready = true → t.alu = s.alu → t.psu.phase = s.psu.phase →
      t.enu.closes ≠ s.enu.closes ∨ t.dcu.ctl ≠ s.dcu.ctl → t.snu.state = s.snu.state.make (doorContent t)) ∧
    t.enu.locked = s.enu.locked ∧
    t.enu.pumpOn = (s.deb.mains && !s.enu.locked && t.enu.p.any (fun p =>
      if s.enu.pumpOn then decide (p < s.conf.pOff) else decide (p < s.conf.pOn))) ∧
    (let edge (before after : Bool) (q : AlarmRequest) : List AlarmRequest := asked (!before && after) q
     let b : State := { s with
       enu := t.enu
       alu := applyRequests (
         edge (s.enu.oob == 3) (t.enu.oob == 3) (.becameTrue .pressureSensor) ++
         edge (s.enu.inb == 3) (t.enu.inb == 3) (.becameFalse .pressureSensor) ++
         edge (energyLow s.enu) (energyLow t.enu) (.becameTrue .energyLow) ++
         edge (energyLow t.enu) (energyLow s.enu) (.becameFalse .energyLow)) s.alu }
     let d : Dcu := { s.dcu with cause := .noCause, warnTimer := none, held := .stopped }
     let judged : Prop := requestStands s = true ∧ s.dcu.lockout = false ∧ t.enu.permStart ≠ s.enu.permStart
     let refused : Prop := t.enu.permStart = false ∨ (s.psu.inForce = true ∧ s.suc.startUp ≠ .joined)
     (s.dcu.ctl ≠ .opening → ¬ judged → DoorKept s t) ∧
     (s.dcu.ctl = .opening → s.dcu.vop = true → t.enu.permCont = true → DoorKept s t) ∧
     (s.dcu.ctl ≠ .opening → s.dcu.ctl ≠ .inactive → judged →
       (refused → s.dcu.ctl.isIdle = true → DoorKept s t) ∧
       (refused → s.dcu.ctl.isIdle = false → Moved b { d with ctl := idleFor s.trm.pos } t) ∧
       (t.enu.permStart = true → s.psu.inForce = false → Moved b { d with ctl := .opening } t) ∧
       (t.enu.permStart = true → s.psu.inForce = true → s.suc.startUp = .joined →
         (s.dcu.ctl = .claiming → DoorKept s t) ∧ (s.dcu.ctl ≠ .claiming → Moved b { d with ctl := .claiming } t)))) ∧
    HandsOn { s with enu := t.enu } t ∧ t.outs = outsFor t

/-- The pressure figure of an in-band gate (R56): 0 up to n0; above it the product with the gain, divided by 256 and rounded toward
zero, and then limited to 4000. The product fits in 28 bits. -/
def Obligations.PressureFigureOfAnInBandGate : Prop :=
  ∀ s : State, s.enu.running = true → s.conf.nmin ≤ s.enu.tally → s.enu.tally ≤ s.conf.nmax →
    ∃ t P, exec .gateEnd s = .next t ∧ t.enu.p = some P ∧
      (s.enu.tally ≤ s.conf.n0 → P = 0 ∧ t.enu.u = some 0) ∧
      (s.conf.n0 < s.enu.tally → P = min ((s.enu.tally - s.conf.n0) * s.conf.kP / 256) 4000) ∧
      P ≤ 4000 ∧
      (s.conf.n0 < s.enu.tally → 4000 ≤ (s.enu.tally - s.conf.n0) * s.conf.kP / 256 → P = 4000) ∧
      (s.enu.tally ≤ 65535 → s.conf.kP ≤ 4095 →
        (s.enu.tally - s.conf.n0) * s.conf.kP ≤ 268365825 ∧ 268365825 < 2 ^ 28)

/-- The usable-volume figure after a gate end (R57): absent with the pressure; 0 up to Pmin; above it the one full-width product
divided and rounded toward zero. In an accepted configuration the numerator fits in 40 bits, the denominator in 24, and the figure
lies below V0 × p0 / Pmin and so below V0, at most 59,999. -/
def Obligations.UsableVolumeFigureAndItsBounds : Prop :=
  ∀ s : State, s.enu.running = true → ∃ t, exec .gateEnd s = .next t ∧
    (t.enu.p = none → t.enu.u = none) ∧
    ∀ P, t.enu.p = some P → ∃ U, t.enu.u = some U ∧
      (P ≤ s.conf.pmin → U = 0) ∧
      (s.conf.pmin < P → U = s.conf.v0 * s.conf.p0 * (P - s.conf.pmin) / (s.conf.pmin * P)) ∧
      (10 ≤ s.conf.p0 → s.conf.p0 < s.conf.pmin → s.conf.pmin ≤ 4000 → 1000 ≤ s.conf.v0 → s.conf.v0 ≤ 60000 → P ≤ 4000 →
        s.conf.v0 * s.conf.p0 * (P - s.conf.pmin) ≤ 957360600000 ∧ 957360600000 < 2 ^ 40 ∧
        s.conf.pmin * P ≤ 16000000 ∧ 16000000 < 2 ^ 24 ∧
        U * s.conf.pmin < s.conf.v0 * s.conf.p0 ∧ s.conf.v0 * s.conf.p0 < s.conf.v0 * s.conf.pmin ∧
        U < s.conf.v0 ∧ U ≤ 59999)

/-- The mains and the pump's failure (R63 to R66). A debounced change of MAINS raises or clears MAINS_LOSS while the part runs, in
either role, and nothing before; in the door role pump control acts at once: off without mains, on with mains under P_on unless
locked. A run that reaches the pump maximum switches the pump off, raises PUMP_FAIL as an event and locks it. -/
def Obligations.MainsAndPumpLimitActOnThePump : Prop :=
  ∀ s : State,
    (∀ made : Bool, s.deb.mains ≠ made →
      (s.suc.startUp.running = false →
        exec (.mainsDebouncedChange made) s = .next (setOuts (setDebounced .mains made s))) ∧
      (s.suc.startUp.running = true → ∃ t, exec (.mainsDebouncedChange made) s = .next t ∧
        t.alu = applyRequest (condition .mainsLoss (!made)) s.alu ∧ DoorKept s t ∧
        (s.enu.running = true → t.enu.pumpOn = (made && !s.enu.locked && s.enu.p.any (fun p =>
          if s.enu.pumpOn then decide (p < s.conf.pOff) else decide (p < s.conf.pOn)))) ∧
        (s.enu.running = false → t.enu = s.enu) ∧
        t.enu.locked = s.enu.locked ∧ t.outs = outsFor t ∧
        ((s.enu.running = true → s.doorRuns = true) → HandsOn (setDebounced .mains made s) t))) ∧
    (s.enu.pumpOn = true → s.doorRuns = true → ∃ t, exec .pumpRunLimit s = .next t ∧
      t.enu = { s.enu with pumpOn := false, run := none, locked := true } ∧
      t.alu = applyRequest (.occurred .pumpFail) s.alu ∧ DoorKept s t ∧ t.outs = outsFor t ∧ HandsOn s t)

/-! ### Passage -/

/-- The end of a claim hold (R71 to R75): the occupying group peers and the waiting LIVE peers of lower number are counted; a sum below
the limit grants the claim, which opens with open permission to start held and is refused without it, and ends either way; else
the claim waits, with its timer stopped and the door CLAIMING. A waiting claim is judged in the same way, on the table as it then
stands, whenever a STATE of a group peer is accepted and whenever a group peer goes STALE (R76), whether the peer's group is the
door's before the change or after it; and at each such notice PASSAGE_EXCESS is looked at (R80): it is held while the door is OPENING or
HELD_OPEN with the limit in force and as many lower-numbered group peers occupying as the limit, and its alarm follows its edges. -/
def Obligations.ClaimHoldEndIsJudged : Prop :=
  (∀ (s : State) (c : Instr), s.doorRuns = true → ClaimsJoined s →
    (c = .telegramTaken ∧ ∃ tg rest, s.rxq.queue = tg :: rest ∧ tg.cls = .state ∧ tg.origin ≠ s.conf.station ∧
        (∀ e, entryOf s tg.origin = some e → e.kind = .door ∧ (e.live = true → ∀ last, e.serS = some last →
          1 ≤ (tg.serial - last).toNat ∧ (tg.serial - last).toNat ≤ 127)) ∧
        ((decodeState tg.payload).group = s.conf.group ∨
          ∃ e p, entryOf s tg.origin = some e ∧ e.door = some p ∧ p.group = s.conf.group)) ∨
      (∃ n e p, c = .entryGoesStale n ∧ entryOf s n = some e ∧ e.kind = .door ∧ e.live = true ∧ s.staleMs ≤ e.age ∧
        e.door = some p ∧ p.group = s.conf.group) →
    ∃ t, exec c s = .next t ∧
      (let peer (test : Entry → DoorPart → Bool) (e : Entry) : Bool :=
        e.kind == .door && e.door.any (fun p => p.group == s.conf.group && test e p)
       let occupies (_ : Entry) (p : DoorPart) : Bool := p.ctl == .opening || p.ctl == .heldOpen || p.pos != .closed
       let occupants : Nat := t.ste.table.countP (peer occupies)
       let ahead : Nat := t.ste.table.countP (peer (fun e p => e.live && p.phase == .waiting && e.num < s.conf.station))
       let lower : Nat := t.ste.table.countP (peer (fun e p => occupies e p && e.num < s.conf.station))
       (s.psu.phase ≠ .waiting → t.dcu = s.dcu ∧ t.trm = s.trm ∧ t.psu = { s.psu with excess := t.psu.excess }) ∧
       (s.psu.phase = .waiting →
         t.psu.occupants = occupants ∧ t.psu.ahead = ahead ∧
         (occupants + ahead < s.conf.passageLimit → t.psu.phase = .noClaim ∧
           t.dcu.ctl = if s.enu.permStart = true then .opening else idleFor s.trm.pos) ∧
         (s.conf.passageLimit ≤ occupants + ahead → t.psu.phase = .waiting ∧ t.dcu = s.dcu)) ∧
       (t.psu.excess = true ↔ (t.dcu.ctl = .opening ∨ t.dcu.ctl = .heldOpen) ∧ t.psu.inForce = true ∧
         s.conf.passageLimit ≤ lower) ∧
       (s.psu.excess = false → t.psu.excess = true → ∃ r ∈ t.alu, r.kind = .passageExcess ∧ r.st.active = true) ∧
       (s.psu.excess = true → t.psu.excess = false → ∀ r ∈ t.alu, r.kind = .passageExcess → r.st.active = false))) ∧
  ∀ s : State, s.doorRuns = true → s.psu.phase = .fresh → s.dcu.ctl = .claiming →
    let peer (test : Entry → DoorPart → Bool) (e : Entry) : Bool :=
      e.kind == .door && e.door.any (fun p => p.group == s.conf.group && test e p)
    let occupants : Nat := s.ste.table.countP
      (peer (fun _ p => p.ctl == .opening || p.ctl == .heldOpen || p.pos != .closed))
    let ahead : Nat := s.ste.table.countP (peer (fun e p => e.live && p.phase == .waiting && e.num < s.conf.station))
    let b : State := { s with psu := { s.psu with
      phase := .waiting, claimTimer := none, occupants := occupants, ahead := ahead } }
    let d : Dcu := { s.dcu with cause := .noCause, warnTimer := none, held := .stopped }
    (occupants + ahead < s.conf.passageLimit → s.enu.permStart = true →
      ∃ t, exec .claimHoldExpiry s = .next t ∧ t.psu.phase = .noClaim ∧ Moved b { d with ctl := .opening } t) ∧
    (occupants + ahead < s.conf.passageLimit → s.enu.permStart = false →
      ∃ t, exec .claimHoldExpiry s = .next t ∧ t.psu.phase = .noClaim ∧ Moved b { d with ctl := idleFor s.trm.pos } t) ∧
    (s.conf.passageLimit ≤ occupants + ahead → ∃ t, exec .claimHoldExpiry s = .next t ∧ t.psu = b.psu ∧ t.dcu = s.dcu ∧
      t.trm = s.trm ∧ t.alu = s.alu ∧ t.enu = s.enu ∧ t.outs = outsFor t ∧ HandsOn s t)

/-! ### Alarms -/

/-- The life of an alarm record (R83 to R89): every cell of the table. A kind without a record enters at the tail with count 1 and
age 0; a record keeps its place and age; the count saturates at 255; a removed record leaves the others in order; an acknowledge
acts on every record at once. A cell that changes nothing hands nothing on, and what a change hands on stays within R95 to R97. -/
def Obligations.AlarmRecordLifeCycle : Prop :=
  ∀ s : State,
    (∀ k, hasKind k s.alu = false →
      (alarm (.becameTrue k) s).alu = s.alu ++ [⟨k, .activeUnacked, 1, 0, 0⟩] ∧
      alarm (.becameFalse k) s = s ∧
      (alarm (.occurred k) s).alu = s.alu ++ [⟨k, .clearedUnacked, 1, 0, 0⟩]) ∧
    (∀ pre r post, s.alu = pre ++ r :: post → hasKind r.kind (pre ++ post) = false →
      (r.st = .activeUnacked ∨ r.st = .activeAcked → alarm (.becameTrue r.kind) s = s) ∧
      (r.st = .clearedUnacked → (alarm (.becameTrue r.kind) s).alu =
        pre ++ { r with st := .activeUnacked, count := min (r.count + 1) 255 } :: post) ∧
      (r.st = .activeUnacked → (alarm (.becameFalse r.kind) s).alu = pre ++ { r with st := .clearedUnacked } :: post) ∧
      (r.st = .activeAcked → (alarm (.becameFalse r.kind) s).alu = pre ++ post) ∧
      (r.st = .clearedUnacked → alarm (.becameFalse r.kind) s = s) ∧
      (r.st = .clearedUnacked → (alarm (.occurred r.kind) s).alu =
        pre ++ { r with count := min (r.count + 1) 255 } :: post)) ∧
    (alarm .acknowledge s).alu =
      (s.alu.filter (fun r => r.st ≠ .clearedUnacked)).map (fun r => { r with st := .activeAcked }) ∧
    ((∀ r ∈ s.alu, r.st = .activeAcked) → alarm .acknowledge s = s) ∧
    ∀ q, DoorKept s (alarm q s) ∧ HandsOn s (alarm q s)

/-- The whole seconds of an alarm record and of the capture (R90, R179): the age goes up by one, up to 65535, and the next second
begins; nothing else of the record, and nothing else, changes. -/
def Obligations.AgesGoUpByTheSecond : Prop :=
  ∀ (k : AlarmKind) (s : State),
    exec (.alarmAgeTick k) s = .next { s with
      alu := s.alu.map (fun r => if r.kind = k then { r with age := min (r.age + 1) 65535, ms := 0 } else r) } ∧
    (∀ c, s.dgp.capture = some c → exec .captureAgeTick s = .next { s with
      dgp := { s.dgp with capture := some { c with age := min (c.age + 1) 65535, ms := 0 } } }) ∧
    (s.dgp.capture = none → exec .captureAgeTick s = .next s)


/-! ### Station table -/

/-- A telegram of another station that is newer, or finds no live entry or no serial of its class, is accepted (R101, R104 to R106,
R108, R110, R157): it leaves the queue; the entry takes its kind, part, serial and lane, is LIVE with age 0, and keeps the other
parts unless its kind has changed; a new entry and a return from STALE start both lanes' grace and drop the other serials. No counter
moves, no other entry changes, the derivations are those of the new table, and their edges raise and clear CONFIG_MISMATCH and at a panel
STATION_LOST and LANE_DEGRADED (R112 to R114). At a door a DEMAND into a LIVE entry whose panel part has another counter for baseline
acknowledges the whole list (R93, R110; the table of R110 read as in log 24), any other telegram acknowledges nothing. A panel stores
the door part's unacknowledged set as last seen (R164) and, where the entry is or was a PANEL, judges the modes: a disagreement
starts the mode-conflict timer or lets it run on, its end stops it and clears MODE_CONFLICT (R167). A panel moves no
door. -/
def Obligations.TelegramIsAccepted : Prop :=
  ∀ (s : State) (tg : Telegram) (rest : List Telegram), s.suc.startUp.running = true → s.rxq.queue = tg :: rest →
    tg.origin ≠ s.conf.station →
    let kind : Kind := match tg.cls with
      | .demand => .panel
      | .state => .door
      | .ident => if (decodeIdent tg.payload).role = .door then .door else .panel
    let old : Option Entry := entryOf s tg.origin
    let alive : Option Entry := old.filter (·.live)
    let known : Option Entry := old.filter (fun e => e.kind = kind)
    (∀ e, alive = some e → e.kind = kind ∧ ∀ last, e.serial tg.cls = some last →
      1 ≤ (tg.serial - last).toNat ∧ (tg.serial - last).toNat ≤ 127) →
    ∃ t e, exec .telegramTaken s = .next t ∧ entryOf t tg.origin = some e ∧
      e.num = tg.origin ∧ e.kind = kind ∧ e.live = true ∧ e.age = 0 ∧
      e.heardA = (if tg.lane = .a then 0 else (alive.map (·.heardA)).getD 0) ∧
      e.heardB = (if tg.lane = .b then 0 else (alive.map (·.heardB)).getD 0) ∧
      e.serD = (if tg.cls = .demand then some tg.serial else alive.bind (·.serD)) ∧
      e.serS = (if tg.cls = .state then some tg.serial else alive.bind (·.serS)) ∧
      e.serI = (if tg.cls = .ident then some tg.serial else alive.bind (·.serI)) ∧
      e.panel = (if tg.cls = .demand then some ⟨decodeDemand tg.payload, (decodeDemand tg.payload).ack⟩
        else known.bind (·.panel)) ∧
      e.door = (if tg.cls = .state then some (decodeState tg.payload) else known.bind (·.door)) ∧
      e.ident = (if tg.cls = .ident then some (decodeIdent tg.payload) else known.bind (·.ident)) ∧
      e.single = (decide (e.heardA < s.staleMs) != decide (e.heardB < s.staleMs)) ∧
      OthersKept tg.origin s t ∧ t.rxq = { s.rxq with queue := rest } ∧
      t.ste.kindConflicts = s.ste.kindConflicts ∧ t.ste.duplicates = s.ste.duplicates ∧
      t.ste.lateCopies = s.ste.lateCopies ∧ t.ste.mismatch = mismatchNow t ∧
      (s.panelRuns = true → t.ste.lost = lostNow t ∧ t.ste.degraded = degradedNow t ∧
        t.pnu.summaries = summariesOf t.ste.table) ∧
      (s.panelRuns = true →
        t.pnu.lastSeen = s.pnu.lastSeen.set (tg.origin - 1) (if e.kind = .door then (e.door.map (·.unacked)).getD 0 else 0) ∧
        t.pnu.conflict = (if e.kind = .panel ∨ (∃ o, old = some o ∧ o.kind = .panel) then
            if t.ste.table.any (fun e => e.kind == .panel && e.live && e.panel.any (fun h => h.part.mode != s.pnu.mode)) = true
            then (if s.pnu.conflict = .stopped then .running 0 else s.pnu.conflict) else .stopped
          else s.pnu.conflict) ∧
        (s.pnu.conflict.isPast = true → t.pnu.conflict = .stopped → ∀ r ∈ t.alu, r.kind = .modeConflict → r.st.active = false)) ∧
      (let asks : Bool := s.doorRuns && (tg.cls == .demand && alive.any (fun e => e.panel.any (fun h =>
        h.base != (decodeDemand tg.payload).ack)))
       let derived : List AlarmKind := [.configMismatch, .stationLost, .laneDegraded, .modeConflict, .noPanel, .passageExcess]
       let ended : List AlarmKind := [.closeTimeout, .openTooLong]
       (asks = true → (∀ r ∈ t.alu, r.st = .activeAcked ∨ r.kind ∈ derived) ∧
         ∀ r ∈ s.alu, r.st ≠ .clearedUnacked → r.kind ∉ derived ++ ended → { r with st := .activeAcked } ∈ t.alu) ∧
       (asks = false → ∀ r ∈ s.alu, r.kind ∉ derived ++ ended → r ∈ t.alu) ∧
       (let edge (k : AlarmKind) (before after : Bool) : Prop :=
         (before = false → after = true → ∃ r ∈ t.alu, r.kind = k ∧ r.st.active = true) ∧
         (before = true → after = false → ∀ r ∈ t.alu, r.kind = k → r.st.active = false)
        edge .configMismatch s.ste.mismatch t.ste.mismatch ∧
        (s.panelRuns = true → edge .stationLost s.ste.lost t.ste.lost ∧ edge .laneDegraded s.ste.degraded t.ste.degraded))) ∧
      (s.doorRuns = false → DoorKept s t) ∧ TableHands s t

/-- A telegram that is not accepted (R103, R107, R116): a kind conflict counts and nothing else; a duplicate and a late copy count,
restart the heard age of their lane and the marking, and leave part, serials, age and liveness. -/
def Obligations.TelegramIsNotAccepted : Prop :=
  ∀ (s : State) (tg : Telegram) (rest : List Telegram) (e : Entry), s.suc.startUp.running = true →
    s.rxq.queue = tg :: rest → tg.origin ≠ s.conf.station → entryOf s tg.origin = some e → e.live = true →
    let kind : Kind := match tg.cls with
      | .demand => .panel
      | .state => .door
      | .ident => if (decodeIdent tg.payload).role = .door then .door else .panel
    (e.kind ≠ kind → exec .telegramTaken s = .next (setOuts { s with
      rxq := { s.rxq with queue := rest }
      ste := { s.ste with kindConflicts := min (s.ste.kindConflicts + 1) 65535 } })) ∧
    (e.kind = kind → ∀ last, e.serial tg.cls = some last →
      (tg.serial - last).toNat = 0 ∨ 128 ≤ (tg.serial - last).toNat → ∃ t, exec .telegramTaken s = .next t ∧
        (let a : Nat := if tg.lane = .a then 0 else e.heardA
         let b : Nat := if tg.lane = .b then 0 else e.heardB
         entryOf t tg.origin = some { e with
           heardA := a, heardB := b, single := decide (a < s.staleMs) != decide (b < s.staleMs) }) ∧
        OthersKept tg.origin s t ∧ t.rxq = { s.rxq with queue := rest } ∧
        t.ste.kindConflicts = s.ste.kindConflicts ∧
        t.ste.duplicates = (if tg.serial = last then min (s.ste.duplicates + 1) 65535 else s.ste.duplicates) ∧
        t.ste.lateCopies = (if tg.serial = last then s.ste.lateCopies else min (s.ste.lateCopies + 1) 65535) ∧
        t.ste.mismatch = s.ste.mismatch ∧ t.ste.lost = s.ste.lost ∧
        t.ste.degraded = (if s.panelRuns = true then degradedNow t else s.ste.degraded) ∧
        DoorKept s t ∧ t.enu = s.enu ∧ t.outs = outsFor t ∧ TableHands s t)

/-- A telegram of the own number (R102, R124, R142, R174): it leaves the queue and is discarded, with the table and its counters as
they were. In MUTE that is all. In LISTEN and JOINED the part goes MUTE: FLT on, a lane that contends or sends gives its telegram up uncounted,
the snapshot unit's timers stop, and a claim ends. -/
def Obligations.OwnNumberMutesThePart : Prop :=
  ∀ (s : State) (tg : Telegram) (rest : List Telegram), s.rxq.queue = tg :: rest → tg.origin = s.conf.station →
    (s.suc.startUp = .mute → exec .telegramTaken s = .next (setOuts { s with rxq := { s.rxq with queue := rest } })) ∧
    (s.suc.startUp = .listen ∨ s.suc.startUp = .joined → ∃ t, exec .telegramTaken s = .next t ∧
      t.suc = { s.suc with startUp := .mute, flt := true, listenTimer := none } ∧
      t.rxq = { s.rxq with queue := rest } ∧ t.ste = s.ste ∧
      (∀ id, (s.lane id).activity = .contending ∨ ((s.lane id).activity = .sending ∧ (s.lane id).copy.isSome = true) →
        (t.lane id).activity = .receiving ∧ (t.lane id).copy = none ∧ (t.lane id).ctr = (s.lane id).ctr) ∧
      t.snu = ⟨{ s.snu.state with pending := false, spacing := none, refresh := none },
        { s.snu.demand with pending := false, spacing := none, refresh := none }, { s.snu.ident with timer := none }⟩ ∧
      (s.doorRuns = true → s.dcu.ctl = .claiming → t.psu.phase = .noClaim ∧ t.dcu.ctl ≠ .claiming) ∧
      (s.dcu.ctl ≠ .claiming → DoorKept s t) ∧
      t.lead = s.lead ∧ t.deb = s.deb ∧ t.settle = s.settle ∧ t.flash = s.flash ∧ t.enu = s.enu ∧ t.pnu = s.pnu ∧
      t.dgp = s.dgp ∧ t.pending = s.pending ∧ t.outs = outsFor t)

/-- An entry's ages (R108, R109, R113): a LIVE entry whose age reaches the staleness limit becomes STALE, with every part, its kind and
its serials kept and its marking off, and at a panel STATION_LOST is held and raised if it was not, the set last seen stored (R164) and a
disagreement that a PANEL entry leaves behind ended, its timer stopped and MODE_CONFLICT cleared (R167); a LIVE entry whose lane-heard age
reaches it is judged single-lane afresh, with no notice. Neither acts on a STALE or an absent entry, nor on an age below the limit,
as one that a telegram of the same moment has restarted (R115). -/
def Obligations.EntryAgesMakeStaleAndSingleLane : Prop :=
  ∀ (n : Nat) (s : State),
    (∀ e, entryOf s n = some e → e.live = true →
      (s.staleMs ≤ e.age → ∃ t, exec (.entryGoesStale n) s = .next t ∧
        entryOf t n = some { e with live := false, single := false } ∧ OthersKept n s t ∧
        t.ste.kindConflicts = s.ste.kindConflicts ∧ t.ste.duplicates = s.ste.duplicates ∧
        t.ste.lateCopies = s.ste.lateCopies ∧ t.ste.mismatch = mismatchNow t ∧
        (s.panelRuns = true → t.ste.lost = true ∧ t.ste.degraded = degradedNow t ∧
          t.pnu.summaries = summariesOf t.ste.table ∧
          (s.ste.lost = false → ∃ r ∈ t.alu, r.kind = .stationLost ∧ r.st.active = true)) ∧
        (s.panelRuns = true →
          t.pnu.lastSeen = s.pnu.lastSeen.set (n - 1) (if e.kind = .door then (e.door.map (·.unacked)).getD 0 else 0) ∧
          t.pnu.conflict = (if e.kind = .panel then
              if t.ste.table.any (fun e => e.kind == .panel && e.live && e.panel.any (fun h => h.part.mode != s.pnu.mode)) = true
              then (if s.pnu.conflict = .stopped then .running 0 else s.pnu.conflict) else .stopped
            else s.pnu.conflict) ∧
          (s.pnu.conflict.isPast = true → t.pnu.conflict = .stopped → ∀ r ∈ t.alu, r.kind = .modeConflict → r.st.active = false)) ∧
        (s.doorRuns = false → DoorKept s t) ∧ t.rxq = s.rxq ∧ TableHands s t) ∧
      (e.age < s.staleMs → exec (.entryGoesStale n) s = .next s) ∧
      ∀ lane : LaneId, let heard : Nat := if lane = .a then e.heardA else e.heardB
        (heard < s.staleMs → exec (.laneHeardAgeLimit n lane) s = .next s) ∧
        (s.staleMs ≤ heard → ∃ t, exec (.laneHeardAgeLimit n lane) s = .next t ∧
        entryOf t n = some { e with single := decide (e.heardA < s.staleMs) != decide (e.heardB < s.staleMs) } ∧
        OthersKept n s t ∧
        t.ste = { s.ste with
          table := t.ste.table, degraded := if s.panelRuns = true then degradedNow t else s.ste.degraded } ∧
        t.enu = s.enu ∧ t.outs = s.outs ∧ DoorKept s t ∧ t.rxq = s.rxq ∧ TableHands s t)) ∧
    ((∀ e, entryOf s n = some e → e.live = false) →
      exec (.entryGoesStale n) s = .next s ∧ ∀ lane : LaneId, exec (.laneHeardAgeLimit n lane) s = .next s)

/-! ### Snapshots -/

/-- The timers of the snapshot unit (R125, R128, R129, R131, R132, R134), in JOINED: the end of the own class's spacing makes the pending
snapshot or stops the timer; the refresh and the IDENT timer make one. A snapshot has the content as it stands, the serial after the
last, or 0 for the first, its timers from 0 and nothing pending, and each idle and quiet lane begins its work. A timer below its limit,
as one that a making of the same moment has restarted (R133), and any timer outside JOINED, makes nothing. Whatever command changes
a reported field in JOINED (R31, R126, R127), from a state in which the monitor of a running door runs (an invariant of every step,
StepsKeepTheCountBounded), it is offered: the newest STATE or DEMAND then holds the content as it stands, or the
change is pending; a change of the position figure alone counts in another band than the newest snapshot's, or between present and absent. -/
def Obligations.SnapshotTimersMakeSnapshots : Prop :=
  ∀ s : State,
    let next (n : Snu) : State := { s with snu := n, laneA := s.laneA.offered n, laneB := s.laneB.offered n }
    let stateMade : Snu := { s.snu with state :=
      ⟨some (doorContent s), if s.snu.state.newest = none then 0 else s.snu.state.serial + 1, false, some 0, some 0⟩ }
    let demandMade : Snu := { s.snu with demand :=
      ⟨some (panelContent s), if s.snu.demand.newest = none then 0 else s.snu.demand.serial + 1, false, some 0, some 0⟩ }
    (s.suc.startUp = .joined → s.conf.role = .door →
      (reached s.snu.state.spacing 50 = true → s.snu.state.pending = true →
        exec .spacingTimerEnd s = .next (next stateMade)) ∧
      (reached s.snu.state.spacing 50 = true → s.snu.state.pending = false → exec .spacingTimerEnd s =
        .next { s with snu := { s.snu with state := { s.snu.state with spacing := none } } }) ∧
      (reached s.snu.state.spacing 50 = false → exec .spacingTimerEnd s = .next s) ∧
      (reached s.snu.state.refresh (100 * s.conf.refresh) = true → exec .refreshTimerExpiry s = .next (next stateMade)) ∧
      (reached s.snu.state.refresh (100 * s.conf.refresh) = false → exec .refreshTimerExpiry s = .next s)) ∧
    (s.suc.startUp = .joined → s.conf.role = .panel →
      (reached s.snu.demand.spacing 50 = true → s.snu.demand.pending = true →
        exec .spacingTimerEnd s = .next (next demandMade)) ∧
      (reached s.snu.demand.spacing 50 = true → s.snu.demand.pending = false → exec .spacingTimerEnd s =
        .next { s with snu := { s.snu with demand := { s.snu.demand with spacing := none } } }) ∧
      (reached s.snu.demand.spacing 50 = false → exec .spacingTimerEnd s = .next s) ∧
      (reached s.snu.demand.refresh (100 * s.conf.refresh) = true → exec .refreshTimerExpiry s = .next (next demandMade)) ∧
      (reached s.snu.demand.refresh (100 * s.conf.refresh) = false → exec .refreshTimerExpiry s = .next s)) ∧
    (s.suc.startUp = .joined → reached s.snu.ident.timer (1000 * s.conf.refresh) = true → exec .identTimerExpiry s = .next (next { s.snu with
      ident := ⟨some (identContent s), if s.snu.ident.newest = none then 0 else s.snu.ident.serial + 1, some 0⟩ })) ∧
    (s.suc.startUp ≠ .joined ∨ reached s.snu.ident.timer (1000 * s.conf.refresh) = false →
      exec .identTimerExpiry s = .next s) ∧
    (s.suc.startUp ≠ .joined → exec .spacingTimerEnd s = .next s ∧ exec .refreshTimerExpiry s = .next s) ∧
    (∀ c t, CountBounded s → exec c s = .next t → s.suc.startUp = .joined → t.suc.startUp = .joined →
      (s.conf.role = .door →
        { doorContent t with figure := none } ≠ { doorContent s with figure := none } ∨
          ((doorContent t).figure ≠ (doorContent s).figure ∧
            (bandOf (doorContent t).figure ≠ bandOf (s.snu.state.newest.bind (·.figure)) ∨
              (doorContent t).figure.isSome ≠ (doorContent s).figure.isSome)) →
        t.snu.state.pending = true ∨ t.snu.state.newest = some (doorContent t)) ∧
      (s.conf.role = .panel → panelContent t ≠ panelContent s →
        t.snu.demand.pending = true ∨ t.snu.demand.newest = some (panelContent t)))

/-- The codings of 7.2 lose nothing (R120 to R123): what a receiver takes from a payload is the content it was made from, every field
at every value it can take, and each payload has the length of R118. -/
def Obligations.PayloadsAreReadAsTheyWereMade : Prop :=
  (∀ c : PanelPart, decodeDemand (encodeDemand c) = c ∧ (encodeDemand c).length = 5) ∧
  (∀ c : DoorPart, c.ctl ≠ .inactive → c.group ≤ 255 → (∀ f, c.figure = some f → f ≤ 1000) →
    (∀ n, c.closes = some n → n ≤ 15) → decodeState (encodeState c) = c ∧ (encodeState c).length = 11) ∧
  (∀ c : IdentPart, c.group ≤ 255 → c.limit ≤ 255 → c.refresh ≤ 255 →
    decodeIdent (encodeIdent c) = c ∧ (encodeIdent c).length = 6)

/-! ### Lanes -/

/-- A telegram as sent is received as it was made (R118 to R123, R132, R136, R145 to R147, R150). A lane that contends or sends
drives the telegram's bits, most significant first, and a 1 for the accept slot; one that acknowledges drives a 0. A 1 is dominant for
a quarter of its cell, a 0 for three quarters, a line that several drive while any of them is, and the level half a cell in is the
bit, dominant 0; so a 0 goes over a 1, and the cells as driven spell the bytes. A lane that has taken the first of its
bytes and now samples the rest finds the check right, places class, origin, serial and payload behind what waits in the receive
queue, acknowledges in the accept slot and counts it; the content read from the payload is the content sent. With the queue full
it is dropped, counted as an overflow and not acknowledged. Either way SILENT and ALONE are left. -/
def Obligations.SentTelegramIsReceivedAsMade : Prop :=
  (let bits (b : Byte) : List Bool :=
     [b.getLsbD 7, b.getLsbD 6, b.getLsbD 5, b.getLsbD 4, b.getLsbD 3, b.getLsbD 2, b.getLsbD 1, b.getLsbD 0]
   (∀ (rate : LoopRate) (driven : List Bool) (ns : Nat),
     let cell : Nat := match rate with
       | .r25 => 40000
       | .r50 => 20000
       | .r100 => 10000
     (levelAt rate driven ns = true ↔ ∃ b ∈ driven, if b = true then 4 * ns < cell else 4 * ns < 3 * cell) ∧
     sampleOf rate driven = levelAt rate driven (cell / 2) ∧ (sampleOf rate driven = true ↔ false ∈ driven)) ∧
   (∀ (rate : LoopRate) (bytes : List Byte), spelled ((bytes.flatMap bits).map (fun b => sampleOf rate [b])) = bytes) ∧
   ∀ (station : Nat) (l : Lane) (c : SendCopy),
     (l.slot = true → l.tx station = [false]) ∧
     (l.slot = false → l.copy = some c → l.activity = .contending ∨ l.activity = .sending →
       l.tx station = (telegramBytes station c).flatMap bits ++ [true]) ∧
     (l.slot = false → l.activity ≠ .contending → l.activity ≠ .sending ∨ l.copy = none → l.tx station = [])) ∧
  ∀ (id : LaneId) (station : Nat) (c : SendCopy) (first : List Byte) (rest : List Bool) (s : State),
    1 ≤ station → station ≤ 63 → s.suc.startUp.running = true → first ++ spelled rest = telegramBytes station c →
    (s.lane id).activity = .receiving ∨ (s.lane id).activity = .withdrawn → (s.lane id).rx = some first →
    let tg : Telegram := ⟨id, c.content.cls, station, c.serial, c.content.payload⟩
    let heard : Lane := { s.lane id with
      activity := if (s.lane id).activity = .withdrawn then .withdrawn else .idle
      rx := none
      own := .peer
      silence := some 0
      silent := false
      unheard := 0
      alone := false }
    (s.rxq.queue.length < 4 → ∃ t, exec (.telegramReceiveComplete id rest) s = .next t ∧
      LaneMoved id { heard with
          slot := true
          ctr := { (s.lane id).ctr with accepted := min ((s.lane id).ctr.accepted + 1) 65535 } }
        { s with rxq := { s.rxq with queue := s.rxq.queue ++ [tg] } } t) ∧
    (4 ≤ s.rxq.queue.length → ∃ t, exec (.telegramReceiveComplete id rest) s = .next t ∧
      LaneMoved id heard { s with rxq := { s.rxq with overflow := min (s.rxq.overflow + 1) 65535 } } t) ∧
    (∀ p, c.content = .demand p → decodeDemand tg.payload = p) ∧
    (∀ p, c.content = .state p → p.ctl ≠ .inactive → p.group ≤ 255 → (∀ f, p.figure = some f → f ≤ 1000) →
      (∀ n, p.closes = some n → n ≤ 15) → decodeState tg.payload = p) ∧
    (∀ p, c.content = .ident p → p.group ≤ 255 → p.limit ≤ 255 → p.refresh ≤ 255 → decodeIdent tg.payload = p)

/-- A lane becomes quiet (R132, R138, R141, R148): STUCK is left, a sent telegram's end gap is over, and in JOINED an idle lane begins
the work it has. A dominant edge on a quiet lane begins an own telegram of an idle lane with work in JOINED, else a reception; a
withdrawn lane takes the telegram and stays WITHDRAWN. -/
def Obligations.QuietLaneBeginsOrReceives : Prop :=
  ∀ (id : LaneId) (s : State), s.suc.startUp.running = true →
    let l : Lane := s.lane id
    let calm : Lane := { l with
      quiet := true
      slot := false
      stuck := false
      activity := if l.activity = .sending ∧ l.copy = none then .idle else l.activity }
    let after : Lane := { calm with health := healthOf calm }
    (l.quiet = false → ∃ t, exec (.laneQuiet id) s = .next t ∧ LaneMoved id calm s t ∧
      t.lane id = if s.suc.startUp = .joined then after.offered t.snu else after) ∧
    (l.quiet = true → exec (.laneQuiet id) s = .next s) ∧
    (l.quiet = true → l.activity = .idle →
      (∀ c, s.suc.startUp = .joined → laneWork s.snu l = some c → exec (.dominantEdgeQuietLane id) s =
        .next (s.setLane id { l with
          activity := .contending, quiet := false, copy := some c, rx := none, own := .peer, slot := false })) ∧
      (s.suc.startUp ≠ .joined ∨ laneWork s.snu l = none → exec (.dominantEdgeQuietLane id) s =
        .next (s.setLane id { l with
          activity := .receiving, quiet := false, copy := none, rx := some [], own := .peer }))) ∧
    (l.quiet = true → l.activity = .withdrawn → exec (.dominantEdgeQuietLane id) s =
      .next (s.setLane id { l with quiet := false, rx := some [], own := .peer }))

/-- The start of a reception (R137, R142, R144, R145, R179): a start mark of 3.5 to 4.5 cells passes; another is a rate error, counted
and offered to the capture, but not behind an own telegram abandoned at MUTE (log 12). An arbitration byte of class 0 to 2 enters the receive buffer;
class 3 is a format error. A telegram cut short is a format error, but not behind an own telegram that was abandoned. FIRST keeps a
capture, LATEST replaces it. -/
def Obligations.ReceptionStartsOrIsRejected : Prop :=
  ∀ (id : LaneId) (s : State), s.suc.startUp.running = true →
    (s.lane id).activity = .receiving ∨ (s.lane id).activity = .withdrawn →
    let l : Lane := s.lane id
    let ended : Lane := { l with activity := if l.activity = .withdrawn then .withdrawn else .idle, rx := none, own := .peer }
    let keep (c : Capture) : Option Capture :=
      if s.conf.captureMode = .first then some (s.dgp.capture.getD c) else some c
    let format (c : Capture) : State := { s.setLane id { ended with
        ctr := { l.ctr with formatErrors := min (l.ctr.formatErrors + 1) 65535 } } with
      dgp := { s.dgp with capture := keep c } }
    (l.rx = some [] → ∀ len,
      let cell : Nat := match s.conf.rate with
        | .r25 => 40000
        | .r50 => 20000
        | .r100 => 10000
      (7 * cell ≤ 2 * len ∧ 2 * len ≤ 9 * cell → exec (.startMarkMeasured id len) s = .next s) ∧
      (2 * len < 7 * cell ∨ 9 * cell < 2 * len →
        (l.own ≠ .mute → exec (.startMarkMeasured id len) s = .next { s.setLane id { ended with
            ctr := { l.ctr with rateErrors := min (l.ctr.rateErrors + 1) 65535 } } with
          dgp := { s.dgp with capture := keep ⟨id, .rate, none, none, none, none, none, 0, 0⟩ } }) ∧
        (l.own = .mute → exec (.startMarkMeasured id len) s = .next (s.setLane id ended)))) ∧
    (l.rx = some [] → ∀ (levels : List Bool) (b : Byte), spelled levels = [b] →
      (b.toNat < 192 → exec (.arbitrationByteReceived id levels) s = .next (s.setLane id { l with rx := some [b] })) ∧
      (192 ≤ b.toNat → exec (.arbitrationByteReceived id levels) s =
        .next (format ⟨id, .format, some b, none, none, none, none, 0, 0⟩))) ∧
    (∀ bytes, l.rx = some bytes → ∀ levels, let rest : List Byte := spelled levels
      (l.own = .peer → exec (.receptionCutShort id levels) s = .next (format
        ⟨id, .format, (bytes ++ rest)[0]?, (bytes ++ rest)[1]?, (bytes ++ rest)[2]?, none, none, 0, 0⟩)) ∧
      (l.own ≠ .peer → exec (.receptionCutShort id levels) s = .next (s.setLane id ended)))

/-- Contention, bit errors and withdrawal (R139, R140, R143, R151): a lane that keeps the line goes on SENDING; one that loses counts a loss,
ends its row of bit errors and receives the winner's telegram; a bit error is counted, the copy given up and the rest of
the telegram received; the sixteenth in a row withdraws the lane with ERRORED held, and the end of the withdrawal takes that back. -/
def Obligations.ContentionBitErrorsAndWithdrawal : Prop :=
  ∀ (id : LaneId) (s : State), s.suc.startUp.running = true →
    let l : Lane := s.lane id
    (l.activity = .contending →
      exec (.arbitrationWon id) s = .next (s.setLane id { l with activity := .sending }) ∧
      exec (.arbitrationLost id) s = .next (s.setLane id { l with
        activity := .receiving
        copy := none
        rx := some []
        own := .peer
        bitErr := 0
        ctr := { l.ctr with losses := min (l.ctr.losses + 1) 65535 } })) ∧
    (l.activity = .contending ∨ (l.activity = .sending ∧ l.copy.isSome = true) → ∀ readBack,
      ∃ t, exec (.bitError id readBack) s = .next t ∧ LaneMoved id { l with
        activity := if 15 ≤ l.bitErr then .withdrawn else .receiving
        copy := none
        rx := some (spelled readBack)
        own := .bitError
        bitErr := l.bitErr + 1
        errored := l.errored || decide (15 ≤ l.bitErr)
        withdraw := if 15 ≤ l.bitErr then some 0 else l.withdraw
        ctr := { l.ctr with bitErrors := min (l.ctr.bitErrors + 1) 65535 } } s t) ∧
    (l.activity = .withdrawn →
      let back : Lane := { l with
        activity := if l.rx.isSome then .receiving else .idle
        bitErr := 0
        errored := false
        withdraw := none }
      let after : Lane := { back with health := healthOf back }
      ∃ t, exec (.withdrawalEnd id) s = .next t ∧ LaneMoved id back s t ∧
        t.lane id = if s.suc.startUp = .joined then after.offered t.snu else after)

/-- The end of an own telegram (R132, R141, R150): the class's last-sent record takes the serial and the copy is given up, heard or not.
Heard, it ends the unheard row and ALONE; unheard, it is counted, and the eighth in a row holds ALONE. -/
def Obligations.SendCompleteRecordsAndTallies : Prop :=
  ∀ (id : LaneId) (heard : Bool) (c : SendCopy) (s : State), s.suc.startUp.running = true →
    (s.lane id).activity = .sending → (s.lane id).copy = some c →
    let l : Lane := s.lane id
    let row : Nat := min (l.unheard + 1) 8
    ∃ t, exec (.telegramSendComplete id heard) s = .next t ∧ LaneMoved id { l with
      copy := none
      sentD := if c.content.cls = .demand then some c.serial else l.sentD
      sentS := if c.content.cls = .state then some c.serial else l.sentS
      sentI := if c.content.cls = .ident then some c.serial else l.sentI
      unheard := if heard = true then 0 else row
      bitErr := 0
      alone := if heard = true then false else (l.alone || row == 8)
      ctr := { l.ctr with unheard := if heard = true then l.ctr.unheard else min (l.ctr.unheard + 1) 65535 } } s t

/-- A telegram that is complete but rejected (R145, R179): first the check, then a station number of 0 or a length byte that is not that of
the class, is counted on its lane alone and offered to the capture with its header bytes and both checks; nothing is placed. -/
def Obligations.CompleteTelegramIsRejected : Prop :=
  ∀ (id : LaneId) (c : Cls) (first : List Byte) (rest : List Bool) (s : State), s.suc.startUp.running = true →
    (s.lane id).activity = .receiving ∨ (s.lane id).activity = .withdrawn → (s.lane id).rx = some first →
    let bytes : List Byte := first ++ spelled rest
    let size : Nat := match c with
      | .demand => 5
      | .state => 11
      | .ident => 6
    classOf (byteAt bytes 0) = some c → bytes.length = size + 5 →
    let l : Lane := s.lane id
    let ended : Lane := { l with activity := if l.activity = .withdrawn then .withdrawn else .idle, rx := none, own := .peer }
    let computed : BitVec 16 := check16 (bytes.take (size + 3))
    let carried : BitVec 16 := wordOf (byteAt bytes (size + 3)) (byteAt bytes (size + 4))
    let record (r : Reject) : Capture :=
      ⟨id, r, some (byteAt bytes 0), some (byteAt bytes 1), some (byteAt bytes 2), some carried, some computed, 0, 0⟩
    let keep (r : Reject) : Option Capture :=
      if s.conf.captureMode = .first then some (s.dgp.capture.getD (record r)) else some (record r)
    (computed ≠ carried → exec (.telegramReceiveComplete id rest) s = .next { s.setLane id { ended with
        ctr := { l.ctr with checkErrors := min (l.ctr.checkErrors + 1) 65535 } } with
      dgp := { s.dgp with capture := keep .check } }) ∧
    (computed = carried → originOf (byteAt bytes 0) = 0 ∨ (byteAt bytes 2).toNat ≠ size →
      exec (.telegramReceiveComplete id rest) s = .next { s.setLane id { ended with
        ctr := { l.ctr with formatErrors := min (l.ctr.formatErrors + 1) 65535 } } with
      dgp := { s.dgp with capture := keep .format } })

/-- STUCK and SILENT (R146, R148, R149, R151): a line that stays dominant holds STUCK and no accept slot is driven any more, and a silence
timer at its limit holds SILENT with the timer stopped; one that a telegram of the same moment restarted does not. The reported health follows the order STUCK, ERRORED, SILENT, ALONE. -/
def Obligations.StuckAndSilentLanes : Prop :=
  ∀ (id : LaneId) (s : State), s.suc.startUp.running = true →
    let l : Lane := s.lane id
    (l.quiet = false → ∃ t, exec (.lineStuck id) s = .next t ∧ LaneMoved id { l with stuck := true, slot := false } s t ∧
      (t.lane id).health = .stuck) ∧
    (l.quiet = true → exec (.lineStuck id) s = .next s) ∧
    (reached l.silence s.staleMs = true → ∃ t, exec (.silenceTimerExpiry id) s = .next t ∧
      LaneMoved id { l with silence := none, silent := true } s t ∧
      (t.lane id).health = if l.stuck then .stuck else if l.errored then .errored else .silent) ∧
    (reached l.silence s.staleMs = false → exec (.silenceTimerExpiry id) s = .next s)

/-! ### Panel -/

/-- A scan and a lamp frame (R153, R154, R159, R163). A scan counts, for each of the twenty keys, the samples in a row that differ from
its debounced level; a sample of that level starts the count again, and at eight it stands until its command (log 17). A
frame that starts lights every position in a lamp test, and else each position by its pattern and the flash phase; before a configuration is accepted it
is dark. Its levels go out on LDA with position 271 first and position 0 last, high for lit, and at the strobe position p stands in the chain's stage p
from the part. A door shifts none. -/
def Obligations.ScansCountAndFramesShow : Prop :=
  ∀ s : State,
    (s.panelRuns = true → s.pnu.running = true → ∀ keys : BitVec 32, ∃ t, exec (.keyScan keys) s = .next t ∧
      t = { s with pnu := { s.pnu with contacts := keys, scanTimer := 0, scans := t.pnu.scans } } ∧ t.pnu.scans.length = 20 ∧
      ∀ k, k < 20 → t.pnu.scans.getD k 0 =
        if 8 ≤ s.pnu.scans.getD k 0 then s.pnu.scans.getD k 0
        else if keys.getLsbD k = s.pnu.keys.getLsbD k then 0 else s.pnu.scans.getD k 0 + 1) ∧
    (s.panelRuns = false ∨ s.pnu.running = false → ∀ keys, exec (.keyScan keys) s = .next s) ∧
    (s.doorRuns = false → ∃ t, exec .lampFrame s = .next t ∧
      (let frame : List Bool :=
        if s.panelRuns = true then
          if s.pnu.lampTest.isSome = true then List.replicate 272 true
          else s.pnu.patterns.map (fun p => match p with
            | .dark => false
            | .steady => true
            | .slow => decide (s.flash.phase % 8 < 4)
            | .fast => decide (s.flash.phase % 2 = 0))
        else List.replicate 272 false
       t = { s with pnu := { s.pnu with
         frameTimer := 0, frame := frame, shifted := t.pnu.shifted, strobed := t.pnu.strobed } } ∧
       (frame.length = 272 → t.pnu.shifted.length = 272 ∧ t.pnu.strobed.length = 272 ∧
         ∀ p, p < 272 → t.pnu.shifted[271 - p]? = frame[p]? ∧ t.pnu.strobed[p]? = frame[p]?))) ∧
    (s.doorRuns = true → exec .lampFrame s = .next s)

/-- A key of the own demand record (R87, R94, R126, R128, R154 to R156, R160 to R162, R167): a GROUP_CLOSE press toggles its group alone, the
mode selector sets the own mode to its level in both directions with the disagreement judged afresh, an ACK press acknowledges
the own list and steps the counter modulo 256. Each is debounced with its held timer from 0 and is offered: in JOINED a DEMAND is made at
once, or left pending while the spacing runs. The lamps follow. A key already at that level does nothing. -/
def Obligations.DemandKeysActOnceAndAreOffered : Prop :=
  ∀ s : State, s.panelRuns = true → s.pnu.running = true →
    let down (k : Nat) : Pnu := { s.pnu with
      keys := s.pnu.keys ||| (1#20 <<< k), scans := s.pnu.scans.set k 0, heldKeys := s.pnu.heldKeys.set k (.running 0) }
    let offered (t : State) : Prop := s.suc.startUp = .joined →
      (s.snu.demand.ready = true → t.snu.demand = s.snu.demand.make (panelContent t)) ∧
      (s.snu.demand.ready = false → t.snu.demand = { s.snu.demand with pending := true })
    let after (p : Pnu) (t : State) : Prop :=
      DoorKept s t ∧ t.outs = s.outs ∧ offered t ∧ HandsOn { s with pnu := p } t
    (∀ g, 1 ≤ g → g ≤ 16 → s.pnu.keys.getLsbD (g - 1) = false →
      ∃ t groups, exec (.groupClosePress g) s = .next t ∧ t.alu = s.alu ∧
        (∀ i, i < 16 → groups.getLsbD i = (s.pnu.groups.getLsbD i != decide (i = g - 1))) ∧
        t.pnu.patterns = lampPatterns t ∧ after { down (g - 1) with groups := groups } t) ∧
    (∀ made : Bool, s.pnu.keys.getLsbD 16 ≠ made → ∃ t, exec (.modeSelectorChange made) s = .next t ∧
      let mode : Mode := if made = true then .doorsClosed else .localControl
      let differs : Bool := s.ste.table.any (fun e => e.kind == .panel && e.live && e.panel.any (fun h => h.part.mode != mode))
      t.alu = applyRequests (asked (!differs && s.pnu.conflict.isPast) (.becameFalse .modeConflict)) s.alu ∧
      t.pnu.patterns = lampPatterns t ∧
      after { s.pnu with
        keys := if made = true then s.pnu.keys ||| (1#20 <<< 16) else s.pnu.keys &&& ~~~(1#20 <<< 16)
        scans := s.pnu.scans.set 16 0
        mode := mode
        conflict := if differs = true then (if s.pnu.conflict = .stopped then .running 0 else s.pnu.conflict)
          else .stopped } t) ∧
    (s.pnu.keys.getLsbD 17 = false → ∃ t, exec .ackPress s = .next t ∧ t.alu = applyRequest .acknowledge s.alu ∧
      after { down 17 with ack := s.pnu.ack + 1 } t) ∧
    (∀ g, 1 ≤ g → g ≤ 16 → s.pnu.keys.getLsbD (g - 1) = true → exec (.groupClosePress g) s = .next s) ∧
    (exec (.modeSelectorChange (s.pnu.keys.getLsbD 16)) s = .next s) ∧
    (s.pnu.keys.getLsbD 17 = true → exec .ackPress s = .next s)

/-- SILENCE and LAMP_TEST (R163, R165, R166): SILENCE while PSND is on and an unacknowledged alarm exists sets the silence flag, so that
PSND goes off and the lamps follow; while PSND is off it acts on its own level alone; LAMP_TEST begins a test from 0 unless locked out; the release
ends the test and clears the lockout; 30 s end the test and lock out. A new alarm ends a silence and sounds PSND again (R164): an own one, as
MAINS_LOSS that the mains raises, and a door's, in a STATE with a kind the set last seen from that door did not hold. -/
def Obligations.SilenceAndLampTestKeys : Prop :=
  ∀ s : State, s.panelRuns = true → s.pnu.running = true →
    let down (k : Nat) : State := { s with pnu := { s.pnu with
      keys := s.pnu.keys ||| (1#20 <<< k), scans := s.pnu.scans.set k 0, heldKeys := s.pnu.heldKeys.set k (.running 0) } }
    (s.pnu.keys.getLsbD 18 = false →
      (s.pnu.psnd = true → alarmExists s = true → ∃ t, exec .silencePress s = .next t ∧
        t = { s with pnu := { (down 18).pnu with silence := true, psnd := false, patterns := lampPatterns t } } ∧
        t.pnu.patterns.getD 259 .dark = .steady) ∧
      (s.pnu.psnd = false → exec .silencePress s = .next (down 18))) ∧
    (s.pnu.keys.getLsbD 19 = false → exec .lampTestPress s = .next (
      if s.pnu.lockout = true then down 19
      else { s with pnu := { (down 19).pnu with lampTest := some 0 } })) ∧
    (s.pnu.keys.getLsbD 19 = true → ∃ t, exec .lampTestRelease s = .next t ∧
      let held : List Watch := s.pnu.heldKeys.set 19 .stopped
      t.alu = applyRequests (asked (s.pnu.heldKeys.any (·.isPast) && !held.any (·.isPast)) (.becameFalse .keyStuck)) s.alu ∧
      DoorKept s t ∧ t.outs = s.outs ∧
      HandsOn { s with pnu := { s.pnu with
        keys := s.pnu.keys &&& ~~~(1#20 <<< 19), scans := s.pnu.scans.set 19 0, heldKeys := held,
        lampTest := none, lockout := false } } t) ∧
    (s.pnu.lampTest.isSome = true →
      exec .lampTestTimeout s = .next { s with pnu := { s.pnu with lampTest := none, lockout := true } }) ∧
    (s.pnu.lampTest = none → exec .lampTestTimeout s = .next s) ∧
    (s.deb.mains = true → (∀ r ∈ s.alu, r.kind = .mainsLoss → r.st.active = false) →
      ∃ t, exec (.mainsDebouncedChange false) s = .next t ∧ t.pnu.silence = false ∧ t.pnu.psnd = true) ∧
    (∀ tg rest i, s.rxq.queue = tg :: rest → tg.cls = .state → tg.origin ≠ s.conf.station →
      (∀ e, entryOf s tg.origin = some e → e.live = true → e.kind = .door ∧ ∀ last, e.serS = some last →
        1 ≤ (tg.serial - last).toNat ∧ (tg.serial - last).toNat ≤ 127) →
      i < 16 → (decodeState tg.payload).unacked.getLsbD i = true →
      (s.pnu.lastSeen.getD (tg.origin - 1) 0).getLsbD i = false →
      ∃ t, exec .telegramTaken s = .next t ∧ t.pnu.silence = false ∧ t.pnu.psnd = true)

/-- Stuck keys (R155, R166): a release of a momentary key stops its timer and acts nowhere else, but that the release of the last stuck key
clears KEY_STUCK; a timer that reaches 60 s makes its key stuck, and raises KEY_STUCK if no other key is. LAMP_TEST has
its own release (log 18). -/
def Obligations.KeyReleaseAndHeldLimit : Prop :=
  ∀ (k : Nat) (s : State), s.panelRuns = true → s.pnu.running = true →
    (k < 20 → k ≠ 16 → k ≠ 19 → s.pnu.keys.getLsbD k = true → ∃ t, exec (.keyRelease k) s = .next t ∧
      let held : List Watch := s.pnu.heldKeys.set k .stopped
      t.alu = applyRequests (asked (s.pnu.heldKeys.any (·.isPast) && !held.any (·.isPast)) (.becameFalse .keyStuck)) s.alu ∧
      DoorKept s t ∧ t.outs = s.outs ∧
      HandsOn { s with pnu := { s.pnu with
        keys := s.pnu.keys &&& ~~~(1#20 <<< k), scans := s.pnu.scans.set k 0, heldKeys := held } } t) ∧
    (∀ ms, s.pnu.heldKeys[k]? = some (.running ms) → ∃ t, exec (.keyHeldLimit k) s = .next t ∧
      t.alu = applyRequests (asked (!s.pnu.heldKeys.any (·.isPast)) (.becameTrue .keyStuck)) s.alu ∧
      DoorKept s t ∧ t.outs = s.outs ∧
      HandsOn { s with pnu := { s.pnu with heldKeys := s.pnu.heldKeys.set k (.past (max ms 60000)) } } t) ∧
    (s.pnu.keys.getLsbD k = false ∨ k = 16 ∨ k = 19 → exec (.keyRelease k) s = .next s)

/-! ### Diagnostic port -/

/-- Transfers of the diagnostic port (R175, R177): an address byte of its own is acknowledged and opens a write, which awaits the
subaddress, or a read, which holds the clock; any other is not acknowledged. A stop, an out-of-sequence condition and another's address
leave the port IDLE with no copy and both lines released. Page, subaddress and latch stay; nothing else changes. -/
def Obligations.TransfersOpenAndEnd : Prop :=
  ∀ (b : Byte) (s : State),
    let idle : Dgp := { s.dgp with
      port := .idle, copy := none, wantSub := false, holdClock := false, muted := false, sent := none, ackGiven := none }
    (b.toNat = 2 * s.dgp.addr.toNat → exec (.diagAddress b) s = .next { s with dgp := { idle with
      port := .addressedWrite, wantSub := true, ackGiven := some true } }) ∧
    (b.toNat = 2 * s.dgp.addr.toNat + 1 → exec (.diagAddress b) s = .next { s with dgp := { idle with
      port := .addressedRead, holdClock := true, ackGiven := some true } }) ∧
    (b.toNat / 2 ≠ s.dgp.addr.toNat → exec (.diagAddress b) s = .next { s with dgp := { idle with ackGiven := some false } }) ∧
    exec .diagStop s = .next { s with dgp := idle } ∧ exec .diagOutOfSequence s = .next { s with dgp := idle }

/-- Bytes of a write (R176): the first sets the subaddress; a data byte at 255 that names a page selects it with the subaddress at 0; one at 254
on page 0 clears every counter, the latch and the capture; any other is refused, sets the latch except at 255, and steps
the subaddress up to 511. Outside a write none acts. -/
def Obligations.WriteBytesActBySubaddress : Prop :=
  ∀ (b : Byte) (s : State),
    let names : Prop := b.toNat ≤ 3 ∨ (16 ≤ b.toNat ∧ b.toNat ≤ 78)
    (s.dgp.port = .addressedWrite → s.dgp.wantSub = true →
      exec (.diagSubaddress b) s = .next { s with dgp := { s.dgp with sub := b.toNat, wantSub := false, ackGiven := some true } }) ∧
    (s.dgp.port = .addressedWrite → s.dgp.wantSub = false →
      (s.dgp.sub = 255 → names →
        exec (.pageSelect b) s = .next { s with dgp := { s.dgp with page := b.toNat, sub := 0, ackGiven := some true } } ∧
        exec (.diagWriteRefused b) s = .next s) ∧
      (s.dgp.sub = 254 → s.dgp.page = 0 → exec (.diagWriteRefused b) s = .next s ∧
        exec (.counterClear b) s = .next { s with
          laneA := { s.laneA with ctr := ⟨0, 0, 0, 0, 0, 0, 0⟩ }
          laneB := { s.laneB with ctr := ⟨0, 0, 0, 0, 0, 0, 0⟩ }
          rxq := { s.rxq with overflow := 0 }
          ste := { s.ste with kindConflicts := 0, duplicates := 0, lateCopies := 0 }
          dgp := { s.dgp with latch := false, capture := none, sub := 255, ackGiven := some true } }) ∧
      (¬ (s.dgp.sub = 255 ∧ names) → ¬ (s.dgp.sub = 254 ∧ s.dgp.page = 0) →
        exec (.pageSelect b) s = .next s ∧ exec (.counterClear b) s = .next s ∧
        exec (.diagWriteRefused b) s = .next { s with dgp := { s.dgp with
          latch := s.dgp.latch || decide (s.dgp.sub ≠ 255), sub := min (s.dgp.sub + 1) 511, ackGiven := some false } })) ∧
    (s.dgp.port ≠ .addressedWrite → exec (.diagSubaddress b) s = .next s ∧ exec (.pageSelect b) s = .next s ∧
      exec (.counterClear b) s = .next s ∧ exec (.diagWriteRefused b) s = .next s)

/-- A read (R177): the page is copied once, as it stands, and the clock released; each byte comes from the copy at the subaddress, or is
the last byte past its end; the subaddress goes up by one to 511; a byte that is not acknowledged ends the sending. -/
def Obligations.ReadsCopyThenSendBytes : Prop :=
  ∀ s : State, s.dgp.port = .addressedRead →
    (s.dgp.copy = none → exec .diagReadCopy s = .next { s with dgp := { s.dgp with
      copy := some (pageBytes s s.dgp.page), holdClock := false } }) ∧
    (s.dgp.copy.isSome = true → exec .diagReadCopy s = .next s) ∧
    ∀ (bytes : List Byte) (acked : Bool), s.dgp.copy = some bytes →
      (s.dgp.muted = false → ∃ b, exec (.diagReadByte acked) s = .next { s with dgp := { s.dgp with
          sent := some b, sub := min (s.dgp.sub + 1) 511, muted := !acked } } ∧
        (s.dgp.sub < bytes.length → bytes[s.dgp.sub]? = some b) ∧
        (bytes ≠ [] → bytes.length ≤ s.dgp.sub → bytes.getLast? = some b)) ∧
      (s.dgp.muted = true → exec (.diagReadByte acked) s = .next s)

/-- The pages (R98, R117, R134, R168, R178, R179). In every state they have 172 or 302, 87, 186 and 13 bytes, and 34 for each station.
Where R178 fixes a byte it reads so, numbers most significant byte first, what is absent or stopped all ones: on page 0 the start-up
state, role and station, the queue and its overflow, the table's counters, each lane's silence timer, tallies, withdrawal timer, last-sent
values and seven counters (divided as in log 9), the newest payloads whole, the newest serials, the timers and zero fill, in the order of 7.3,
at a door the items of its four units in the order of their tables (divided into whole bytes as in log 26), and at a
panel the nineteen key-held timers in seconds, the own demand record, the sets last seen, the lamp-test timer in seconds, the
mode-conflict timer in units of 100 ms and the frame; on page 1 the count, each record in its place and both sets; on page 2
the image, reason, offset, clamps and the accepted configuration; on page 3 the capture; on an entry's page its ages, serials and parts,
all 0 where no entry stands. -/
def Obligations.PagesHaveTheirSizes : Prop :=
  ∀ s : State,
    let at' (page i : Nat) : Nat := (byteAt (pageBytes s page) i).toNat
    let word (page i : Nat) : Nat := 256 * at' page i + at' page (i + 1)
    let part (page i n : Nat) : List Byte := ((pageBytes s page).drop i).take n
    let low (n : Nat) : Nat := n % 65536
    let timer (t : Option Nat) : Nat := (t.map (fun ms => min ms 65535)).getD 65535
    (s.conf.role = .door → (pageBytes s 0).length = 172) ∧ (s.conf.role = .panel → (pageBytes s 0).length = 302) ∧
    (pageBytes s 1).length = 87 ∧ (pageBytes s 2).length = 186 ∧ (pageBytes s 3).length = 13 ∧
    (∀ n, 16 ≤ n → n ≤ 78 → (pageBytes s n).length = 34) ∧
    at' 0 0 = (match s.suc.startUp with
      | .loading => 0
      | .configFault => 1
      | .listen => 2
      | .joined => 3
      | .mute => 4) ∧
    (s.conf.station < 128 → at' 0 1 = (if s.conf.role = .panel then 128 else 0) + s.conf.station) ∧
    (∀ id, let base : Nat := if id = .a then 3 else 29
      let l : Lane := s.lane id
      word 0 (base + 2) = timer l.silence ∧ (l.unheard ≤ 255 → at' 0 (base + 4) = l.unheard) ∧
      (l.bitErr ≤ 255 → at' 0 (base + 5) = l.bitErr) ∧ word 0 (base + 6) = timer l.withdraw ∧
      at' 0 (base + 9) = (l.sentD.map (·.toNat)).getD 255 ∧ at' 0 (base + 10) = (l.sentS.map (·.toNat)).getD 255 ∧
      at' 0 (base + 11) = (l.sentI.map (·.toNat)).getD 255 ∧
      word 0 (base + 12) = low l.ctr.accepted ∧ word 0 (base + 14) = low l.ctr.checkErrors ∧
      word 0 (base + 16) = low l.ctr.formatErrors ∧ word 0 (base + 18) = low l.ctr.rateErrors ∧
      word 0 (base + 20) = low l.ctr.losses ∧ word 0 (base + 22) = low l.ctr.bitErrors ∧
      word 0 (base + 24) = low l.ctr.unheard) ∧
    (s.rxq.queue.length ≤ 255 → at' 0 55 = s.rxq.queue.length) ∧ word 0 56 = low s.rxq.overflow ∧
    word 0 58 = low s.ste.kindConflicts ∧ word 0 60 = low s.ste.duplicates ∧ word 0 62 = low s.ste.lateCopies ∧
    (∀ p, s.conf.role = .door → s.snu.state.newest = some p → part 0 64 11 = encodeState p) ∧
    (∀ p, s.conf.role = .panel → s.snu.demand.newest = some p → part 0 64 11 = encodeDemand p ++ List.replicate 6 0) ∧
    (∀ p, s.snu.ident.newest = some p → part 0 75 6 = encodeIdent p) ∧
    at' 0 81 = s.snu.demand.serial.toNat ∧ at' 0 82 = s.snu.state.serial.toNat ∧ at' 0 83 = s.snu.ident.serial.toNat ∧
    word 0 85 = timer s.snu.demand.spacing ∧ word 0 87 = timer s.snu.state.spacing ∧ word 0 89 = timer s.snu.demand.refresh ∧
    word 0 91 = timer s.snu.state.refresh ∧ word 0 93 = timer s.snu.ident.timer ∧ at' 0 95 = 0 ∧
    (s.conf.role = .door →
      (let d := s.dcu
       (d.ctl ≠ .inactive → at' 0 96 = d.ctl.code.toNat) ∧ at' 0 98 = d.wcause.bit.toNat ∧ word 0 99 = timer d.warnTimer ∧
       word 0 101 = timer d.vclPause ∧ word 0 103 = timer d.vopPause ∧ word 0 105 = timer d.held.ms ∧
       at' 0 107 = (modeBit d.mode).toNat ∧ at' 0 108 = d.groupDemand.toNat ∧ at' 0 109 = d.panelHeard.toNat ∧
       at' 0 110 = d.cd.toNat ∧ at' 0 111 = d.lockout.toNat) ∧
      (let t := s.trm
       at' 0 113 = t.pos.code.toNat ∧ at' 0 114 = t.running.toNat ∧ word 0 115 = timer t.discord.ms ∧
       word 0 117 = timer t.conflict.ms ∧ word 0 119 = (BitVec.ofInt 16 t.count).toNat ∧ at' 0 121 = t.ref.toNat ∧
       word 0 122 = low t.overrun ∧ word 0 124 = ((positionFigure s).map low).getD 65535 ∧ word 0 127 = timer t.strokeTimer.ms ∧
       at' 0 129 = t.slow.toNat ∧ (t.stall = none → at' 0 130 = 255 ∧ at' 0 131 = 255) ∧
       (∀ w, t.stall = some w → at' 0 130 = min w.tally 255 ∧ at' 0 131 = min w.number 255) ∧ word 0 132 = timer t.arming ∧
       at' 0 134 = min ((t.hand.map (·.tally)).getD 255) 255 ∧ at' 0 135 = t.vsl.toNat) ∧
      (let e := s.enu
       at' 0 136 = e.running.toNat ∧ word 0 137 = timer e.gate ∧ word 0 139 = low e.tally ∧
       word 0 141 = (e.lastN.map low).getD 65535 ∧ at' 0 143 = e.oob % 256 ∧ at' 0 144 = e.inb % 256 ∧
       word 0 145 = (e.p.map low).getD 65535 ∧ word 0 147 = (e.u.map low).getD 65535 ∧
       at' 0 149 = (e.closes.map (· % 256)).getD 255 ∧ at' 0 150 = e.permStart.toNat ∧ at' 0 151 = e.permCont.toNat ∧
       at' 0 152 = s.deb.mains.toNat ∧ at' 0 153 = e.pumpOn.toNat ∧ word 0 154 = timer e.run ∧ at' 0 156 = e.locked.toNat) ∧
      (let p := s.psu
       at' 0 164 = p.inForce.toNat ∧ at' 0 165 = p.phase.code.toNat ∧ word 0 166 = timer p.claimTimer ∧
       at' 0 168 = p.occupants % 256 ∧ at' 0 169 = p.ahead % 256 ∧ at' 0 170 = p.excess.toNat)) ∧
    (s.conf.role = .panel → part 0 118 4 = (encodeDemand (panelContent s)).take 4 ∧
      (let short (unit : Nat) (t : Option Nat) : Nat := (t.map (fun ms => min (ms / unit) 255)).getD 255
       (∀ i, i < 19 → at' 0 (99 + i) = short 1000 (s.pnu.heldKeys.getD (if i < 16 then i else i + 1) .stopped).ms) ∧
       at' 0 266 = short 1000 s.pnu.lampTest ∧ at' 0 267 = short 100 s.pnu.conflict.ms) ∧
      (∀ n, 1 ≤ n → n ≤ 63 → word 0 (137 + 2 * n) = (s.pnu.lastSeen.getD (n - 1) 0).toNat) ∧
      ∀ p, p < 272 → (byteAt (pageBytes s 0) (268 + p / 8)).getLsbD (7 - p % 8) = s.pnu.frame.getD p false) ∧
    (s.alu.length ≤ 255 → at' 1 0 = s.alu.length) ∧
    (∀ i r, i < 16 → s.alu[i]? = some r →
      at' 1 (1 + 5 * i) = kindNumber r.kind ∧ at' 1 (2 + 5 * i) = r.st.code ∧ (r.count ≤ 255 → at' 1 (3 + 5 * i) = r.count) ∧
      word 1 (4 + 5 * i) = low r.age) ∧
    (∀ i, i < 16 → s.alu.length ≤ i → part 1 (1 + 5 * i) 5 = List.replicate 5 0) ∧
    65536 * at' 1 81 + word 1 82 = (activeSet s.alu).toNat ∧ 65536 * at' 1 84 + word 1 85 = (unackedSet s.alu).toNat ∧
    (s.suc.image.length = 128 → part 2 0 128 = s.suc.image) ∧ at' 2 128 = s.suc.reason.code ∧
    (∀ off, s.suc.refused = some off → off ≤ 53 → at' 2 129 = off) ∧ (s.suc.refused = none → at' 2 129 = 255) ∧
    (s.suc.clamps ≤ 24 → at' 2 130 = s.suc.clamps) ∧
    (∀ c, s.suc.accepted = some c → at' 2 131 = 1 ∧ part 2 132 54 = cfgBytes c) ∧
    (s.suc.accepted = none → part 2 131 55 = List.replicate 55 0) ∧
    (s.dgp.capture = none → pageBytes s 3 = List.replicate 13 0) ∧
    (∀ c, s.dgp.capture = some c → at' 3 0 = 1 ∧ at' 3 1 = (if c.lane = .a then 0 else 1) ∧ at' 3 2 = c.reason.code ∧
      at' 3 3 = (c.arb.map (·.toNat)).getD 0 ∧ at' 3 4 = (c.serial.map (·.toNat)).getD 0 ∧
      at' 3 5 = (c.length.map (·.toNat)).getD 0 ∧ word 3 7 = (c.received.map (·.toNat)).getD 0 ∧
      word 3 9 = (c.computed.map (·.toNat)).getD 0 ∧ word 3 11 = low c.age) ∧
    ∀ n, 1 ≤ n → n ≤ 63 →
      (entryOf s n = none → pageBytes s (n + 15) = List.replicate 34 0) ∧
      ∀ e, entryOf s n = some e →
        word (n + 15) 2 = low e.age ∧ word (n + 15) 4 = low e.heardA ∧ word (n + 15) 6 = low e.heardB ∧
        at' (n + 15) 8 = (e.serD.map (·.toNat)).getD 255 ∧ at' (n + 15) 9 = (e.serS.map (·.toNat)).getD 255 ∧
        at' (n + 15) 10 = (e.serI.map (·.toNat)).getD 255 ∧
        part (n + 15) 11 11 = (e.door.map encodeState).getD (List.replicate 11 0) ∧
        part (n + 15) 22 6 = (e.panel.map (fun h => encodeDemand h.part ++ [h.base])).getD (List.replicate 6 0) ∧
        part (n + 15) 28 6 = (e.ident.map encodeIdent).getD (List.replicate 6 0)

/-! ### Steps and invariants -/

/-- A step takes the command at the front of the queue, on the state with the rest of the queue. -/
def Obligations.StepRunsTheCommandInFront : Prop :=
  ∀ (c : Instr) (rest : List Instr) (s : State), s.pending = c :: rest → step s = exec c { s with pending := rest }

/-- The model's clock, a choice of the model (log 2): on an empty queue a step takes an expiry that is due, or, with none due, lets one
millisecond pass, in which every running timer and every age counts and nothing else changes. When each expiry is due: a level that has
settled for 40 ms (1.7, R4, R33, R63); a key after eight scans, a scan every 5 ms, a frame every 10 ms (R154, R159); the flash every
125 ms; warning, claim, pauses, strokes, windows and supervision at their times (R18, R27, R35, R36, R44 to R49, R71; the held-open limit
as in log 16, a stroke maximum as in log 10); the gate at 100 ms and the pump maximum (R53, R65); a second of a record and of the
capture; a telegram that waits; an entry's and a lane's limits (R108, R109, R143, R149); the snapshot timers in JOINED (R128 to R131);
LISTEN after four refresh intervals, the next read after 5 ms (R169, R173); the page copy while the clock is held (R177). Which of two
expiries of one moment is taken first is the model's choice (log 1) and not stated. -/
def Obligations.EmptyQueueLetsTimePass : Prop :=
  ∀ s : State, s.pending = [] →
    let at' (t : Option Nat) (limit : Nat) : Prop := ∃ n, t = some n ∧ limit ≤ n
    let comes (w : Watch) (limit : Nat) : Prop := ∃ n, w = .running n ∧ limit ≤ n
    let settles (l : Lead) (made : Bool) : Prop := at' (s.settle.get l) 40 ∧ s.lead.get l = made ∧ s.deb.get l ≠ made ∧
      ¬ (s.panelRuns = true ∧ (l = .cla ∨ l = .clb ∨ l = .olm))
    let panel : Prop := s.panelRuns = true ∧ s.pnu.running = true
    let key (k : Nat) (made : Bool) : Prop := panel ∧ 8 ≤ s.pnu.scans.getD k 0 ∧ s.pnu.keys.getLsbD k ≠ made
    let lanes : Prop := s.suc.startUp.running = true
    let stale : Nat := 300 * s.conf.refresh
    let falls (c : Instr) : Prop := match c with
      | .configRetryWaitExpiry => at' s.suc.retryWait 5
      | .listenTimerExpiry => s.suc.startUp = .listen ∧ at' s.suc.listenTimer (400 * s.conf.refresh)
      | .flashEdge => 125 ≤ s.flash.ms
      | .limitDebouncedChange l made => settles l.lead made
      | .lcPressed side => settles side.closeLead true
      | .lcReleased side => settles side.closeLead false
      | .loPressed side => settles side.openLead true
      | .loReleased side => settles side.openLead false
      | .mainsDebouncedChange made => settles .mains made
      | .warningTimerExpiry => s.dcu.ctl = .warning ∧ s.dcu.warnTimer = some 0
      | .pauseTimerExpiry valve => at' (if valve = .vcl then s.dcu.vclPause else s.dcu.vopPause)
          (if s.suc.accepted = none then 1000 else s.conf.reversalPause)
      | .heldOpenLimit => comes s.dcu.held (1000 * s.conf.passageMax + 1)
      | .discordTimerExpiry => comes s.trm.discord s.conf.discordTime
      | .conflictTimerExpiry => comes s.trm.conflict s.conf.discordTime
      | .closeMaximumPassed => s.trm.stroke = some .closing ∧ comes s.trm.strokeTimer (1000 * s.conf.closeMax)
      | .openMaximumPassed => s.trm.stroke = some .opening ∧ comes s.trm.strokeTimer (1000 * s.conf.openMax)
      | .stallWindowEnd => (∃ w, s.trm.stall = some w ∧ 1000 ≤ w.ms) ∨
          (s.trm.stall = none ∧ ∃ w, s.trm.finding = some (.timeout w) ∧ 1000 ≤ w.ms)
      | .handMoveArmingExpiry => at' s.trm.arming 2000
      | .handMoveWindowEnd => ∃ w, s.trm.hand = some w ∧ 1000 ≤ w.ms
      | .gateEnd => s.enu.running = true ∧ at' s.enu.gate 100
      | .pumpRunLimit => s.enu.pumpOn = true ∧ at' s.enu.run (1000 * s.conf.pumpMax)
      | .claimHoldExpiry => s.psu.phase = .fresh ∧ s.psu.claimTimer = some 0
      | .alarmAgeTick k => ∃ r ∈ s.alu, r.kind = k ∧ 1000 ≤ r.ms
      | .telegramTaken => lanes ∧ s.rxq.queue ≠ []
      | .entryGoesStale n => lanes ∧ ∃ e ∈ s.ste.table, e.num = n ∧ e.live = true ∧ stale ≤ e.age
      | .laneHeardAgeLimit n lane => lanes ∧ ∃ e ∈ s.ste.table, e.num = n ∧ e.live = true ∧
          stale ≤ (if lane = .a then e.heardA else e.heardB) ∧ (decide (e.heardA < stale) != decide (e.heardB < stale)) ≠ e.single
      | .spacingTimerEnd => s.suc.startUp = .joined ∧
          at' (if s.conf.role = .door then s.snu.state.spacing else s.snu.demand.spacing) 50
      | .refreshTimerExpiry => s.suc.startUp = .joined ∧
          at' (if s.conf.role = .door then s.snu.state.refresh else s.snu.demand.refresh) (100 * s.conf.refresh)
      | .identTimerExpiry => s.suc.startUp = .joined ∧ at' s.snu.ident.timer (1000 * s.conf.refresh)
      | .withdrawalEnd id => lanes ∧ (s.lane id).activity = .withdrawn ∧ at' (s.lane id).withdraw 1000
      | .silenceTimerExpiry id => lanes ∧ at' (s.lane id).silence stale
      | .keyScan keys => panel ∧ 5 ≤ s.pnu.scanTimer ∧ keys = s.pnu.contacts
      | .groupClosePress g => 1 ≤ g ∧ g ≤ 16 ∧ key (g - 1) true
      | .modeSelectorChange made => key 16 made
      | .ackPress => key 17 true
      | .silencePress => key 18 true
      | .lampTestPress => key 19 true
      | .lampTestRelease => key 19 false
      | .keyRelease k => (k < 16 ∨ k = 17 ∨ k = 18) ∧ key k false
      | .lampTestTimeout => panel ∧ at' s.pnu.lampTest 30000
      | .keyHeldLimit k => panel ∧ k < 20 ∧ comes (s.pnu.heldKeys.getD k .stopped) 60000
      | .modeConflictTimerExpiry => panel ∧ comes s.pnu.conflict 10000
      | .lampFrame => s.doorRuns = false ∧ 10 ≤ s.pnu.frameTimer
      | .diagReadCopy => s.dgp.port = .addressedRead ∧ s.dgp.copy = none
      | .captureAgeTick => ∃ c, s.dgp.capture = some c ∧ 1000 ≤ c.ms
      | _ => False
    ((∃ c, falls c) → ∃ c, falls c ∧ step s = exec c s) ∧
    ((∀ c, ¬ falls c) →
      let on (w : Watch) : Watch := match w with
        | .running n => .running (n + 1)
        | w => w
      ∃ t, step s = .next t ∧ (∀ l, t.settle.get l = (s.settle.get l).map (· + 1)) ∧
      t.flash = { s.flash with ms := s.flash.ms + 1 } ∧ t.outs = s.outs ∧ t.lead = s.lead ∧ t.deb = s.deb ∧
      t.suc = { s.suc with listenTimer := s.suc.listenTimer.map (· + 1), retryWait := s.suc.retryWait.map (· + 1) } ∧
      t.dcu = { s.dcu with
        warnTimer := s.dcu.warnTimer.map (· - 1), vclPause := s.dcu.vclPause.map (· + 1),
        vopPause := s.dcu.vopPause.map (· + 1), held := on s.dcu.held } ∧
      t.enu = { s.enu with gate := s.enu.gate.map (· + 1), run := s.enu.run.map (· + 1) } ∧
      t.psu = { s.psu with claimTimer := s.psu.claimTimer.map (· - 1) } ∧
      t.alu = s.alu.map (fun r => { r with ms := r.ms + 1 }) ∧
      t.ste = { s.ste with table := s.ste.table.map (fun e => { e with
        age := min (e.age + 1) 65535, heardA := min (e.heardA + 1) 65535, heardB := min (e.heardB + 1) 65535 }) } ∧
      t.laneA = { s.laneA with
        silence := s.laneA.silence.map (· + 1), withdraw := s.laneA.withdraw.map (· + 1), slot := false } ∧
      t.laneB = { s.laneB with
        silence := s.laneB.silence.map (· + 1), withdraw := s.laneB.withdraw.map (· + 1), slot := false } ∧
      t.snu = ⟨{ s.snu.state with spacing := s.snu.state.spacing.map (· + 1), refresh := s.snu.state.refresh.map (· + 1) },
        { s.snu.demand with spacing := s.snu.demand.spacing.map (· + 1), refresh := s.snu.demand.refresh.map (· + 1) },
        { s.snu.ident with timer := s.snu.ident.timer.map (· + 1) }⟩ ∧
      t.trm = { s.trm with
        discord := on s.trm.discord, conflict := on s.trm.conflict, strokeTimer := on s.trm.strokeTimer
        stall := s.trm.stall.map (fun w => { w with ms := w.ms + 1 }), finding := none
        arming := s.trm.arming.map (· + 1), hand := s.trm.hand.map (fun w => { w with ms := w.ms + 1 }) } ∧
      t.pnu = { s.pnu with
        scanTimer := if s.pnu.running = true then s.pnu.scanTimer + 1 else s.pnu.scanTimer
        heldKeys := s.pnu.heldKeys.map on, lampTest := s.pnu.lampTest.map (· + 1), conflict := on s.pnu.conflict
        frameTimer := if s.doorRuns = true then s.pnu.frameTimer else s.pnu.frameTimer + 1 } ∧
      t.dgp = { s.dgp with capture := s.dgp.capture.map (fun c => { c with ms := c.ms + 1 }) } ∧ t.rxq = s.rxq ∧ t.pending = [])

/-- Every command completes in every state: the manual names no event that halts the part. A command that the state cannot have completes
too, and changes nothing or only what it names: that is the model's choice (log 6). A command takes nothing from the queue and puts nothing
into it. -/
def Obligations.EveryCommandCompletes : Prop := ∀ (c : Instr) (s : State), ∃ t, exec c s = .next t ∧ t.pending = s.pending

/-- After reset every invariant of the model holds. -/
def Obligations.ResetMeetsTheInvariants : Prop :=
  OpeningFed State.reset ∧ ClaimsJoined State.reset ∧ PumpGuarded State.reset ∧ SendsJoined State.reset ∧
    TableOrdered State.reset ∧ AlarmsListed State.reset ∧ CountBounded State.reset ∧ PinsFollow State.reset ∧
    PanelShows State.reset

/-- Every step keeps: VOP is on only in OPENING with the permission to continue held, VCL only in CLOSING, the permissions are those of the
usable volume (R28, R52, R58, R59); and a claim stands exactly in CLAIMING and only in JOINED, a door is INACTIVE exactly while none
runs, and WARNING, CLAIMING and HELD_OPEN stand under closure demand (R2, R26, R69, R70, R77, R79). -/
def Obligations.StepsKeepOpeningsFedAndClaimsJoined : Prop :=
  ∀ s t : State, OpeningFed s → ClaimsJoined s → step s = .next t → OpeningFed t ∧ ClaimsJoined t

/-- Every step keeps: the pump runs only in a door that runs, with mains, a pressure figure and no lock, and the pump is locked exactly
while a PUMP_FAIL record is in the list (R64, R66, R96). A command that takes the record out of the list of a door unlocks the pump, and
pump control acts at once with the figure of the last gate end: with mains made and the figure below P_on the pump starts, its run
timer from 0 (R66). -/
def Obligations.StepsKeepThePumpGuarded : Prop :=
  (∀ s t : State, PumpGuarded s → step s = .next t → PumpGuarded t) ∧
  ∀ (c : Instr) (s t : State), PumpGuarded s → s.doorRuns = true → s.enu.running = true → hasKind .pumpFail s.alu = true →
    exec c s = .next t → t.doorRuns = true → hasKind .pumpFail t.alu = false →
    t.enu = { s.enu with
      locked := false
      pumpOn := s.deb.mains && s.enu.p.any (fun p => decide (p < s.conf.pOn))
      run := if (s.deb.mains && s.enu.p.any (fun p => decide (p < s.conf.pOn))) = true then some 0 else s.enu.run } ∧
    t.outs.pump = t.enu.pumpOn

/-- Every step keeps: a lane holds a send copy in CONTENDING and SENDING alone, and no lane of a part outside JOINED sends (R135, R142). -/
def Obligations.StepsKeepLanesSilentOutsideJoined : Prop := ∀ s t : State, SendsJoined s → step s = .next t → SendsJoined t

/-- Every step keeps: the table is in rising order of numbers 1 to 63 without the own number, and at most four telegrams wait (R99, R102,
R147). -/
def Obligations.StepsKeepTheTableOrdered : Prop := ∀ s t : State, TableOrdered s → step s = .next t → TableOrdered t

/-- Every step keeps: at most one record of each kind, counts 1 to 255, ages to 65535, events in CLEARED_UNACKED alone (R88 to R90). -/
def Obligations.StepsKeepTheAlarmList : Prop := ∀ s t : State, AlarmsListed s → step s = .next t → AlarmsListed t

/-- Every step keeps: a referenced count lies in 0 to the travel count with its overruns within the slack, an unreferenced one in -32768 to
32767, and the monitor runs in every door that runs and only in a part that runs (R32, R38 to R41). -/
def Obligations.StepsKeepTheCountBounded : Prop := ∀ s t : State, CountBounded s → step s = .next t → CountBounded t

/-- Every step keeps: the position state is that of the debounced limits; SNDR, BCN, LMC, LMO, LMW, PUMP and VSL are those of the state; a
stroke runs exactly with its valve (R28 to R30, R34, R43, R44, R64). -/
def Obligations.StepsKeepPositionStrokesAndPins : Prop := ∀ s t : State, PinsFollow s → step s = .next t → PinsFollow t

/-- Every step keeps: the panel's summaries, lamp patterns and PSND are those of its table, its alarm list and its own demand record, and a
silence lasts only while an unacknowledged alarm exists (R153, R157 to R165). Spelled out, in every such state of a running panel: each
of the seven flags of the seventeen records is that of the door entries of its group or of the ship (R157, R158), and every one of the
272 lamps has the first pattern of its table that applies: the door cells from each entry's part and liveness (R160), the group and ship cells
from their record, the ship's amber with the own list (R161), the rest from the own record, the LIVE panels, the silence flag and the lanes
(R162), and positions 262 to 271 dark (R159). -/
def Obligations.StepsKeepThePanelsLampsAndSounder : Prop :=
  (∀ s t : State, PanelShows s → step s = .next t → PanelShows t) ∧
  ∀ s : State, PanelShows s → s.panelRuns = true →
    let moves (p : DoorPart) : Prop := p.ctl = .warning ∨ p.ctl = .closing ∨ p.ctl = .opening
    let lamp (i : Nat) (p : Pattern) : Prop := s.pnu.patterns[i]? = some p
    let record (i : Nat) : Summary := s.pnu.summaries.getD i Summary.reset
    let own (test : AlarmRecord → Bool) : Bool := s.alu.any test
    let others (test : PanelPart → Bool) : Bool :=
      s.ste.table.any (fun e => e.kind == .panel && e.live && e.panel.any (fun h => test h.part))
    s.pnu.summaries.length = 17 ∧ s.pnu.patterns.length = 272 ∧
    (∀ i, i < 17 →
      let r : Summary := record i
      let scope (e : Entry) (p : DoorPart) : Prop :=
        e ∈ s.ste.table ∧ e.kind = .door ∧ e.door = some p ∧ (i = 16 ∨ p.group = i + 1)
      (r.empty = true ↔ ¬ ∃ e p, scope e p) ∧
      (r.allClosed = true ↔ (∃ e p, scope e p) ∧ ∀ e p, scope e p →
        e.live = true ∧ p.pos = .closed ∧ p.ctl ≠ .opening ∧ p.ctl ≠ .claiming) ∧
      (r.anyOpen = true ↔ ∃ e p, scope e p ∧ p.pos ≠ .closed) ∧
      (r.anyMoving = true ↔ ∃ e p, scope e p ∧ e.live = true ∧ moves p) ∧
      (r.anyUnacked = true ↔ ∃ e p, scope e p ∧ p.unacked ≠ 0) ∧
      (r.anyActive = true ↔ ∃ e p, scope e p ∧ p.active ≠ 0) ∧
      (r.anyLost = true ↔ ∃ e p, scope e p ∧ e.live = false)) ∧
    (∀ n, 1 ≤ n → n ≤ 63 →
      (n = s.conf.station ∨ (∀ e, entryOf s n = some e → e.kind = .panel) →
        lamp (3 * (n - 1)) .dark ∧ lamp (3 * (n - 1) + 1) .dark ∧ lamp (3 * (n - 1) + 2) .dark) ∧
      ∀ e, n ≠ s.conf.station → entryOf s n = some e → e.kind = .door →
        (e.door = none → lamp (3 * (n - 1)) .dark ∧ lamp (3 * (n - 1) + 1) .dark ∧
          lamp (3 * (n - 1) + 2) (if e.live = false then .slow else .dark)) ∧
        ∀ p, e.door = some p →
          lamp (3 * (n - 1)) (if p.ctl = .warning ∨ p.ctl = .closing ∨ p.ctl = .opening then .dark
            else if p.pos = .closed then .steady else .dark) ∧
          lamp (3 * (n - 1) + 1) (if p.pos = .unknown then .fast
            else if p.ctl = .warning ∨ p.ctl = .closing ∨ p.ctl = .opening then .slow
            else if p.pos = .opened ∨ p.pos = .between then .steady else .dark) ∧
          lamp (3 * (n - 1) + 2) (if p.unacked ≠ 0 then .fast else if e.live = false then .slow
            else if p.active ≠ 0 then .steady else .dark)) ∧
    (∀ i, i < 17 →
      let r : Summary := record i
      lamp (189 + 3 * i) (if r.empty = false ∧ r.allClosed = true then .steady else .dark) ∧
      lamp (189 + 3 * i + 1) (if r.empty = true then .dark else if r.anyMoving = true then .slow
        else if r.anyOpen = true then .steady else .dark) ∧
      (i < 16 → lamp (189 + 3 * i + 2) (if r.empty = true then .dark else if r.anyUnacked = true then .fast
        else if r.anyLost = true then .slow else if r.anyActive = true then .steady else .dark)) ∧
      (i = 16 → lamp 239 (
        if r.empty = true ∧ s.alu = [] then .dark
        else if r.anyUnacked = true ∨ own (fun a => a.st != .activeAcked) = true then .fast
        else if r.anyLost = true then .slow
        else if r.anyActive = true ∨ own (fun a => a.st != .clearedUnacked) = true then .steady
        else .dark))) ∧
    lamp 240 (if s.pnu.mode = .doorsClosed then .steady else .dark) ∧
    lamp 241 (if s.pnu.mode = .localControl then .steady else .dark) ∧
    lamp 242 (if others (fun p => p.mode == .doorsClosed) = true then .steady else .dark) ∧
    (∀ g, g < 16 → lamp (243 + g) (if s.pnu.groups.getLsbD g = true then .steady
      else if others (fun p => p.groups.getLsbD g) = true then .slow else .dark)) ∧
    lamp 259 (if s.pnu.silence = true then .steady else .dark) ∧
    lamp 260 (if s.laneA.health = .good then .steady else .dark) ∧
    lamp 261 (if s.laneB.health = .good then .steady else .dark) ∧
    ∀ i, 262 ≤ i → i < 272 → lamp i .dark
end

