-- ==== Sys2Proof/Laws/Frames.lean ====
section
/-! SUPPORT. One frame lemma for each shared operation: every part of the state it leaves as it was. Each is a simp lemma,
so that a projection of an operation's result to an untouched field rewrites to the field. -/

namespace Sys2Proof.Machine

/-- Only the leads and their debounce. -/
@[simp] theorem setDebounced_keeps (l : Lead) (m : Bool) (s : State) :
    (setDebounced l m s).flash = s.flash ∧
    (setDebounced l m s).suc = s.suc ∧
    (setDebounced l m s).dcu = s.dcu ∧
    (setDebounced l m s).trm = s.trm ∧
    (setDebounced l m s).enu = s.enu ∧
    (setDebounced l m s).psu = s.psu ∧
    (setDebounced l m s).alu = s.alu ∧
    (setDebounced l m s).ste = s.ste ∧
    (setDebounced l m s).snu = s.snu ∧
    (setDebounced l m s).laneA = s.laneA ∧
    (setDebounced l m s).laneB = s.laneB ∧
    (setDebounced l m s).rxq = s.rxq ∧
    (setDebounced l m s).pnu = s.pnu ∧
    (setDebounced l m s).dgp = s.dgp ∧
    (setDebounced l m s).outs = s.outs ∧
    (setDebounced l m s).pending = s.pending := by
  simp [setDebounced]

/-- Only the lead and its debounce timer. -/
@[simp] theorem leadEdge_keeps (l : Lead) (m : Bool) (s : State) :
    (leadEdge l m s).deb = s.deb ∧
    (leadEdge l m s).flash = s.flash ∧
    (leadEdge l m s).suc = s.suc ∧
    (leadEdge l m s).dcu = s.dcu ∧
    (leadEdge l m s).trm = s.trm ∧
    (leadEdge l m s).enu = s.enu ∧
    (leadEdge l m s).psu = s.psu ∧
    (leadEdge l m s).alu = s.alu ∧
    (leadEdge l m s).ste = s.ste ∧
    (leadEdge l m s).snu = s.snu ∧
    (leadEdge l m s).laneA = s.laneA ∧
    (leadEdge l m s).laneB = s.laneB ∧
    (leadEdge l m s).rxq = s.rxq ∧
    (leadEdge l m s).pnu = s.pnu ∧
    (leadEdge l m s).dgp = s.dgp ∧
    (leadEdge l m s).outs = s.outs ∧
    (leadEdge l m s).pending = s.pending := by
  simp only [leadEdge]; (repeat' split) <;> simp

/-- Only the pins. -/
@[simp] theorem setOuts_keeps (s : State) :
    (setOuts s).lead = s.lead ∧
    (setOuts s).deb = s.deb ∧
    (setOuts s).settle = s.settle ∧
    (setOuts s).flash = s.flash ∧
    (setOuts s).suc = s.suc ∧
    (setOuts s).dcu = s.dcu ∧
    (setOuts s).trm = s.trm ∧
    (setOuts s).enu = s.enu ∧
    (setOuts s).psu = s.psu ∧
    (setOuts s).alu = s.alu ∧
    (setOuts s).ste = s.ste ∧
    (setOuts s).snu = s.snu ∧
    (setOuts s).laneA = s.laneA ∧
    (setOuts s).laneB = s.laneB ∧
    (setOuts s).rxq = s.rxq ∧
    (setOuts s).pnu = s.pnu ∧
    (setOuts s).dgp = s.dgp ∧
    (setOuts s).pending = s.pending := by
  simp [setOuts]

/-- Only the lane units. -/
@[simp] theorem setLane_keeps (s : State) (id : LaneId) (l : Lane) :
    (State.setLane s id l).lead = s.lead ∧
    (State.setLane s id l).deb = s.deb ∧
    (State.setLane s id l).settle = s.settle ∧
    (State.setLane s id l).flash = s.flash ∧
    (State.setLane s id l).suc = s.suc ∧
    (State.setLane s id l).dcu = s.dcu ∧
    (State.setLane s id l).trm = s.trm ∧
    (State.setLane s id l).enu = s.enu ∧
    (State.setLane s id l).psu = s.psu ∧
    (State.setLane s id l).alu = s.alu ∧
    (State.setLane s id l).ste = s.ste ∧
    (State.setLane s id l).snu = s.snu ∧
    (State.setLane s id l).rxq = s.rxq ∧
    (State.setLane s id l).pnu = s.pnu ∧
    (State.setLane s id l).dgp = s.dgp ∧
    (State.setLane s id l).outs = s.outs ∧
    (State.setLane s id l).pending = s.pending := by
  cases id <;> simp [State.setLane]

/-- Only the lane units: one may begin a telegram. -/
@[simp] theorem tryBegin_keeps (id : LaneId) (s : State) :
    (tryBegin id s).lead = s.lead ∧
    (tryBegin id s).deb = s.deb ∧
    (tryBegin id s).settle = s.settle ∧
    (tryBegin id s).flash = s.flash ∧
    (tryBegin id s).suc = s.suc ∧
    (tryBegin id s).dcu = s.dcu ∧
    (tryBegin id s).trm = s.trm ∧
    (tryBegin id s).enu = s.enu ∧
    (tryBegin id s).psu = s.psu ∧
    (tryBegin id s).alu = s.alu ∧
    (tryBegin id s).ste = s.ste ∧
    (tryBegin id s).snu = s.snu ∧
    (tryBegin id s).rxq = s.rxq ∧
    (tryBegin id s).pnu = s.pnu ∧
    (tryBegin id s).dgp = s.dgp ∧
    (tryBegin id s).outs = s.outs ∧
    (tryBegin id s).pending = s.pending := by
  simp only [tryBegin]; (repeat' split) <;> simp

/-- Only the lane units. -/
@[simp] theorem tryBegins_keeps (s : State) :
    (tryBegins s).lead = s.lead ∧
    (tryBegins s).deb = s.deb ∧
    (tryBegins s).settle = s.settle ∧
    (tryBegins s).flash = s.flash ∧
    (tryBegins s).suc = s.suc ∧
    (tryBegins s).dcu = s.dcu ∧
    (tryBegins s).trm = s.trm ∧
    (tryBegins s).enu = s.enu ∧
    (tryBegins s).psu = s.psu ∧
    (tryBegins s).alu = s.alu ∧
    (tryBegins s).ste = s.ste ∧
    (tryBegins s).snu = s.snu ∧
    (tryBegins s).rxq = s.rxq ∧
    (tryBegins s).pnu = s.pnu ∧
    (tryBegins s).dgp = s.dgp ∧
    (tryBegins s).outs = s.outs ∧
    (tryBegins s).pending = s.pending := by
  simp [tryBegins]

/-- A making changes the snapshot unit, and lanes that begin with it. -/
@[simp] theorem makeOwn_keeps (s : State) :
    (makeOwn s).lead = s.lead ∧
    (makeOwn s).deb = s.deb ∧
    (makeOwn s).settle = s.settle ∧
    (makeOwn s).flash = s.flash ∧
    (makeOwn s).suc = s.suc ∧
    (makeOwn s).dcu = s.dcu ∧
    (makeOwn s).trm = s.trm ∧
    (makeOwn s).enu = s.enu ∧
    (makeOwn s).psu = s.psu ∧
    (makeOwn s).alu = s.alu ∧
    (makeOwn s).ste = s.ste ∧
    (makeOwn s).rxq = s.rxq ∧
    (makeOwn s).pnu = s.pnu ∧
    (makeOwn s).dgp = s.dgp ∧
    (makeOwn s).outs = s.outs ∧
    (makeOwn s).pending = s.pending := by
  simp only [makeOwn]; (repeat' split) <;> simp

/-- A making changes the snapshot unit, and lanes that begin with it. -/
@[simp] theorem makeIdent_keeps (s : State) :
    (makeIdent s).lead = s.lead ∧
    (makeIdent s).deb = s.deb ∧
    (makeIdent s).settle = s.settle ∧
    (makeIdent s).flash = s.flash ∧
    (makeIdent s).suc = s.suc ∧
    (makeIdent s).dcu = s.dcu ∧
    (makeIdent s).trm = s.trm ∧
    (makeIdent s).enu = s.enu ∧
    (makeIdent s).psu = s.psu ∧
    (makeIdent s).alu = s.alu ∧
    (makeIdent s).ste = s.ste ∧
    (makeIdent s).rxq = s.rxq ∧
    (makeIdent s).pnu = s.pnu ∧
    (makeIdent s).dgp = s.dgp ∧
    (makeIdent s).outs = s.outs ∧
    (makeIdent s).pending = s.pending := by
  simp [makeIdent]

/-- An offer changes the snapshot unit, and lanes that begin with it. -/
@[simp] theorem offer_keeps (s : State) :
    (offer s).lead = s.lead ∧
    (offer s).deb = s.deb ∧
    (offer s).settle = s.settle ∧
    (offer s).flash = s.flash ∧
    (offer s).suc = s.suc ∧
    (offer s).dcu = s.dcu ∧
    (offer s).trm = s.trm ∧
    (offer s).enu = s.enu ∧
    (offer s).psu = s.psu ∧
    (offer s).alu = s.alu ∧
    (offer s).ste = s.ste ∧
    (offer s).rxq = s.rxq ∧
    (offer s).pnu = s.pnu ∧
    (offer s).dgp = s.dgp ∧
    (offer s).outs = s.outs ∧
    (offer s).pending = s.pending := by
  simp only [offer]; (repeat' split) <;> simp

/-- An offer of the figure changes what an offer changes. -/
@[simp] theorem offerFigure_keeps (old : Option Nat) (s : State) :
    (offerFigure old s).lead = s.lead ∧
    (offerFigure old s).deb = s.deb ∧
    (offerFigure old s).settle = s.settle ∧
    (offerFigure old s).flash = s.flash ∧
    (offerFigure old s).suc = s.suc ∧
    (offerFigure old s).dcu = s.dcu ∧
    (offerFigure old s).trm = s.trm ∧
    (offerFigure old s).enu = s.enu ∧
    (offerFigure old s).psu = s.psu ∧
    (offerFigure old s).alu = s.alu ∧
    (offerFigure old s).ste = s.ste ∧
    (offerFigure old s).rxq = s.rxq ∧
    (offerFigure old s).pnu = s.pnu ∧
    (offerFigure old s).dgp = s.dgp ∧
    (offerFigure old s).outs = s.outs ∧
    (offerFigure old s).pending = s.pending := by
  simp only [offerFigure]; (repeat' split) <;> simp

/-- Only the patterns. -/
@[simp] theorem repaint_keeps (s : State) :
    (repaint s).lead = s.lead ∧
    (repaint s).deb = s.deb ∧
    (repaint s).settle = s.settle ∧
    (repaint s).flash = s.flash ∧
    (repaint s).suc = s.suc ∧
    (repaint s).dcu = s.dcu ∧
    (repaint s).trm = s.trm ∧
    (repaint s).enu = s.enu ∧
    (repaint s).psu = s.psu ∧
    (repaint s).alu = s.alu ∧
    (repaint s).ste = s.ste ∧
    (repaint s).snu = s.snu ∧
    (repaint s).laneA = s.laneA ∧
    (repaint s).laneB = s.laneB ∧
    (repaint s).rxq = s.rxq ∧
    (repaint s).dgp = s.dgp ∧
    (repaint s).outs = s.outs ∧
    (repaint s).pending = s.pending := by
  simp [repaint]

/-- Only the silence flag and PSND. -/
@[simp] theorem sound_keeps (s : State) :
    (sound s).lead = s.lead ∧
    (sound s).deb = s.deb ∧
    (sound s).settle = s.settle ∧
    (sound s).flash = s.flash ∧
    (sound s).suc = s.suc ∧
    (sound s).dcu = s.dcu ∧
    (sound s).trm = s.trm ∧
    (sound s).enu = s.enu ∧
    (sound s).psu = s.psu ∧
    (sound s).alu = s.alu ∧
    (sound s).ste = s.ste ∧
    (sound s).snu = s.snu ∧
    (sound s).laneA = s.laneA ∧
    (sound s).laneB = s.laneB ∧
    (sound s).rxq = s.rxq ∧
    (sound s).dgp = s.dgp ∧
    (sound s).outs = s.outs ∧
    (sound s).pending = s.pending := by
  simp [sound]

/-- Only the silence flag. -/
@[simp] theorem endSilence_keeps (s : State) :
    (endSilence s).lead = s.lead ∧
    (endSilence s).deb = s.deb ∧
    (endSilence s).settle = s.settle ∧
    (endSilence s).flash = s.flash ∧
    (endSilence s).suc = s.suc ∧
    (endSilence s).dcu = s.dcu ∧
    (endSilence s).trm = s.trm ∧
    (endSilence s).enu = s.enu ∧
    (endSilence s).psu = s.psu ∧
    (endSilence s).alu = s.alu ∧
    (endSilence s).ste = s.ste ∧
    (endSilence s).snu = s.snu ∧
    (endSilence s).laneA = s.laneA ∧
    (endSilence s).laneB = s.laneB ∧
    (endSilence s).rxq = s.rxq ∧
    (endSilence s).dgp = s.dgp ∧
    (endSilence s).outs = s.outs ∧
    (endSilence s).pending = s.pending := by
  simp [endSilence]

/-- Only the energy unit. -/
@[simp] theorem pumpActs_keeps (s : State) :
    (pumpActs s).lead = s.lead ∧
    (pumpActs s).deb = s.deb ∧
    (pumpActs s).settle = s.settle ∧
    (pumpActs s).flash = s.flash ∧
    (pumpActs s).suc = s.suc ∧
    (pumpActs s).dcu = s.dcu ∧
    (pumpActs s).trm = s.trm ∧
    (pumpActs s).psu = s.psu ∧
    (pumpActs s).alu = s.alu ∧
    (pumpActs s).ste = s.ste ∧
    (pumpActs s).snu = s.snu ∧
    (pumpActs s).laneA = s.laneA ∧
    (pumpActs s).laneB = s.laneB ∧
    (pumpActs s).rxq = s.rxq ∧
    (pumpActs s).pnu = s.pnu ∧
    (pumpActs s).dgp = s.dgp ∧
    (pumpActs s).outs = s.outs ∧
    (pumpActs s).pending = s.pending := by
  simp [pumpActs]

/-- Only the energy unit. -/
@[simp] theorem setLocked_keeps (b : Bool) (s : State) :
    (setLocked b s).lead = s.lead ∧
    (setLocked b s).deb = s.deb ∧
    (setLocked b s).settle = s.settle ∧
    (setLocked b s).flash = s.flash ∧
    (setLocked b s).suc = s.suc ∧
    (setLocked b s).dcu = s.dcu ∧
    (setLocked b s).trm = s.trm ∧
    (setLocked b s).psu = s.psu ∧
    (setLocked b s).alu = s.alu ∧
    (setLocked b s).ste = s.ste ∧
    (setLocked b s).snu = s.snu ∧
    (setLocked b s).laneA = s.laneA ∧
    (setLocked b s).laneB = s.laneB ∧
    (setLocked b s).rxq = s.rxq ∧
    (setLocked b s).pnu = s.pnu ∧
    (setLocked b s).dgp = s.dgp ∧
    (setLocked b s).outs = s.outs ∧
    (setLocked b s).pending = s.pending := by
  simp [setLocked]

/-- Only the energy unit. -/
@[simp] theorem pumpReport_keeps (x y : List AlarmRecord) (s : State) :
    (pumpReport x y s).lead = s.lead ∧
    (pumpReport x y s).deb = s.deb ∧
    (pumpReport x y s).settle = s.settle ∧
    (pumpReport x y s).flash = s.flash ∧
    (pumpReport x y s).suc = s.suc ∧
    (pumpReport x y s).dcu = s.dcu ∧
    (pumpReport x y s).trm = s.trm ∧
    (pumpReport x y s).psu = s.psu ∧
    (pumpReport x y s).alu = s.alu ∧
    (pumpReport x y s).ste = s.ste ∧
    (pumpReport x y s).snu = s.snu ∧
    (pumpReport x y s).laneA = s.laneA ∧
    (pumpReport x y s).laneB = s.laneB ∧
    (pumpReport x y s).rxq = s.rxq ∧
    (pumpReport x y s).pnu = s.pnu ∧
    (pumpReport x y s).dgp = s.dgp ∧
    (pumpReport x y s).outs = s.outs ∧
    (pumpReport x y s).pending = s.pending := by
  simp only [pumpReport]; (repeat' split) <;> simp

/-- What an alarm request and its hand-on can change (R95 to R97). -/
@[simp] theorem alarm_keeps (q : AlarmRequest) (s : State) :
    (alarm q s).lead = s.lead ∧
    (alarm q s).deb = s.deb ∧
    (alarm q s).settle = s.settle ∧
    (alarm q s).flash = s.flash ∧
    (alarm q s).suc = s.suc ∧
    (alarm q s).dcu = s.dcu ∧
    (alarm q s).trm = s.trm ∧
    (alarm q s).psu = s.psu ∧
    (alarm q s).ste = s.ste ∧
    (alarm q s).rxq = s.rxq ∧
    (alarm q s).dgp = s.dgp ∧
    (alarm q s).outs = s.outs ∧
    (alarm q s).pending = s.pending := by
  simp only [alarm]; (repeat' split) <;> simp

/-- What a lane's health and its hand-on can change (R151). -/
@[simp] theorem rehealth_keeps (id : LaneId) (s : State) :
    (rehealth id s).lead = s.lead ∧
    (rehealth id s).deb = s.deb ∧
    (rehealth id s).settle = s.settle ∧
    (rehealth id s).flash = s.flash ∧
    (rehealth id s).suc = s.suc ∧
    (rehealth id s).dcu = s.dcu ∧
    (rehealth id s).trm = s.trm ∧
    (rehealth id s).psu = s.psu ∧
    (rehealth id s).ste = s.ste ∧
    (rehealth id s).rxq = s.rxq ∧
    (rehealth id s).dgp = s.dgp ∧
    (rehealth id s).outs = s.outs ∧
    (rehealth id s).pending = s.pending := by
  simp only [rehealth]; (repeat' split) <;> simp

/-- Only the capture. -/
@[simp] theorem captureOffer_keeps (c : Capture) (s : State) :
    (captureOffer c s).lead = s.lead ∧
    (captureOffer c s).deb = s.deb ∧
    (captureOffer c s).settle = s.settle ∧
    (captureOffer c s).flash = s.flash ∧
    (captureOffer c s).suc = s.suc ∧
    (captureOffer c s).dcu = s.dcu ∧
    (captureOffer c s).trm = s.trm ∧
    (captureOffer c s).enu = s.enu ∧
    (captureOffer c s).psu = s.psu ∧
    (captureOffer c s).alu = s.alu ∧
    (captureOffer c s).ste = s.ste ∧
    (captureOffer c s).snu = s.snu ∧
    (captureOffer c s).laneA = s.laneA ∧
    (captureOffer c s).laneB = s.laneB ∧
    (captureOffer c s).rxq = s.rxq ∧
    (captureOffer c s).pnu = s.pnu ∧
    (captureOffer c s).outs = s.outs ∧
    (captureOffer c s).pending = s.pending := by
  simp only [captureOffer]; (repeat' split) <;> simp

/-- Only the travel monitor. -/
@[simp] theorem setTrm_keeps (t : Trm) (s : State) :
    (setTrm t s).lead = s.lead ∧
    (setTrm t s).deb = s.deb ∧
    (setTrm t s).settle = s.settle ∧
    (setTrm t s).flash = s.flash ∧
    (setTrm t s).suc = s.suc ∧
    (setTrm t s).dcu = s.dcu ∧
    (setTrm t s).enu = s.enu ∧
    (setTrm t s).psu = s.psu ∧
    (setTrm t s).alu = s.alu ∧
    (setTrm t s).ste = s.ste ∧
    (setTrm t s).snu = s.snu ∧
    (setTrm t s).laneA = s.laneA ∧
    (setTrm t s).laneB = s.laneB ∧
    (setTrm t s).rxq = s.rxq ∧
    (setTrm t s).pnu = s.pnu ∧
    (setTrm t s).dgp = s.dgp ∧
    (setTrm t s).outs = s.outs ∧
    (setTrm t s).pending = s.pending := by
  simp [setTrm]

/-- Only the travel monitor. -/
@[simp] theorem strokeStart_keeps (d : Dir) (s : State) :
    (strokeStart d s).lead = s.lead ∧
    (strokeStart d s).deb = s.deb ∧
    (strokeStart d s).settle = s.settle ∧
    (strokeStart d s).flash = s.flash ∧
    (strokeStart d s).suc = s.suc ∧
    (strokeStart d s).dcu = s.dcu ∧
    (strokeStart d s).enu = s.enu ∧
    (strokeStart d s).psu = s.psu ∧
    (strokeStart d s).alu = s.alu ∧
    (strokeStart d s).ste = s.ste ∧
    (strokeStart d s).snu = s.snu ∧
    (strokeStart d s).laneA = s.laneA ∧
    (strokeStart d s).laneB = s.laneB ∧
    (strokeStart d s).rxq = s.rxq ∧
    (strokeStart d s).pnu = s.pnu ∧
    (strokeStart d s).dgp = s.dgp ∧
    (strokeStart d s).outs = s.outs ∧
    (strokeStart d s).pending = s.pending := by
  simp [strokeStart]

/-- The travel monitor, and the clearing of CLOSE_TIMEOUT. -/
@[simp] theorem strokeEnd_keeps (s : State) :
    (strokeEnd s).lead = s.lead ∧
    (strokeEnd s).deb = s.deb ∧
    (strokeEnd s).settle = s.settle ∧
    (strokeEnd s).flash = s.flash ∧
    (strokeEnd s).suc = s.suc ∧
    (strokeEnd s).dcu = s.dcu ∧
    (strokeEnd s).psu = s.psu ∧
    (strokeEnd s).ste = s.ste ∧
    (strokeEnd s).rxq = s.rxq ∧
    (strokeEnd s).dgp = s.dgp ∧
    (strokeEnd s).outs = s.outs ∧
    (strokeEnd s).pending = s.pending := by
  simp only [strokeEnd]; split <;> simp

/-- The excess flag and its alarm. -/
@[simp] theorem excessLook_keeps (s : State) :
    (excessLook s).lead = s.lead ∧
    (excessLook s).deb = s.deb ∧
    (excessLook s).settle = s.settle ∧
    (excessLook s).flash = s.flash ∧
    (excessLook s).suc = s.suc ∧
    (excessLook s).dcu = s.dcu ∧
    (excessLook s).trm = s.trm ∧
    (excessLook s).ste = s.ste ∧
    (excessLook s).rxq = s.rxq ∧
    (excessLook s).dgp = s.dgp ∧
    (excessLook s).outs = s.outs ∧
    (excessLook s).pending = s.pending := by
  simp only [excessLook]; split <;> simp

/-- The limit flag, and what PASSAGE_EXCESS brings. -/
@[simp] theorem setLimit_keeps (s : State) :
    (setLimit s).lead = s.lead ∧
    (setLimit s).deb = s.deb ∧
    (setLimit s).settle = s.settle ∧
    (setLimit s).flash = s.flash ∧
    (setLimit s).suc = s.suc ∧
    (setLimit s).dcu = s.dcu ∧
    (setLimit s).trm = s.trm ∧
    (setLimit s).ste = s.ste ∧
    (setLimit s).rxq = s.rxq ∧
    (setLimit s).dgp = s.dgp ∧
    (setLimit s).outs = s.outs ∧
    (setLimit s).pending = s.pending := by
  simp only [setLimit]; split <;> simp

/-- The valves, their strokes and what a stroke end clears. -/
@[simp] theorem valves_keeps (s : State) :
    (valves s).lead = s.lead ∧
    (valves s).deb = s.deb ∧
    (valves s).settle = s.settle ∧
    (valves s).flash = s.flash ∧
    (valves s).suc = s.suc ∧
    (valves s).psu = s.psu ∧
    (valves s).ste = s.ste ∧
    (valves s).rxq = s.rxq ∧
    (valves s).dgp = s.dgp ∧
    (valves s).outs = s.outs ∧
    (valves s).pending = s.pending := by
  simp [valves, apply_ite State.lead, apply_ite State.deb, apply_ite State.settle, apply_ite State.flash, apply_ite State.suc, apply_ite State.enu, apply_ite State.psu, apply_ite State.alu, apply_ite State.ste, apply_ite State.snu, apply_ite State.laneA, apply_ite State.laneB, apply_ite State.rxq, apply_ite State.pnu, apply_ite State.dgp, apply_ite State.outs, apply_ite State.pending, ite_self]

/-- A move between control states. -/
@[simp] theorem moveTo_keeps (d : Dcu) (s : State) :
    (moveTo d s).lead = s.lead ∧
    (moveTo d s).deb = s.deb ∧
    (moveTo d s).settle = s.settle ∧
    (moveTo d s).flash = s.flash ∧
    (moveTo d s).suc = s.suc ∧
    (moveTo d s).ste = s.ste ∧
    (moveTo d s).rxq = s.rxq ∧
    (moveTo d s).dgp = s.dgp ∧
    (moveTo d s).outs = s.outs ∧
    (moveTo d s).pending = s.pending := by
  simp only [moveTo]; split <;> simp

/-- A move between control states. -/
@[simp] theorem toWarning_keeps (w : WarningCause) (s : State) :
    (toWarning w s).lead = s.lead ∧
    (toWarning w s).deb = s.deb ∧
    (toWarning w s).settle = s.settle ∧
    (toWarning w s).flash = s.flash ∧
    (toWarning w s).suc = s.suc ∧
    (toWarning w s).ste = s.ste ∧
    (toWarning w s).rxq = s.rxq ∧
    (toWarning w s).dgp = s.dgp ∧
    (toWarning w s).outs = s.outs ∧
    (toWarning w s).pending = s.pending := by
  simp [toWarning]

/-- A move between control states. -/
@[simp] theorem toClosing_keeps (c : Cause) (s : State) :
    (toClosing c s).lead = s.lead ∧
    (toClosing c s).deb = s.deb ∧
    (toClosing c s).settle = s.settle ∧
    (toClosing c s).flash = s.flash ∧
    (toClosing c s).suc = s.suc ∧
    (toClosing c s).ste = s.ste ∧
    (toClosing c s).rxq = s.rxq ∧
    (toClosing c s).dgp = s.dgp ∧
    (toClosing c s).outs = s.outs ∧
    (toClosing c s).pending = s.pending := by
  simp [toClosing]

/-- A move between control states. -/
@[simp] theorem toIdle_keeps (c : Ctl) (s : State) :
    (toIdle c s).lead = s.lead ∧
    (toIdle c s).deb = s.deb ∧
    (toIdle c s).settle = s.settle ∧
    (toIdle c s).flash = s.flash ∧
    (toIdle c s).suc = s.suc ∧
    (toIdle c s).ste = s.ste ∧
    (toIdle c s).rxq = s.rxq ∧
    (toIdle c s).dgp = s.dgp ∧
    (toIdle c s).outs = s.outs ∧
    (toIdle c s).pending = s.pending := by
  simp [toIdle]

/-- A move between control states. -/
@[simp] theorem toOpening_keeps (s : State) :
    (toOpening s).lead = s.lead ∧
    (toOpening s).deb = s.deb ∧
    (toOpening s).settle = s.settle ∧
    (toOpening s).flash = s.flash ∧
    (toOpening s).suc = s.suc ∧
    (toOpening s).ste = s.ste ∧
    (toOpening s).rxq = s.rxq ∧
    (toOpening s).dgp = s.dgp ∧
    (toOpening s).outs = s.outs ∧
    (toOpening s).pending = s.pending := by
  simp [toOpening]

/-- A move between control states. -/
@[simp] theorem toClaiming_keeps (s : State) :
    (toClaiming s).lead = s.lead ∧
    (toClaiming s).deb = s.deb ∧
    (toClaiming s).settle = s.settle ∧
    (toClaiming s).flash = s.flash ∧
    (toClaiming s).suc = s.suc ∧
    (toClaiming s).ste = s.ste ∧
    (toClaiming s).rxq = s.rxq ∧
    (toClaiming s).dgp = s.dgp ∧
    (toClaiming s).outs = s.outs ∧
    (toClaiming s).pending = s.pending := by
  simp [toClaiming]

/-- A move between control states. -/
@[simp] theorem toHeldOpen_keeps (s : State) :
    (toHeldOpen s).lead = s.lead ∧
    (toHeldOpen s).deb = s.deb ∧
    (toHeldOpen s).settle = s.settle ∧
    (toHeldOpen s).flash = s.flash ∧
    (toHeldOpen s).suc = s.suc ∧
    (toHeldOpen s).ste = s.ste ∧
    (toHeldOpen s).rxq = s.rxq ∧
    (toHeldOpen s).dgp = s.dgp ∧
    (toHeldOpen s).outs = s.outs ∧
    (toHeldOpen s).pending = s.pending := by
  simp [toHeldOpen]

/-- What a door event can change. -/
@[simp] theorem refuse_keeps (s : State) :
    (refuse s).lead = s.lead ∧
    (refuse s).deb = s.deb ∧
    (refuse s).settle = s.settle ∧
    (refuse s).flash = s.flash ∧
    (refuse s).suc = s.suc ∧
    (refuse s).ste = s.ste ∧
    (refuse s).rxq = s.rxq ∧
    (refuse s).dgp = s.dgp ∧
    (refuse s).outs = s.outs ∧
    (refuse s).pending = s.pending := by
  simp only [refuse]; (repeat' split) <;> simp

/-- What a door event can change. -/
@[simp] theorem evaluate_keeps (s : State) :
    (evaluate s).lead = s.lead ∧
    (evaluate s).deb = s.deb ∧
    (evaluate s).settle = s.settle ∧
    (evaluate s).flash = s.flash ∧
    (evaluate s).suc = s.suc ∧
    (evaluate s).ste = s.ste ∧
    (evaluate s).rxq = s.rxq ∧
    (evaluate s).dgp = s.dgp ∧
    (evaluate s).outs = s.outs ∧
    (evaluate s).pending = s.pending := by
  simp only [evaluate]; (repeat' split) <;> simp

/-- What a door event can change. -/
@[simp] theorem evaluateStanding_keeps (s : State) :
    (evaluateStanding s).lead = s.lead ∧
    (evaluateStanding s).deb = s.deb ∧
    (evaluateStanding s).settle = s.settle ∧
    (evaluateStanding s).flash = s.flash ∧
    (evaluateStanding s).suc = s.suc ∧
    (evaluateStanding s).ste = s.ste ∧
    (evaluateStanding s).rxq = s.rxq ∧
    (evaluateStanding s).dgp = s.dgp ∧
    (evaluateStanding s).outs = s.outs ∧
    (evaluateStanding s).pending = s.pending := by
  simp only [evaluateStanding]; (repeat' split) <;> simp

/-- What a door event can change. -/
@[simp] theorem idleRules_keeps (s : State) :
    (idleRules s).lead = s.lead ∧
    (idleRules s).deb = s.deb ∧
    (idleRules s).settle = s.settle ∧
    (idleRules s).flash = s.flash ∧
    (idleRules s).suc = s.suc ∧
    (idleRules s).ste = s.ste ∧
    (idleRules s).rxq = s.rxq ∧
    (idleRules s).dgp = s.dgp ∧
    (idleRules s).outs = s.outs ∧
    (idleRules s).pending = s.pending := by
  simp only [idleRules]; (repeat' split) <;> simp

/-- What a door event can change. -/
@[simp] theorem toMatching_keeps (s : State) :
    (toMatching s).lead = s.lead ∧
    (toMatching s).deb = s.deb ∧
    (toMatching s).settle = s.settle ∧
    (toMatching s).flash = s.flash ∧
    (toMatching s).suc = s.suc ∧
    (toMatching s).ste = s.ste ∧
    (toMatching s).rxq = s.rxq ∧
    (toMatching s).dgp = s.dgp ∧
    (toMatching s).outs = s.outs ∧
    (toMatching s).pending = s.pending := by
  simp [toMatching]

/-- What a door event can change. -/
@[simp] theorem stopOrReclose_keeps (s : State) :
    (stopOrReclose s).lead = s.lead ∧
    (stopOrReclose s).deb = s.deb ∧
    (stopOrReclose s).settle = s.settle ∧
    (stopOrReclose s).flash = s.flash ∧
    (stopOrReclose s).suc = s.suc ∧
    (stopOrReclose s).ste = s.ste ∧
    (stopOrReclose s).rxq = s.rxq ∧
    (stopOrReclose s).dgp = s.dgp ∧
    (stopOrReclose s).outs = s.outs ∧
    (stopOrReclose s).pending = s.pending := by
  simp only [stopOrReclose]; (repeat' split) <;> simp

/-- What a door event can change. -/
@[simp] theorem onLoPressed_keeps (s : State) :
    (onLoPressed s).lead = s.lead ∧
    (onLoPressed s).deb = s.deb ∧
    (onLoPressed s).settle = s.settle ∧
    (onLoPressed s).flash = s.flash ∧
    (onLoPressed s).suc = s.suc ∧
    (onLoPressed s).ste = s.ste ∧
    (onLoPressed s).rxq = s.rxq ∧
    (onLoPressed s).dgp = s.dgp ∧
    (onLoPressed s).outs = s.outs ∧
    (onLoPressed s).pending = s.pending := by
  simp only [onLoPressed]; (repeat' split) <;> simp

/-- What a door event can change. -/
@[simp] theorem onWarningExpiry_keeps (s : State) :
    (onWarningExpiry s).lead = s.lead ∧
    (onWarningExpiry s).deb = s.deb ∧
    (onWarningExpiry s).settle = s.settle ∧
    (onWarningExpiry s).flash = s.flash ∧
    (onWarningExpiry s).suc = s.suc ∧
    (onWarningExpiry s).ste = s.ste ∧
    (onWarningExpiry s).rxq = s.rxq ∧
    (onWarningExpiry s).dgp = s.dgp ∧
    (onWarningExpiry s).outs = s.outs ∧
    (onWarningExpiry s).pending = s.pending := by
  simp only [onWarningExpiry]; (repeat' split) <;> simp

/-- What a door event can change. -/
@[simp] theorem onPosition_keeps (s : State) :
    (onPosition s).lead = s.lead ∧
    (onPosition s).deb = s.deb ∧
    (onPosition s).settle = s.settle ∧
    (onPosition s).flash = s.flash ∧
    (onPosition s).suc = s.suc ∧
    (onPosition s).ste = s.ste ∧
    (onPosition s).rxq = s.rxq ∧
    (onPosition s).dgp = s.dgp ∧
    (onPosition s).outs = s.outs ∧
    (onPosition s).pending = s.pending := by
  simp only [onPosition]; (repeat' split) <;> simp

/-- What a door event can change. -/
@[simp] theorem onCdChange_keeps (s : State) :
    (onCdChange s).lead = s.lead ∧
    (onCdChange s).deb = s.deb ∧
    (onCdChange s).settle = s.settle ∧
    (onCdChange s).flash = s.flash ∧
    (onCdChange s).suc = s.suc ∧
    (onCdChange s).ste = s.ste ∧
    (onCdChange s).rxq = s.rxq ∧
    (onCdChange s).dgp = s.dgp ∧
    (onCdChange s).outs = s.outs ∧
    (onCdChange s).pending = s.pending := by
  simp only [onCdChange]; (repeat' split) <;> simp

/-- What a door event can change. -/
@[simp] theorem onStop_keeps (s : State) :
    (onStop s).lead = s.lead ∧
    (onStop s).deb = s.deb ∧
    (onStop s).settle = s.settle ∧
    (onStop s).flash = s.flash ∧
    (onStop s).suc = s.suc ∧
    (onStop s).ste = s.ste ∧
    (onStop s).rxq = s.rxq ∧
    (onStop s).dgp = s.dgp ∧
    (onStop s).outs = s.outs ∧
    (onStop s).pending = s.pending := by
  simp only [onStop]; (repeat' split) <;> simp

/-- What a door event can change. -/
@[simp] theorem onGrant_keeps (s : State) :
    (onGrant s).lead = s.lead ∧
    (onGrant s).deb = s.deb ∧
    (onGrant s).settle = s.settle ∧
    (onGrant s).flash = s.flash ∧
    (onGrant s).suc = s.suc ∧
    (onGrant s).ste = s.ste ∧
    (onGrant s).rxq = s.rxq ∧
    (onGrant s).dgp = s.dgp ∧
    (onGrant s).outs = s.outs ∧
    (onGrant s).pending = s.pending := by
  simp only [onGrant]; (repeat' split) <;> simp

/-- What a door event can change. -/
@[simp] theorem onLoReleased_keeps (s : State) :
    (onLoReleased s).lead = s.lead ∧
    (onLoReleased s).deb = s.deb ∧
    (onLoReleased s).settle = s.settle ∧
    (onLoReleased s).flash = s.flash ∧
    (onLoReleased s).suc = s.suc ∧
    (onLoReleased s).ste = s.ste ∧
    (onLoReleased s).rxq = s.rxq ∧
    (onLoReleased s).dgp = s.dgp ∧
    (onLoReleased s).outs = s.outs ∧
    (onLoReleased s).pending = s.pending := by
  simp only [onLoReleased]; split <;> simp

/-- What a door event can change. -/
@[simp] theorem onLcPressed_keeps (w : Bool) (s : State) :
    (onLcPressed w s).lead = s.lead ∧
    (onLcPressed w s).deb = s.deb ∧
    (onLcPressed w s).settle = s.settle ∧
    (onLcPressed w s).flash = s.flash ∧
    (onLcPressed w s).suc = s.suc ∧
    (onLcPressed w s).ste = s.ste ∧
    (onLcPressed w s).rxq = s.rxq ∧
    (onLcPressed w s).dgp = s.dgp ∧
    (onLcPressed w s).outs = s.outs ∧
    (onLcPressed w s).pending = s.pending := by
  simp only [onLcPressed]; (repeat' split) <;> simp

/-- What a door event can change. -/
@[simp] theorem onLcReleased_keeps (s : State) :
    (onLcReleased s).lead = s.lead ∧
    (onLcReleased s).deb = s.deb ∧
    (onLcReleased s).settle = s.settle ∧
    (onLcReleased s).flash = s.flash ∧
    (onLcReleased s).suc = s.suc ∧
    (onLcReleased s).ste = s.ste ∧
    (onLcReleased s).rxq = s.rxq ∧
    (onLcReleased s).dgp = s.dgp ∧
    (onLcReleased s).outs = s.outs ∧
    (onLcReleased s).pending = s.pending := by
  simp only [onLcReleased]; (repeat' split) <;> simp

/-- What a door event hands on. -/
@[simp] theorem report_keeps (b s : State) :
    (report b s).lead = s.lead ∧
    (report b s).deb = s.deb ∧
    (report b s).settle = s.settle ∧
    (report b s).flash = s.flash ∧
    (report b s).suc = s.suc ∧
    (report b s).dcu = s.dcu ∧
    (report b s).trm = s.trm ∧
    (report b s).ste = s.ste ∧
    (report b s).rxq = s.rxq ∧
    (report b s).dgp = s.dgp ∧
    (report b s).outs = s.outs ∧
    (report b s).pending = s.pending := by
  simp only [report]; (repeat' split) <;> simp

/-- NO_PANEL and its hand-on. -/
@[simp] theorem noPanelCheck_keeps (s : State) :
    (noPanelCheck s).lead = s.lead ∧
    (noPanelCheck s).deb = s.deb ∧
    (noPanelCheck s).settle = s.settle ∧
    (noPanelCheck s).flash = s.flash ∧
    (noPanelCheck s).suc = s.suc ∧
    (noPanelCheck s).dcu = s.dcu ∧
    (noPanelCheck s).trm = s.trm ∧
    (noPanelCheck s).psu = s.psu ∧
    (noPanelCheck s).ste = s.ste ∧
    (noPanelCheck s).rxq = s.rxq ∧
    (noPanelCheck s).dgp = s.dgp ∧
    (noPanelCheck s).outs = s.outs ∧
    (noPanelCheck s).pending = s.pending := by
  simp only [noPanelCheck]; (repeat' split) <;> simp

/-- What a recomputation can change. -/
@[simp] theorem rederive_keeps (s : State) :
    (rederive s).lead = s.lead ∧
    (rederive s).deb = s.deb ∧
    (rederive s).settle = s.settle ∧
    (rederive s).flash = s.flash ∧
    (rederive s).suc = s.suc ∧
    (rederive s).ste = s.ste ∧
    (rederive s).rxq = s.rxq ∧
    (rederive s).dgp = s.dgp ∧
    (rederive s).outs = s.outs ∧
    (rederive s).pending = s.pending := by
  simp only [rederive]; split <;> simp

/-- What a recomputation can change. -/
@[simp] theorem recompute_keeps (s : State) :
    (recompute s).lead = s.lead ∧
    (recompute s).deb = s.deb ∧
    (recompute s).settle = s.settle ∧
    (recompute s).flash = s.flash ∧
    (recompute s).suc = s.suc ∧
    (recompute s).ste = s.ste ∧
    (recompute s).rxq = s.rxq ∧
    (recompute s).dgp = s.dgp ∧
    (recompute s).outs = s.outs ∧
    (recompute s).pending = s.pending := by
  simp [recompute, doorEvent]

/-- What a claim's evaluation can change. -/
@[simp] theorem evaluateClaim_keeps (s : State) :
    (evaluateClaim s).lead = s.lead ∧
    (evaluateClaim s).deb = s.deb ∧
    (evaluateClaim s).settle = s.settle ∧
    (evaluateClaim s).flash = s.flash ∧
    (evaluateClaim s).suc = s.suc ∧
    (evaluateClaim s).ste = s.ste ∧
    (evaluateClaim s).rxq = s.rxq ∧
    (evaluateClaim s).dgp = s.dgp ∧
    (evaluateClaim s).outs = s.outs ∧
    (evaluateClaim s).pending = s.pending := by
  simp only [evaluateClaim]; split <;> simp

/-- What a peer's notice can change. -/
@[simp] theorem peerNotice_keeps (s : State) :
    (peerNotice s).lead = s.lead ∧
    (peerNotice s).deb = s.deb ∧
    (peerNotice s).settle = s.settle ∧
    (peerNotice s).flash = s.flash ∧
    (peerNotice s).suc = s.suc ∧
    (peerNotice s).ste = s.ste ∧
    (peerNotice s).rxq = s.rxq ∧
    (peerNotice s).dgp = s.dgp ∧
    (peerNotice s).outs = s.outs ∧
    (peerNotice s).pending = s.pending := by
  unfold peerNotice; split <;> simp [doorEvent]

/-- What the end of a claim hold can change. -/
@[simp] theorem onHoldExpiry_keeps (s : State) :
    (onHoldExpiry s).lead = s.lead ∧
    (onHoldExpiry s).deb = s.deb ∧
    (onHoldExpiry s).settle = s.settle ∧
    (onHoldExpiry s).flash = s.flash ∧
    (onHoldExpiry s).suc = s.suc ∧
    (onHoldExpiry s).ste = s.ste ∧
    (onHoldExpiry s).rxq = s.rxq ∧
    (onHoldExpiry s).dgp = s.dgp ∧
    (onHoldExpiry s).outs = s.outs ∧
    (onHoldExpiry s).pending = s.pending := by
  simp [onHoldExpiry]

/-- Only the table. -/
@[simp] theorem setEntry_keeps (e : Entry) (s : State) :
    (setEntry e s).lead = s.lead ∧
    (setEntry e s).deb = s.deb ∧
    (setEntry e s).settle = s.settle ∧
    (setEntry e s).flash = s.flash ∧
    (setEntry e s).suc = s.suc ∧
    (setEntry e s).dcu = s.dcu ∧
    (setEntry e s).trm = s.trm ∧
    (setEntry e s).enu = s.enu ∧
    (setEntry e s).psu = s.psu ∧
    (setEntry e s).alu = s.alu ∧
    (setEntry e s).snu = s.snu ∧
    (setEntry e s).laneA = s.laneA ∧
    (setEntry e s).laneB = s.laneB ∧
    (setEntry e s).rxq = s.rxq ∧
    (setEntry e s).pnu = s.pnu ∧
    (setEntry e s).dgp = s.dgp ∧
    (setEntry e s).outs = s.outs ∧
    (setEntry e s).pending = s.pending := by
  simp [setEntry]

/-- A derivation and its alarm. -/
@[simp] theorem deriveMismatch_keeps (s : State) :
    (deriveMismatch s).lead = s.lead ∧
    (deriveMismatch s).deb = s.deb ∧
    (deriveMismatch s).settle = s.settle ∧
    (deriveMismatch s).flash = s.flash ∧
    (deriveMismatch s).suc = s.suc ∧
    (deriveMismatch s).dcu = s.dcu ∧
    (deriveMismatch s).trm = s.trm ∧
    (deriveMismatch s).psu = s.psu ∧
    (deriveMismatch s).rxq = s.rxq ∧
    (deriveMismatch s).dgp = s.dgp ∧
    (deriveMismatch s).outs = s.outs ∧
    (deriveMismatch s).pending = s.pending := by
  simp only [deriveMismatch]; split <;> simp

/-- A derivation and its alarm. -/
@[simp] theorem deriveLost_keeps (s : State) :
    (deriveLost s).lead = s.lead ∧
    (deriveLost s).deb = s.deb ∧
    (deriveLost s).settle = s.settle ∧
    (deriveLost s).flash = s.flash ∧
    (deriveLost s).suc = s.suc ∧
    (deriveLost s).dcu = s.dcu ∧
    (deriveLost s).trm = s.trm ∧
    (deriveLost s).psu = s.psu ∧
    (deriveLost s).rxq = s.rxq ∧
    (deriveLost s).dgp = s.dgp ∧
    (deriveLost s).outs = s.outs ∧
    (deriveLost s).pending = s.pending := by
  simp only [deriveLost]; split <;> simp

/-- A derivation and its alarm. -/
@[simp] theorem deriveDegraded_keeps (s : State) :
    (deriveDegraded s).lead = s.lead ∧
    (deriveDegraded s).deb = s.deb ∧
    (deriveDegraded s).settle = s.settle ∧
    (deriveDegraded s).flash = s.flash ∧
    (deriveDegraded s).suc = s.suc ∧
    (deriveDegraded s).dcu = s.dcu ∧
    (deriveDegraded s).trm = s.trm ∧
    (deriveDegraded s).psu = s.psu ∧
    (deriveDegraded s).rxq = s.rxq ∧
    (deriveDegraded s).dgp = s.dgp ∧
    (deriveDegraded s).outs = s.outs ∧
    (deriveDegraded s).pending = s.pending := by
  simp only [deriveDegraded]; split <;> simp

/-- The derivations and their alarms. -/
@[simp] theorem derive_keeps (s : State) :
    (derive s).lead = s.lead ∧
    (derive s).deb = s.deb ∧
    (derive s).settle = s.settle ∧
    (derive s).flash = s.flash ∧
    (derive s).suc = s.suc ∧
    (derive s).dcu = s.dcu ∧
    (derive s).trm = s.trm ∧
    (derive s).psu = s.psu ∧
    (derive s).rxq = s.rxq ∧
    (derive s).dgp = s.dgp ∧
    (derive s).outs = s.outs ∧
    (derive s).pending = s.pending := by
  simp [derive]

/-- The mode-conflict timer and its alarm. -/
@[simp] theorem judgeConflict_keeps (s : State) :
    (judgeConflict s).lead = s.lead ∧
    (judgeConflict s).deb = s.deb ∧
    (judgeConflict s).settle = s.settle ∧
    (judgeConflict s).flash = s.flash ∧
    (judgeConflict s).suc = s.suc ∧
    (judgeConflict s).dcu = s.dcu ∧
    (judgeConflict s).trm = s.trm ∧
    (judgeConflict s).psu = s.psu ∧
    (judgeConflict s).ste = s.ste ∧
    (judgeConflict s).rxq = s.rxq ∧
    (judgeConflict s).dgp = s.dgp ∧
    (judgeConflict s).outs = s.outs ∧
    (judgeConflict s).pending = s.pending := by
  simp only [judgeConflict]; (repeat' split) <;> simp

/-- Only the panel unit. -/
@[simp] theorem seeAlarms_keeps (n : Nat) (s : State) :
    (seeAlarms n s).lead = s.lead ∧
    (seeAlarms n s).deb = s.deb ∧
    (seeAlarms n s).settle = s.settle ∧
    (seeAlarms n s).flash = s.flash ∧
    (seeAlarms n s).suc = s.suc ∧
    (seeAlarms n s).dcu = s.dcu ∧
    (seeAlarms n s).trm = s.trm ∧
    (seeAlarms n s).enu = s.enu ∧
    (seeAlarms n s).psu = s.psu ∧
    (seeAlarms n s).alu = s.alu ∧
    (seeAlarms n s).ste = s.ste ∧
    (seeAlarms n s).snu = s.snu ∧
    (seeAlarms n s).laneA = s.laneA ∧
    (seeAlarms n s).laneB = s.laneB ∧
    (seeAlarms n s).rxq = s.rxq ∧
    (seeAlarms n s).dgp = s.dgp ∧
    (seeAlarms n s).outs = s.outs ∧
    (seeAlarms n s).pending = s.pending := by
  simp only [seeAlarms]; split <;> simp

/-- Only the panel unit. -/
@[simp] theorem summarise_keeps (s : State) :
    (summarise s).lead = s.lead ∧
    (summarise s).deb = s.deb ∧
    (summarise s).settle = s.settle ∧
    (summarise s).flash = s.flash ∧
    (summarise s).suc = s.suc ∧
    (summarise s).dcu = s.dcu ∧
    (summarise s).trm = s.trm ∧
    (summarise s).enu = s.enu ∧
    (summarise s).psu = s.psu ∧
    (summarise s).alu = s.alu ∧
    (summarise s).ste = s.ste ∧
    (summarise s).snu = s.snu ∧
    (summarise s).laneA = s.laneA ∧
    (summarise s).laneB = s.laneB ∧
    (summarise s).rxq = s.rxq ∧
    (summarise s).dgp = s.dgp ∧
    (summarise s).outs = s.outs ∧
    (summarise s).pending = s.pending := by
  simp [summarise]

/-- What a notice can change at a panel. -/
@[simp] theorem panelNotice_keeps (n : Notice) (s : State) :
    (panelNotice n s).lead = s.lead ∧
    (panelNotice n s).deb = s.deb ∧
    (panelNotice n s).settle = s.settle ∧
    (panelNotice n s).flash = s.flash ∧
    (panelNotice n s).suc = s.suc ∧
    (panelNotice n s).dcu = s.dcu ∧
    (panelNotice n s).trm = s.trm ∧
    (panelNotice n s).psu = s.psu ∧
    (panelNotice n s).ste = s.ste ∧
    (panelNotice n s).rxq = s.rxq ∧
    (panelNotice n s).dgp = s.dgp ∧
    (panelNotice n s).outs = s.outs ∧
    (panelNotice n s).pending = s.pending := by
  simp only [panelNotice]; split <;> simp

/-- What a notice can change. -/
@[simp] theorem giveNotice_keeps (n : Notice) (s : State) :
    (giveNotice n s).lead = s.lead ∧
    (giveNotice n s).deb = s.deb ∧
    (giveNotice n s).settle = s.settle ∧
    (giveNotice n s).flash = s.flash ∧
    (giveNotice n s).suc = s.suc ∧
    (giveNotice n s).ste = s.ste ∧
    (giveNotice n s).rxq = s.rxq ∧
    (giveNotice n s).dgp = s.dgp ∧
    (giveNotice n s).outs = s.outs ∧
    (giveNotice n s).pending = s.pending := by
  simp only [giveNotice]; (repeat' split) <;> simp

/-- What an acceptance can change. -/
@[simp] theorem acceptTelegram_keeps (o : Option Entry) (t : Telegram) (s : State) :
    (acceptTelegram o t s).lead = s.lead ∧
    (acceptTelegram o t s).deb = s.deb ∧
    (acceptTelegram o t s).settle = s.settle ∧
    (acceptTelegram o t s).flash = s.flash ∧
    (acceptTelegram o t s).suc = s.suc ∧
    (acceptTelegram o t s).rxq = s.rxq ∧
    (acceptTelegram o t s).dgp = s.dgp ∧
    (acceptTelegram o t s).outs = s.outs ∧
    (acceptTelegram o t s).pending = s.pending := by
  simp only [acceptTelegram]; split <;> simp

/-- What a copy that is not accepted can change. -/
@[simp] theorem hearCopy_keeps (e : Entry) (l : LaneId) (s : State) :
    (hearCopy e l s).lead = s.lead ∧
    (hearCopy e l s).deb = s.deb ∧
    (hearCopy e l s).settle = s.settle ∧
    (hearCopy e l s).flash = s.flash ∧
    (hearCopy e l s).suc = s.suc ∧
    (hearCopy e l s).dcu = s.dcu ∧
    (hearCopy e l s).trm = s.trm ∧
    (hearCopy e l s).psu = s.psu ∧
    (hearCopy e l s).rxq = s.rxq ∧
    (hearCopy e l s).dgp = s.dgp ∧
    (hearCopy e l s).outs = s.outs ∧
    (hearCopy e l s).pending = s.pending := by
  simp [hearCopy]

/-- What a passage to STALE can change. -/
@[simp] theorem goStale_keeps (e : Entry) (s : State) :
    (goStale e s).lead = s.lead ∧
    (goStale e s).deb = s.deb ∧
    (goStale e s).settle = s.settle ∧
    (goStale e s).flash = s.flash ∧
    (goStale e s).suc = s.suc ∧
    (goStale e s).rxq = s.rxq ∧
    (goStale e s).dgp = s.dgp ∧
    (goStale e s).outs = s.outs ∧
    (goStale e s).pending = s.pending := by
  simp [goStale]

/-- What the passage to MUTE can change. -/
@[simp] theorem toMute_keeps (s : State) :
    (toMute s).lead = s.lead ∧
    (toMute s).deb = s.deb ∧
    (toMute s).settle = s.settle ∧
    (toMute s).flash = s.flash ∧
    (toMute s).ste = s.ste ∧
    (toMute s).rxq = s.rxq ∧
    (toMute s).dgp = s.dgp ∧
    (toMute s).outs = s.outs ∧
    (toMute s).pending = s.pending := by
  simp only [toMute]; split <;> simp [doorEvent, apply_ite State.lead, apply_ite State.deb, apply_ite State.settle, apply_ite State.flash, apply_ite State.ste, apply_ite State.rxq, apply_ite State.dgp, apply_ite State.outs, apply_ite State.pending]

/-- What a telegram of the own number can change. -/
@[simp] theorem takeOwn_keeps (s : State) :
    (takeOwn s).lead = s.lead ∧
    (takeOwn s).deb = s.deb ∧
    (takeOwn s).settle = s.settle ∧
    (takeOwn s).flash = s.flash ∧
    (takeOwn s).ste = s.ste ∧
    (takeOwn s).rxq = s.rxq ∧
    (takeOwn s).dgp = s.dgp ∧
    (takeOwn s).outs = s.outs ∧
    (takeOwn s).pending = s.pending := by
  simp only [takeOwn]; (repeat' split) <;> simp

/-- What a telegram of another station can change. -/
@[simp] theorem takeOther_keeps (t : Telegram) (s : State) :
    (takeOther t s).lead = s.lead ∧
    (takeOther t s).deb = s.deb ∧
    (takeOther t s).settle = s.settle ∧
    (takeOther t s).flash = s.flash ∧
    (takeOther t s).suc = s.suc ∧
    (takeOther t s).rxq = s.rxq ∧
    (takeOther t s).dgp = s.dgp ∧
    (takeOther t s).outs = s.outs ∧
    (takeOther t s).pending = s.pending := by
  simp only [takeOther]; (repeat' split) <;> simp

/-- What taking a telegram can change. -/
@[simp] theorem takeTelegram_keeps (t : Telegram) (s : State) :
    (takeTelegram t s).lead = s.lead ∧
    (takeTelegram t s).deb = s.deb ∧
    (takeTelegram t s).settle = s.settle ∧
    (takeTelegram t s).flash = s.flash ∧
    (takeTelegram t s).rxq = s.rxq ∧
    (takeTelegram t s).dgp = s.dgp ∧
    (takeTelegram t s).outs = s.outs ∧
    (takeTelegram t s).pending = s.pending := by
  simp only [takeTelegram]; (repeat' split) <;> simp

/-- What the passage to JOINED can change at a door. -/
@[simp] theorem joinDoor_keeps (s : State) :
    (joinDoor s).lead = s.lead ∧
    (joinDoor s).deb = s.deb ∧
    (joinDoor s).settle = s.settle ∧
    (joinDoor s).flash = s.flash ∧
    (joinDoor s).suc = s.suc ∧
    (joinDoor s).ste = s.ste ∧
    (joinDoor s).rxq = s.rxq ∧
    (joinDoor s).dgp = s.dgp ∧
    (joinDoor s).outs = s.outs ∧
    (joinDoor s).pending = s.pending := by
  unfold joinDoor; split <;> simp [doorEvent]

/-- The alarms of a gate end. -/
@[simp] theorem gateAlarms_keeps (b a : Enu) (s : State) :
    (gateAlarms b a s).lead = s.lead ∧
    (gateAlarms b a s).deb = s.deb ∧
    (gateAlarms b a s).settle = s.settle ∧
    (gateAlarms b a s).flash = s.flash ∧
    (gateAlarms b a s).suc = s.suc ∧
    (gateAlarms b a s).dcu = s.dcu ∧
    (gateAlarms b a s).trm = s.trm ∧
    (gateAlarms b a s).psu = s.psu ∧
    (gateAlarms b a s).ste = s.ste ∧
    (gateAlarms b a s).rxq = s.rxq ∧
    (gateAlarms b a s).dgp = s.dgp ∧
    (gateAlarms b a s).outs = s.outs ∧
    (gateAlarms b a s).pending = s.pending := by
  simp only [gateAlarms]; (repeat' split) <;> simp

/-- Step 4 of a gate end changes what an offer changes. -/
@[simp] theorem offerCloses_keeps (b a : Enu) (d : Dcu) (s : State) :
    (offerCloses b a d s).lead = s.lead ∧
    (offerCloses b a d s).deb = s.deb ∧
    (offerCloses b a d s).settle = s.settle ∧
    (offerCloses b a d s).flash = s.flash ∧
    (offerCloses b a d s).suc = s.suc ∧
    (offerCloses b a d s).dcu = s.dcu ∧
    (offerCloses b a d s).trm = s.trm ∧
    (offerCloses b a d s).enu = s.enu ∧
    (offerCloses b a d s).psu = s.psu ∧
    (offerCloses b a d s).alu = s.alu ∧
    (offerCloses b a d s).ste = s.ste ∧
    (offerCloses b a d s).rxq = s.rxq ∧
    (offerCloses b a d s).pnu = s.pnu ∧
    (offerCloses b a d s).dgp = s.dgp ∧
    (offerCloses b a d s).outs = s.outs ∧
    (offerCloses b a d s).pending = s.pending := by
  simp only [offerCloses]; split <;> simp

/-- What a gate end can change. -/
@[simp] theorem gateHandsOn_keeps (b a : Enu) (s : State) :
    (gateHandsOn b a s).lead = s.lead ∧
    (gateHandsOn b a s).deb = s.deb ∧
    (gateHandsOn b a s).settle = s.settle ∧
    (gateHandsOn b a s).flash = s.flash ∧
    (gateHandsOn b a s).suc = s.suc ∧
    (gateHandsOn b a s).ste = s.ste ∧
    (gateHandsOn b a s).rxq = s.rxq ∧
    (gateHandsOn b a s).dgp = s.dgp ∧
    (gateHandsOn b a s).outs = s.outs ∧
    (gateHandsOn b a s).pending = s.pending := by
  simp only [gateHandsOn]; (repeat' split) <;> simp [doorEvent]

/-- A condition cleared with its timer. -/
@[simp] theorem clearWatch_keeps (k : AlarmKind) (x y : Watch) (s : State) :
    (clearWatch k x y s).lead = s.lead ∧
    (clearWatch k x y s).deb = s.deb ∧
    (clearWatch k x y s).settle = s.settle ∧
    (clearWatch k x y s).flash = s.flash ∧
    (clearWatch k x y s).suc = s.suc ∧
    (clearWatch k x y s).dcu = s.dcu ∧
    (clearWatch k x y s).trm = s.trm ∧
    (clearWatch k x y s).psu = s.psu ∧
    (clearWatch k x y s).ste = s.ste ∧
    (clearWatch k x y s).rxq = s.rxq ∧
    (clearWatch k x y s).dgp = s.dgp ∧
    (clearWatch k x y s).outs = s.outs ∧
    (clearWatch k x y s).pending = s.pending := by
  simp only [clearWatch]; (repeat' split) <;> simp

/-- What a change of the position state hands on. -/
@[simp] theorem handPosition_keeps (y : Bool) (s : State) :
    (handPosition y s).lead = s.lead ∧
    (handPosition y s).deb = s.deb ∧
    (handPosition y s).settle = s.settle ∧
    (handPosition y s).flash = s.flash ∧
    (handPosition y s).suc = s.suc ∧
    (handPosition y s).dcu = s.dcu ∧
    (handPosition y s).trm = s.trm ∧
    (handPosition y s).psu = s.psu ∧
    (handPosition y s).ste = s.ste ∧
    (handPosition y s).rxq = s.rxq ∧
    (handPosition y s).dgp = s.dgp ∧
    (handPosition y s).outs = s.outs ∧
    (handPosition y s).pending = s.pending := by
  simp only [handPosition]; split <;> simp

/-- What a debounced limit can change. -/
@[simp] theorem limitActs_keeps (l : Limit) (s : State) :
    (limitActs l s).lead = s.lead ∧
    (limitActs l s).deb = s.deb ∧
    (limitActs l s).settle = s.settle ∧
    (limitActs l s).flash = s.flash ∧
    (limitActs l s).suc = s.suc ∧
    (limitActs l s).ste = s.ste ∧
    (limitActs l s).rxq = s.rxq ∧
    (limitActs l s).dgp = s.dgp ∧
    (limitActs l s).outs = s.outs ∧
    (limitActs l s).pending = s.pending := by
  simp only [limitActs]; split <;> simp [doorEvent]

/-- What a position pulse can change. -/
@[simp] theorem takePulse_keeps (b : Bool) (s : State) :
    (takePulse b s).lead = s.lead ∧
    (takePulse b s).deb = s.deb ∧
    (takePulse b s).settle = s.settle ∧
    (takePulse b s).flash = s.flash ∧
    (takePulse b s).suc = s.suc ∧
    (takePulse b s).dcu = s.dcu ∧
    (takePulse b s).psu = s.psu ∧
    (takePulse b s).ste = s.ste ∧
    (takePulse b s).rxq = s.rxq ∧
    (takePulse b s).dgp = s.dgp ∧
    (takePulse b s).outs = s.outs ∧
    (takePulse b s).pending = s.pending := by
  simp only [takePulse]; (repeat' split) <;> simp

/-- Only the travel monitor. -/
@[simp] theorem passMaximum_keeps (n : Nat) (s : State) :
    (passMaximum n s).lead = s.lead ∧
    (passMaximum n s).deb = s.deb ∧
    (passMaximum n s).settle = s.settle ∧
    (passMaximum n s).flash = s.flash ∧
    (passMaximum n s).suc = s.suc ∧
    (passMaximum n s).dcu = s.dcu ∧
    (passMaximum n s).enu = s.enu ∧
    (passMaximum n s).psu = s.psu ∧
    (passMaximum n s).alu = s.alu ∧
    (passMaximum n s).ste = s.ste ∧
    (passMaximum n s).snu = s.snu ∧
    (passMaximum n s).laneA = s.laneA ∧
    (passMaximum n s).laneB = s.laneB ∧
    (passMaximum n s).rxq = s.rxq ∧
    (passMaximum n s).pnu = s.pnu ∧
    (passMaximum n s).dgp = s.dgp ∧
    (passMaximum n s).outs = s.outs ∧
    (passMaximum n s).pending = s.pending := by
  simp [passMaximum]

/-- Only the travel monitor. -/
@[simp] theorem setFinding_keeps (f : Option Finding) (s : State) :
    (setFinding f s).lead = s.lead ∧
    (setFinding f s).deb = s.deb ∧
    (setFinding f s).settle = s.settle ∧
    (setFinding f s).flash = s.flash ∧
    (setFinding f s).suc = s.suc ∧
    (setFinding f s).dcu = s.dcu ∧
    (setFinding f s).enu = s.enu ∧
    (setFinding f s).psu = s.psu ∧
    (setFinding f s).alu = s.alu ∧
    (setFinding f s).ste = s.ste ∧
    (setFinding f s).snu = s.snu ∧
    (setFinding f s).laneA = s.laneA ∧
    (setFinding f s).laneB = s.laneB ∧
    (setFinding f s).rxq = s.rxq ∧
    (setFinding f s).pnu = s.pnu ∧
    (setFinding f s).dgp = s.dgp ∧
    (setFinding f s).outs = s.outs ∧
    (setFinding f s).pending = s.pending := by
  simp [setFinding]

/-- What the end of a stall window can change. -/
@[simp] theorem windowEnds_keeps (w : StallWindow) (s : State) :
    (windowEnds w s).lead = s.lead ∧
    (windowEnds w s).deb = s.deb ∧
    (windowEnds w s).settle = s.settle ∧
    (windowEnds w s).flash = s.flash ∧
    (windowEnds w s).suc = s.suc ∧
    (windowEnds w s).ste = s.ste ∧
    (windowEnds w s).rxq = s.rxq ∧
    (windowEnds w s).dgp = s.dgp ∧
    (windowEnds w s).outs = s.outs ∧
    (windowEnds w s).pending = s.pending := by
  simp only [windowEnds]; (repeat' split) <;> simp [doorEvent]

/-- Only the travel monitor. -/
@[simp] theorem startTrm_keeps (s : State) :
    (startTrm s).lead = s.lead ∧
    (startTrm s).deb = s.deb ∧
    (startTrm s).settle = s.settle ∧
    (startTrm s).flash = s.flash ∧
    (startTrm s).suc = s.suc ∧
    (startTrm s).dcu = s.dcu ∧
    (startTrm s).enu = s.enu ∧
    (startTrm s).psu = s.psu ∧
    (startTrm s).alu = s.alu ∧
    (startTrm s).ste = s.ste ∧
    (startTrm s).snu = s.snu ∧
    (startTrm s).laneA = s.laneA ∧
    (startTrm s).laneB = s.laneB ∧
    (startTrm s).rxq = s.rxq ∧
    (startTrm s).pnu = s.pnu ∧
    (startTrm s).dgp = s.dgp ∧
    (startTrm s).outs = s.outs ∧
    (startTrm s).pending = s.pending := by
  simp [startTrm]

/-- Only the energy unit. -/
@[simp] theorem startEnu_keeps (s : State) :
    (startEnu s).lead = s.lead ∧
    (startEnu s).deb = s.deb ∧
    (startEnu s).settle = s.settle ∧
    (startEnu s).flash = s.flash ∧
    (startEnu s).suc = s.suc ∧
    (startEnu s).dcu = s.dcu ∧
    (startEnu s).trm = s.trm ∧
    (startEnu s).psu = s.psu ∧
    (startEnu s).alu = s.alu ∧
    (startEnu s).ste = s.ste ∧
    (startEnu s).snu = s.snu ∧
    (startEnu s).laneA = s.laneA ∧
    (startEnu s).laneB = s.laneB ∧
    (startEnu s).rxq = s.rxq ∧
    (startEnu s).pnu = s.pnu ∧
    (startEnu s).dgp = s.dgp ∧
    (startEnu s).outs = s.outs ∧
    (startEnu s).pending = s.pending := by
  simp [startEnu]

/-- MAINS_LOSS and its hand-on. -/
@[simp] theorem startMains_keeps (s : State) :
    (startMains s).lead = s.lead ∧
    (startMains s).deb = s.deb ∧
    (startMains s).settle = s.settle ∧
    (startMains s).flash = s.flash ∧
    (startMains s).suc = s.suc ∧
    (startMains s).dcu = s.dcu ∧
    (startMains s).trm = s.trm ∧
    (startMains s).psu = s.psu ∧
    (startMains s).ste = s.ste ∧
    (startMains s).rxq = s.rxq ∧
    (startMains s).dgp = s.dgp ∧
    (startMains s).outs = s.outs ∧
    (startMains s).pending = s.pending := by
  simp only [startMains]; split <;> simp

/-- What the start of the door control unit can change. -/
@[simp] theorem startDcu_keeps (s : State) :
    (startDcu s).lead = s.lead ∧
    (startDcu s).deb = s.deb ∧
    (startDcu s).settle = s.settle ∧
    (startDcu s).flash = s.flash ∧
    (startDcu s).suc = s.suc ∧
    (startDcu s).ste = s.ste ∧
    (startDcu s).rxq = s.rxq ∧
    (startDcu s).dgp = s.dgp ∧
    (startDcu s).outs = s.outs ∧
    (startDcu s).pending = s.pending := by
  simp [startDcu, doorEvent]

/-- Only the panel unit. -/
@[simp] theorem startPnu_keeps (k : BitVec 32) (s : State) :
    (startPnu k s).lead = s.lead ∧
    (startPnu k s).deb = s.deb ∧
    (startPnu k s).settle = s.settle ∧
    (startPnu k s).flash = s.flash ∧
    (startPnu k s).suc = s.suc ∧
    (startPnu k s).dcu = s.dcu ∧
    (startPnu k s).trm = s.trm ∧
    (startPnu k s).enu = s.enu ∧
    (startPnu k s).psu = s.psu ∧
    (startPnu k s).alu = s.alu ∧
    (startPnu k s).ste = s.ste ∧
    (startPnu k s).snu = s.snu ∧
    (startPnu k s).laneA = s.laneA ∧
    (startPnu k s).laneB = s.laneB ∧
    (startPnu k s).rxq = s.rxq ∧
    (startPnu k s).dgp = s.dgp ∧
    (startPnu k s).outs = s.outs ∧
    (startPnu k s).pending = s.pending := by
  simp [startPnu]

/-- Only start-up control. -/
@[simp] theorem enterFault_keeps (r : FaultReason) (s : State) :
    (enterFault r s).lead = s.lead ∧
    (enterFault r s).deb = s.deb ∧
    (enterFault r s).settle = s.settle ∧
    (enterFault r s).flash = s.flash ∧
    (enterFault r s).dcu = s.dcu ∧
    (enterFault r s).trm = s.trm ∧
    (enterFault r s).enu = s.enu ∧
    (enterFault r s).psu = s.psu ∧
    (enterFault r s).alu = s.alu ∧
    (enterFault r s).ste = s.ste ∧
    (enterFault r s).snu = s.snu ∧
    (enterFault r s).laneA = s.laneA ∧
    (enterFault r s).laneB = s.laneB ∧
    (enterFault r s).rxq = s.rxq ∧
    (enterFault r s).pnu = s.pnu ∧
    (enterFault r s).dgp = s.dgp ∧
    (enterFault r s).outs = s.outs ∧
    (enterFault r s).pending = s.pending := by
  simp [enterFault]

/-- Start-up control and the silence timers. -/
@[simp] theorem enterListen_keeps (c : Cfg) (s : State) :
    (enterListen c s).lead = s.lead ∧
    (enterListen c s).deb = s.deb ∧
    (enterListen c s).settle = s.settle ∧
    (enterListen c s).flash = s.flash ∧
    (enterListen c s).dcu = s.dcu ∧
    (enterListen c s).trm = s.trm ∧
    (enterListen c s).enu = s.enu ∧
    (enterListen c s).psu = s.psu ∧
    (enterListen c s).alu = s.alu ∧
    (enterListen c s).ste = s.ste ∧
    (enterListen c s).snu = s.snu ∧
    (enterListen c s).rxq = s.rxq ∧
    (enterListen c s).pnu = s.pnu ∧
    (enterListen c s).dgp = s.dgp ∧
    (enterListen c s).outs = s.outs ∧
    (enterListen c s).pending = s.pending := by
  simp [enterListen]

/-- What the start of the blocks can change. -/
@[simp] theorem startBlocks_keeps (k : BitVec 32) (s : State) :
    (startBlocks k s).lead = s.lead ∧
    (startBlocks k s).deb = s.deb ∧
    (startBlocks k s).flash = s.flash ∧
    (startBlocks k s).suc = s.suc ∧
    (startBlocks k s).ste = s.ste ∧
    (startBlocks k s).rxq = s.rxq ∧
    (startBlocks k s).dgp = s.dgp ∧
    (startBlocks k s).outs = s.outs ∧
    (startBlocks k s).pending = s.pending := by
  simp only [startBlocks]; split <;> simp

/-- Only the snapshot unit. -/
@[simp] theorem restOwn_keeps (s : State) :
    (restOwn s).lead = s.lead ∧
    (restOwn s).deb = s.deb ∧
    (restOwn s).settle = s.settle ∧
    (restOwn s).flash = s.flash ∧
    (restOwn s).suc = s.suc ∧
    (restOwn s).dcu = s.dcu ∧
    (restOwn s).trm = s.trm ∧
    (restOwn s).enu = s.enu ∧
    (restOwn s).psu = s.psu ∧
    (restOwn s).alu = s.alu ∧
    (restOwn s).ste = s.ste ∧
    (restOwn s).laneA = s.laneA ∧
    (restOwn s).laneB = s.laneB ∧
    (restOwn s).rxq = s.rxq ∧
    (restOwn s).pnu = s.pnu ∧
    (restOwn s).dgp = s.dgp ∧
    (restOwn s).outs = s.outs ∧
    (restOwn s).pending = s.pending := by
  simp only [restOwn]; (repeat' split) <;> simp

/-- Only the lane units. -/
@[simp] theorem edgeTaken_keeps (i : LaneId) (l : Lane) (s : State) :
    (edgeTaken i l s).lead = s.lead ∧
    (edgeTaken i l s).deb = s.deb ∧
    (edgeTaken i l s).settle = s.settle ∧
    (edgeTaken i l s).flash = s.flash ∧
    (edgeTaken i l s).suc = s.suc ∧
    (edgeTaken i l s).dcu = s.dcu ∧
    (edgeTaken i l s).trm = s.trm ∧
    (edgeTaken i l s).enu = s.enu ∧
    (edgeTaken i l s).psu = s.psu ∧
    (edgeTaken i l s).alu = s.alu ∧
    (edgeTaken i l s).ste = s.ste ∧
    (edgeTaken i l s).snu = s.snu ∧
    (edgeTaken i l s).rxq = s.rxq ∧
    (edgeTaken i l s).pnu = s.pnu ∧
    (edgeTaken i l s).dgp = s.dgp ∧
    (edgeTaken i l s).outs = s.outs ∧
    (edgeTaken i l s).pending = s.pending := by
  simp only [edgeTaken]; (repeat' split) <;> simp

/-- The lane and the capture. -/
@[simp] theorem rateError_keeps (i : LaneId) (l : Lane) (s : State) :
    (rateError i l s).lead = s.lead ∧
    (rateError i l s).deb = s.deb ∧
    (rateError i l s).settle = s.settle ∧
    (rateError i l s).flash = s.flash ∧
    (rateError i l s).suc = s.suc ∧
    (rateError i l s).dcu = s.dcu ∧
    (rateError i l s).trm = s.trm ∧
    (rateError i l s).enu = s.enu ∧
    (rateError i l s).psu = s.psu ∧
    (rateError i l s).alu = s.alu ∧
    (rateError i l s).ste = s.ste ∧
    (rateError i l s).snu = s.snu ∧
    (rateError i l s).rxq = s.rxq ∧
    (rateError i l s).pnu = s.pnu ∧
    (rateError i l s).outs = s.outs ∧
    (rateError i l s).pending = s.pending := by
  simp only [rateError]; (repeat' split) <;> simp

/-- The lane and the capture. -/
@[simp] theorem formatError_keeps (i : LaneId) (l : Lane) (c : Capture) (s : State) :
    (formatError i l c s).lead = s.lead ∧
    (formatError i l c s).deb = s.deb ∧
    (formatError i l c s).settle = s.settle ∧
    (formatError i l c s).flash = s.flash ∧
    (formatError i l c s).suc = s.suc ∧
    (formatError i l c s).dcu = s.dcu ∧
    (formatError i l c s).trm = s.trm ∧
    (formatError i l c s).enu = s.enu ∧
    (formatError i l c s).psu = s.psu ∧
    (formatError i l c s).alu = s.alu ∧
    (formatError i l c s).ste = s.ste ∧
    (formatError i l c s).snu = s.snu ∧
    (formatError i l c s).rxq = s.rxq ∧
    (formatError i l c s).pnu = s.pnu ∧
    (formatError i l c s).outs = s.outs ∧
    (formatError i l c s).pending = s.pending := by
  simp only [formatError]; simp

/-- The lane and the receive queue. -/
@[simp] theorem place_keeps (i : LaneId) (l : Lane) (t : Telegram) (s : State) :
    (place i l t s).lead = s.lead ∧
    (place i l t s).deb = s.deb ∧
    (place i l t s).settle = s.settle ∧
    (place i l t s).flash = s.flash ∧
    (place i l t s).suc = s.suc ∧
    (place i l t s).dcu = s.dcu ∧
    (place i l t s).trm = s.trm ∧
    (place i l t s).enu = s.enu ∧
    (place i l t s).psu = s.psu ∧
    (place i l t s).alu = s.alu ∧
    (place i l t s).ste = s.ste ∧
    (place i l t s).snu = s.snu ∧
    (place i l t s).pnu = s.pnu ∧
    (place i l t s).dgp = s.dgp ∧
    (place i l t s).outs = s.outs ∧
    (place i l t s).pending = s.pending := by
  simp only [place]; (repeat' split) <;> simp

/-- What a completed reception can change. -/
@[simp] theorem receiveComplete_keeps (i : LaneId) (l : Lane) (c : Cls) (b : List Byte) (s : State) :
    (receiveComplete i l c b s).lead = s.lead ∧
    (receiveComplete i l c b s).deb = s.deb ∧
    (receiveComplete i l c b s).settle = s.settle ∧
    (receiveComplete i l c b s).flash = s.flash ∧
    (receiveComplete i l c b s).suc = s.suc ∧
    (receiveComplete i l c b s).dcu = s.dcu ∧
    (receiveComplete i l c b s).trm = s.trm ∧
    (receiveComplete i l c b s).psu = s.psu ∧
    (receiveComplete i l c b s).ste = s.ste ∧
    (receiveComplete i l c b s).outs = s.outs ∧
    (receiveComplete i l c b s).pending = s.pending := by
  simp only [receiveComplete]; (repeat' split) <;> simp

/-- The key, and the clearing of KEY_STUCK. -/
@[simp] theorem releaseKey_keeps (k : Nat) (s : State) :
    (releaseKey k s).lead = s.lead ∧
    (releaseKey k s).deb = s.deb ∧
    (releaseKey k s).settle = s.settle ∧
    (releaseKey k s).flash = s.flash ∧
    (releaseKey k s).suc = s.suc ∧
    (releaseKey k s).dcu = s.dcu ∧
    (releaseKey k s).trm = s.trm ∧
    (releaseKey k s).psu = s.psu ∧
    (releaseKey k s).ste = s.ste ∧
    (releaseKey k s).rxq = s.rxq ∧
    (releaseKey k s).dgp = s.dgp ∧
    (releaseKey k s).outs = s.outs ∧
    (releaseKey k s).pending = s.pending := by
  simp only [releaseKey]; split <;> simp

/-- What the own mode can change. -/
@[simp] theorem selectMode_keeps (m : Bool) (s : State) :
    (selectMode m s).lead = s.lead ∧
    (selectMode m s).deb = s.deb ∧
    (selectMode m s).settle = s.settle ∧
    (selectMode m s).flash = s.flash ∧
    (selectMode m s).suc = s.suc ∧
    (selectMode m s).dcu = s.dcu ∧
    (selectMode m s).trm = s.trm ∧
    (selectMode m s).psu = s.psu ∧
    (selectMode m s).ste = s.ste ∧
    (selectMode m s).rxq = s.rxq ∧
    (selectMode m s).dgp = s.dgp ∧
    (selectMode m s).outs = s.outs ∧
    (selectMode m s).pending = s.pending := by
  simp [selectMode]

/-- Only the panel unit. -/
@[simp] theorem silenceNow_keeps (s : State) :
    (silenceNow s).lead = s.lead ∧
    (silenceNow s).deb = s.deb ∧
    (silenceNow s).settle = s.settle ∧
    (silenceNow s).flash = s.flash ∧
    (silenceNow s).suc = s.suc ∧
    (silenceNow s).dcu = s.dcu ∧
    (silenceNow s).trm = s.trm ∧
    (silenceNow s).enu = s.enu ∧
    (silenceNow s).psu = s.psu ∧
    (silenceNow s).alu = s.alu ∧
    (silenceNow s).ste = s.ste ∧
    (silenceNow s).snu = s.snu ∧
    (silenceNow s).laneA = s.laneA ∧
    (silenceNow s).laneB = s.laneB ∧
    (silenceNow s).rxq = s.rxq ∧
    (silenceNow s).dgp = s.dgp ∧
    (silenceNow s).outs = s.outs ∧
    (silenceNow s).pending = s.pending := by
  simp only [silenceNow]; (repeat' split) <;> simp

/-- The counters and the capture. -/
@[simp] theorem clearCounters_keeps (s : State) :
    (clearCounters s).lead = s.lead ∧
    (clearCounters s).deb = s.deb ∧
    (clearCounters s).settle = s.settle ∧
    (clearCounters s).flash = s.flash ∧
    (clearCounters s).suc = s.suc ∧
    (clearCounters s).dcu = s.dcu ∧
    (clearCounters s).trm = s.trm ∧
    (clearCounters s).enu = s.enu ∧
    (clearCounters s).psu = s.psu ∧
    (clearCounters s).alu = s.alu ∧
    (clearCounters s).snu = s.snu ∧
    (clearCounters s).pnu = s.pnu ∧
    (clearCounters s).outs = s.outs ∧
    (clearCounters s).pending = s.pending := by
  simp [clearCounters]

/-- The leads, and what a lever's event can change. -/
@[simp] theorem leverChange_keeps (l : Lead) (m : Bool) (g : PerLead Bool → PerLead Bool → Bool) (f : State → State) (s : State) :
    (∀ x, (f x).flash = x.flash ∧ (f x).suc = x.suc ∧ (f x).ste = x.ste ∧ (f x).rxq = x.rxq ∧ (f x).dgp = x.dgp ∧ (f x).outs = x.outs ∧ (f x).pending = x.pending) →
    (leverChange l m g f s).flash = s.flash ∧
    (leverChange l m g f s).suc = s.suc ∧
    (leverChange l m g f s).ste = s.ste ∧
    (leverChange l m g f s).rxq = s.rxq ∧
    (leverChange l m g f s).dgp = s.dgp ∧
    (leverChange l m g f s).outs = s.outs ∧
    (leverChange l m g f s).pending = s.pending := by
  intro h
  simp only [leverChange]
  (repeat' split) <;> simp [doorEvent, h]

/-- Start-up control after the passage to MUTE (R174). -/
@[simp] theorem toMute_suc (s : State) :
    (toMute s).suc = { s.suc with startUp := .mute, flt := true, listenTimer := none } := by
  simp only [toMute]; split <;> simp [doorEvent, apply_ite State.suc]

end Sys2Proof.Machine
end

