-- ==== Sys2Proof/Laws/Carried.lean ====
section
/-! SUPPORT. Properties that the door's operations carry. An operation of the door changes the door's own blocks, and reaches
further only by alarm requests and offers; so a property that survives these three survives every operation of the door. One
lemma for each operation. -/

namespace Sys2Proof.Machine

/-- The requests a door's operations make: conditions by their edges, events by their occurrence, PUMP_FAIL never (R65, R82). -/
def doorRequest : AlarmRequest → Bool
  | .becameTrue k => !isEvent k
  | .becameFalse k => !isEvent k
  | .occurred k => isEvent k && k != .pumpFail
  | .acknowledge => false

/-- A property that survives a change of the door's own blocks, an offer and a request of the door. -/
structure Carried (P : State → Prop) : Prop where
  door : ∀ (s : State) (d : Dcu) (t : Trm) (p : Psu), P s → P { s with dcu := d, trm := t, psu := p }
  offer : ∀ s : State, P s → P (offer s)
  alarm : ∀ (q : AlarmRequest) (s : State), doorRequest q = true → P s → P (alarm q s)

namespace Carried

variable {P : State → Prop} (c : Carried P)
include c

omit c in
/-- Carried by a choice of one of two. -/
theorem ite {s t : State} {b : Prop} [Decidable b] (h : P s) (k : P t) : P (if b then s else t) := by
  split
  · exact h
  · exact k

/-- Carried by the door control unit's items. -/
theorem dcu (d : Dcu) {s : State} (h : P s) : P { s with dcu := d } := c.door s d s.trm s.psu h

/-- Carried by the travel monitor's items. -/
theorem trm (t : Trm) {s : State} (h : P s) : P { s with trm := t } := c.door s s.dcu t s.psu h

/-- Carried by the passage unit's items. -/
theorem psu (p : Psu) {s : State} (h : P s) : P { s with psu := p } := c.door s s.dcu s.trm p h

/-- Carried by the edge of a condition. -/
theorem condition (k : AlarmKind) (b : Bool) {s : State} (hk : isEvent k = false) (h : P s) :
    P (Machine.alarm (condition k b) s) := by
  refine c.alarm _ s ?_ h
  cases b <;> simp [Machine.condition, doorRequest, hk]

/-- The figure's offer. -/
theorem offerFigure (old : Option Nat) {s : State} (h : P s) : P (Machine.offerFigure old s) := by
  simp only [Machine.offerFigure]
  split
  · exact c.offer _ h
  · exact h

/-- The travel monitor takes new values. -/
theorem setTrm (t : Trm) {s : State} (h : P s) : P (Machine.setTrm t s) := c.trm _ h

/-- A stroke begins. -/
theorem strokeStart (d : Dir) {s : State} (h : P s) : P (Machine.strokeStart d s) := c.trm _ h

/-- A stroke ends. -/
theorem strokeEnd {s : State} (h : P s) : P (Machine.strokeEnd s) := by
  simp only [Machine.strokeEnd]
  split
  · exact c.alarm _ _ rfl (c.trm _ h)
  · exact c.trm _ h

/-- A look at PASSAGE_EXCESS. -/
theorem excessLook {s : State} (h : P s) : P (Machine.excessLook s) := by
  simp only [Machine.excessLook]
  split
  · exact h
  · exact c.condition _ _ rfl (c.psu _ h)

/-- The limit flag. -/
theorem setLimit {s : State} (h : P s) : P (Machine.setLimit s) := by
  simp only [Machine.setLimit]
  split
  · exact h
  · exact c.excessLook (c.psu _ h)

/-- The valves follow. -/
theorem valves {s : State} (h : P s) : P (Machine.valves s) := by
  simp only [Machine.valves]
  generalize hx : (if s.dcu.vcl && s.dcu.ctl != .closing then
      Machine.strokeEnd { s with dcu := { s.dcu with vcl := false, vopPause := some 0 } } else s) = x
  have kx : P x := by rw [← hx]; exact Carried.ite (P := P) (c.strokeEnd (c.dcu _ h)) h
  generalize hy : (if x.dcu.vop && x.dcu.ctl != .opening then
      Machine.strokeEnd { x with dcu := { x.dcu with vop := false, vclPause := some 0 } } else x) = y
  have ky : P y := by rw [← hy]; exact Carried.ite (P := P) (c.strokeEnd (c.dcu _ kx)) kx
  exact Carried.ite (P := P) (c.strokeStart _ (c.dcu _ ky)) (Carried.ite (P := P) (c.strokeStart _ (c.dcu _ ky)) ky)

/-- A move between control states. -/
theorem moveTo (d : Dcu) {s : State} (h : P s) : P (Machine.moveTo d s) := by
  simp only [Machine.moveTo]
  have k := c.valves (c.door s d s.trm (claimFor s.conf.claimHold s.dcu.ctl d.ctl s.psu) h)
  exact Carried.ite (P := P) (c.alarm _ _ rfl k) k

/-- A move to a named state. -/
theorem toIdle (x : Ctl) {s : State} (h : P s) : P (Machine.toIdle x s) := c.moveTo _ h

/-- A move to a named state. -/
theorem toWarning (x : WarningCause) {s : State} (h : P s) : P (Machine.toWarning x s) := c.moveTo _ h

/-- A move to a named state. -/
theorem toClosing (x : Cause) {s : State} (h : P s) : P (Machine.toClosing x s) := c.moveTo _ h

/-- A move to a named state. -/
theorem toOpening {s : State} (h : P s) : P (Machine.toOpening s) := c.moveTo _ h

/-- A move to a named state. -/
theorem toClaiming {s : State} (h : P s) : P (Machine.toClaiming s) := c.moveTo _ h

/-- A move to a named state. -/
theorem toHeldOpen {s : State} (h : P s) : P (Machine.toHeldOpen s) := c.moveTo _ h

/-- A refused request. -/
theorem refuse {s : State} (h : P s) : P (Machine.refuse s) := by
  simp only [Machine.refuse]
  (repeat' split) <;> first | exact h | exact c.toIdle _ h

/-- A request evaluated. -/
theorem evaluate {s : State} (h : P s) : P (Machine.evaluate s) := by
  simp only [Machine.evaluate]
  (repeat' split) <;> first | exact h | exact c.refuse h | exact c.toClaiming h | exact c.toOpening h

/-- A standing request evaluated. -/
theorem evaluateStanding {s : State} (h : P s) : P (Machine.evaluateStanding s) := by
  simp only [Machine.evaluateStanding]
  (repeat' split) <;> first | exact h | exact c.evaluate h

/-- The standing conditions. -/
theorem idleRules {s : State} (h : P s) : P (Machine.idleRules s) := by
  simp only [Machine.idleRules]
  (repeat' split) <;> first | exact h | exact c.toClosing _ h | exact c.evaluate h | exact c.toHeldOpen h | exact c.toWarning _ h

/-- To the matching idle state. -/
theorem toMatching {s : State} (h : P s) : P (Machine.toMatching s) := c.idleRules (c.toIdle _ h)

/-- A stop. -/
theorem stopOrReclose {s : State} (h : P s) : P (Machine.stopOrReclose s) := by
  simp only [Machine.stopOrReclose]
  (repeat' split) <;> first | exact c.toIdle _ h | exact c.toWarning _ h | exact c.toMatching h

/-- LO pressed. -/
theorem onLoPressed {s : State} (h : P s) : P (Machine.onLoPressed s) := by
  simp only [Machine.onLoPressed]
  (repeat' split) <;> first | exact c.toHeldOpen h | exact c.evaluate h | exact c.toMatching h | exact c.idleRules h

/-- LO released. -/
theorem onLoReleased {s : State} (h : P s) : P (Machine.onLoReleased s) := by
  have k := c.dcu { s.dcu with lockout := false } h
  simp only [Machine.onLoReleased]
  split <;> first | exact c.stopOrReclose k | exact c.toWarning _ k | exact c.idleRules k

/-- LC pressed. -/
theorem onLcPressed (w : Bool) {s : State} (h : P s) : P (Machine.onLcPressed w s) := by
  have k : P (if w then { s with dcu := { s.dcu with lockout := false } } else s) := Carried.ite (P := P) (c.dcu _ h) h
  simp only [Machine.onLcPressed]
  exact Carried.ite (P := P) (c.toClosing _ k) (Carried.ite (P := P) (c.onLoReleased k) k)

/-- LC released. -/
theorem onLcReleased {s : State} (h : P s) : P (Machine.onLcReleased s) := by
  have k : P (if s.dcu.ctl = .closing ∧ s.dcu.cause = .lever then
      if s.dcu.cd then { s with dcu := { s.dcu with cause := .demand } } else Machine.toMatching s else s) :=
    Carried.ite (P := P) (Carried.ite (P := P) (c.dcu _ h) (c.toMatching h)) h
  simp only [Machine.onLcReleased]
  exact Carried.ite (P := P) (c.onLoPressed k) k

/-- The warning timer expires. -/
theorem onWarningExpiry {s : State} (h : P s) : P (Machine.onWarningExpiry s) := by
  simp only [Machine.onWarningExpiry]
  (repeat' split) <;> first | exact c.toClosing _ h

/-- The position state has changed. -/
theorem onPosition {s : State} (h : P s) : P (Machine.onPosition s) := by
  simp only [Machine.onPosition]
  (repeat' split) <;> first | exact h | exact c.toClosing _ h | exact c.toIdle _ h | exact c.toHeldOpen h | exact c.toWarning _ h | exact c.evaluate h | exact c.toMatching h

/-- CD has changed. -/
theorem onCdChange {s : State} (h : P s) : P (Machine.onCdChange s) := by
  simp only [Machine.onCdChange]
  (repeat' split) <;> first | exact c.idleRules h | exact c.toMatching h | exact c.evaluate h | exact c.toIdle _ h

/-- A stop of the opening stroke. -/
theorem onStop {s : State} (h : P s) : P (Machine.onStop s) := by
  simp only [Machine.onStop]
  exact Carried.ite (P := P) (c.stopOrReclose (c.dcu _ h)) h

/-- A passage grant. -/
theorem onGrant {s : State} (h : P s) : P (Machine.onGrant s) := by
  simp only [Machine.onGrant]
  (repeat' split) <;> first | exact c.toOpening h | exact c.refuse h

/-- What a door event hands on. -/
theorem report (b : State) {s : State} (h : P s) : P (Machine.report b s) := by
  simp only [Machine.report]
  have k := Carried.ite (P := P) (b := reportDiffers b.dcu s.dcu) (c.offer s h) h
  have l := Carried.ite (P := P) (b := b.psu.phase ≠ s.psu.phase) (c.offer _ k) k
  exact Carried.ite (P := P) (c.excessLook l) l

/-- A door event. -/
theorem doorEvent (f : State → State) {s : State} (h : P (f s)) : P (Machine.doorEvent f s) := c.report s h

/-- NO_PANEL judged. -/
theorem noPanelCheck {s : State} (h : P s) : P (Machine.noPanelCheck s) := by
  simp only [Machine.noPanelCheck]
  (repeat' split) <;> first | exact h | exact c.alarm _ s rfl h

/-- A recomputation. -/
theorem rederive {s : State} (h : P s) : P (Machine.rederive s) := by
  simp only [Machine.rederive]
  exact Carried.ite (P := P) (c.dcu _ h) (c.onCdChange (c.setLimit (c.dcu _ h)))

/-- A recomputation with what it hands on. -/
theorem recompute {s : State} (h : P s) : P (Machine.recompute s) := c.noPanelCheck (c.doorEvent _ (c.rederive h))

/-- A claim evaluated. -/
theorem evaluateClaim {s : State} (h : P s) : P (Machine.evaluateClaim s) := by
  simp only [Machine.evaluateClaim]
  have k := c.psu { s.psu with occupants := occupantsOf s, ahead := aheadOf s } h
  exact Carried.ite (P := P) (c.onGrant k) k

/-- A notice of a group peer. -/
theorem peerNotice {s : State} (h : P s) : P (Machine.peerNotice s) := by
  simp only [Machine.peerNotice]
  exact c.excessLook (Carried.ite (P := P) (c.doorEvent _ (c.evaluateClaim h)) h)

/-- The claim hold ends. -/
theorem onHoldExpiry {s : State} (h : P s) : P (Machine.onHoldExpiry s) := by
  simp only [Machine.onHoldExpiry]
  exact c.evaluateClaim (c.psu _ h)

/-- A condition cleared with its timer. -/
theorem clearWatch (k : AlarmKind) (x y : Watch) {s : State} (h : P s) (hk : isEvent k = false) : P (Machine.clearWatch k x y s) := by
  simp only [Machine.clearWatch]
  exact Carried.ite (P := P) (c.alarm _ _ (by simp [doorRequest, hk]) h) h

/-- A change of the position state handed on. -/
theorem handPosition (y : Bool) {s : State} (h : P s) : P (Machine.handPosition y s) := by
  simp only [Machine.handPosition]
  have k := c.offer _ h
  exact Carried.ite (P := P) (c.alarm _ _ rfl k) k

/-- A debounced limit acts. -/
theorem limitActs (l : Limit) {s : State} (h : P s) : P (Machine.limitActs l s) := by
  simp only [Machine.limitActs]
  split
  · exact c.clearWatch _ _ _ (c.setTrm _ h) rfl
  · exact c.doorEvent _ (c.onPosition (c.clearWatch _ _ _ (c.clearWatch _ _ _ (c.handPosition _ (c.setTrm _ h)) rfl) rfl))

/-- A position pulse. -/
theorem takePulse (b : Bool) {s : State} (h : P s) : P (Machine.takePulse b s) := by
  simp only [Machine.takePulse]
  have k := c.offerFigure (positionFigure s) (c.setTrm (pulse s.conf b s.trm) h)
  have l := Carried.ite (P := P) (b := (s.trm.ref && !(pulse s.conf b s.trm).ref) = true)
    (c.alarm (.occurred .positionFault) _ rfl k) k
  exact Carried.ite (P := P) (c.alarm (.occurred .handMove) _ rfl l) l

/-- A finding kept. -/
theorem setFinding (f : Option Finding) {s : State} (h : P s) : P (Machine.setFinding f s) := c.trm _ h

/-- A stall window ends. -/
theorem windowEnds (x : StallWindow) {s : State} (h : P s) : P (Machine.windowEnds x s) := by
  simp only [Machine.windowEnds]
  have k := c.trm { s.trm with stall := some ⟨0, x.number + 1, 0⟩ } h
  refine Carried.ite (P := P) ?_ k
  exact Carried.ite (P := P) (c.doorEvent _ (c.onStop (c.alarm _ _ rfl (c.setFinding _ k)))) (c.alarm _ _ rfl k)

/-- The alarms of a gate. -/
theorem gateAlarms (x y : Enu) {s : State} (h : P s) : P (Machine.gateAlarms x y s) := by
  simp only [Machine.gateAlarms]
  have k : P (if x.oob ≠ 3 ∧ y.oob = 3 then Machine.alarm (.becameTrue .pressureSensor) s
      else if x.inb ≠ 3 ∧ y.inb = 3 then Machine.alarm (.becameFalse .pressureSensor) s else s) :=
    Carried.ite (P := P) (c.alarm _ _ rfl h) (Carried.ite (P := P) (c.alarm _ _ rfl h) h)
  exact Carried.ite (P := P) k (c.condition _ _ rfl k)

/-- What a gate end hands on. -/
theorem gateHandsOn (x y : Enu) {s : State} (h : P s) (hp : ∀ s, P s → P (Machine.pumpActs s)) : P (Machine.gateHandsOn x y s) := by
  simp only [Machine.gateHandsOn]
  have k1 := c.gateAlarms x y h
  have k2 := Carried.ite (P := P) (b := x.permStart = y.permStart) k1 (c.doorEvent _ (c.evaluateStanding k1))
  have k3 := Carried.ite (P := P) (b := y.permCont = true) k2 (c.doorEvent _ (c.onStop k2))
  exact hp _ (Carried.ite (P := P) k3 (c.offer _ k3))

/-- The passage to JOINED at a door. -/
theorem joinDoor {s : State} (h : P s) : P (Machine.joinDoor s) := by
  simp only [Machine.joinDoor]
  exact Carried.ite (P := P) (c.doorEvent _ (c.evaluateStanding (c.noPanelCheck h))) h

/-- The MAINS at the passage to LISTEN. -/
theorem startMains {s : State} (h : P s) : P (Machine.startMains s) := by
  simp only [Machine.startMains]
  exact Carried.ite (P := P) h (c.alarm _ _ rfl h)

/-- The door control unit leaves INACTIVE. -/
theorem startDcu {s : State} (h : P s) : P (Machine.startDcu s) := c.doorEvent _ (c.toMatching (c.rederive h))

end Carried

/-- A property the door's operations carry that also survives a change of the table, of the panel unit, and an
acknowledgement. -/
structure CarriedWide (P : State → Prop) : Prop extends Carried P where
  ste : ∀ (s : State) (x : Ste), P s → P { s with ste := x }
  pnu : ∀ (s : State) (x : Pnu), P s → P { s with pnu := x }
  ack : ∀ s : State, P s → P (Machine.alarm .acknowledge s)

namespace CarriedWide

variable {P : State → Prop} (c : CarriedWide P)
include c

/-- An entry put into the table. -/
theorem setEntry (e : Entry) {s : State} (h : P s) : P (Machine.setEntry e s) := c.ste s _ h

/-- The lamps. -/
theorem repaint {s : State} (h : P s) : P (Machine.repaint s) := c.pnu s _ h

/-- The sounder. -/
theorem sound {s : State} (h : P s) : P (Machine.sound s) := c.pnu s _ h

/-- A derivation. -/
theorem deriveMismatch {s : State} (h : P s) : P (Machine.deriveMismatch s) := by
  simp only [Machine.deriveMismatch]
  split
  · exact h
  · exact c.condition _ _ rfl (c.ste s _ h)

/-- A derivation. -/
theorem deriveLost {s : State} (h : P s) : P (Machine.deriveLost s) := by
  simp only [Machine.deriveLost]
  split
  · exact h
  · exact c.condition _ _ rfl (c.ste s _ h)

/-- A derivation. -/
theorem deriveDegraded {s : State} (h : P s) : P (Machine.deriveDegraded s) := by
  simp only [Machine.deriveDegraded]
  split
  · exact h
  · exact c.condition _ _ rfl (c.ste s _ h)

/-- The derivations. -/
theorem derive {s : State} (h : P s) : P (Machine.derive s) := c.deriveDegraded (c.deriveLost (c.deriveMismatch h))

/-- The mode disagreement judged. -/
theorem judgeConflict {s : State} (h : P s) : P (Machine.judgeConflict s) := by
  simp only [Machine.judgeConflict]
  (repeat' split) <;> first | exact h | exact c.pnu s _ h | exact c.alarm _ _ rfl (c.pnu s _ h)

/-- The new door alarms looked for. -/
theorem seeAlarms (n : Nat) {s : State} (h : P s) : P (Machine.seeAlarms n s) := by
  simp only [Machine.seeAlarms]
  exact Carried.ite (P := P) (c.pnu _ _ (c.pnu s _ h)) (c.pnu s _ h)

/-- A notice at a panel. -/
theorem panelNotice (n : Notice) {s : State} (h : P s) : P (Machine.panelNotice n s) := by
  simp only [Machine.panelNotice]
  have k := c.seeAlarms n.num (s := Machine.summarise s) (c.pnu s _ h)
  exact c.repaint (c.sound (Carried.ite (P := P) (c.judgeConflict k) k))

/-- A notice to its readers. -/
theorem giveNotice (n : Notice) {s : State} (h : P s) : P (Machine.giveNotice n s) := by
  simp only [Machine.giveNotice]
  split
  · have k := Carried.ite (P := P) (b := n.ofPanel = true) (c.recompute h) h
    exact Carried.ite (P := P) (c.peerNotice k) k
  · exact Carried.ite (P := P) (c.panelNotice n h) h

/-- An acceptance. -/
theorem acceptTelegram (o : Option Entry) (t : Telegram) {s : State} (h : P s) : P (Machine.acceptTelegram o t s) := by
  simp only [Machine.acceptTelegram]
  have k := c.setEntry (acceptedEntry s.staleMs o t) h
  exact c.giveNotice _ (c.derive (Carried.ite (P := P) (c.ack _ k) k))

/-- A copy that is not accepted. -/
theorem hearCopy (e : Entry) (l : LaneId) {s : State} (h : P s) : P (Machine.hearCopy e l s) := c.deriveDegraded (c.setEntry _ h)

/-- An entry goes stale. -/
theorem goStale (e : Entry) {s : State} (h : P s) : P (Machine.goStale e s) := c.giveNotice _ (c.derive (c.setEntry _ h))

/-- A telegram of another station. -/
theorem takeOther (t : Telegram) {s : State} (h : P s) : P (Machine.takeOther t s) := by
  simp only [Machine.takeOther]
  (repeat' split) <;> first | exact c.ste s _ h | exact c.hearCopy _ _ (c.ste s _ h) | exact c.acceptTelegram _ _ h

/-- A lane's reported health is set. -/
theorem rehealth (id : LaneId) {s : State} (h : P s) (hl : ∀ s l, P s → P (s.setLane id l)) :
    P (Machine.rehealth id s) := by
  simp only [Machine.rehealth]
  have k := hl s { s.lane id with health := healthOf (s.lane id) } h
  refine Carried.ite (P := P) h (Carried.ite (P := P) k ?_)
  have l := c.offer _ (Carried.ite (P := P) (b := (s.lane id.other).good = true)
    (c.condition .laneFault (healthOf (s.lane id) != Health.good) rfl k) k)
  exact Carried.ite (P := P) (c.repaint l) l

/-- The passage to MUTE. -/
theorem toMute {s : State} (h : P s)
    (hm : ∀ s u x y n, P s → P { s with suc := u, laneA := x, laneB := y, snu := n }) : P (Machine.toMute s) := by
  simp only [Machine.toMute]
  have k := hm s { s.suc with startUp := .mute, flt := true, listenTimer := none } (muteLane s.conf.station s.laneA)
    (muteLane s.conf.station s.laneB) ⟨s.snu.state.stop, s.snu.demand.stop, { s.snu.ident with timer := none }⟩ h
  exact Carried.ite (P := P) (c.noPanelCheck (c.doorEvent _ (Carried.ite (P := P) (c.evaluate k) k))) k

/-- A key released. -/
theorem releaseKey (key : Nat) {s : State} (h : P s) : P (Machine.releaseKey key s) := by
  simp only [Machine.releaseKey]
  have k := c.pnu s (s.pnu.change key false) h
  exact Carried.ite (P := P) (c.alarm _ _ rfl k) k

end CarriedWide

end Sys2Proof.Machine
end

