-- ==== Sys2Proof/Laws/Cells.lean ====
section
/-! SUPPORT. What the operations of Machine/Cells do: a sample is dominant exactly where a 0 is driven, and the cells of bytes spell
the bytes. -/

namespace Sys2Proof.Machine

@[simp] theorem bitOf_not (b : Bool) : bitOf (!b) = b := by simp [bitOf]

/-- The eight bits of a byte, most significant first. -/
theorem byteBits_eq (b : Byte) :
    byteBits b =
      [b.getLsbD 7, b.getLsbD 6, b.getLsbD 5, b.getLsbD 4, b.getLsbD 3, b.getLsbD 2, b.getLsbD 1, b.getLsbD 0] := rfl

/-- Half a cell in, a 0 still drives the line and a 1 no longer does. -/
theorem driven_at_sample (rate : LoopRate) (b : Bool) : decide (cellNs rate / 2 < dominantNs rate b) = !b := by
  cases rate <;> cases b <;> decide

/-- Eight bits make the byte they are of. -/
theorem bits8_getLsbD (b : Byte) :
    bits8 (b.getLsbD 7) (b.getLsbD 6) (b.getLsbD 5) (b.getLsbD 4) (b.getLsbD 3) (b.getLsbD 2) (b.getLsbD 1) (b.getLsbD 0) = b := by
  revert b; decide +kernel

/-- The recessive and dominant levels of a byte's bits, followed by others, spell the byte first. -/
theorem spelled_byteBits (b : Byte) (rest : List Bool) : spelled ((byteBits b).map (!·) ++ rest) = b :: spelled rest := by
  simp only [byteBits_eq, List.map_cons, List.map_nil, List.cons_append, List.nil_append, spelled, bitOf_not, bits8_getLsbD]

/-- Levels spell no more bytes than there are eights of them. -/
theorem spelled_length : ∀ levels : List Bool, (spelled levels).length = levels.length / 8
  | [] => by simp [spelled]
  | [_] => by simp [spelled]
  | [_, _] => by simp [spelled]
  | [_, _, _] => by simp [spelled]
  | [_, _, _, _] => by simp [spelled]
  | [_, _, _, _, _] => by simp [spelled]
  | [_, _, _, _, _, _] => by simp [spelled]
  | [_, _, _, _, _, _, _] => by simp [spelled]
  | _ :: _ :: _ :: _ :: _ :: _ :: _ :: _ :: rest => by
    have := spelled_length rest
    simp only [spelled, List.length_cons, this]
    omega

end Sys2Proof.Machine
end

