-- ==== Sys2Proof/Laws/State.lean ====
section
/-! SUPPORT. The small lemmas of the named updates: a lead replaced, a lane replaced, a lane that begins or ends something,
the door control unit leaving a state, the pins set. -/

namespace Sys2Proof

/-- Reading the lead that was set. -/
@[simp] theorem PerLead.get_set_same {α : Type} (p : PerLead α) (l : Lead) (v : α) : (p.set l v).get l = v := by
  cases l <;> rfl

/-- Reading another lead than the one that was set. -/
theorem PerLead.get_set_other {α : Type} (p : PerLead α) (l m : Lead) (v : α) (h : m ≠ l) :
    (p.set l v).get m = p.get m := by
  cases l <;> cases m <;> first | rfl | exact absurd rfl h

/-- Setting a lead to the value it has changes nothing. -/
@[simp] theorem PerLead.set_get {α : Type} (p : PerLead α) (l : Lead) : p.set l (p.get l) = p := by
  cases l <;> rfl

/-- Every lead of a uniform record has the one value. -/
@[simp] theorem PerLead.get_all {α : Type} (v : α) (l : Lead) : (PerLead.all v).get l = v := by
  cases l <;> rfl

/-- The other lane of the other lane. -/
@[simp] theorem LaneId.other_other (id : LaneId) : id.other.other = id := by cases id <;> rfl

namespace Machine

/-- The lane that was replaced. -/
@[simp] theorem lane_setLane_same (s : State) (id : LaneId) (l : Lane) : (s.setLane id l).lane id = l := by
  cases id <;> rfl

/-- The lane that was not replaced. -/
@[simp] theorem lane_setLane_other (s : State) (id : LaneId) (l : Lane) :
    (s.setLane id l).lane id.other = s.lane id.other := by
  cases id <;> rfl

/-- The lane of the other lane replaced. -/
@[simp] theorem lane_setLane_of_other (s : State) (id : LaneId) (l : Lane) :
    (s.setLane id.other l).lane id = s.lane id := by
  cases id <;> rfl

/-- A lane replaced by itself. -/
@[simp] theorem setLane_lane (s : State) (id : LaneId) : s.setLane id (s.lane id) = s := by
  cases id <;> rfl

/-- The later of two replacements of one lane stands. -/
@[simp] theorem setLane_setLane (s : State) (id : LaneId) (l m : Lane) :
    (s.setLane id l).setLane id m = s.setLane id m := by
  cases id <;> rfl

/-- Leaving a state keeps what does not belong to one state. -/
@[simp] theorem leave_keeps (d : Dcu) (c : Ctl) :
    (d.leave c).ctl = c ∧ (d.leave c).cause = .noCause ∧ (d.leave c).warnTimer = none ∧
      (d.leave c).held = .stopped ∧ (d.leave c).wcause = d.wcause ∧ (d.leave c).vclPause = d.vclPause ∧
      (d.leave c).vopPause = d.vopPause ∧ (d.leave c).mode = d.mode ∧ (d.leave c).groupDemand = d.groupDemand ∧
      (d.leave c).panelHeard = d.panelHeard ∧ (d.leave c).cd = d.cd ∧ (d.leave c).lockout = d.lockout ∧
      (d.leave c).vcl = d.vcl ∧ (d.leave c).vop = d.vop := by
  simp [Dcu.leave]

/-- The pins that were set. -/
@[simp] theorem setOuts_outs (s : State) : (setOuts s).outs = outsFor s := rfl

/-- What a lane that begins a telegram keeps, and what it becomes (R138). -/
@[simp] theorem beginTelegram_keeps (l : Lane) (c : SendCopy) :
    (beginTelegram l c).activity = .contending ∧ (beginTelegram l c).quiet = false ∧
      (beginTelegram l c).copy = some c ∧ (beginTelegram l c).rx = none ∧
      (beginTelegram l c).stuck = l.stuck ∧ (beginTelegram l c).errored = l.errored ∧
      (beginTelegram l c).silent = l.silent ∧ (beginTelegram l c).alone = l.alone ∧
      (beginTelegram l c).health = l.health ∧ (beginTelegram l c).silence = l.silence ∧
      (beginTelegram l c).unheard = l.unheard ∧ (beginTelegram l c).bitErr = l.bitErr ∧
      (beginTelegram l c).withdraw = l.withdraw ∧ (beginTelegram l c).sentD = l.sentD ∧
      (beginTelegram l c).sentS = l.sentS ∧ (beginTelegram l c).sentI = l.sentI ∧
      (beginTelegram l c).ctr = l.ctr := by
  simp [beginTelegram]

/-- A lane that is good stays so when it begins a telegram. -/
@[simp] theorem beginTelegram_good (l : Lane) (c : SendCopy) : (beginTelegram l c).good = l.good := rfl

/-- The later beginning stands. -/
@[simp] theorem beginTelegram_twice (l : Lane) (c d : SendCopy) :
    beginTelegram (beginTelegram l c) d = beginTelegram l d := rfl

/-- The limits alone decide the position state (R34). -/
theorem positionOf_congr {d e : PerLead Bool} (ha : d.cla = e.cla) (hb : d.clb = e.clb) (ho : d.olm = e.olm) :
    positionOf d = positionOf e := by
  simp [positionOf, ha, hb, ho]

end Machine

end Sys2Proof
end

