-- ==== Sys2Proof/Laws/Handed.lean ====
section
/-! SUPPORT. HandsOn is a preorder, and the operations of the send side, of the alarms and of the door stay within it (R31,
R51, R62, R96, R97, R128): `HandsOn.carried` gives the lemma of every door operation of Laws/Carried.lean. -/

namespace Sys2Proof.Machine

/-! ### HandsOn is a preorder -/

/-- A lane as it was. -/
theorem LaneHanded.rfl' (l : Lane) : LaneHanded l l := .inl rfl

/-- A lane that has begun a telegram does not begin another. -/
theorem LaneHanded.trans' {l m n : Lane} (h : LaneHanded l m) (k : LaneHanded m n) : LaneHanded l n := by
  obtain rfl | ⟨hi, hq, c, rfl⟩ := h
  · exact k
  · obtain rfl | ⟨ha, -, -⟩ := k
    · exact .inr ⟨hi, hq, c, rfl⟩
    · cases ha

/-- A class as it was. -/
theorem KeeperHanded.rfl' {α : Type} (k : Keeper α) : KeeperHanded k k := .inl rfl

/-- One snapshot and no second (R128). -/
theorem KeeperHanded.trans' {α : Type} {k l m : Keeper α} (h : KeeperHanded k l) (i : KeeperHanded l m) :
    KeeperHanded k m := by
  obtain rfl | ⟨hr, rfl⟩ | ⟨hr, c, b, rfl⟩ := h
  · exact i
  · obtain rfl | ⟨-, rfl⟩ | ⟨hq, -⟩ := i
    · exact .inr (.inl ⟨hr, rfl⟩)
    · exact .inr (.inl ⟨hr, rfl⟩)
    · exact absurd (show k.ready = true from hq) (by simp [hr])
  · obtain rfl | ⟨-, rfl⟩ | ⟨hq, -⟩ := i
    · exact .inr (.inr ⟨hr, c, b, rfl⟩)
    · exact .inr (.inr ⟨hr, c, true, rfl⟩)
    · simp [Keeper.make, Keeper.ready, Config.spacingMs] at hq

/-- Pump control after pump control. -/
theorem PumpHanded.trans' {d e f : Enu} (h : PumpHanded d e) (k : PumpHanded e f) : PumpHanded d f := by
  rw [PumpHanded] at h k ⊢
  rw [k, h]

/-- Lamps and sounder after lamps and sounder. -/
theorem PanelHanded.trans' {p q r : Pnu} (h : PanelHanded p q) (k : PanelHanded q r) : PanelHanded p r := by
  rw [PanelHanded] at h k ⊢
  rw [k, h]

/-- Nothing is handed on where every part outside the door's blocks and the alarm list is as it was. -/
theorem HandsOn.of_eq {s t : State} (h1 : t.lead = s.lead) (h2 : t.deb = s.deb) (h3 : t.settle = s.settle)
    (h4 : t.flash = s.flash) (h5 : t.suc = s.suc) (h6 : t.ste = s.ste) (h7 : t.rxq = s.rxq) (h8 : t.dgp = s.dgp)
    (h9 : t.pending = s.pending) (hA : t.laneA = s.laneA) (hB : t.laneB = s.laneB) (hn : t.snu = s.snu)
    (he : t.enu = s.enu) (hp : t.pnu = s.pnu) : HandsOn s t where
  lead := h1
  deb := h2
  settle := h3
  flash := h4
  suc := h5
  ste := h6
  rxq := h7
  dgp := h8
  pending := h9
  laneA := .inl hA
  laneB := .inl hB
  silent := fun _ => ⟨hn, hA, hB⟩
  ident := by rw [hn]
  demand := fun _ => by rw [hn]
  state := fun _ => by rw [hn]
  demandOnce := .inl (by rw [hn])
  stateOnce := .inl (by rw [hn])
  pump := by rw [he]; rfl
  pumpDoor := fun _ => he
  panel := by rw [hp]; rfl
  panelOut := fun _ => hp

/-- HandsOn holds of a state and itself. -/
theorem HandsOn.same (s : State) : HandsOn s s :=
  .of_eq rfl rfl rfl rfl rfl rfl rfl rfl rfl rfl rfl rfl rfl rfl

/-- One hand-on after another. -/
theorem HandsOn.trans {s m t : State} (h : HandsOn s m) (k : HandsOn m t) : HandsOn s t where
  lead := k.lead.trans h.lead
  deb := k.deb.trans h.deb
  settle := k.settle.trans h.settle
  flash := k.flash.trans h.flash
  suc := k.suc.trans h.suc
  ste := k.ste.trans h.ste
  rxq := k.rxq.trans h.rxq
  dgp := k.dgp.trans h.dgp
  pending := k.pending.trans h.pending
  laneA := h.laneA.trans' k.laneA
  laneB := h.laneB.trans' k.laneB
  silent := fun hj => by
    obtain ⟨a, b, c⟩ := h.silent hj
    obtain ⟨x, y, z⟩ := k.silent (by rw [h.suc]; exact hj)
    exact ⟨x.trans a, y.trans b, z.trans c⟩
  ident := k.ident.trans h.ident
  demand := fun hr => (k.demand (by rw [State.conf, h.suc]; exact hr)).trans (h.demand hr)
  state := fun hr => (k.state (by rw [State.conf, h.suc]; exact hr)).trans (h.state hr)
  demandOnce := h.demandOnce.trans' k.demandOnce
  stateOnce := h.stateOnce.trans' k.stateOnce
  pump := h.pump.trans' k.pump
  pumpDoor := fun hd => (k.pumpDoor (by rw [State.doorRuns, State.conf, h.suc]; exact hd)).trans (h.pumpDoor hd)
  panel := h.panel.trans' k.panel
  panelOut := fun hd => (k.panelOut (by rw [State.doorRuns, State.conf, h.suc]; exact hd)).trans (h.panelOut hd)

/-- A step taken under a condition. -/
theorem HandsOn.ite {s t u : State} {c : Prop} [Decidable c] (h : HandsOn s t) (k : HandsOn s u) :
    HandsOn s (if c then t else u) := by
  split
  · exact h
  · exact k

/-! ### Snapshots -/

/-- A lane that looks for work is as it was or begins a telegram; the other lane is as it was (R138). -/
theorem tryBegin_lane (id : LaneId) (s : State) :
    LaneHanded (s.lane id) ((tryBegin id s).lane id) ∧ (tryBegin id s).lane id.other = s.lane id.other := by
  simp only [tryBegin]
  split
  · rename_i h
    split
    · exact ⟨.inr ⟨h.2.1, h.2.2, _, lane_setLane_same s id _⟩, lane_setLane_other s id _⟩
    · exact ⟨.inl rfl, rfl⟩
  · exact ⟨.inl rfl, rfl⟩

/-- Both lanes, each as it was or with a telegram begun. -/
theorem tryBegins_lanes (s : State) :
    LaneHanded s.laneA (tryBegins s).laneA ∧ LaneHanded s.laneB (tryBegins s).laneB := by
  have a := tryBegin_lane .a s
  have b := tryBegin_lane .b (tryBegin .a s)
  simp only [State.lane, LaneId.other] at a b
  rw [tryBegins]
  exact ⟨by rw [b.2]; exact a.1, by rw [← a.2]; exact b.1⟩

/-- A making of the own class hands on one snapshot (R128, R134). -/
theorem makeOwn_hands (s : State) (hj : s.suc.startUp = .joined)
    (hd : s.conf.role = .door → s.snu.state.ready = true) (hp : s.conf.role = .panel → s.snu.demand.ready = true) :
    HandsOn s (makeOwn s) := by
  have key : ∀ n : Snu, n.ident = s.snu.ident → (s.conf.role = .door → n.demand = s.snu.demand) →
      (s.conf.role = .panel → n.state = s.snu.state) → KeeperHanded s.snu.demand n.demand →
      KeeperHanded s.snu.state n.state → HandsOn s (tryBegins { s with snu := n }) := by
    intro n hi hd hs ho hq
    have l := tryBegins_lanes { s with snu := n }
    constructor
    case laneA => exact l.1
    case laneB => exact l.2
    case silent => exact fun h => absurd hj h
    case pump => simp [PumpHanded]
    case panel => simp [PanelHanded]
    all_goals simp_all
  rw [makeOwn]
  split
  · rename_i hr
    exact key _ rfl (fun _ => rfl) (fun h => by simp_all) (.inl rfl) (.inr (.inr ⟨hd hr, _, false, rfl⟩))
  · rename_i hr
    exact key _ rfl (fun h => by simp_all) (fun _ => rfl) (.inr (.inr ⟨hp hr, _, false, rfl⟩)) (.inl rfl)

/-- An offer hands on a snapshot or leaves the pending flag (R124, R128). -/
theorem offer_hands (s : State) : HandsOn s (offer s) := by
  have key : ∀ n : Snu, s.suc.startUp = .joined → n.ident = s.snu.ident →
      (s.conf.role = .door → n.demand = s.snu.demand) →
      (s.conf.role = .panel → n.state = s.snu.state) → KeeperHanded s.snu.demand n.demand →
      KeeperHanded s.snu.state n.state → HandsOn s { s with snu := n } := by
    intro n hj hi hd hs ho hq
    constructor
    case laneA => exact .inl rfl
    case laneB => exact .inl rfl
    case silent => exact fun h => absurd hj h
    all_goals simp_all [PumpHanded, PanelHanded]
  rw [offer]
  split
  · rename_i hj
    split
    · rename_i hr
      split
      · rename_i hk
        exact makeOwn_hands s hj (fun _ => hk) (fun h => by simp_all)
      · rename_i hk
        exact key _ hj rfl (fun _ => rfl) (fun h => by simp_all) (.inl rfl) (.inr (.inl ⟨by simpa using hk, rfl⟩))
    · rename_i hr
      split
      · rename_i hk
        exact makeOwn_hands s hj (fun h => by simp_all) (fun _ => hk)
      · rename_i hk
        exact key _ hj rfl (fun h => by simp_all) (fun _ => rfl) (.inr (.inl ⟨by simpa using hk, rfl⟩)) (.inl rfl)
  · exact .same s

/-- Outside JOINED an offer changes nothing (R124). -/
theorem offer_outside (s : State) (h : s.suc.startUp ≠ .joined) : offer s = s := by simp [offer, h]

/-- The figure's offer. -/
theorem offerFigure_hands (old : Option Nat) (s : State) : HandsOn s (offerFigure old s) := by
  simp only [offerFigure]
  split
  · exact offer_hands s
  · exact .same s

/-! ### Alarms -/

/-- Pump control leaves everything of the energy unit but the pump (R64). -/
theorem pumpControl_handed (c : Cfg) (m : Bool) (e : Enu) : PumpHanded e (pumpControl c m e) := by
  rw [PumpHanded, pumpControl]
  (repeat' split) <;> rfl

/-- Only pump control and the lock. -/
theorem pumpReport_handed (x y : List AlarmRecord) (s : State) : PumpHanded s.enu (pumpReport x y s).enu := by
  have h : ∀ b, PumpHanded s.enu (setLocked b s).enu := by
    intro b
    exact PumpHanded.trans' (e := { s.enu with locked := b }) rfl (pumpControl_handed _ _ _)
  simp only [pumpReport]
  split
  · exact h _
  · split
    · exact h _
    · rfl

/-- What an alarm request hands on (R96, R97). -/
theorem alarm_hands (q : AlarmRequest) (s : State) : HandsOn s (alarm q s) := by
  simp only [alarm]
  split
  · rename_i hd
    have h : HandsOn s (pumpReport s.alu (applyRequest q s.alu) { s with alu := applyRequest q s.alu }) := by
      constructor
      case laneA => exact .inl (by simp)
      case laneB => exact .inl (by simp)
      case demandOnce => exact .inl (by simp)
      case stateOnce => exact .inl (by simp)
      case pump => exact pumpReport_handed _ _ _
      case pumpDoor => exact fun h => absurd hd (by simp [h])
      case panel => simp [PanelHanded]
      all_goals simp
    split
    · exact h.trans (offer_hands _)
    · exact h
  · rename_i hd
    split
    · have h : HandsOn s (if newAlarm q s.alu then endSilence { s with alu := applyRequest q s.alu }
          else { s with alu := applyRequest q s.alu }) := by
        constructor
        case laneA => exact .inl (by split <;> rfl)
        case laneB => exact .inl (by split <;> rfl)
        case demandOnce => exact .inl (by split <;> rfl)
        case stateOnce => exact .inl (by split <;> rfl)
        case panelOut => exact fun h => absurd h hd
        case panel => split <;> rfl
        case pump => split <;> rfl
        all_goals (split <;> simp)
      split
      · refine h.trans ?_
        constructor
        case laneA => exact .inl (by simp)
        case laneB => exact .inl (by simp)
        case demandOnce => exact .inl (by simp)
        case stateOnce => exact .inl (by simp)
        case panelOut => exact fun h' => absurd h' (by simpa [State.doorRuns, State.conf, apply_ite State.suc] using hd)
        case panel => rfl
        case pump => rfl
        all_goals simp
      · exact h
    · exact .of_eq rfl rfl rfl rfl rfl rfl rfl rfl rfl rfl rfl rfl rfl rfl

/-- The alarm list after a request is that of the table of R83. -/
@[simp] theorem alarm_alu (q : AlarmRequest) (s : State) : (alarm q s).alu = applyRequest q s.alu := by
  simp only [alarm]
  (repeat' split) <;> simp

/-- A record of a kind after a map that keeps kinds. -/
theorem hasKind_map (k : AlarmKind) (f : AlarmRecord → AlarmRecord) (hf : ∀ r, (f r).kind = r.kind)
    (l : List AlarmRecord) : hasKind k (l.map f) = hasKind k l := by
  simp [hasKind, Function.comp_def, hf]

/-- A request of the door neither enters nor removes a PUMP_FAIL record. -/
theorem applyRequest_pumpFail (q : AlarmRequest) (l : List AlarmRecord) (hq : doorRequest q = true) :
    hasKind .pumpFail (applyRequest q l) = hasKind .pumpFail l := by
  have push : ∀ r : AlarmRecord, r.kind ≠ .pumpFail → hasKind .pumpFail (l ++ [r]) = hasKind .pumpFail l := by
    intro r hr
    simp [hasKind, hr]
  cases q with
  | becameTrue k =>
    have hk : k ≠ .pumpFail := by rintro rfl; simp [doorRequest, isEvent] at hq
    simp only [applyRequest]
    split
    · exact hasKind_map _ _ (fun r => by split <;> rfl) l
    · exact push _ hk
  | becameFalse k =>
    have hk : k ≠ .pumpFail := by rintro rfl; simp [doorRequest, isEvent] at hq
    simp only [applyRequest]
    rw [hasKind_map _ _ (fun r => by split <;> rfl)]
    simp only [hasKind, List.any_filter]
    congr 1
    funext r
    by_cases h : r.kind = k <;> simp [h, hk]
  | occurred k =>
    have hk : k ≠ .pumpFail := by rintro rfl; simp [doorRequest] at hq
    simp only [applyRequest]
    split
    · exact hasKind_map _ _ (fun r => by split <;> rfl) l
    · exact push _ hk
  | acknowledge => simp [doorRequest] at hq

/-- The energy unit is as it was where no PUMP_FAIL record enters or leaves (R96). -/
theorem alarm_enu (q : AlarmRequest) (s : State)
    (h : s.doorRuns = true → hasKind .pumpFail (applyRequest q s.alu) = hasKind .pumpFail s.alu) :
    (alarm q s).enu = s.enu := by
  simp only [alarm]
  split
  · rename_i hd
    have k : ∀ x : State, pumpReport s.alu (applyRequest q s.alu) x = x := by
      intro x
      simp only [pumpReport, h hd]
      cases hasKind .pumpFail s.alu <;> simp
    rw [k]
    split <;> simp
  · (repeat' split) <;> simp

/-- The energy unit after a request of the door. -/
theorem alarm_enu_door (q : AlarmRequest) (s : State) (hq : doorRequest q = true) : (alarm q s).enu = s.enu :=
  alarm_enu q s (fun _ => applyRequest_pumpFail q s.alu hq)

/-- The energy unit after the edge of a condition. -/
theorem alarm_condition_enu (k : AlarmKind) (b : Bool) (s : State) (hk : isEvent k = false) :
    (alarm (condition k b) s).enu = s.enu := by
  refine alarm_enu_door _ s ?_
  cases b <;> simp [condition, doorRequest, hk]

/-! ### The door's blocks -/

/-- The door's blocks and the alarm list may change without anything handed on. -/
theorem HandsOn.door (s : State) (d : Dcu) (t : Trm) (p : Psu) (a : List AlarmRecord) (o : Outs) :
    HandsOn s { s with dcu := d, trm := t, psu := p, alu := a, outs := o } :=
  .of_eq rfl rfl rfl rfl rfl rfl rfl rfl rfl rfl rfl rfl rfl rfl

/-- The pins take no part. -/
theorem setOuts_hands (s : State) : HandsOn s (setOuts s) := HandsOn.door s _ _ _ _ _

/-- Every operation of the door hands on no more than HandsOn says. -/
theorem HandsOn.carried (s : State) : Carried (HandsOn s) where
  door := fun x d t p h => h.trans (HandsOn.door x d t p x.alu x.outs)
  offer := fun _ h => h.trans (offer_hands _)
  alarm := fun _ _ _ h => h.trans (alarm_hands _ _)

end Sys2Proof.Machine
end

