-- ==== Sys2Proof/Laws/Travel.lean ====
section
/-! SUPPORT. What no door event touches in the travel monitor: strokes begin and end, but the position, the reference, the
count and the limit timers stay (R44, R51). -/

namespace Sys2Proof.Machine

/-- Position, reference, count and limit timers are as they were. -/
@[simp] theorem strokeStart_trm (d : Dir) (s : State) :
    (strokeStart d s).trm.pos = s.trm.pos ∧
    (strokeStart d s).trm.running = s.trm.running ∧
    (strokeStart d s).trm.discord = s.trm.discord ∧
    (strokeStart d s).trm.conflict = s.trm.conflict ∧
    (strokeStart d s).trm.count = s.trm.count ∧
    (strokeStart d s).trm.ref = s.trm.ref ∧
    (strokeStart d s).trm.overrun = s.trm.overrun := by
  simp [strokeStart, setTrm]

/-- Position, reference, count and limit timers are as they were. -/
@[simp] theorem strokeEnd_trm (s : State) :
    (strokeEnd s).trm.pos = s.trm.pos ∧
    (strokeEnd s).trm.running = s.trm.running ∧
    (strokeEnd s).trm.discord = s.trm.discord ∧
    (strokeEnd s).trm.conflict = s.trm.conflict ∧
    (strokeEnd s).trm.count = s.trm.count ∧
    (strokeEnd s).trm.ref = s.trm.ref ∧
    (strokeEnd s).trm.overrun = s.trm.overrun := by
  simp only [strokeEnd]; split <;> simp [setTrm]

/-- Position, reference, count and limit timers are as they were. -/
@[simp] theorem valves_trm (s : State) :
    (valves s).trm.pos = s.trm.pos ∧
    (valves s).trm.running = s.trm.running ∧
    (valves s).trm.discord = s.trm.discord ∧
    (valves s).trm.conflict = s.trm.conflict ∧
    (valves s).trm.count = s.trm.count ∧
    (valves s).trm.ref = s.trm.ref ∧
    (valves s).trm.overrun = s.trm.overrun := by
  simp [valves, apply_ite State.trm, apply_ite Trm.pos, apply_ite Trm.running, apply_ite Trm.discord, apply_ite Trm.conflict, apply_ite Trm.count, apply_ite Trm.ref, apply_ite Trm.overrun, ite_self]

/-- Position, reference, count and limit timers are as they were. -/
@[simp] theorem moveTo_trm (d : Dcu) (s : State) :
    (moveTo d s).trm.pos = s.trm.pos ∧
    (moveTo d s).trm.running = s.trm.running ∧
    (moveTo d s).trm.discord = s.trm.discord ∧
    (moveTo d s).trm.conflict = s.trm.conflict ∧
    (moveTo d s).trm.count = s.trm.count ∧
    (moveTo d s).trm.ref = s.trm.ref ∧
    (moveTo d s).trm.overrun = s.trm.overrun := by
  simp only [moveTo]; split <;> simp

/-- Position, reference, count and limit timers are as they were. -/
@[simp] theorem toIdle_trm (c : Ctl) (s : State) :
    (toIdle c s).trm.pos = s.trm.pos ∧
    (toIdle c s).trm.running = s.trm.running ∧
    (toIdle c s).trm.discord = s.trm.discord ∧
    (toIdle c s).trm.conflict = s.trm.conflict ∧
    (toIdle c s).trm.count = s.trm.count ∧
    (toIdle c s).trm.ref = s.trm.ref ∧
    (toIdle c s).trm.overrun = s.trm.overrun := by
  simp [toIdle]

/-- Position, reference, count and limit timers are as they were. -/
@[simp] theorem toWarning_trm (w : WarningCause) (s : State) :
    (toWarning w s).trm.pos = s.trm.pos ∧
    (toWarning w s).trm.running = s.trm.running ∧
    (toWarning w s).trm.discord = s.trm.discord ∧
    (toWarning w s).trm.conflict = s.trm.conflict ∧
    (toWarning w s).trm.count = s.trm.count ∧
    (toWarning w s).trm.ref = s.trm.ref ∧
    (toWarning w s).trm.overrun = s.trm.overrun := by
  simp [toWarning]

/-- Position, reference, count and limit timers are as they were. -/
@[simp] theorem toClosing_trm (c : Cause) (s : State) :
    (toClosing c s).trm.pos = s.trm.pos ∧
    (toClosing c s).trm.running = s.trm.running ∧
    (toClosing c s).trm.discord = s.trm.discord ∧
    (toClosing c s).trm.conflict = s.trm.conflict ∧
    (toClosing c s).trm.count = s.trm.count ∧
    (toClosing c s).trm.ref = s.trm.ref ∧
    (toClosing c s).trm.overrun = s.trm.overrun := by
  simp [toClosing]

/-- Position, reference, count and limit timers are as they were. -/
@[simp] theorem toOpening_trm (s : State) :
    (toOpening s).trm.pos = s.trm.pos ∧
    (toOpening s).trm.running = s.trm.running ∧
    (toOpening s).trm.discord = s.trm.discord ∧
    (toOpening s).trm.conflict = s.trm.conflict ∧
    (toOpening s).trm.count = s.trm.count ∧
    (toOpening s).trm.ref = s.trm.ref ∧
    (toOpening s).trm.overrun = s.trm.overrun := by
  simp [toOpening]

/-- Position, reference, count and limit timers are as they were. -/
@[simp] theorem toClaiming_trm (s : State) :
    (toClaiming s).trm.pos = s.trm.pos ∧
    (toClaiming s).trm.running = s.trm.running ∧
    (toClaiming s).trm.discord = s.trm.discord ∧
    (toClaiming s).trm.conflict = s.trm.conflict ∧
    (toClaiming s).trm.count = s.trm.count ∧
    (toClaiming s).trm.ref = s.trm.ref ∧
    (toClaiming s).trm.overrun = s.trm.overrun := by
  simp [toClaiming]

/-- Position, reference, count and limit timers are as they were. -/
@[simp] theorem toHeldOpen_trm (s : State) :
    (toHeldOpen s).trm.pos = s.trm.pos ∧
    (toHeldOpen s).trm.running = s.trm.running ∧
    (toHeldOpen s).trm.discord = s.trm.discord ∧
    (toHeldOpen s).trm.conflict = s.trm.conflict ∧
    (toHeldOpen s).trm.count = s.trm.count ∧
    (toHeldOpen s).trm.ref = s.trm.ref ∧
    (toHeldOpen s).trm.overrun = s.trm.overrun := by
  simp [toHeldOpen]

/-- Position, reference, count and limit timers are as they were. -/
@[simp] theorem refuse_trm (s : State) :
    (refuse s).trm.pos = s.trm.pos ∧
    (refuse s).trm.running = s.trm.running ∧
    (refuse s).trm.discord = s.trm.discord ∧
    (refuse s).trm.conflict = s.trm.conflict ∧
    (refuse s).trm.count = s.trm.count ∧
    (refuse s).trm.ref = s.trm.ref ∧
    (refuse s).trm.overrun = s.trm.overrun := by
  simp only [refuse]; (repeat' split) <;> simp

/-- Position, reference, count and limit timers are as they were. -/
@[simp] theorem evaluate_trm (s : State) :
    (evaluate s).trm.pos = s.trm.pos ∧
    (evaluate s).trm.running = s.trm.running ∧
    (evaluate s).trm.discord = s.trm.discord ∧
    (evaluate s).trm.conflict = s.trm.conflict ∧
    (evaluate s).trm.count = s.trm.count ∧
    (evaluate s).trm.ref = s.trm.ref ∧
    (evaluate s).trm.overrun = s.trm.overrun := by
  simp only [evaluate]; (repeat' split) <;> simp

/-- Position, reference, count and limit timers are as they were. -/
@[simp] theorem evaluateStanding_trm (s : State) :
    (evaluateStanding s).trm.pos = s.trm.pos ∧
    (evaluateStanding s).trm.running = s.trm.running ∧
    (evaluateStanding s).trm.discord = s.trm.discord ∧
    (evaluateStanding s).trm.conflict = s.trm.conflict ∧
    (evaluateStanding s).trm.count = s.trm.count ∧
    (evaluateStanding s).trm.ref = s.trm.ref ∧
    (evaluateStanding s).trm.overrun = s.trm.overrun := by
  simp only [evaluateStanding]; (repeat' split) <;> simp

/-- Position, reference, count and limit timers are as they were. -/
@[simp] theorem idleRules_trm (s : State) :
    (idleRules s).trm.pos = s.trm.pos ∧
    (idleRules s).trm.running = s.trm.running ∧
    (idleRules s).trm.discord = s.trm.discord ∧
    (idleRules s).trm.conflict = s.trm.conflict ∧
    (idleRules s).trm.count = s.trm.count ∧
    (idleRules s).trm.ref = s.trm.ref ∧
    (idleRules s).trm.overrun = s.trm.overrun := by
  simp only [idleRules]; (repeat' split) <;> simp

/-- Position, reference, count and limit timers are as they were. -/
@[simp] theorem toMatching_trm (s : State) :
    (toMatching s).trm.pos = s.trm.pos ∧
    (toMatching s).trm.running = s.trm.running ∧
    (toMatching s).trm.discord = s.trm.discord ∧
    (toMatching s).trm.conflict = s.trm.conflict ∧
    (toMatching s).trm.count = s.trm.count ∧
    (toMatching s).trm.ref = s.trm.ref ∧
    (toMatching s).trm.overrun = s.trm.overrun := by
  simp only [toMatching]; simp

/-- Position, reference, count and limit timers are as they were. -/
@[simp] theorem stopOrReclose_trm (s : State) :
    (stopOrReclose s).trm.pos = s.trm.pos ∧
    (stopOrReclose s).trm.running = s.trm.running ∧
    (stopOrReclose s).trm.discord = s.trm.discord ∧
    (stopOrReclose s).trm.conflict = s.trm.conflict ∧
    (stopOrReclose s).trm.count = s.trm.count ∧
    (stopOrReclose s).trm.ref = s.trm.ref ∧
    (stopOrReclose s).trm.overrun = s.trm.overrun := by
  simp only [stopOrReclose]; (repeat' split) <;> simp

/-- Position, reference, count and limit timers are as they were. -/
@[simp] theorem onLoPressed_trm (s : State) :
    (onLoPressed s).trm.pos = s.trm.pos ∧
    (onLoPressed s).trm.running = s.trm.running ∧
    (onLoPressed s).trm.discord = s.trm.discord ∧
    (onLoPressed s).trm.conflict = s.trm.conflict ∧
    (onLoPressed s).trm.count = s.trm.count ∧
    (onLoPressed s).trm.ref = s.trm.ref ∧
    (onLoPressed s).trm.overrun = s.trm.overrun := by
  simp only [onLoPressed]; (repeat' split) <;> simp

/-- Position, reference, count and limit timers are as they were. -/
@[simp] theorem onWarningExpiry_trm (s : State) :
    (onWarningExpiry s).trm.pos = s.trm.pos ∧
    (onWarningExpiry s).trm.running = s.trm.running ∧
    (onWarningExpiry s).trm.discord = s.trm.discord ∧
    (onWarningExpiry s).trm.conflict = s.trm.conflict ∧
    (onWarningExpiry s).trm.count = s.trm.count ∧
    (onWarningExpiry s).trm.ref = s.trm.ref ∧
    (onWarningExpiry s).trm.overrun = s.trm.overrun := by
  simp only [onWarningExpiry]; (repeat' split) <;> simp

/-- Position, reference, count and limit timers are as they were. -/
@[simp] theorem onPosition_trm (s : State) :
    (onPosition s).trm.pos = s.trm.pos ∧
    (onPosition s).trm.running = s.trm.running ∧
    (onPosition s).trm.discord = s.trm.discord ∧
    (onPosition s).trm.conflict = s.trm.conflict ∧
    (onPosition s).trm.count = s.trm.count ∧
    (onPosition s).trm.ref = s.trm.ref ∧
    (onPosition s).trm.overrun = s.trm.overrun := by
  simp only [onPosition]; (repeat' split) <;> simp

/-- Position, reference, count and limit timers are as they were. -/
@[simp] theorem onCdChange_trm (s : State) :
    (onCdChange s).trm.pos = s.trm.pos ∧
    (onCdChange s).trm.running = s.trm.running ∧
    (onCdChange s).trm.discord = s.trm.discord ∧
    (onCdChange s).trm.conflict = s.trm.conflict ∧
    (onCdChange s).trm.count = s.trm.count ∧
    (onCdChange s).trm.ref = s.trm.ref ∧
    (onCdChange s).trm.overrun = s.trm.overrun := by
  simp only [onCdChange]; (repeat' split) <;> simp

/-- Position, reference, count and limit timers are as they were. -/
@[simp] theorem onStop_trm (s : State) :
    (onStop s).trm.pos = s.trm.pos ∧
    (onStop s).trm.running = s.trm.running ∧
    (onStop s).trm.discord = s.trm.discord ∧
    (onStop s).trm.conflict = s.trm.conflict ∧
    (onStop s).trm.count = s.trm.count ∧
    (onStop s).trm.ref = s.trm.ref ∧
    (onStop s).trm.overrun = s.trm.overrun := by
  simp only [onStop]; (repeat' split) <;> simp

/-- Position, reference, count and limit timers are as they were. -/
@[simp] theorem onGrant_trm (s : State) :
    (onGrant s).trm.pos = s.trm.pos ∧
    (onGrant s).trm.running = s.trm.running ∧
    (onGrant s).trm.discord = s.trm.discord ∧
    (onGrant s).trm.conflict = s.trm.conflict ∧
    (onGrant s).trm.count = s.trm.count ∧
    (onGrant s).trm.ref = s.trm.ref ∧
    (onGrant s).trm.overrun = s.trm.overrun := by
  simp only [onGrant]; (repeat' split) <;> simp

/-- Position, reference, count and limit timers are as they were. -/
@[simp] theorem onLoReleased_trm (s : State) :
    (onLoReleased s).trm.pos = s.trm.pos ∧
    (onLoReleased s).trm.running = s.trm.running ∧
    (onLoReleased s).trm.discord = s.trm.discord ∧
    (onLoReleased s).trm.conflict = s.trm.conflict ∧
    (onLoReleased s).trm.count = s.trm.count ∧
    (onLoReleased s).trm.ref = s.trm.ref ∧
    (onLoReleased s).trm.overrun = s.trm.overrun := by
  simp only [onLoReleased]; (repeat' split) <;> simp

/-- Position, reference, count and limit timers are as they were. -/
@[simp] theorem onLcReleased_trm (s : State) :
    (onLcReleased s).trm.pos = s.trm.pos ∧
    (onLcReleased s).trm.running = s.trm.running ∧
    (onLcReleased s).trm.discord = s.trm.discord ∧
    (onLcReleased s).trm.conflict = s.trm.conflict ∧
    (onLcReleased s).trm.count = s.trm.count ∧
    (onLcReleased s).trm.ref = s.trm.ref ∧
    (onLcReleased s).trm.overrun = s.trm.overrun := by
  simp only [onLcReleased]; (repeat' split) <;> simp

/-- Position, reference, count and limit timers are as they were. -/
@[simp] theorem rederive_trm (s : State) :
    (rederive s).trm.pos = s.trm.pos ∧
    (rederive s).trm.running = s.trm.running ∧
    (rederive s).trm.discord = s.trm.discord ∧
    (rederive s).trm.conflict = s.trm.conflict ∧
    (rederive s).trm.count = s.trm.count ∧
    (rederive s).trm.ref = s.trm.ref ∧
    (rederive s).trm.overrun = s.trm.overrun := by
  simp only [rederive]; (repeat' split) <;> simp

/-- Position, reference, count and limit timers are as they were. -/
@[simp] theorem evaluateClaim_trm (s : State) :
    (evaluateClaim s).trm.pos = s.trm.pos ∧
    (evaluateClaim s).trm.running = s.trm.running ∧
    (evaluateClaim s).trm.discord = s.trm.discord ∧
    (evaluateClaim s).trm.conflict = s.trm.conflict ∧
    (evaluateClaim s).trm.count = s.trm.count ∧
    (evaluateClaim s).trm.ref = s.trm.ref ∧
    (evaluateClaim s).trm.overrun = s.trm.overrun := by
  simp only [evaluateClaim]; (repeat' split) <;> simp

/-- Position, reference, count and limit timers are as they were. -/
@[simp] theorem onLcPressed_trm (w : Bool) (s : State) :
    (onLcPressed w s).trm.pos = s.trm.pos ∧
    (onLcPressed w s).trm.running = s.trm.running ∧
    (onLcPressed w s).trm.discord = s.trm.discord ∧
    (onLcPressed w s).trm.conflict = s.trm.conflict ∧
    (onLcPressed w s).trm.count = s.trm.count ∧
    (onLcPressed w s).trm.ref = s.trm.ref ∧
    (onLcPressed w s).trm.overrun = s.trm.overrun := by
  simp only [onLcPressed]; (repeat' split) <;> simp

/-- Position, reference, count and limit timers are as they were. -/
@[simp] theorem recompute_trm (s : State) :
    (recompute s).trm.pos = s.trm.pos ∧
    (recompute s).trm.running = s.trm.running ∧
    (recompute s).trm.discord = s.trm.discord ∧
    (recompute s).trm.conflict = s.trm.conflict ∧
    (recompute s).trm.count = s.trm.count ∧
    (recompute s).trm.ref = s.trm.ref ∧
    (recompute s).trm.overrun = s.trm.overrun := by
  simp [recompute, doorEvent]

/-- Position, reference, count and limit timers are as they were. -/
@[simp] theorem onHoldExpiry_trm (s : State) :
    (onHoldExpiry s).trm.pos = s.trm.pos ∧
    (onHoldExpiry s).trm.running = s.trm.running ∧
    (onHoldExpiry s).trm.discord = s.trm.discord ∧
    (onHoldExpiry s).trm.conflict = s.trm.conflict ∧
    (onHoldExpiry s).trm.count = s.trm.count ∧
    (onHoldExpiry s).trm.ref = s.trm.ref ∧
    (onHoldExpiry s).trm.overrun = s.trm.overrun := by
  simp [onHoldExpiry]

/-- Position, reference, count and limit timers are as they were. -/
@[simp] theorem peerNotice_trm (s : State) :
    (peerNotice s).trm.pos = s.trm.pos ∧
    (peerNotice s).trm.running = s.trm.running ∧
    (peerNotice s).trm.discord = s.trm.discord ∧
    (peerNotice s).trm.conflict = s.trm.conflict ∧
    (peerNotice s).trm.count = s.trm.count ∧
    (peerNotice s).trm.ref = s.trm.ref ∧
    (peerNotice s).trm.overrun = s.trm.overrun := by
  simp only [peerNotice]; split <;> simp [doorEvent]

/-- Position, reference, count and limit timers are as they were. -/
@[simp] theorem giveNotice_trm (n : Notice) (s : State) :
    (giveNotice n s).trm.pos = s.trm.pos ∧
    (giveNotice n s).trm.running = s.trm.running ∧
    (giveNotice n s).trm.discord = s.trm.discord ∧
    (giveNotice n s).trm.conflict = s.trm.conflict ∧
    (giveNotice n s).trm.count = s.trm.count ∧
    (giveNotice n s).trm.ref = s.trm.ref ∧
    (giveNotice n s).trm.overrun = s.trm.overrun := by
  simp only [giveNotice]; (repeat' split) <;> simp

/-- Position, reference, count and limit timers are as they were. -/
@[simp] theorem acceptTelegram_trm (o : Option Entry) (t : Telegram) (s : State) :
    (acceptTelegram o t s).trm.pos = s.trm.pos ∧
    (acceptTelegram o t s).trm.running = s.trm.running ∧
    (acceptTelegram o t s).trm.discord = s.trm.discord ∧
    (acceptTelegram o t s).trm.conflict = s.trm.conflict ∧
    (acceptTelegram o t s).trm.count = s.trm.count ∧
    (acceptTelegram o t s).trm.ref = s.trm.ref ∧
    (acceptTelegram o t s).trm.overrun = s.trm.overrun := by
  simp only [acceptTelegram]; split <;> simp

/-- Position, reference, count and limit timers are as they were. -/
@[simp] theorem goStale_trm (e : Entry) (s : State) :
    (goStale e s).trm.pos = s.trm.pos ∧
    (goStale e s).trm.running = s.trm.running ∧
    (goStale e s).trm.discord = s.trm.discord ∧
    (goStale e s).trm.conflict = s.trm.conflict ∧
    (goStale e s).trm.count = s.trm.count ∧
    (goStale e s).trm.ref = s.trm.ref ∧
    (goStale e s).trm.overrun = s.trm.overrun := by
  simp [goStale]

/-- Position, reference, count and limit timers are as they were. -/
@[simp] theorem toMute_trm (s : State) :
    (toMute s).trm.pos = s.trm.pos ∧
    (toMute s).trm.running = s.trm.running ∧
    (toMute s).trm.discord = s.trm.discord ∧
    (toMute s).trm.conflict = s.trm.conflict ∧
    (toMute s).trm.count = s.trm.count ∧
    (toMute s).trm.ref = s.trm.ref ∧
    (toMute s).trm.overrun = s.trm.overrun := by
  simp only [toMute]; split <;> simp [doorEvent, apply_ite State.trm, apply_ite Trm.pos, apply_ite Trm.running, apply_ite Trm.discord, apply_ite Trm.conflict, apply_ite Trm.count, apply_ite Trm.ref, apply_ite Trm.overrun, ite_self]

/-- Position, reference, count and limit timers are as they were. -/
@[simp] theorem takeOwn_trm (s : State) :
    (takeOwn s).trm.pos = s.trm.pos ∧
    (takeOwn s).trm.running = s.trm.running ∧
    (takeOwn s).trm.discord = s.trm.discord ∧
    (takeOwn s).trm.conflict = s.trm.conflict ∧
    (takeOwn s).trm.count = s.trm.count ∧
    (takeOwn s).trm.ref = s.trm.ref ∧
    (takeOwn s).trm.overrun = s.trm.overrun := by
  simp only [takeOwn]; split <;> simp

/-- Position, reference, count and limit timers are as they were. -/
@[simp] theorem takeOther_trm (t : Telegram) (s : State) :
    (takeOther t s).trm.pos = s.trm.pos ∧
    (takeOther t s).trm.running = s.trm.running ∧
    (takeOther t s).trm.discord = s.trm.discord ∧
    (takeOther t s).trm.conflict = s.trm.conflict ∧
    (takeOther t s).trm.count = s.trm.count ∧
    (takeOther t s).trm.ref = s.trm.ref ∧
    (takeOther t s).trm.overrun = s.trm.overrun := by
  simp only [takeOther]; (repeat' split) <;> simp

/-- Position, reference, count and limit timers are as they were. -/
@[simp] theorem takeTelegram_trm (t : Telegram) (s : State) :
    (takeTelegram t s).trm.pos = s.trm.pos ∧
    (takeTelegram t s).trm.running = s.trm.running ∧
    (takeTelegram t s).trm.discord = s.trm.discord ∧
    (takeTelegram t s).trm.conflict = s.trm.conflict ∧
    (takeTelegram t s).trm.count = s.trm.count ∧
    (takeTelegram t s).trm.ref = s.trm.ref ∧
    (takeTelegram t s).trm.overrun = s.trm.overrun := by
  simp only [takeTelegram]; split <;> simp

/-- Position, reference, count and limit timers are as they were. -/
@[simp] theorem joinDoor_trm (s : State) :
    (joinDoor s).trm.pos = s.trm.pos ∧
    (joinDoor s).trm.running = s.trm.running ∧
    (joinDoor s).trm.discord = s.trm.discord ∧
    (joinDoor s).trm.conflict = s.trm.conflict ∧
    (joinDoor s).trm.count = s.trm.count ∧
    (joinDoor s).trm.ref = s.trm.ref ∧
    (joinDoor s).trm.overrun = s.trm.overrun := by
  simp only [joinDoor]; split <;> simp [doorEvent]

/-- Position, reference, count and limit timers are as they were. -/
@[simp] theorem gateHandsOn_trm (b a : Enu) (s : State) :
    (gateHandsOn b a s).trm.pos = s.trm.pos ∧
    (gateHandsOn b a s).trm.running = s.trm.running ∧
    (gateHandsOn b a s).trm.discord = s.trm.discord ∧
    (gateHandsOn b a s).trm.conflict = s.trm.conflict ∧
    (gateHandsOn b a s).trm.count = s.trm.count ∧
    (gateHandsOn b a s).trm.ref = s.trm.ref ∧
    (gateHandsOn b a s).trm.overrun = s.trm.overrun := by
  simp only [gateHandsOn]; (repeat' split) <;> simp [doorEvent]

end Sys2Proof.Machine
end

