-- ==== Sys2Proof/Laws/Door.lean ====
section
/-! SUPPORT. What the valves and a move between control states leave in the door control unit and the passage unit: one lemma
for each says all of it (R13, R24 to R28, R70, R77). -/

namespace Sys2Proof.Machine

/-- The valves change nothing of the door control unit but themselves and their pause timers (R27, R28). -/
@[simp] theorem valves_dcu (s : State) :
    (valves s).dcu.ctl = s.dcu.ctl ∧ (valves s).dcu.cause = s.dcu.cause ∧ (valves s).dcu.wcause = s.dcu.wcause ∧
      (valves s).dcu.warnTimer = s.dcu.warnTimer ∧ (valves s).dcu.held = s.dcu.held ∧
      (valves s).dcu.mode = s.dcu.mode ∧ (valves s).dcu.groupDemand = s.dcu.groupDemand ∧
      (valves s).dcu.panelHeard = s.dcu.panelHeard ∧ (valves s).dcu.cd = s.dcu.cd ∧
      (valves s).dcu.lockout = s.dcu.lockout := by
  simp only [valves]
  (repeat' split) <;> simp

/-- The energy unit after a stroke ends. -/
@[simp] theorem strokeEnd_enu (s : State) : (strokeEnd s).enu = s.enu := by
  simp only [strokeEnd]
  split
  · rw [alarm_enu_door _ _ rfl]
    simp
  · simp

/-- VCL after the valves follow: in CLOSING alone, already on or its pause expired with VOP off (R27, R28). -/
theorem valves_vcl (s : State) :
    (valves s).dcu.vcl = (s.dcu.ctl == .closing && (s.dcu.vcl || (!s.dcu.vop && s.dcu.vclPause.isNone))) := by
  simp only [valves]
  (repeat' split) <;> simp_all
  by_cases hc : s.dcu.ctl = .closing <;> by_cases ho : s.dcu.ctl = .opening <;> cases hv : s.dcu.vcl <;>
    cases hw : s.dcu.vop <;> simp_all [Option.isSome_iff_ne_none]

/-- VOP after the valves follow: in OPENING alone, already on or its pause expired with VCL off and the permission to
continue held (R27, R28). -/
theorem valves_vop (s : State) :
    (valves s).dcu.vop =
      (s.dcu.ctl == .opening && (s.dcu.vop || (!s.dcu.vcl && s.dcu.vopPause.isNone && s.enu.permCont))) := by
  simp only [valves]
  (repeat' split) <;> simp_all
  by_cases hc : s.dcu.ctl = .closing <;> by_cases ho : s.dcu.ctl = .opening <;> cases hv : s.dcu.vcl <;>
    cases hw : s.dcu.vop <;> simp_all

/-- The energy unit after the valves. -/
@[simp] theorem valves_enu (s : State) : (valves s).enu = s.enu := by
  simp only [valves]
  (repeat' split) <;> simp

/-- A move takes the items of its record (R13, R15, R20, R24, R70). -/
@[simp] theorem moveTo_dcu (d : Dcu) (s : State) :
    (moveTo d s).dcu.ctl = d.ctl ∧ (moveTo d s).dcu.cause = d.cause ∧ (moveTo d s).dcu.wcause = d.wcause ∧
      (moveTo d s).dcu.warnTimer = d.warnTimer ∧ (moveTo d s).dcu.held = d.held ∧ (moveTo d s).dcu.mode = d.mode ∧
      (moveTo d s).dcu.groupDemand = d.groupDemand ∧ (moveTo d s).dcu.panelHeard = d.panelHeard ∧
      (moveTo d s).dcu.cd = d.cd ∧ (moveTo d s).dcu.lockout = d.lockout := by
  simp only [moveTo]
  split <;> simp

/-- The claim after a move (R70, R77). -/
@[simp] theorem moveTo_psu (d : Dcu) (s : State) :
    (moveTo d s).psu = claimFor s.conf.claimHold s.dcu.ctl d.ctl s.psu := by
  simp only [moveTo]
  split <;> simp

/-- VCL after a move. -/
theorem moveTo_vcl (d : Dcu) (s : State) :
    (moveTo d s).dcu.vcl = (d.ctl == .closing && (d.vcl || (!d.vop && d.vclPause.isNone))) := by
  simp only [moveTo]
  split <;> simp [valves_vcl]

/-- VOP after a move. -/
theorem moveTo_vop (d : Dcu) (s : State) :
    (moveTo d s).dcu.vop = (d.ctl == .opening && (d.vop || (!d.vcl && d.vopPause.isNone && s.enu.permCont))) := by
  simp only [moveTo]
  split <;> simp [valves_vop]

/-- The energy unit after a move. -/
@[simp] theorem moveTo_enu (d : Dcu) (s : State) : (moveTo d s).enu = s.enu := by
  simp only [moveTo]
  split
  · rw [alarm_enu_door _ _ rfl]
    simp
  · simp

/-- The claim items at a move outside CLAIMING on both sides. -/
theorem claimFor_outside (hold : Nat) {a b : Ctl} (p : Psu) (ha : a ≠ .claiming) (hb : b ≠ .claiming) :
    claimFor hold a b p = p := by
  simp [claimFor, ha, hb]

/-! ### A move -/

/-- The travel monitor after a stroke ends (R44). -/
theorem strokeEnd_trm_eq (s : State) : (strokeEnd s).trm = s.trm.strokeEnds s.conf := by
  simp only [strokeEnd]
  split <;> simp [setTrm, Trm.strokeEnds, Trm.slowed]

/-- The alarm list after a stroke ends (R45). -/
theorem strokeEnd_alu (s : State) : (strokeEnd s).alu =
    applyRequests (asked (s.trm.stroke == some .closing && s.trm.strokeTimer.isPast) (.becameFalse .closeTimeout))
      s.alu := by
  simp only [strokeEnd, asked, applyRequests]
  split <;> simp_all [setTrm]

/-- The pause timers after the valves follow: restarted by the other valve's switching off alone (R27). -/
theorem valves_pauses (s : State) :
    (valves s).dcu.vclPause = (if s.dcu.vop && s.dcu.ctl != .opening then some 0 else s.dcu.vclPause) ∧
      (valves s).dcu.vopPause = (if s.dcu.vcl && s.dcu.ctl != .closing then some 0 else s.dcu.vopPause) := by
  simp only [valves]
  (repeat' split) <;> simp_all

/-- Two records of the door control unit agree when their items agree. -/
theorem Dcu.eq_of_items {a b : Dcu} (h : a.ctl = b.ctl ∧ a.cause = b.cause ∧ a.wcause = b.wcause ∧
    a.warnTimer = b.warnTimer ∧ a.held = b.held ∧ a.mode = b.mode ∧ a.groupDemand = b.groupDemand ∧
    a.panelHeard = b.panelHeard ∧ a.cd = b.cd ∧ a.lockout = b.lockout) (v : a.vcl = b.vcl) (w : a.vop = b.vop)
    (p : a.vclPause = b.vclPause ∧ a.vopPause = b.vopPause) : a = b := by
  cases a
  cases b
  simp_all

/-- The door control unit after the valves follow (R27, R28). -/
theorem valves_dcu_eq (s : State) : (valves s).dcu = s.dcu.driven s.enu.permCont :=
  Dcu.eq_of_items (valves_dcu s) (valves_vcl s) (valves_vop s) (valves_pauses s)

/-- A stroke end on a stroke that has ended changes nothing more. -/
theorem Trm.strokeEnds_strokeEnds (c : Cfg) (t : Trm) : (t.strokeEnds c).strokeEnds c = t.strokeEnds c := by
  simp [Trm.strokeEnds, Trm.slowed, vslFor]

/-- The travel monitor after the valves follow (R28, R44). -/
theorem valves_trm_eq (s : State) : (valves s).trm = s.trm.driven s.conf s.dcu (valves s).dcu := by
  have hv := valves_vcl s
  have hw := valves_vop s
  simp only [Trm.driven, switchedOff, hv, hw]
  clear hv hw
  simp only [valves]
  by_cases hc : s.dcu.ctl = .closing
  · have ho : s.dcu.ctl ≠ .opening := by simp [hc]
    cases hv : s.dcu.vcl <;> cases hw : s.dcu.vop <;> cases hp : s.dcu.vclPause <;>
      simp [hc, hv, hw, hp, strokeEnd_trm_eq, strokeStart, setTrm, Trm.strokeBegins, Trm.slowed, State.conf]
  · by_cases ho : s.dcu.ctl = .opening
    · cases hv : s.dcu.vcl <;> cases hw : s.dcu.vop <;> cases hp : s.dcu.vopPause <;> cases hk : s.enu.permCont <;>
        simp [ho, hv, hw, hp, hk, strokeEnd_trm_eq, strokeStart, setTrm, Trm.strokeBegins, Trm.slowed, State.conf]
    · cases hv : s.dcu.vcl <;> cases hw : s.dcu.vop <;>
        simp [hc, ho, hv, hw, strokeEnd_trm_eq, Trm.strokeEnds_strokeEnds, State.conf]

/-- The alarm list after the valves follow (R45). -/
theorem valves_alu_eq (s : State) : (valves s).alu =
    applyRequests (asked (switchedOff s.dcu (valves s).dcu && s.trm.stroke == some .closing && s.trm.strokeTimer.isPast)
      (.becameFalse .closeTimeout)) s.alu := by
  have hv := valves_vcl s
  have hw := valves_vop s
  simp only [switchedOff, hv, hw]
  clear hv hw
  simp only [valves]
  by_cases hc : s.dcu.ctl = .closing
  · have ho : s.dcu.ctl ≠ .opening := by simp [hc]
    cases hv : s.dcu.vcl <;> cases hw : s.dcu.vop <;> cases hp : s.dcu.vclPause <;>
      simp [hc, hv, hw, hp, strokeEnd_alu, asked, applyRequests]
  · by_cases ho : s.dcu.ctl = .opening
    · cases hv : s.dcu.vcl <;> cases hw : s.dcu.vop <;> cases hp : s.dcu.vopPause <;> cases hk : s.enu.permCont <;>
        simp [ho, hv, hw, hp, hk, strokeEnd_alu, asked, applyRequests]
    · cases hv : s.dcu.vcl <;> cases hw : s.dcu.vop <;>
        simp [hc, ho, hv, hw, strokeEnd_alu, strokeEnd_trm_eq, Trm.strokeEnds, Trm.slowed, asked, applyRequests]

/-- A look at PASSAGE_EXCESS sets the flag to the condition, and asks for its edge alone (R80). -/
theorem excessLook_psu (s : State) : (excessLook s).psu = { s.psu with excess := excessNow s } ∧
    (excessLook s).alu =
      applyRequests (asked (excessNow s != s.psu.excess) (condition .passageExcess (excessNow s))) s.alu ∧
    (excessLook s).enu = s.enu := by
  simp only [excessLook, asked, applyRequests]
  split
  · rename_i h
    simp [h]
  · rename_i h
    rw [alarm_condition_enu _ _ _ rfl]
    simp [h]

/-- PASSAGE_EXCESS as judged depends on the control state, the claim's limit flag, the configuration and the table (R80). -/
theorem excessNow_of_eq {s t : State} (h1 : t.dcu.ctl = s.dcu.ctl) (h2 : t.psu.inForce = s.psu.inForce)
    (h3 : t.suc = s.suc) (h4 : t.ste = s.ste) : excessNow t = excessNow s := by
  unfold excessNow lowerOccupants State.conf
  rw [h1, h2, h3, h4]

/-- What a move of the control state hands on (R31, R80). -/
theorem report_moved (b s : State) (h : b.dcu.ctl ≠ s.dcu.ctl) :
    (report b s).psu = { s.psu with excess := excessNow s } ∧
      (report b s).alu =
        applyRequests (asked (excessNow s != s.psu.excess) (condition .passageExcess (excessNow s))) s.alu ∧
      (report b s).enu = s.enu := by
  simp only [report, if_pos h]
  have k : ∀ x : State, x.dcu = s.dcu → x.psu = s.psu → x.suc = s.suc → x.ste = s.ste → x.alu = s.alu →
      x.enu = s.enu → (excessLook x).psu = { s.psu with excess := excessNow s } ∧ (excessLook x).alu =
        applyRequests (asked (excessNow s != s.psu.excess) (condition .passageExcess (excessNow s))) s.alu ∧
      (excessLook x).enu = s.enu := by
    intro x h1 h2 h3 h4 h5 h6
    have e : excessNow x = excessNow s := excessNow_of_eq (by rw [h1]) (by rw [h2]) h3 h4
    have l := excessLook_psu x
    rw [e, h2, h5, h6] at l
    exact l
  apply k <;> (repeat' split) <;> simp

/-- The alarm list after several requests in a row. -/
theorem applyRequests_append (p q : List AlarmRequest) (l : List AlarmRecord) :
    applyRequests (p ++ q) l = applyRequests q (applyRequests p l) := by
  simp [applyRequests]

/-- A door event that moves between two control states is a move (R31, R80). -/
theorem doorEvent_moved (d : Dcu) (s : State) (f : State → State) (hf : f s = moveTo d s) (h : d.ctl ≠ s.dcu.ctl) :
    Moved s d (setOuts (doorEvent f s)) := by
  have hc : s.dcu.ctl ≠ (moveTo d s).dcu.ctl := by simpa using Ne.symm h
  obtain ⟨hp, ha, he⟩ := report_moved s (moveTo d s) hc
  have hx : excessNow (setOuts (report s (moveTo d s))) = excessNow (moveTo d s) :=
    excessNow_of_eq (by simp) (by simp [hp]) (by simp) (by simp)
  have hd : (moveTo d s).dcu = d.driven s.enu.permCont := by
    simp only [moveTo]
    split <;> simp [valves_dcu_eq]
  have ht : (moveTo d s).trm = s.trm.driven s.conf d (moveTo d s).dcu := by
    have e := valves_trm_eq { s with dcu := d, psu := claimFor s.conf.claimHold s.dcu.ctl d.ctl s.psu }
    simp only [moveTo]
    split
    · simp only [alarm_keeps]
      exact e
    · exact e
  have hl : (moveTo d s).alu = applyRequests
      (asked (switchedOff d (moveTo d s).dcu && s.trm.stroke == some .closing && s.trm.strokeTimer.isPast)
          (.becameFalse .closeTimeout) ++
        asked (s.dcu.ctl == .heldOpen && d.ctl != .heldOpen && s.dcu.held.isPast) (.becameFalse .openTooLong))
      s.alu := by
    have e := valves_alu_eq { s with dcu := d, psu := claimFor s.conf.claimHold s.dcu.ctl d.ctl s.psu }
    rw [applyRequests_append]
    simp only [moveTo]
    split
    · rename_i h
      have k : (s.dcu.ctl == .heldOpen && d.ctl != .heldOpen && s.dcu.held.isPast) = true := by simpa [and_assoc] using h
      rw [k, alarm_alu, (alarm_keeps _ _).2.2.2.2.2.1, e]
      rfl
    · rename_i h
      have k : (s.dcu.ctl == .heldOpen && d.ctl != .heldOpen && s.dcu.held.isPast) = false := by
        simpa [and_assoc] using h
      rw [k, e]
      rfl
  rw [doorEvent, hf]
  constructor
  case dcu => simp [hd]
  case trm =>
    simp only [setOuts_keeps, report_keeps, ht]
  case psu => simp [hx, hp]
  case alu =>
    have hq : (claimFor s.conf.claimHold s.dcu.ctl d.ctl s.psu).excess = s.psu.excess := by
      simp only [claimFor]
      (repeat' split) <;> rfl
    simp only [setOuts_keeps, hx, ha, report_keeps, hl, moveTo_psu, ← applyRequests_append, hq]
  case enu => simp [he]
  case outs => rfl
  case hands => exact ((HandsOn.carried s).doorEvent _ ((HandsOn.carried s).moveTo _ (.same s))).trans (setOuts_hands _)

end Sys2Proof.Machine
end

