-- ==== Sys2Proof/Laws/Shift.lean ====
section
/-! SUPPORT. What a frame leaves in the lamp chain (R159), and the transfer of a configuration read byte by byte (R169). -/

namespace Sys2Proof.Machine

/-- The first 272 stages after a shift are those of the levels in reverse, before what stood. -/
theorem chainAfter_take (stages levels : List Bool) :
    (chainAfter stages levels).take 272 = (levels.reverse ++ stages).take 272 := by
  induction levels generalizing stages with
  | nil => rfl
  | cons l ls ih =>
    rw [chainAfter, List.foldl_cons, ← chainAfter, ih]
    simp only [chainShift, List.take_append, List.take_take, List.reverse_cons, List.append_assoc, List.singleton_append,
      Nat.min_eq_left (Nat.sub_le _ _)]

/-- The chain has 272 stages. -/
theorem chainAfter_length (stages levels : List Bool) (h : stages.length ≤ 272) : (chainAfter stages levels).length ≤ 272 := by
  induction levels generalizing stages with
  | nil => exact h
  | cons l ls ih =>
    rw [chainAfter, List.foldl_cons, ← chainAfter]
    exact ih _ (by simp [chainShift])

/-- A whole frame fills the chain: position p stands in stage p, whatever stood there before. -/
theorem chainAfter_frame (stages frame : List Bool) (h : frame.length = 272) : chainAfter stages (ldaOrder frame) = frame := by
  have hl : (chainAfter stages (ldaOrder frame)).length ≤ 272 := by
    obtain ⟨l, ls, hc⟩ : ∃ l ls, ldaOrder frame = l :: ls := by
      match hf : ldaOrder frame with
      | [] => exact absurd (congrArg List.length hf) (by simp [ldaOrder, h])
      | l :: ls => exact ⟨l, ls, rfl⟩
    rw [hc, chainAfter, List.foldl_cons, ← chainAfter]
    exact chainAfter_length _ _ (by simp [chainShift])
  have ht := chainAfter_take stages (ldaOrder frame)
  rw [List.take_of_length_le hl] at ht
  simpa [ldaOrder, List.take_append, h, List.take_of_length_le (Nat.le_of_eq h)] using ht

/-- Every byte of a transfer is acknowledged but the last. -/
theorem sequentialRead_concat (bytes : List Byte) (b : Byte) :
    sequentialRead (bytes ++ [b]) = bytes.map (fun x => .read x true) ++ [.read b false] := by
  induction bytes with
  | nil => rfl
  | cons x xs ih =>
    cases xs with
    | nil => rfl
    | cons y ys => simpa [sequentialRead] using ih

/-- The attempt that a reset begins is that of the state after reset. -/
theorem readAttempt_eq : readAttempt = Suc.reset.bus := rfl

end Sys2Proof.Machine
end

