-- ==== Sys2Proof/Laws/Step.lean ====
section
/-! SUPPORT. What a step can do, and how an invariant of commands and of the clock is one of steps. -/

namespace Sys2Proof.Machine

/-- A step that answers a state has taken the front of the queue, or a due expiry, or let a millisecond pass. -/
theorem step_cases {s t : State} (h : step s = .next t) :
    (∃ c rest, s.pending = c :: rest ∧ exec c { s with pending := rest } = .next t) ∨
      (s.pending = [] ∧ ∃ c, due s = some c ∧ exec c s = .next t) ∨
      (s.pending = [] ∧ due s = none ∧ t = tick s) := by
  rw [step] at h
  split at h
  · exact .inl ⟨_, _, ‹_›, h⟩
  · split at h
    · exact .inr (.inl ⟨‹_›, _, ‹_›, h⟩)
    · exact .inr (.inr ⟨‹_›, ‹_›, by cases h; rfl⟩)

/-- A property that does not look at the queue, that every command keeps and that a millisecond keeps, is kept by a step. -/
theorem step_keeps {P : State → Prop} (queue : ∀ s q, P s → P { s with pending := q })
    (command : ∀ c s t, P s → exec c s = .next t → P t) (clock : ∀ s, P s → P (tick s)) {s t : State} (h : P s)
    (e : step s = .next t) : P t := by
  obtain ⟨c, rest, -, k⟩ | ⟨-, c, -, k⟩ | ⟨-, -, rfl⟩ := step_cases e
  · exact command c _ t (queue s rest h) k
  · exact command c s t h k
  · exact clock s h

end Sys2Proof.Machine
end

