-- ==== Sys2Proof/WellFormed.lean ====
section
/-! DEFINITION. Which commands are well formed: operands in the ranges the manual gives them. A command that is not well
formed names something that cannot happen; its meaning acts nowhere or takes the operand as it stands (log 6). -/

namespace Sys2Proof

/-- A station number (1.7). -/
def stationOk (n : Nat) : Bool := 1 ≤ n && n ≤ 63

/-- A momentary key with a held timer (R155, R166). -/
def momentaryOk (p : Nat) : Bool := p < 20 && p != 16

/-- The longest telegram: header, eleven payload bytes, check (R118, R144). -/
def longestTelegram : Nat := 16

/-- The cells of the longest telegram's bytes (R136). -/
def longestCells : Nat := 8 * longestTelegram

/-- Operands in range. -/
def Instr.wf : Instr → Bool
  | .reset _ _ => true
  | .configAddressNotAcked => true
  | .configRetryWaitExpiry => true
  | .configReadDone image _ => image.length == 128
  | .listenTimerExpiry => true
  | .flashEdge => true
  | .levelInputEdge _ _ => true
  | .limitDebouncedChange _ _ => true
  | .lcPressed _ => true
  | .lcReleased _ => true
  | .loPressed _ => true
  | .loReleased _ => true
  | .warningTimerExpiry => true
  | .pauseTimerExpiry _ => true
  | .heldOpenLimit => true
  | .discordTimerExpiry => true
  | .conflictTimerExpiry => true
  | .positionPulse _ _ => true
  | .closeMaximumPassed => true
  | .openMaximumPassed => true
  | .stallWindowEnd => true
  | .handMoveArmingExpiry => true
  | .handMoveWindowEnd => true
  | .pfqPulse _ => true
  | .gateEnd => true
  | .mainsDebouncedChange _ => true
  | .pumpRunLimit => true
  | .claimHoldExpiry => true
  | .alarmAgeTick _ => true
  | .telegramTaken => true
  | .entryGoesStale station => stationOk station
  | .laneHeardAgeLimit station _ => stationOk station
  | .spacingTimerEnd => true
  | .refreshTimerExpiry => true
  | .identTimerExpiry => true
  | .laneQuiet _ => true
  | .dominantEdgeQuietLane _ => true
  | .startMarkMeasured _ _ => true
  | .arbitrationByteReceived _ levels => levels.length == 8
  | .arbitrationLost _ => true
  | .bitError _ readBack => readBack.length ≤ longestCells
  | .withdrawalEnd _ => true
  | .telegramSendComplete _ _ => true
  | .telegramReceiveComplete _ rest => rest.length ≤ longestCells
  | .receptionCutShort _ rest => rest.length ≤ longestCells
  | .lineStuck _ => true
  | .silenceTimerExpiry _ => true
  | .keyScan _ => true
  | .groupClosePress group => 1 ≤ group && group ≤ 16
  | .modeSelectorChange _ => true
  | .ackPress => true
  | .silencePress => true
  | .lampTestPress => true
  | .lampTestRelease => true
  | .keyRelease position => momentaryOk position && position != 19
  | .lampTestTimeout => true
  | .keyHeldLimit position => momentaryOk position
  | .modeConflictTimerExpiry => true
  | .lampFrame => true
  | .diagAddress _ => true
  | .diagStop => true
  | .diagOutOfSequence => true
  | .diagSubaddress _ => true
  | .pageSelect byte => byte.toNat < 4 || (16 ≤ byte.toNat && byte.toNat ≤ 78)
  | .counterClear _ => true
  | .diagWriteRefused _ => true
  | .diagReadCopy => true
  | .diagReadByte _ => true
  | .captureAgeTick => true
  | .arbitrationWon _ => true
  | .csdLowAfterNineClocks => true

end Sys2Proof
end

