-- ==== Sys2Proof/Tests/Slice0.lean ====
section
/-! SUPPORT. The author's tests: ill-formed operands refused, the manual's worked figures, a step for each family, and a witness
for every statement that has hypotheses. -/

namespace Sys2Proof.Tests

open Sys2Proof Sys2Proof.Machine

set_option Elab.async false

/-! ### Well-formedness -/

theorem test_wf_image_length : Instr.wf (.configReadDone (List.replicate 127 0) 0) = false := by decide +kernel
theorem test_wf_stale_station : Instr.wf (.entryGoesStale 0) = false ∧ Instr.wf (.entryGoesStale 64) = false := by decide
theorem test_wf_heard_station : Instr.wf (.laneHeardAgeLimit 64 .a) = false := by decide
theorem test_wf_read_back : Instr.wf (.bitError .a (List.replicate 129 true)) = false := by decide +kernel
theorem test_wf_arbitration_cells : Instr.wf (.arbitrationByteReceived .a (List.replicate 7 true)) = false := by decide
theorem test_wf_receive_rest : Instr.wf (.telegramReceiveComplete .a (List.replicate 129 true)) = false := by decide +kernel
theorem test_wf_cut_short_rest : Instr.wf (.receptionCutShort .b (List.replicate 129 true)) = false := by decide +kernel
theorem test_wf_group : Instr.wf (.groupClosePress 0) = false ∧ Instr.wf (.groupClosePress 17) = false := by decide
theorem test_wf_release : Instr.wf (.keyRelease 16) = false ∧ Instr.wf (.keyRelease 19) = false ∧
    Instr.wf (.keyRelease 20) = false := by decide
theorem test_wf_held_key : Instr.wf (.keyHeldLimit 16) = false ∧ Instr.wf (.keyHeldLimit 20) = false := by decide
theorem test_wf_page : Instr.wf (.pageSelect 4) = false ∧ Instr.wf (.pageSelect 79) = false := by decide
theorem test_wf_accepts : Instr.wf (.groupClosePress 16) = true ∧ Instr.wf (.pageSelect 78) = true := by decide

/-! ### States -/

/-- Door 31 of 3.6.1, travel count of the worked case of 2.4. -/
def doorCfg : Cfg := { Config.absent with
  role := .door, station := 31, refresh := 10, group := 3, passageLimit := 2, warningTime := 8000, recloseDelay := 2000
  claimHold := 400, passageMax := 60, reversalPause := 300, travelCount := 1600, slowZone := 150, overrunSlack := 40
  closeMax := 40, openMax := 40, stallMin := 5, reserve := 2, discordTime := 1000, n0 := 200, kP := 640, nmin := 150
  nmax := 2200, p0 := 900, pmin := 1200, v0 := 20000, vc := 2400, vo := 2400, pOn := 2600, pOff := 3200, pumpMax := 60 }

/-- A panel at station 2. -/
def panelCfg : Cfg := { Config.absent with role := .panel, station := 2, refresh := 10 }

/-- A part that runs with a configuration. -/
def running (c : Cfg) (u : StartUp) : State :=
  { State.reset with suc := { Suc.reset with startUp := u, accepted := some c } }

/-- A door in a control state between its limits, mains made. -/
def door (ctl : Ctl) : State :=
  let s := running doorCfg .joined
  { s with
    deb := { s.deb with mains := true }
    dcu := { s.dcu with ctl := ctl }
    trm := { s.trm with running := true }
    enu := { s.enu with running := true } }

/-- A door with levers. -/
def doorWith (ctl : Ctl) (deb : PerLead Bool) : State := { door ctl with deb := deb }

/-- Every lead open. -/
def noLead : PerLead Bool := PerLead.all false

/-- A panel that runs. -/
def panel : State :=
  let s := running panelCfg .joined
  { s with pnu := { s.pnu with running := true } }

/-- A state with one lane replaced by the lane after reset with an activity. -/
def withLane (a : Activity) (f : Lane → Lane) : State :=
  { running doorCfg .joined with laneA := f { Lane.reset with activity := a } }

/-- The first 126 bytes of the door image of the worked case of 10.4. -/
def imageBody (pmin : Nat) : List Byte :=
  [0, 31, 1, 45, 0, 0, 3, 2] ++ [8000, 2000, 400, 60, 150, 1600, 150, 40].flatMap natBytes ++ [40, 40, 80, 2] ++
    [1000, 200, 640, 150, 2200, 900, pmin, 20000, 2400, 2400, 2600, 3200, 60].flatMap natBytes ++ List.replicate 72 0

/-- The first 126 bytes of a panel image. -/
def panelBody : List Byte := [1, 2, 1, 10, 0, 0] ++ List.replicate 120 0

/-- An image with a check value behind its first 126 bytes. -/
def withCheck (body : List Byte) (w : BitVec 16) : List Byte := body ++ wordBytes w

/-- The door image with its check. -/
def image (pmin : Nat) : List Byte := withCheck (imageBody pmin) (check16 (imageBody pmin))

/-- A panel image with its check. -/
def panelImage : List Byte := withCheck panelBody (check16 panelBody)

/-- The check computed over an image, and the one it holds. -/
theorem withCheck_checks (body : List Byte) (w : BitVec 16) (h : body.length = 126) :
    imageCheck (withCheck body w) = check16 body ∧
      wordOf (byteAt (withCheck body w) 126) (byteAt (withCheck body w) 127) = w := by
  refine ⟨?_, ?_⟩
  · have hm : (List.range 126).map (byteAt (withCheck body w)) = body := by
      refine List.ext_getElem (by simp [h]) (fun i h1 h2 => ?_)
      simp [withCheck, byteAt, List.getD_eq_getElem?_getD, List.getElem?_append_left h2, List.getElem?_eq_getElem h2]
    rw [imageCheck, hm]
  · have h6 : byteAt (withCheck body w) 126 = w.extractLsb' 8 8 := by
      simp [withCheck, byteAt, wordBytes, List.getD_eq_getElem?_getD, h]
    have h7 : byteAt (withCheck body w) 127 = w.extractLsb' 0 8 := by
      simp [withCheck, byteAt, wordBytes, List.getD_eq_getElem?_getD, h]
    rw [h6, h7]
    refine BitVec.eq_of_getLsbD_eq (fun i hi => ?_)
    simp only [wordOf, BitVec.getLsbD_append, BitVec.getLsbD_extractLsb']
    split
    · simp_all
    · have h3 : i - 8 < 8 := by omega
      have h4 : 8 + (i - 8) = i := by omega
      simp [h3, h4]

/-- An image with its check passes it (R170). -/
theorem image_checks (body : List Byte) (h : body.length = 126) :
    imageCheck (withCheck body (check16 body)) =
      wordOf (byteAt (withCheck body (check16 body)) 126) (byteAt (withCheck body (check16 body)) 127) := by
  rw [(withCheck_checks body _ h).1, (withCheck_checks body _ h).2]

/-- A DEMAND telegram of panel 2. -/
def demand (serial : Byte) (closed : Bool) : Telegram :=
  ⟨.a, .demand, 2, serial, encodeDemand ⟨if closed then .doorsClosed else .localControl, 0, 7, true, true⟩⟩

/-- A LIVE entry of panel 2 with DEMAND serial 5. -/
def panelEntry : Entry := { Entry.blank 2 .panel with
  serD := some 5, panel := some ⟨⟨.localControl, 0, 7, true, true⟩, 7⟩ }

/-- A state with a telegram waiting and one entry. -/
def taking (s : State) (tg : Telegram) (table : List Entry) : State :=
  { s with rxq := ⟨[tg], 0⟩, ste := { s.ste with table := table } }

/-- A door part of group 3 that occupies. -/
def occupying : DoorPart :=
  ⟨3, .opening, .between, none, none, .noClaim, .localControl, true, .remote, 0, 0, true, true⟩

/-- A LIVE entry of group peer `n` at the staleness limit, with STATE serial 5. -/
def peerEntry (n : Nat) (p : DoorPart) : Entry :=
  { Entry.blank n .door with age := 3000, serS := some 5, door := some p }

/-- A STATE telegram of peer `n`, newer than that. -/
def peerState (n : Nat) (p : DoorPart) : Telegram := ⟨.a, .state, n, 6, encodeState p⟩

/-- A door that runs in JOINED under or without closure demand, its passage unit as that gives it. -/
def demanded (ctl : Ctl) (cd : Bool) : State :=
  let s := door ctl
  { s with
    dcu := { s.dcu with cd := cd }
    psu := { s.psu with inForce := limitFor s.conf cd }
    ste := { s.ste with table := [{ panelEntry with age := 3000 }] } }

/-- A door whose claim waits behind peers. -/
def waiting (peers : List Entry) : State :=
  let s := demanded .claiming true
  { s with psu := { s.psu with phase := .waiting }, ste := { s.ste with table := peers } }

/-- The levels a receiver samples in the cells of bytes, true for dominant. -/
def cellsOf (bytes : List Byte) : List Bool := (bytes.flatMap byteBits).map (!·)

/-- A command completes in a state with a property. -/
def gives (c : Instr) (s : State) (p : State → Bool) : Bool :=
  match exec c s with
  | .next t => p t
  | _ => false

/-! ### Worked figures of the manual -/

/-- R119: 0x00 gives 0xE1F0, and the digits 1 to 9 give 0x29B1. -/
theorem test_check_values : check16 [0#8] = 0xE1F0#16 ∧
    check16 [0x31, 0x32, 0x33, 0x34, 0x35, 0x36, 0x37, 0x38, 0x39] = 0x29B1#16 := by decide +kernel

/-- R136, written out by hand: 0x41 is sent 0, 1, 0, 0, 0, 0, 0, 1 and sampled dominant but for its 1s; at 50 kbit/s a 1 is dominant for 5 µs,
a 0 for 15, and a 1 beside a 0 is sampled at 10 µs as a 0. -/
theorem test_cells : byteBits 0x41 = [false, true, false, false, false, false, false, true] ∧
    spelled [true, false, true, true, true, true, true, false, true] = [0x41] ∧
    [dominantNs .r50 true, dominantNs .r50 false] = [5000, 15000] ∧ bitOf (sampleOf .r50 [true, false]) = false ∧
    bitOf (sampleOf .r50 [true, true]) = true := by decide +kernel

/-- The worked case of 2.4: travel count 1600. -/
theorem test_position_figures :
    [1, 2, 241, 242, 1240, 1599, 1600].map (fun n => figureFor doorCfg { Trm.reset with ref := true, count := n }) =
      [some 0, some 1, some 150, some 151, some 775, some 999, some 1000] := by decide

/-- 3.6.1: gate count 1400 gives 3000 deci-bar, 9000 mL and 3 closes. -/
theorem test_gate_1400 :
    let e := judgeGate doorCfg { Enu.reset with running := true, tally := 1400 }
    (e.p, e.u, e.closes, e.permStart, e.permCont) = (some 3000, some 9000, some 3, true, true) := by decide

/-- 3.6.1: the usable volumes at the pressures where the decisions change. -/
theorem test_usable_volumes : [1200, 1201, 1428, 1429, 1764, 1765, 2307, 2308, 3333, 3334, 4000].map (usableOf doorCfg) =
    [0, 12, 2394, 2403, 4795, 4801, 7197, 7201, 9599, 9601, 10500] := by decide

/-- 3.9: gate counts 1310 and 1305 give 2775 and 2762 deci-bar, 8513 and 8482 mL. -/
theorem test_gates_5_and_6 : [1310, 1305].map (pressureOf doorCfg) = [2775, 2762] ∧
    [2775, 2762].map (usableOf doorCfg) = [8513, 8482] := by decide

/-- The worked case of 10.4: accepted with clamp counter 2; with Pmin 900 refused at offset 38. -/
theorem test_image_judged : judgeFields (image 950) = (2, none) ∧ judgeFields (image 900) = (2, some 38) ∧
    (configOf (image 950)).reversalPause = 200 ∧ (configOf (image 950)).stallMin = 50 := by decide

/-- The layouts of 7.2, written out by hand: DEMAND of a panel, STATE of a claiming door, IDENT of a door. -/
theorem test_layouts :
    encodeDemand ⟨.doorsClosed, 0x8004, 7, true, false⟩ = [0x01, 0x80, 0x04, 0x07, 0x02] ∧
    encodeState ⟨3, .opening, .between, some 775, some 3, .waiting, .doorsClosed, true, .reclose, 0x8001, 2, true, false⟩ =
      [0x03, 0x06, 0x02, 0x03, 0x07, 0x03, 0xBA, 0x80, 0x01, 0x00, 0x02] ∧
    encodeIdent ⟨.panel, 0, 4, 50, 0x29B1⟩ = [0x01, 0x00, 0x04, 0x32, 0x29, 0xB1] ∧ arbitrationByte .state 31 = 0x5F := by
  decide +kernel

/-- R123: claim phase code 3 is WAITING, and a figure of 1001 and 16 closes are absent. -/
theorem test_faulty_payload :
    let p := decodeState [0x03, 0xFE, 0xFE, 0x03, 0xE9, 0x10, 0xC4, 0, 0, 0, 0]
    (p.ctl, p.pos, p.figure, p.closes, p.phase, p.mode) = (.opening, .between, none, none, .waiting, .localControl) := by
  decide +kernel

/-! ### One step -/

/-- The front of the queue is taken and the rest left. -/
theorem test_step_takes_front :
    step { running panelCfg .joined with pending := [.diagStop, .flashEdge] } =
      exec .diagStop { running panelCfg .joined with pending := [.flashEdge] } := rfl

/-- No word spells a command. -/
theorem test_no_word : decodeTableWord 8 0 = none := rfl

/-- R169: a whole read acknowledges 127 bytes and not the last, behind the offset 0 sent to 0x51. -/
theorem test_whole_read :
    let acts := wholeRead (List.replicate 127 1#8 ++ [2#8])
    (acts.take 8, acts.drop 133) = ([.free, .stop, .start, .send 0xA2, .send 0, .repeatedStart, .send 0xA3, .read 1 true],
      [.read 1 true, .read 2 false, .stop]) := by decide +kernel

/-! ### Witnesses: start-up -/

/-- ConfigurationFaultsAreReached: the first and the third attempt, the wait, and images with a wrong check and a refused field. -/
theorem wit_ConfigurationFaultsAreReached :
    let wait : State := { State.reset with suc := { Suc.reset with retryWait := some 0 } }
    let last : State := { State.reset with suc := { Suc.reset with attempts := 2 } }
    wait.suc.startUp = .loading ∧ wait.suc.retryWait.isSome = true ∧
    State.reset.suc.startUp = .loading ∧ State.reset.suc.retryWait = none ∧ State.reset.suc.attempts + 1 < 3 ∧
    last.suc.startUp = .loading ∧ last.suc.retryWait = none ∧ 3 ≤ last.suc.attempts + 1 ∧
    (image 900).length = 128 ∧ judgeFields (image 900) = (2, some 38) := by decide +kernel

/-- ConfigurationFaultsAreReached: an image whose check is right and one whose check is off by one. -/
theorem wit_ConfigurationFaultsAreReached_checks :
    (withCheck panelBody (check16 panelBody + 1)).length = 128 ∧
    imageCheck (image 900) = wordOf (byteAt (image 900) 126) (byteAt (image 900) 127) ∧
    imageCheck (withCheck panelBody (check16 panelBody + 1)) ≠
      wordOf (byteAt (withCheck panelBody (check16 panelBody + 1)) 126)
        (byteAt (withCheck panelBody (check16 panelBody + 1)) 127) := by
  refine ⟨rfl, image_checks _ rfl, ?_⟩
  rw [(withCheck_checks panelBody _ rfl).1, (withCheck_checks panelBody _ rfl).2]
  exact fun h => absurd h (by generalize check16 panelBody = w; bv_omega)

/-- AcceptedConfigurationLiesInItsRanges: a door and a panel image. -/
theorem wit_AcceptedConfigurationLiesInItsRanges :
    judgeFields (image 901) = (2, none) ∧ (configOf (image 901)).role = .door ∧
    judgeFields panelImage = (0, none) ∧ (configOf panelImage).role = .panel := by decide +kernel

/-- AcceptedDoorImageStartsTheDoor: from the state after reset. -/
theorem wit_AcceptedDoorImageStartsTheDoor :
    let s := State.reset
    imageCheck (image 950) = wordOf (byteAt (image 950) 126) (byteAt (image 950) 127) ∧ (image 950).length = 128 ∧
    judgeFields (image 950) = (2, none) ∧ (configOf (image 950)).role = .door ∧ s.suc.startUp = .loading ∧
    s.suc.retryWait = none ∧ s.dcu = { Dcu.reset with vclPause := s.dcu.vclPause, vopPause := s.dcu.vopPause } ∧
    s.trm = { Trm.reset with pos := positionOf s.deb } ∧ s.enu = Enu.reset ∧ s.psu = Psu.reset ∧ s.alu = [] ∧
    s.ste = Ste.reset := ⟨image_checks _ rfl, by decide +kernel⟩

/-- AcceptedPanelImageStartsThePanel: from the state after reset. -/
theorem wit_AcceptedPanelImageStartsThePanel :
    let s := State.reset
    imageCheck panelImage = wordOf (byteAt panelImage 126) (byteAt panelImage 127) ∧ panelImage.length = 128 ∧
    judgeFields panelImage = (0, none) ∧ (configOf panelImage).role = .panel ∧ s.suc.startUp = .loading ∧
    s.suc.retryWait = none ∧ s.alu = [] ∧ s.ste = Ste.reset ∧ s.pnu.silence = false := ⟨image_checks _ rfl, by decide +kernel⟩

/-- ListenTimerEndsInJoinedWithFirstSnapshots: a door without a request, one whose request claims, and a panel, each with an idle quiet
lane. -/
theorem wit_ListenTimerEndsInJoinedWithFirstSnapshots :
    let lane : Lane := { Lane.reset with quiet := true }
    let s : State := { running doorCfg .listen with laneA := lane }
    let q : State := { s with
      deb := { noLead with loa := true }, dcu := { s.dcu with ctl := .idlePartial }
      psu := { s.psu with inForce := true }, enu := { s.enu with permStart := true } }
    let p : State := { running panelCfg .listen with laneA := lane }
    (s.suc.startUp = .listen ∧ s.snu = Snu.reset ∧ s.conf.role = .door ∧ (s.lane .a).activity = .idle ∧
      (s.lane .a).quiet = true ∧ (s.lane .a).sentS = none ∧ requestStands s = false) ∧
    (q.suc.startUp = .listen ∧ q.snu = Snu.reset ∧ q.conf.role = .door ∧ requestStands q = true ∧ q.dcu.lockout = false ∧
      q.dcu.ctl.isIdle = true ∧ q.psu.inForce = true ∧ q.enu.permStart = true) ∧
    (p.suc.startUp = .listen ∧ p.snu = Snu.reset ∧ p.conf.role = .panel ∧ (p.lane .a).activity = .idle ∧
      (p.lane .a).quiet = true ∧ (p.lane .a).sentD = none) := by decide +kernel

/-- FlashAndLevelEdgesActOnTheirOwnItems: a flash edge, a level a lead has, one it has not, and a panel's limit lead. -/
theorem wit_FlashAndLevelEdgesActOnTheirOwnItems :
    State.reset.outs = outsFor State.reset ∧
    (State.reset.lead.get .cla = false ∧ ¬ (State.reset.panelRuns = true ∧ (Lead.cla = .cla ∨ Lead.cla = .clb ∨ Lead.cla = .olm))) ∧
    (State.reset.lead.get .mains ≠ true) ∧ panel.panelRuns = true := by decide +kernel

/-! ### Witnesses: the door -/

/-- CloseLeverPressCloses: OPENING gives way; under LO each state at CLOSED, and CLOSING off the closed limits; the other lever is made
already; CLOSED with no lever; no door runs. -/
theorem wit_CloseLeverPressCloses :
    let s := door .opening
    let h := doorWith .closing { noLead with lcb := true }
    let c : State := { door .idleClosed with trm := { Trm.reset with pos := .closed } }
    let o (k : Ctl) (cd : Bool) (pos : Position) : State := { demanded k cd with
      deb := { noLead with lob := true }, trm := { Trm.reset with pos := pos } }
    (s.doorRuns = true ∧ s.deb.get Side.a.closeLead = false ∧ lcHeld s = false ∧ s.trm.pos ≠ .closed ∧ s.dcu.ctl ≠ .closing ∧
      s.dcu.ctl ≠ .inactive) ∧
    (∀ k ∈ [Ctl.opening, .claiming, .heldOpen, .idleOpen, .idlePartial, .idleClosed, .warning, .closing, .inactive],
      ∀ cd ∈ [true, false], ∀ pos ∈ [Position.closed, .between], (o k cd pos).deb.get Side.a.closeLead = false ∧
        (o k cd pos).doorRuns = true ∧ lcHeld (o k cd pos) = false ∧ loHeld (o k cd pos) = true ∧ (o k cd pos).trm.pos = pos ∧
        (o k cd pos).dcu.ctl = k ∧ (o k cd pos).dcu.cd = cd) ∧
    (h.doorRuns = true ∧ h.deb.get Side.a.closeLead = false ∧ lcHeld h = true) ∧
    (c.doorRuns = true ∧ c.deb.get Side.a.closeLead = false ∧ loHeld c = false ∧ c.trm.pos = .closed) ∧
    (panel.deb.get Side.a.closeLead = false ∧ panel.doorRuns = false) := by decide +kernel

/-- CloseLeverReleaseStopsOrYields: without and with CD, with an open lever in CLOSING and idle, beside the other close lever, in a closing of
another cause, and where no door runs. -/
theorem wit_CloseLeverReleaseStopsOrYields :
    let s0 := doorWith .closing { noLead with lca := true }
    let s : State := { s0 with dcu := { s0.dcu with cause := .lever } }
    let d : State := { s with dcu := { s.dcu with cd := true } }
    let o (k : Ctl) : State := { s with
      deb := { s.deb with loa := true }, enu := { s.enu with permStart := true }, dcu := { s.dcu with ctl := k } }
    let b : State := { s with deb := { s.deb with lcb := true } }
    let q : State := { s with dcu := { s.dcu with cause := .demand } }
    let p : State := { panel with deb := { noLead with lca := true } }
    (∀ x ∈ [s, d], x.doorRuns = true ∧ x.deb.get Side.a.closeLead = true ∧ x.dcu.ctl = .closing ∧
      leverClose (setDebounced Side.a.closeLead false x).deb = false ∧ x.deb.loa = false ∧ x.deb.lob = false ∧
      x.dcu.cause = .lever) ∧ s.dcu.cd = false ∧ d.dcu.cd = true ∧
    (∀ k ∈ [Ctl.closing, .idlePartial], (o k).doorRuns = true ∧ (o k).deb.get Side.a.closeLead = true ∧
      (((o k).dcu.ctl = .closing ∧ (o k).dcu.cause = .lever) ∨ (o k).dcu.ctl.isIdle = true) ∧
      leverClose (setDebounced Side.a.closeLead false (o k)).deb = false ∧ (o k).deb.loa = true ∧
      (o k).trm.pos ≠ .opened ∧ (o k).dcu.lockout = false ∧ (o k).enu.permStart = true ∧ (o k).psu.inForce = false ∧
      (o k).dcu.vop = false) ∧
    (b.deb.get Side.a.closeLead = true ∧ leverClose (setDebounced Side.a.closeLead false b).deb = true) ∧
    (q.deb.get Side.a.closeLead = true ∧ q.dcu.cause ≠ .lever ∧ q.deb.loa = false ∧ q.deb.lob = false) ∧
    (p.deb.get Side.a.closeLead = true ∧ p.doorRuns = false) := by decide +kernel

/-- OpenLeverPressOpensClaimsOrIsRefused: permitted, claiming, refused in CLOSING and in an idle state, at OPEN in WARNING and in
IDLE_OPEN, under a close lever, and where no door runs. -/
theorem wit_OpenLeverPressOpensClaimsOrIsRefused :
    let r := door .idlePartial
    let s : State := { r with enu := { r.enu with permStart := true } }
    let c : State := { s with psu := { s.psu with inForce := true } }
    let x := door .closing
    let w (k : Ctl) : State := { door k with trm := { Trm.reset with pos := .opened } }
    let presses (s : State) : Prop := s.deb.get Side.b.openLead = false ∧ s.doorRuns = true ∧ loHeld s = false ∧
      lcHeld s = false ∧ s.dcu.lockout = false
    (presses s ∧ s.trm.pos ≠ .opened ∧ s.dcu.ctl.isIdle = true ∧ s.enu.permStart = true ∧ s.psu.inForce = false) ∧
    (presses c ∧ c.trm.pos ≠ .opened ∧ c.dcu.ctl.isIdle = true ∧ c.enu.permStart = true ∧ c.psu.inForce = true ∧
      c.suc.startUp = .joined) ∧
    (presses x ∧ x.trm.pos ≠ .opened ∧ x.dcu.ctl = .closing ∧ x.enu.permStart = false ∧ x.dcu.ctl.isIdle = false) ∧
    (presses r ∧ r.trm.pos ≠ .opened ∧ r.enu.permStart = false ∧ r.dcu.ctl.isIdle = true) ∧
    (presses (w .warning) ∧ (w .warning).trm.pos = .opened ∧ (w .warning).dcu.ctl = .warning) ∧
    ((w .idleOpen).deb.get Side.b.openLead = false ∧ (w .idleOpen).trm.pos = .opened ∧ (w .idleOpen).dcu.ctl = .idleOpen ∧
      (w .idleOpen).dcu.cd = false) ∧
    (lcHeld (doorWith .closing { noLead with lca := true }) = true ∧ loHeld (doorWith .opening { noLead with loa := true }) = true ∧
      panel.doorRuns = false) := by decide +kernel

/-- OpenLeverReleaseEndsTheRequest: OPENING, HELD_OPEN, IDLE_OPEN under CD, IDLE_CLOSED, and releases that release nothing. -/
theorem wit_OpenLeverReleaseEndsTheRequest :
    let made : PerLead Bool := { noLead with loa := true }
    let releases (s : State) : Prop := s.deb.get Side.a.openLead = true ∧ s.doorRuns = true ∧ loHeld s = true ∧
      leverOpen (s.deb.set Side.a.openLead false) = false
    let i : State := { doorWith .idleOpen made with dcu := { (door .idleOpen).dcu with cd := true } }
    (∀ k ∈ [Ctl.opening, .heldOpen, .idleClosed], releases (doorWith k made) ∧ (doorWith k made).dcu.ctl = k) ∧
    (releases i ∧ i.dcu.ctl = .idleOpen ∧ i.dcu.cd = true) ∧
    leverOpen ((doorWith .opening { made with lob := true }).deb.set Side.a.openLead false) = true ∧
    loHeld (doorWith .closing { made with lca := true }) = false := by decide +kernel

/-- WarningExpiryCloses. -/
theorem wit_WarningExpiryCloses : (door .warning).dcu.ctl = .warning := by decide

/-- PauseExpiryEnergisesTheWaitingValve: each valve waiting, neither, and no permission. -/
theorem wit_PauseExpiryEnergisesTheWaitingValve :
    let off (s : State) : Prop := s.dcu.vcl = false ∧ s.dcu.vop = false
    let f : State := { door .opening with enu := { Enu.reset with permCont := true } }
    (off (door .closing) ∧ (door .closing).dcu.ctl = .closing) ∧ (off f ∧ f.dcu.ctl = .opening ∧ f.enu.permCont = true) ∧
    (off (door .warning) ∧ (door .warning).dcu.ctl ≠ .closing ∧ (door .warning).dcu.ctl ≠ .opening) ∧
    (off (door .opening) ∧ (door .opening).dcu.ctl = .opening ∧ (door .opening).enu.permCont = false) := by decide +kernel

/-- PauseExpiryEnergisesTheWaitingValve, the timer alone: each valve on, and the timer of the valve not commanded. -/
theorem wit_PauseExpiryEnergisesTheWaitingValve_alone :
    let on (k : Ctl) (vcl vop : Bool) : State := { door k with
      dcu := { (door k).dcu with vcl := vcl, vop := vop, vclPause := some 0, vopPause := some 0 } }
    let joins (s : State) : Prop := (s.dcu.vcl = true → s.dcu.ctl = .closing) ∧ (s.dcu.vop = true → s.dcu.ctl = .opening)
    (joins (on .closing true false) ∧ (on .closing true false).dcu.vcl = true) ∧
    (joins (on .opening false true) ∧ (on .opening false true).dcu.vop = true) ∧
    (joins (on .closing false false) ∧ (on .closing false false).dcu.vclPause.isSome = true) ∧
    (joins (on .opening false false) ∧ (on .opening false false).dcu.vopPause.isSome = true) ∧
    (joins (door .opening) ∧ (door .opening).enu.permCont = false) := by decide +kernel

/-- SupervisionTimersRaiseTheirConditions: all five timers at their limits. -/
theorem wit_SupervisionTimersRaiseTheirConditions :
    let s : State := { door .heldOpen with dcu := { (door .heldOpen).dcu with held := .running 60001 } }
    let t : State := { door .idlePartial with trm := { Trm.reset with discord := .running 1000, conflict := .running 1000 } }
    let c : State := { door .closing with trm := { Trm.reset with stroke := some .closing, strokeTimer := .running 40000 } }
    let p : State := { panel with pnu := { panel.pnu with conflict := .running 10000 } }
    s.dcu.held = .running 60001 ∧ t.trm.discord = .running 1000 ∧ t.trm.conflict = .running 1000 ∧
    (c.trm.stroke = some .closing ∧ c.trm.strokeTimer = .running 40000) ∧
    (p.panelRuns = true ∧ p.pnu.conflict = .running 10000) := by decide +kernel

/-- ClosureDemandStartsTheWarning: serials one and 127 newer. -/
theorem wit_ClosureDemandStartsTheWarning :
    let s (v : Byte) := taking (door .idleOpen) (demand v true) [panelEntry]
    ∀ v ∈ [(6 : Byte), 132], (s v).doorRuns = true ∧ (s v).rxq.queue = [demand v true] ∧ (demand v true).cls = .demand ∧
      (demand v true).origin ≠ (s v).conf.station ∧ entryOf (s v) (demand v true).origin = some panelEntry ∧
      panelEntry.kind = .panel ∧ panelEntry.live = true ∧ panelEntry.panel = some ⟨⟨.localControl, 0, 7, true, true⟩, 7⟩ ∧
      panelEntry.serD = some 5 ∧ 1 ≤ ((demand v true).serial - 5).toNat ∧ ((demand v true).serial - 5).toNat ≤ 127 ∧
      (decodeDemand (demand v true).payload).mode = .doorsClosed ∧ (s v).dcu.ctl = .idleOpen ∧ (s v).dcu.cd = false ∧
      lcHeld (s v) = false ∧ loHeld (s v) = false := by decide +kernel

/-- ClosureDemandStartsTheWarning: a rise and a fall in every control state that answers one, by a telegram of a LIVE, a STALE and a
new panel, and by a panel that goes STALE. -/
theorem wit_ClosureDemandStartsTheWarning_states :
    (∀ k ∈ [Ctl.idleOpen, .idlePartial], ClaimsJoined (demanded k false)) ∧
    (∀ k ∈ [Ctl.warning, .heldOpen], ClaimsJoined (demanded k true)) ∧ ClaimsJoined (waiting []) := by
  refine ⟨fun k hk => ?_, fun k hk => ?_, ?_⟩
  · rcases List.mem_cons.1 hk with rfl | hk
    · constructor <;> decide +kernel
    · cases List.mem_singleton.1 hk; constructor <;> decide +kernel
  · rcases List.mem_cons.1 hk with rfl | hk
    · constructor <;> decide +kernel
    · cases List.mem_singleton.1 hk; constructor <;> decide +kernel
  · constructor <;> decide +kernel

/-- ClosureDemandStartsTheWarning: a rise and a fall in CLOSING, OPENING and IDLE_CLOSED, which go on. -/
theorem wit_ClosureDemandStartsTheWarning_goesOn :
    let s (k : Ctl) (cd : Bool) : State := { demanded k cd with
      trm := { Trm.reset with pos := .closed, running := true }, rxq := ⟨[demand 6 !cd], 0⟩ }
    ∀ cd ∈ [true, false], (∀ k ∈ [Ctl.closing, .opening, .idleClosed], (s k cd).dcu.ctl = k ∧
        gives .telegramTaken (s k cd) (fun t => t.dcu.cd == !cd) = true) ∧
      (s .idleClosed cd).trm.pos = .closed ∧ loHeld (s .idleClosed cd) = false ∧ (s .closing cd).psu.phase = .noClaim ∧
      (s .opening cd).psu.inForce = limitFor doorCfg cd := by decide +kernel

/-- ClosureDemandStartsTheWarning: its two kinds of command at those states, with the rises and falls they bring. -/
theorem wit_ClosureDemandStartsTheWarning_edges :
    let take (s : State) (v : Byte) (closed : Bool) : State := { s with rxq := ⟨[demand v closed], 0⟩ }
    let held : State := { demanded .idleOpen false with
      deb := { noLead with loa := true }, trm := { Trm.reset with pos := .opened } }
    let alone (s : State) : State := { s with dcu := { s.dcu with panelHeard := true } }
    let claims (perm : Bool) : State := { demanded .claiming true with
      psu := (waiting []).psu, enu := { Enu.reset with permStart := perm } }
    (∀ v ∈ [(6 : Byte), 132], (take held v true).rxq.queue = [demand v true] ∧ (demand v true).cls = .demand ∧
      (demand v true).origin ≠ held.conf.station ∧ entryOf held 2 = some { panelEntry with age := 3000 } ∧
      panelEntry.serD = some 5 ∧ 1 ≤ ((demand v true).serial - 5).toNat ∧ ((demand v true).serial - 5).toNat ≤ 127) ∧
    (held.doorRuns = true ∧ panelEntry.kind = .panel ∧ panelEntry.live = true ∧ held.staleMs = 3000) ∧
    entryOf { held with ste := Ste.reset } 2 = none ∧
    gives .telegramTaken (take held 6 true) (fun t => t.dcu.cd && t.dcu.ctl == .heldOpen) = true ∧
    gives .telegramTaken (take (demanded .idlePartial false) 6 true) (fun t => t.dcu.cd && t.dcu.ctl == .warning) = true ∧
    gives .telegramTaken (take (demanded .warning true) 6 false) (fun t => !t.dcu.cd && t.dcu.ctl == .idlePartial) = true ∧
    gives .telegramTaken (take (demanded .heldOpen true) 6 false) (fun t => !t.dcu.cd && t.dcu.ctl == .idleOpen) = true ∧
    gives .telegramTaken (take (claims true) 6 false) (fun t => !t.dcu.cd && t.dcu.ctl == .opening) = true ∧
    gives .telegramTaken (take (claims false) 6 false) (fun t => !t.dcu.cd && t.dcu.ctl == .idlePartial) = true ∧
    gives (.entryGoesStale 2) (alone (demanded .warning true)) (fun t => t.ste.table.all (!·.live) && hasKind .noPanel t.alu) = true := by
  decide +kernel

/-! ### Witnesses: travel -/

/-- LimitChangeSetsPositionTimersAndReference: stopped; running without and with a change of the position state. -/
theorem wit_LimitChangeSetsPositionTimersAndReference :
    let s := door .idlePartial
    let n : State := { s with trm := { s.trm with running := false } }
    let c : State := { s with deb := { s.deb with clb := true } }
    (n.panelRuns = false ∧ n.deb.get Limit.cla.lead ≠ true ∧ n.trm.running = false) ∧
    (s.panelRuns = false ∧ s.deb.get Limit.cla.lead ≠ true ∧ s.trm.running = true ∧
      positionOf (setDebounced .cla true s).deb = s.trm.pos) ∧
    (c.panelRuns = false ∧ c.deb.get Limit.cla.lead ≠ true ∧ c.trm.running = true ∧
      positionOf (setDebounced .cla true c).deb ≠ c.trm.pos ∧ positionOf (setDebounced .cla true c).deb = .closed) ∧
    positionOf (setDebounced .olm true s).deb = .opened ∧ positionOf (setDebounced .olm true c).deb = .unknown := by
  decide +kernel

/-- A door between its limits with one closed limit made and a lever, under or without closure demand. -/
def near (ctl : Ctl) (cd : Bool) (lever : PerLead Bool) : State :=
  let s := demanded ctl cd
  { s with deb := { lever with clb := true }, trm := { s.trm with running := true } }

/-- A debounced limit that becomes made and brings a position. -/
def brings (l : Limit) (s : State) (pos : Position) : Bool :=
  s.doorRuns && s.trm.running && !s.deb.get l.lead && positionOf (setDebounced l.lead true s).deb == pos && s.trm.pos != pos

/-- ArrivalsEndStrokes: CLOSED and OPEN in each state with each lever; an idle door off its matching state. -/
theorem wit_ArrivalsEndStrokes :
    let lo : PerLead Bool := { noLead with loa := true }
    let lc : PerLead Bool := { noLead with lca := true }
    let arrives (k : Ctl) (cd : Bool) (d : PerLead Bool) : State := { near k cd d with deb := d }
    (∀ k ∈ [Ctl.closing, .warning, .opening, .claiming, .heldOpen, .idlePartial], ∀ cd ∈ [true, false], ∀ d ∈ [noLead, lo, lc],
      brings .cla (near k cd d) .closed = true ∧ brings .olm (near k cd d) .unknown = true ∧
      brings .olm (arrives k cd d) .opened = true ∧ (arrives k cd d).dcu.ctl = k ∧ (near k cd d).dcu.cd = cd ∧
      (near k cd d).dcu.vcl = false ∧ (near k cd d).dcu.vop = false ∧ (near k cd d).dcu.lockout = false ∧
      lcHeld (near k cd d) = d.lca ∧ loHeld (arrives k cd d) = d.loa) ∧
    (near .idlePartial false noLead).dcu.ctl ≠ idleFor .closed := by decide +kernel

/-- ArrivalsEndStrokes: HELD_OPEN that leaves OPEN claims, opens, and is refused or locked out; an idle door that arrives at OPEN under CD is held
open under LO and warned without it, one that leaves CLOSED opens under LO and warns under CD, and one that stays in its state keeps it. -/
theorem wit_ArrivalsEndStrokes_edges :
    let lo : PerLead Bool := { noLead with loa := true }
    let at' (k : Ctl) (cd perm lock : Bool) (d : PerLead Bool) (p : Position) : State :=
      let s := demanded k cd
      { s with
        deb := d, trm := { s.trm with running := true, pos := p }, enu := { s.enu with permStart := perm }
        dcu := { s.dcu with lockout := lock } }
    let leaves (perm lock : Bool) : State := at' .heldOpen true perm lock { lo with olm := true } .opened
    let shuts (cd : Bool) (d : PerLead Bool) : State := at' .idleClosed cd true false { d with cla := true, clb := true } .closed
    (∀ perm ∈ [true, false], ∀ lock ∈ [true, false], (leaves perm lock).deb.olm = true ∧ (leaves perm lock).doorRuns = true ∧
      (leaves perm lock).trm.running = true ∧ (leaves perm lock).dcu.ctl = .heldOpen) ∧
    gives (.limitDebouncedChange .olm false) (leaves true false) (fun t => t.dcu.ctl == .claiming) = true ∧
    gives (.limitDebouncedChange .olm false) { leaves true false with psu := Psu.reset } (fun t => t.dcu.ctl == .opening) = true ∧
    gives (.limitDebouncedChange .olm false) (leaves true true) (fun t => t.dcu.ctl == .warning) = true ∧
    gives (.limitDebouncedChange .olm false) (leaves false false) (fun t => t.dcu.ctl == .idlePartial) = true ∧
    gives (.limitDebouncedChange .olm true) (at' .idlePartial true true false lo .between) (fun t => t.dcu.ctl == .heldOpen) = true ∧
    gives (.limitDebouncedChange .olm true) (at' .idlePartial true true false noLead .between)
      (fun t => t.dcu.ctl == .warning) = true ∧
    gives (.limitDebouncedChange .cla false) (shuts false lo) (fun t => t.dcu.ctl == .opening) = true ∧
    gives (.limitDebouncedChange .cla false) (shuts true noLead) (fun t => t.dcu.ctl == .warning) = true ∧
    gives (.limitDebouncedChange .cla true) (at' .idlePartial false true false { noLead with olm := true } .between)
      (fun t => t.trm.pos == .unknown && t.dcu.ctl == .idlePartial) = true := by decide +kernel

/-- PositionPulseMovesCountAndWindows: at the least spacing. -/
theorem wit_PositionPulseMovesCountAndWindows : (door .closing).trm.running = true := by decide

/-- OpeningStrokeIsStopped: each stop, and a second finding after each first. -/
theorem wit_OpeningStrokeIsStopped :
    let s : State := { door .opening with trm := { Trm.reset with
      stroke := some .opening, strokeTimer := .running 40000, stall := some ⟨4, 2, 1000⟩ } }
    let g : State := { door .opening with enu := { Enu.reset with running := true } }
    let a : State := { door .warning with trm := { Trm.reset with finding := some .stall } }
    let b : State := { door .warning with trm := { Trm.reset with finding := some (.timeout ⟨4, 2, 1000⟩) } }
    (s.doorRuns = true ∧ lcHeld s = false ∧ s.dcu.ctl = .opening ∧ s.trm.stroke = some .opening ∧
      s.trm.strokeTimer = .running 40000 ∧ s.trm.stall = some ⟨4, 2, 1000⟩ ∧ (2 : Nat) ≠ 1 ∧ 4 < s.conf.stallMin) ∧
    (g.doorRuns = true ∧ lcHeld g = false ∧ g.dcu.ctl = .opening ∧ g.enu.running = true ∧
      (judgeGate g.conf g.enu).permCont = false) ∧
    (a.doorRuns = true ∧ lcHeld a = false ∧ a.trm.stroke = none ∧ a.trm.stall = none ∧ a.trm.finding = some .stall ∧
      a.trm.strokeTimer ≠ .running 0) ∧
    (b.doorRuns = true ∧ lcHeld b = false ∧ b.trm.stroke = none ∧ b.trm.stall = none ∧
      b.trm.finding = some (.timeout ⟨4, 2, 1000⟩) ∧ 4 < b.conf.stallMin) := by decide +kernel

/-- SupervisionWindowsFollowOneAnother: the first window, one at the stall minimum, a stalled one of a close stroke, arming and hand. -/
theorem wit_SupervisionWindowsFollowOneAnother :
    let s (w : StallWindow) : State := { door .closing with trm := { Trm.reset with stroke := some .closing, stall := some w } }
    let a : State := { door .idlePartial with trm := { Trm.reset with arming := some 2000 } }
    let h : State := { door .idlePartial with trm := { Trm.reset with hand := some ⟨0, 1000⟩ } }
    (s ⟨0, 1, 1000⟩).trm.stall = some ⟨0, 1, 1000⟩ ∧
    ((s ⟨5, 2, 1000⟩).trm.stall = some ⟨5, 2, 1000⟩ ∧ (s ⟨5, 2, 1000⟩).conf.stallMin ≤ 5) ∧
    ((s ⟨4, 2, 1000⟩).trm.stall = some ⟨4, 2, 1000⟩ ∧ 4 < (s ⟨4, 2, 1000⟩).conf.stallMin ∧
      (s ⟨4, 2, 1000⟩).trm.stroke = some .closing) ∧
    a.trm.arming.isSome = true ∧ h.trm.hand.isSome = true := by decide +kernel

/-! ### Witnesses: energy, passage, alarms -/

/-- GatesCountAndJudge: a running and a stopped unit, the third out-of-band gate, a door that is not opening. -/
theorem wit_GatesCountAndJudge :
    let s : State := { door .closing with enu := { Enu.reset with running := true, oob := 2 } }
    s.enu.running = true ∧ State.reset.enu.running = false ∧ s.enu.oob ≠ 3 ∧ (judgeGate s.conf s.enu).oob = 3 ∧
    s.dcu.ctl ≠ .opening ∧ requestStands s = false := by decide +kernel

/-- GatesCountAndJudge, its edges: the third in-band gate, a volume that comes below the start threshold and one that rises above it, and
a change of closes alone and beside an opening that stops, with the spacing ended. -/
theorem wit_GatesCountAndJudge_edges :
    let low (e : Enu) : Bool := e.u.isSome && !e.permStart
    let s (n : Nat) (e : Enu) : State := { door .closing with
      enu := { e with running := true, tally := n }, suc := { (door .closing).suc with startUp := .joined } }
    let third := s 1400 { Enu.reset with inb := 2 }
    let high : Enu := { Enu.reset with p := some 3300, u := some 9900, closes := some 4, permStart := true, permCont := true }
    let g := s 1400 high
    let o : State := { s 680 { high with u := some 0, closes := some 1, permStart := false } with
      dcu := { (door .opening).dcu with vop := true }, trm := { (door .opening).trm with stroke := some .opening } }
    (third.enu.running = true ∧ third.enu.inb ≠ 3 ∧ (judgeGate third.conf third.enu).inb = 3) ∧
    (low (s 680 Enu.reset).enu = false ∧ low (judgeGate doorCfg (s 680 Enu.reset).enu) = true) ∧
    (low { Enu.reset with u := some 0 } = true ∧ low (judgeGate doorCfg (s 1400 { Enu.reset with u := some 0 }).enu) = false) ∧
    (g.suc.startUp = .joined ∧ g.doorRuns = true ∧ g.snu.state.ready = true ∧
      gives .gateEnd g (fun t => t.alu = g.alu && t.psu.phase = g.psu.phase && t.enu.closes != g.enu.closes) = true) ∧
    (low o.enu = true ∧ gives .gateEnd o (fun t => t.alu = o.alu && t.dcu.ctl != o.dcu.ctl && t.enu.closes != o.enu.closes &&
      t.snu.state = o.snu.state.make (doorContent t)) = true) := by decide +kernel

/-- GatesCountAndJudge, a standing request: permission gained in an idle state with and without the limit in force, in a claim, and in MUTE;
lost in a claim and in an idle state; an OPENING that goes on, and requests that are not judged. -/
theorem wit_GatesCountAndJudge_requests :
    let s (k : Ctl) (n : Nat) (perm force : Bool) : State := { door k with
      deb := { noLead with loa := true }, psu := { Psu.reset with inForce := force }
      enu := { Enu.reset with running := true, tally := n, permStart := perm, permCont := perm } }
    let open' : State := { s .opening 1400 true false with dcu := { (door .opening).dcu with vop := true } }
    let judged (x : State) : Bool := requestStands x && !x.dcu.lockout && x.enu.running
    let mute (x : State) : State := { x with suc := { x.suc with startUp := .mute } }
    (judged (s .idlePartial 1400 false true) = true ∧ judged (s .claiming 1400 true true) = true) ∧
    gives .gateEnd (s .idlePartial 1400 false false) (fun t => t.enu.permStart && t.dcu.ctl == .opening) = true ∧
    gives .gateEnd (s .idlePartial 1400 false true) (fun t => t.enu.permStart && t.dcu.ctl == .claiming) = true ∧
    gives .gateEnd (s .claiming 1400 false true) (fun t => t.enu.permStart && t.dcu.ctl == .claiming) = true ∧
    gives .gateEnd (mute (s .idlePartial 1400 false true)) (fun t => t.enu.permStart && t.dcu.ctl == .idlePartial) = true ∧
    gives .gateEnd (mute (s .warning 1400 false true)) (fun t => t.enu.permStart && t.dcu.ctl == .idlePartial) = true ∧
    gives .gateEnd (s .claiming 680 true true) (fun t => !t.enu.permStart && t.dcu.ctl == .idlePartial) = true ∧
    gives .gateEnd (s .idlePartial 680 true false) (fun t => !t.enu.permStart && t.dcu.ctl == .idlePartial) = true ∧
    gives .gateEnd open' (fun t => t.enu.permCont && t.dcu.vop) = true ∧
    gives .gateEnd (s .idlePartial 1400 true true) (fun t => t.enu.permStart && t.dcu.ctl == .idlePartial) = true := by
  decide +kernel

/-- PressureFigureOfAnInBandGate: at nmin, at n0, above n0, and where the limit of 4000 is reached. -/
theorem wit_PressureFigureOfAnInBandGate :
    let s (n : Nat) : State := { door .closing with enu := { Enu.reset with running := true, tally := n } }
    (∀ n ∈ [150, 200, 201, 1800, 2200], (s n).enu.running = true ∧ (s n).conf.nmin ≤ (s n).enu.tally ∧
      (s n).enu.tally ≤ (s n).conf.nmax ∧ (s n).enu.tally ≤ 65535 ∧ (s n).conf.kP ≤ 4095) ∧
    (s 200).enu.tally ≤ (s 200).conf.n0 ∧ (s 201).conf.n0 < (s 201).enu.tally ∧
    4000 ≤ ((s 1800).enu.tally - (s 1800).conf.n0) * (s 1800).conf.kP / 256 := by decide +kernel

/-- UsableVolumeFigureAndItsBounds: pressures absent, at Pmin and above, in an accepted configuration. -/
theorem wit_UsableVolumeFigureAndItsBounds :
    let s (n : Nat) : State := { door .closing with enu := { Enu.reset with running := true, tally := n } }
    (judgeGate doorCfg (s 0).enu).p = none ∧ (judgeGate doorCfg (s 680).enu).p = some 1200 ∧
    (judgeGate doorCfg (s 681).enu).p = some 1202 ∧ (s 681).enu.running = true ∧ (s 681).conf.pmin < 1202 ∧
    10 ≤ (s 681).conf.p0 ∧ (s 681).conf.p0 < (s 681).conf.pmin ∧ (s 681).conf.pmin ≤ 4000 ∧ 1000 ≤ (s 681).conf.v0 ∧
    (s 681).conf.v0 ≤ 60000 := by decide +kernel

/-- MainsAndPumpLimitActOnThePump: before LISTEN, in a running door, in a panel, and the pump at its maximum. -/
theorem wit_MainsAndPumpLimitActOnThePump :
    let p : State := { door .idleClosed with enu := { Enu.reset with running := true, pumpOn := true, run := some 60000 } }
    (State.reset.deb.mains ≠ true ∧ State.reset.suc.startUp.running = false) ∧
    ((door .idleClosed).deb.mains ≠ false ∧ (door .idleClosed).suc.startUp.running = true ∧
      (door .idleClosed).enu.running = true ∧ (door .idleClosed).doorRuns = true) ∧
    (panel.deb.mains ≠ true ∧ panel.suc.startUp.running = true ∧ panel.enu.running = false) ∧
    (p.enu.pumpOn = true ∧ p.doorRuns = true) := by decide +kernel

/-- ClaimHoldEndIsJudged: granted with and without permission, and waiting behind two occupants. -/
theorem wit_ClaimHoldEndIsJudged :
    let part : DoorPart := ⟨3, .opening, .between, none, none, .noClaim, .localControl, true, .remote, 0, 0, true, true⟩
    let peer (n : Nat) : Entry := { Entry.blank n .door with door := some part }
    let s : State := { door .claiming with psu := { Psu.reset with inForce := true, phase := .fresh, claimTimer := some 0 } }
    let g : State := { s with enu := { s.enu with permStart := true } }
    let w : State := { s with ste := { s.ste with table := [peer 4, peer 40] } }
    (s.doorRuns = true ∧ s.psu.phase = .fresh ∧ s.dcu.ctl = .claiming ∧ s.enu.permStart = false ∧
      occupantsOf s + aheadOf s < s.conf.passageLimit) ∧
    (g.enu.permStart = true ∧ occupantsOf g + aheadOf g < g.conf.passageLimit) ∧
    (w.doorRuns = true ∧ w.psu.phase = .fresh ∧ w.dcu.ctl = .claiming ∧
      w.conf.passageLimit ≤ occupantsOf w + aheadOf w) := by decide +kernel

/-- ClaimHoldEndIsJudged at a peer notice: a waiting claim, and doors that open and stand open under the limit. -/
theorem wit_ClaimHoldEndIsJudged_notices :
    let s (k : Ctl) : State := { demanded k true with enu := { Enu.reset with permStart := true, permCont := true } }
    ClaimsJoined (waiting [peerEntry 4 occupying, peerEntry 40 occupying]) ∧ ClaimsJoined (s .heldOpen) ∧
      ClaimsJoined (s .opening) := by
  refine ⟨?_, ?_, ?_⟩ <;> constructor <;> decide +kernel

/-- ClaimHoldEndIsJudged: a STATE of a group peer and a group peer that goes STALE; the claim goes on waiting, is granted and is refused;
PASSAGE_EXCESS comes and goes. -/
theorem wit_ClaimHoldEndIsJudged_edges :
    let gone : DoorPart := { occupying with ctl := .idleClosed, pos := .closed }
    let other : DoorPart := { occupying with group := 4 }
    let two := [peerEntry 4 occupying, peerEntry 30 occupying]
    let take (p : DoorPart) (s : State) : State := { s with rxq := ⟨[peerState 4 p], 0⟩ }
    let perm (s : State) : State := { s with enu := { s.enu with permStart := true } }
    let opened (b : Bool) (peers : List Entry) : State := { demanded .heldOpen true with
      psu := { (demanded .heldOpen true).psu with excess := b }, ste := { Ste.reset with table := peers } }
    let s := waiting two
    (s.doorRuns = true ∧ (take gone s).rxq.queue = [peerState 4 gone] ∧ (peerState 4 gone).cls = .state ∧
      (peerState 4 gone).origin ≠ s.conf.station ∧ entryOf s 4 = some (peerEntry 4 occupying) ∧ s.staleMs = 3000 ∧
      1 ≤ ((peerState 4 gone).serial - 5).toNat ∧ ((peerState 4 gone).serial - 5).toNat ≤ 127 ∧
      (decodeState (peerState 4 gone).payload).group = s.conf.group ∧
      (decodeState (peerState 4 other).payload).group ≠ s.conf.group ∧ occupying.group = s.conf.group) ∧
    gives .telegramTaken (take occupying s) (fun t => t.psu.phase == .waiting && t.psu.occupants == 2) = true ∧
    gives .telegramTaken (take gone (perm s)) (fun t => t.psu.phase == .noClaim && t.dcu.ctl == .opening) = true ∧
    gives .telegramTaken (take other s) (fun t => t.psu.phase == .noClaim && t.dcu.ctl == .idlePartial) = true ∧
    gives (.entryGoesStale 4) s (fun t => t.psu.phase == .waiting && t.psu.occupants == 2) = true ∧
    gives .telegramTaken (take occupying (opened false [peerEntry 30 occupying]))
      (fun t => t.psu.excess && hasKind .passageExcess t.alu) = true ∧
    gives .telegramTaken (take gone (opened true two)) (fun t => !t.psu.excess) = true := by decide +kernel

/-- AlarmRecordLifeCycle: a list without the kind, a record in each state between two others, and a list that ACK leaves. -/
theorem wit_AlarmRecordLifeCycle :
    hasKind .stall [⟨.mainsLoss, .activeAcked, 1, 0, 0⟩] = false ∧
    hasKind .mainsLoss ([⟨.stall, .clearedUnacked, 255, 0, 0⟩] ++ [⟨.noPanel, .activeAcked, 1, 0, 0⟩]) = false ∧
    (∀ r ∈ [(⟨.mainsLoss, .activeAcked, 1, 0, 0⟩ : AlarmRecord)], r.st = .activeAcked) := by decide +kernel

/-- AgesGoUpByTheSecond: a capture and none. -/
theorem wit_AgesGoUpByTheSecond :
    let c : Capture := ⟨.a, .rate, none, none, none, none, none, 65535, 1000⟩
    ({ State.reset with dgp := { Dgp.reset with capture := some c } } : State).dgp.capture = some c ∧
    State.reset.dgp.capture = none := by decide +kernel

/-! ### Witnesses: station table -/

/-- TelegramIsAccepted: from an absent entry, a newer serial at each bound, and a STALE entry. -/
theorem wit_TelegramIsAccepted :
    let s (v : Byte) (t : List Entry) := taking (door .idleClosed) (demand v false) t
    (s 0 []).suc.startUp.running = true ∧ (s 0 []).rxq.queue = [demand 0 false] ∧ (demand 0 false).origin ≠ (s 0 []).conf.station ∧
    (entryOf (s 0 []) 2).filter (·.live) = none ∧
    (∀ v ∈ [(6 : Byte), 132], (entryOf (s v [panelEntry]) 2).filter (·.live) = some panelEntry ∧ panelEntry.kind = .panel ∧
      panelEntry.serial .demand = some 5 ∧ 1 ≤ ((demand v false).serial - 5).toNat ∧
      ((demand v false).serial - 5).toNat ≤ 127) ∧
    (entryOf (s 5 [{ panelEntry with live := false }]) 2).filter (·.live) = none := by decide +kernel

/-- TelegramIsAccepted: a DEMAND with another counter acknowledges at a door, one with the same counter and one of a new panel do not;
the edges of the three derivations. -/
theorem wit_TelegramIsAccepted_edges :
    let tg : Telegram := { demand 6 false with payload := encodeDemand ⟨.localControl, 0, 8, true, true⟩ }
    let s (x : Telegram) (t : List Entry) : State := { taking (door .idleClosed) x t with
      alu := [⟨.stall, .clearedUnacked, 1, 0, 0⟩, ⟨.mainsLoss, .activeUnacked, 1, 0, 0⟩] }
    let ident (crc : BitVec 16) : Telegram := ⟨.a, .ident, 2, 0, encodeIdent ⟨.panel, 0, 0, 10, crc⟩⟩
    let shown (t : List Entry) (x : Telegram) (lost degraded : Bool) : State := { taking panel x t with
      ste := ⟨t, 0, 0, 0, false, lost, degraded⟩, suc := { panel.suc with accepted := some { panelCfg with station := 9 } } }
    let stale : Entry := { panelEntry with live := false }
    let single : Entry := { panelEntry with single := true, heardB := 3000 }
    panelEntry.panel.any (fun h => h.base != (decodeDemand tg.payload).ack) = true ∧
    gives .telegramTaken (s tg [panelEntry]) (fun t => t.alu = [⟨.mainsLoss, .activeAcked, 1, 0, 0⟩]) = true ∧
    gives .telegramTaken (s (demand 6 false) [panelEntry]) (fun t => t.alu = (s tg []).alu) = true ∧
    gives .telegramTaken (s tg []) (fun t => t.alu = (s tg []).alu) = true ∧
    gives .telegramTaken (shown [stale] (demand 6 false) true false) (fun t => !t.ste.lost) = true ∧
    gives .telegramTaken (shown [single] (demand 6 false) false false) (fun t => t.ste.degraded && hasKind .laneDegraded t.alu) =
      true ∧
    gives .telegramTaken (shown [single] { demand 6 false with lane := .b } false true) (fun t => !t.ste.degraded) = true ∧
    gives .telegramTaken (taking (door .idleClosed) (ident 0x1234) [])
      (fun t => t.ste.mismatch == hasKind .configMismatch t.alu) = true := by decide +kernel

/-- TelegramIsAccepted and EntryAgesMakeStaleAndSingleLane at a panel: a door's set is stored; a disagreement begins, runs on, and ends by
agreement and by falling silent, a raised MODE_CONFLICT with it. -/
theorem wit_TelegramIsAccepted_panel :
    let s (w : Watch) (tg : Telegram) (t : List Entry) : State :=
      let x := taking { panel with suc := { panel.suc with accepted := some { panelCfg with station := 9 } } } tg t
      { x with alu := [⟨.modeConflict, .activeUnacked, 1, 0, 0⟩], pnu := { x.pnu with conflict := w } }
    let differs : Entry := { panelEntry with age := 3000, panel := some ⟨⟨.doorsClosed, 0, 7, true, true⟩, 7⟩ }
    let calm (t : State) : Bool := t.pnu.conflict == .stopped && t.alu.all (fun r => r.kind != .modeConflict || !r.st.active)
    (s .stopped (demand 6 true) [panelEntry]).panelRuns = true ∧ (s .stopped (demand 6 true) []).staleMs = 3000 ∧
    gives .telegramTaken (s .stopped (demand 6 true) [panelEntry]) (fun t => t.pnu.conflict == .running 0) = true ∧
    gives .telegramTaken (s (.running 7) (demand 6 true) [differs]) (fun t => t.pnu.conflict == .running 7) = true ∧
    gives .telegramTaken (s (.past 10000) (demand 6 false) [differs]) calm = true ∧
    gives (.entryGoesStale 2) (s (.past 10000) (demand 6 false) [differs]) calm = true ∧
    gives .telegramTaken (s (.running 7) (peerState 4 { occupying with unacked := 2 }) [differs])
      (fun t => t.pnu.conflict == .running 7 && t.pnu.lastSeen.getD 3 0 == 2) = true := by decide +kernel

/-- TelegramIsNotAccepted: a kind conflict, a duplicate, and a late copy at each bound. -/
theorem wit_TelegramIsNotAccepted :
    let s (v : Byte) (t : List Entry) := taking (door .idleClosed) (demand v false) t
    (∀ v ∈ [(5 : Byte), 4, 133], (s v [panelEntry]).suc.startUp.running = true ∧
      (s v [panelEntry]).rxq.queue = [demand v false] ∧ (demand v false).origin ≠ (s v [panelEntry]).conf.station ∧
      entryOf (s v [panelEntry]) 2 = some panelEntry ∧ panelEntry.live = true ∧ panelEntry.kind = .panel ∧
      panelEntry.serial .demand = some 5 ∧
      (((demand v false).serial - 5).toNat = 0 ∨ 128 ≤ ((demand v false).serial - 5).toNat)) ∧
    (entryOf (s 5 [Entry.blank 2 .door]) 2 = some (Entry.blank 2 .door) ∧ (Entry.blank 2 .door).live = true ∧
      (Entry.blank 2 .door).kind ≠ .panel) := by decide +kernel

/-- OwnNumberMutesThePart: in MUTE, in LISTEN, and in JOINED with a lane that contends. -/
theorem wit_OwnNumberMutesThePart :
    let tg : Telegram := { demand 0 false with origin := 31 }
    let s (u : StartUp) : State := { taking (running doorCfg u) tg [] with
      laneA := { Lane.reset with activity := .contending }
      dcu := { Dcu.reset with ctl := .claiming } }
    ∀ u ∈ [StartUp.mute, .listen, .joined], (s u).rxq.queue = [tg] ∧ tg.origin = (s u).conf.station ∧ (s u).suc.startUp = u ∧
      (s u).laneA.activity = .contending ∧ (s u).doorRuns = true ∧ (s u).dcu.ctl = .claiming := by decide +kernel

/-- EntryAgesMakeStaleAndSingleLane: a LIVE entry with its ages at the limit and just below, a STALE entry and an absent one. -/
theorem wit_EntryAgesMakeStaleAndSingleLane :
    let s (t : List Entry) : State := { panel with ste := { Ste.reset with table := t } }
    let e (ms : Nat) : Entry := { panelEntry with age := ms, heardA := ms, heardB := ms }
    (∀ ms ∈ [2999, 3000], entryOf (s [e ms]) 2 = some (e ms) ∧ (e ms).live = true) ∧
    ((e 2999).age < (s [e 2999]).staleMs ∧ (e 2999).heardA < (s [e 2999]).staleMs) ∧
    ((s [e 3000]).staleMs ≤ (e 3000).age ∧ (s [e 3000]).staleMs ≤ (e 3000).heardB ∧ (s [e 3000]).panelRuns = true ∧
      (s [e 3000]).ste.lost = false) ∧
    (entryOf (s [{ panelEntry with live := false }]) 2).all (fun e => !e.live) = true ∧ entryOf (s []) 2 = none := by
  decide +kernel

/-! ### Witnesses: snapshots and lanes -/

/-- SnapshotTimersMakeSnapshots: both roles with and without a pending change, timers at and below their limits, and a part outside
JOINED. -/
theorem wit_SnapshotTimersMakeSnapshots :
    let keep {α : Type} (b : Bool) (x : Nat) : Keeper α := ⟨none, 255, b, some (50 - x), some (1000 - x)⟩
    let d (b : Bool) (x : Nat) : State := { running doorCfg .joined with
      snu := ⟨keep b x, Keeper.reset, ⟨none, 0, some (10000 - x)⟩⟩ }
    let p (b : Bool) (x : Nat) : State := { running panelCfg .joined with
      snu := ⟨Keeper.reset, keep b x, ⟨none, 0, some (10000 - x)⟩⟩ }
    (∀ x ∈ [0, 1], ∀ b ∈ [true, false], (d b x).suc.startUp = .joined ∧ (d b x).conf.role = .door ∧
      reached (d b x).snu.state.spacing 50 = (x == 0) ∧ (d b x).snu.state.pending = b ∧
      reached (d b x).snu.state.refresh (100 * (d b x).conf.refresh) = (x == 0) ∧
      reached (d b x).snu.ident.timer (1000 * (d b x).conf.refresh) = (x == 0)) ∧
    (∀ x ∈ [0, 1], ∀ b ∈ [true, false], (p b x).suc.startUp = .joined ∧ (p b x).conf.role = .panel ∧
      reached (p b x).snu.demand.spacing 50 = (x == 0) ∧ (p b x).snu.demand.pending = b ∧
      reached (p b x).snu.demand.refresh (100 * (p b x).conf.refresh) = (x == 0)) ∧
    (running doorCfg .mute).suc.startUp ≠ .joined := by decide +kernel

/-- SnapshotTimersMakeSnapshots: a command that changes a reported field of a door, one that moves its figure within the newest snapshot's
band and one that moves it into another, and one that changes a panel's own demand. -/
theorem wit_SnapshotTimersMakeSnapshots_offers :
    let m (n : Int) : State := { door .closing with trm := { Trm.reset with running := true, ref := true, count := n } }
    let sent (n : Int) : State := { m n with snu := { (m n).snu with state := ⟨some (doorContent (m n)), 0, false, none, none⟩ } }
    let bands (n : Int) (same : Bool) : Bool := gives (.positionPulse false 200000) (sent n) (fun t =>
      t.suc.startUp == .joined && (doorContent t).figure != (doorContent (sent n)).figure &&
      (bandOf (doorContent t).figure == bandOf ((sent n).snu.state.newest.bind (·.figure))) == same)
    (CountBounded (m 300) ∧ CountBounded (sent 300) ∧ CountBounded (sent 240) ∧ CountBounded panel) ∧
    gives (.loPressed .a) (m 300) (fun t => t.suc.startUp == .joined && (doorContent t).ctl != (doorContent (m 300)).ctl) = true ∧
    bands 300 true = true ∧ bands 240 false = true ∧
    gives (.groupClosePress 16) panel (fun t => t.suc.startUp == .joined && panelContent t != panelContent panel) = true :=
  ⟨⟨by constructor <;> decide +kernel, by constructor <;> decide +kernel, by constructor <;> decide +kernel,
      by constructor <;> decide +kernel⟩,
    by decide +kernel, by decide +kernel, by decide +kernel, by decide +kernel⟩

/-- A door part at the greatest values a payload carries. -/
def fullPart : DoorPart :=
  ⟨16, .heldOpen, .unknown, some 1000, some 15, .waiting, .doorsClosed, true, .reclose, 0xFFFF, 0xFFFF, true, true⟩

/-- PayloadsAreReadAsTheyWereMade: every bounded field at its bound. -/
theorem wit_PayloadsAreReadAsTheyWereMade :
    fullPart.ctl ≠ .inactive ∧ fullPart.group ≤ 255 ∧ fullPart.figure = some 1000 ∧ fullPart.closes = some 15 ∧
    decodeState (encodeState fullPart) = fullPart := by decide +kernel

/-- SentTelegramIsReceivedAsMade: a lane that contends, one that sends, one in its end gap and one that acknowledges. -/
theorem wit_SentTelegramIsReceivedAsMade_lanes :
    let c : SendCopy := ⟨.state fullPart, 255⟩
    let l (a : Activity) (c : Option SendCopy) (slot : Bool) : Lane := { Lane.reset with activity := a, copy := c, slot := slot }
    (∀ a ∈ [Activity.contending, .sending], (l a (some c) false).slot = false ∧ (l a (some c) false).copy = some c ∧
      (l a (some c) false).activity = a) ∧
    ((l .sending none false).activity ≠ .contending ∧ (l .sending none false).copy = none) ∧ (l .idle none true).slot = true := by
  decide +kernel

/-- SentTelegramIsReceivedAsMade: the first byte in, the queue with a place and full, stations 1 and 63. -/
theorem wit_SentTelegramIsReceivedAsMade :
    let c : SendCopy := ⟨.state fullPart, 255⟩
    let bytes (n : Nat) := telegramBytes n c
    let s (n k : Nat) : State := { withLane .receiving (fun l => { l with rx := some ((bytes n).take 1) }) with
      rxq := ⟨List.replicate k (demand 0 false), 0⟩ }
    ∀ n ∈ [1, 63], (1 ≤ n ∧ n ≤ 63) ∧ (bytes n).take 1 ++ spelled (cellsOf ((bytes n).drop 1)) = telegramBytes n c ∧
      (s n 3).suc.startUp.running = true ∧ ((s n 3).lane .a).activity = .receiving ∧
      ((s n 3).lane .a).rx = some ((bytes n).take 1) ∧ (s n 3).rxq.queue.length < 4 ∧ 4 ≤ (s n 4).rxq.queue.length := by
  decide +kernel

/-- QuietLaneBeginsOrReceives: a lane not quiet, a quiet idle one with and without work, a quiet withdrawn one. -/
theorem wit_QuietLaneBeginsOrReceives :
    let q := withLane .idle (fun l => { l with quiet := true })
    let w : State := { q with snu := { q.snu with ident := ⟨some (identContent q), 0, some 0⟩ } }
    let d := withLane .withdrawn (fun l => { l with quiet := true })
    ((withLane .idle id).suc.startUp.running = true ∧ ((withLane .idle id).lane .a).quiet = false) ∧
    (w.suc.startUp = .joined ∧ (w.lane .a).quiet = true ∧ (w.lane .a).activity = .idle ∧
      laneWork w.snu (w.lane .a) = some ⟨.ident (identContent w), 0⟩) ∧
    ((q.lane .a).quiet = true ∧ (q.lane .a).activity = .idle ∧ laneWork q.snu (q.lane .a) = none) ∧
    ((d.lane .a).quiet = true ∧ (d.lane .a).activity = .withdrawn) := by decide +kernel

/-- ReceptionStartsOrIsRejected: marks at and just past both bounds, classes 2 and 3, a peer's telegram and an abandoned one. -/
theorem wit_ReceptionStartsOrIsRejected :
    let s (o : Own) := withLane .receiving (fun l => { l with rx := some [], own := o })
    (∀ o ∈ [Own.peer, .bitError, .mute], (s o).suc.startUp.running = true ∧ ((s o).lane .a).activity = .receiving ∧
      ((s o).lane .a).rx = some [] ∧ ((s o).lane .a).own = o ∧ (s o).conf.rate = .r25) ∧
    (7 * 40000 ≤ 2 * 140000 ∧ 2 * 180000 ≤ 9 * 40000) ∧ (2 * 139999 < 7 * 40000 ∧ 9 * 40000 < 2 * 180001) ∧
    (∀ b ∈ [0xBF#8, 0xC0#8], spelled (cellsOf [b]) = [b]) ∧ (0xBF#8).toNat < 192 ∧ 192 ≤ (0xC0#8).toNat := by decide +kernel

/-- ContentionBitErrorsAndWithdrawal: a lane that contends, one at its fifteenth and one at its sixteenth bit error, a withdrawn one. -/
theorem wit_ContentionBitErrorsAndWithdrawal :
    let b (n : Nat) := withLane .contending (fun l => { l with bitErr := n })
    (∀ n ∈ [14, 15], (b n).suc.startUp.running = true ∧ ((b n).lane .a).activity = .contending ∧ ((b n).lane .a).bitErr = n) ∧
    ((withLane .withdrawn id).lane .a).activity = .withdrawn := by decide +kernel

/-- SendCompleteRecordsAndTallies: a lane that sends, seven unheard before. -/
theorem wit_SendCompleteRecordsAndTallies :
    let s := withLane .sending (fun l => { l with copy := some ⟨.state fullPart, 255⟩, unheard := 7 })
    s.suc.startUp.running = true ∧ (s.lane .a).activity = .sending ∧ (s.lane .a).copy = some ⟨.state fullPart, 255⟩ := by
  decide +kernel

/-- CompleteTelegramIsRejected: a wrong check, a station number of 0, and a wrong length byte. -/
theorem wit_CompleteTelegramIsRejected :
    let s := withLane .receiving (fun l => { l with rx := some [] })
    let whole (body : List Byte) : List Byte := body ++ wordBytes (check16 body)
    let zero := whole ([0x00, 9, 5] ++ List.replicate 5 0)
    let long := whole ([0x02, 9, 6] ++ List.replicate 5 0)
    let wrong : List Byte := [0x02, 9, 5, 0, 0, 0, 0, 0, 0, 0]
    (s.suc.startUp.running = true ∧ (s.lane .a).activity = .receiving ∧ (s.lane .a).rx = some []) ∧
    (∀ b ∈ [wrong, zero, long], [] ++ spelled (cellsOf b) = b ∧ classOf (byteAt b 0) = some .demand ∧ b.length = 5 + 5) ∧
    check16 (wrong.take 8) ≠ wordOf (byteAt wrong 8) (byteAt wrong 9) ∧
    (check16 (zero.take 8) = wordOf (byteAt zero 8) (byteAt zero 9) ∧ originOf (byteAt zero 0) = 0) ∧
    (check16 (long.take 8) = wordOf (byteAt long 8) (byteAt long 9) ∧ (byteAt long 2).toNat ≠ 5) := by decide +kernel

/-- StuckAndSilentLanes: a lane not quiet and a quiet one, a silence timer at its limit, just below it, and none. -/
theorem wit_StuckAndSilentLanes :
    let s (ms : Nat) := withLane .idle (fun l => { l with silence := some ms })
    let q := withLane .idle (fun l => { l with quiet := true })
    ((s 3000).suc.startUp.running = true ∧ ((s 3000).lane .a).quiet = false ∧
      reached ((s 3000).lane .a).silence (s 3000).staleMs = true) ∧
    reached ((s 2999).lane .a).silence (s 2999).staleMs = false ∧
    ((q.lane .a).quiet = true ∧ reached (q.lane .a).silence q.staleMs = false) := by decide +kernel

/-! ### Witnesses: panel and diagnostic port -/

/-- ScansCountAndFramesShow: a panel, a part before its configuration, a door. -/
theorem wit_ScansCountAndFramesShow :
    (panel.panelRuns = true ∧ panel.pnu.running = true ∧ panel.doorRuns = false) ∧ State.reset.panelRuns = false ∧
    State.reset.doorRuns = false ∧ (door .idleClosed).doorRuns = true ∧ panel.pnu.patterns.length = 272 := by decide +kernel

/-- R159, worked by hand on a chain whose positions 0 and 271 differ: position 271 goes out first, and each position stands in its own
stage at the strobe. -/
theorem test_frame_order :
    let p : State := { panel with pnu := { panel.pnu with patterns := .steady :: List.replicate 271 .dark } }
    gives .lampFrame p (fun t => t.pnu.shifted.getLast? = some true && t.pnu.shifted.head? = some false &&
      t.pnu.strobed = true :: List.replicate 271 false) = true := by decide +kernel

/-- A panel with a key made. -/
def panelKey (k : Nat) : State := { panel with pnu := { panel.pnu with keys := 1#20 <<< k } }

/-- DemandKeysActOnceAndAreOffered: groups 1 and 16, the selector both ways, ACK, the spacing ended and running. -/
theorem wit_DemandKeysActOnceAndAreOffered :
    let busy : State := { panel with snu := { panel.snu with demand := ⟨none, 0, false, some 49, none⟩ } }
    (∀ g ∈ [1, 16], (1 ≤ g ∧ g ≤ 16) ∧ panel.pnu.keys.getLsbD (g - 1) = false ∧
      (panelKey (g - 1)).pnu.keys.getLsbD (g - 1) = true) ∧
    (panel.pnu.keys.getLsbD 16 ≠ true ∧ (panelKey 16).pnu.keys.getLsbD 16 ≠ false) ∧ panel.pnu.keys.getLsbD 17 = false ∧
    (panelKey 17).pnu.keys.getLsbD 17 = true ∧ panel.panelRuns = true ∧ panel.pnu.running = true ∧
    panel.suc.startUp = .joined ∧ panel.snu.demand.ready = true ∧ busy.snu.demand.ready = false := by decide +kernel

/-- SilenceAndLampTestKeys: PSND on and off, the key open and made, a test and none. -/
theorem wit_SilenceAndLampTestKeys :
    let loud : State := { panel with
      alu := [⟨.mainsLoss, .activeUnacked, 1, 0, 0⟩], pnu := { panel.pnu with psnd := true, lampTest := some 30000 } }
    (loud.panelRuns = true ∧ loud.pnu.running = true ∧ loud.pnu.keys.getLsbD 18 = false ∧ loud.pnu.psnd = true ∧
      alarmExists loud = true ∧ loud.pnu.lampTest.isSome = true) ∧
    (panel.pnu.psnd = false ∧ panel.pnu.keys.getLsbD 19 = false ∧ panel.pnu.lampTest = none) ∧
    (panelKey 19).pnu.keys.getLsbD 19 = true := by decide +kernel

/-- SilenceAndLampTestKeys, a silence ended: mains made with no record and with a cleared one, and a door's STATE with a kind not seen
before, from a new and from a LIVE entry. -/
theorem wit_SilenceAndLampTestKeys_ended :
    let s (alu : List AlarmRecord) : State := { panel with
      deb := { noLead with mains := true }, alu := alu, pnu := { panel.pnu with silence := true } }
    let part : DoorPart := { occupying with unacked := 0x8001 }
    let p (t : List Entry) : State := { taking panel (peerState 4 part) t with pnu := { panel.pnu with silence := true } }
    (∀ alu ∈ [[], [(⟨.mainsLoss, .clearedUnacked, 1, 0, 0⟩ : AlarmRecord)]],
      (s alu).deb.mains = true ∧ (∀ r ∈ (s alu).alu, r.kind = .mainsLoss → r.st.active = false)) ∧
    (∀ t ∈ [[], [peerEntry 4 occupying]], (p t).panelRuns = true ∧ (p t).rxq.queue = [peerState 4 part] ∧
      (peerState 4 part).cls = .state ∧ (peerState 4 part).origin ≠ (p t).conf.station ∧
      (p t).pnu.lastSeen.getD 3 0 = 0 ∧ (decodeState (peerState 4 part).payload).unacked.getLsbD 15 = true) ∧
    entryOf (p []) 4 = none ∧ entryOf (p [peerEntry 4 occupying]) 4 = some (peerEntry 4 occupying) := by decide +kernel

/-- KeyReleaseAndHeldLimit: keys 0 and 18 made, a timer at 60 s, a key that is open. -/
theorem wit_KeyReleaseAndHeldLimit :
    let h : State := { panelKey 0 with pnu := { (panelKey 0).pnu with heldKeys := [.running 60000] } }
    (∀ k ∈ [0, 18], (panelKey k).panelRuns = true ∧ (panelKey k).pnu.running = true ∧ k < 20 ∧ k ≠ 16 ∧ k ≠ 19 ∧
      (panelKey k).pnu.keys.getLsbD k = true) ∧
    (h.panelRuns = true ∧ h.pnu.running = true ∧ h.pnu.heldKeys[0]? = some (.running 60000)) ∧
    panel.pnu.keys.getLsbD 0 = false := by decide +kernel

/-- TransfersOpenAndEnd: the own address with both directions, and another. -/
theorem wit_TransfersOpenAndEnd :
    (0x58#8).toNat = 2 * State.reset.dgp.addr.toNat ∧ (0x59#8).toNat = 2 * State.reset.dgp.addr.toNat + 1 ∧
    (0x5A#8).toNat / 2 ≠ State.reset.dgp.addr.toNat := by decide +kernel

/-- WriteBytesActBySubaddress: the subaddress byte; pages 3, 16 and 78 at 255; a clear at 254; refusals beside both; no write. -/
theorem wit_WriteBytesActBySubaddress :
    let s (sub page : Nat) (b : Bool) : State := { panel with
      dgp := { Dgp.reset with port := .addressedWrite, sub := sub, page := page, wantSub := b } }
    ((s 0 0 true).dgp.port = .addressedWrite ∧ (s 0 0 true).dgp.wantSub = true) ∧
    ((s 255 0 false).dgp.port = .addressedWrite ∧ (s 255 0 false).dgp.wantSub = false ∧ (s 255 0 false).dgp.sub = 255 ∧
      ∀ b ∈ [3#8, 16#8, 78#8], b.toNat ≤ 3 ∨ (16 ≤ b.toNat ∧ b.toNat ≤ 78)) ∧
    ((s 254 0 false).dgp.sub = 254 ∧ (s 254 0 false).dgp.page = 0) ∧
    (¬ ((s 254 1 false).dgp.sub = 254 ∧ (s 254 1 false).dgp.page = 0) ∧ (s 254 1 false).dgp.sub ≠ 255) ∧
    (∀ b ∈ [4#8, 15#8, 79#8], ¬ (b.toNat ≤ 3 ∨ (16 ≤ b.toNat ∧ b.toNat ≤ 78))) ∧
    panel.dgp.port ≠ .addressedWrite := by decide +kernel

/-- ReadsCopyThenSendBytes: no copy yet; a copy, at its last byte, past it, and after a missing acknowledgement. -/
theorem wit_ReadsCopyThenSendBytes :
    let s (c : Option (List Byte)) (sub : Nat) (m : Bool) : State := { panel with
      dgp := { Dgp.reset with port := .addressedRead, copy := c, sub := sub, muted := m } }
    ((s none 0 false).dgp.port = .addressedRead ∧ (s none 0 false).dgp.copy = none) ∧
    ((s (some [7, 8]) 1 false).dgp.copy = some [7, 8] ∧ (s (some [7, 8]) 1 false).dgp.sub < [7#8, 8#8].length ∧
      (s (some [7, 8]) 1 false).dgp.muted = false) ∧
    ([7#8, 8#8].length ≤ (s (some [7, 8]) 2 false).dgp.sub) ∧ (s (some [7, 8]) 2 true).dgp.muted = true := by decide +kernel

/-- PagesHaveTheirSizes: both roles, with every item a clause asks for present, a door in a stroke and one with none, and a state after
reset with each absent. -/
theorem wit_PagesHaveTheirSizes :
    let l : Lane := { Lane.reset with unheard := 7, bitErr := 15, sentD := some 1, sentS := some 255, sentI := some 0 }
    let c : Capture := ⟨.b, .check, some 2, some 9, some 5, some 0x29B1, some 0xE1F0, 65535, 0⟩
    let s (x : State) : State := { x with
      laneA := l, laneB := l, alu := [⟨.stall, .clearedUnacked, 255, 65535, 0⟩], dgp := { Dgp.reset with capture := some c }
      suc := { x.suc with refused := some 53, clamps := 24 }, ste := { x.ste with table := [panelEntry] }
      snu := ⟨⟨some fullPart, 255, false, none, none⟩, ⟨some (panelContent x), 0, false, none, none⟩,
        ⟨some (identContent x), 0, none⟩⟩ }
    let d := s (door .idleClosed)
    let p := s panel
    (d.conf.role = .door ∧ d.conf.station < 128 ∧ d.snu.state.newest = some fullPart ∧
      d.snu.ident.newest = some (identContent (door .idleClosed)) ∧ (d.lane .a).sentD = some 1 ∧ (d.lane .b).sentS = some 255 ∧
      (d.lane .b).sentI = some 0 ∧ (d.lane .a).unheard ≤ 255 ∧ (d.lane .a).bitErr ≤ 255 ∧ d.rxq.queue.length ≤ 255) ∧
    (p.conf.role = .panel ∧ p.snu.demand.newest = some (panelContent panel) ∧ p.conf.station < 128 ∧ ∀ i ∈ [0, 18], i < 19) ∧
    (d.alu[0]? = some ⟨.stall, .clearedUnacked, 255, 65535, 0⟩ ∧ d.alu.length ≤ 1 ∧ d.suc.image.length = 128 ∧
      d.suc.refused = some 53 ∧ d.suc.clamps ≤ 24 ∧ d.suc.accepted = some doorCfg ∧ d.dgp.capture = some c) ∧
    (entryOf d 2 = some panelEntry ∧ panelEntry.serD = some 5 ∧ entryOf d 63 = none ∧
      entryOf { d with ste := { d.ste with table := [peerEntry 4 occupying] } } 4 = some (peerEntry 4 occupying)) ∧
    ((door .closing).dcu.ctl ≠ .inactive ∧ (door .closing).trm.stall = none ∧
      { (door .closing).trm with stall := some ⟨256, 255, 0⟩ }.stall = some ⟨256, 255, 0⟩) ∧
    (State.reset.suc.refused = none ∧ State.reset.suc.accepted = none ∧ State.reset.dgp.capture = none) := by decide +kernel

/-- R178 with 1.7 and 7.3: an absent last-sent value and stopped timers read all ones, the newest STATE stands from byte 64 and the
region ends in its zero byte. -/
theorem test_snapshot_region :
    let p : DoorPart := doorContent (door .closing)
    let s : State := { door .closing with snu := { Snu.reset with state := ⟨some p, 9, false, some 49, none⟩ } }
    byteAt (pageBytes s 0) 12 = 0xFF ∧ ((pageBytes s 0).drop 64).take 11 = encodeState p ∧
      [82, 87, 88, 91, 92, 95].map (byteAt (pageBytes s 0)) = [9, 0, 49, 0xFF, 0xFF, 0] := by decide +kernel

/-- R178: on a panel's page 0 the timer of key 17 stands at byte 115 in seconds, the lamp test's at 266, and the mode conflict's at 267 in
100 ms; a stopped one reads all ones. -/
theorem test_panel_timers :
    let s : State := { panel with pnu := { panel.pnu with
      heldKeys := List.replicate 17 .stopped ++ [.running 4999, .past 60000, .stopped], lampTest := some 29999, conflict := .past 10000 } }
    [99, 115, 116, 117, 266, 267].map (byteAt (pageBytes s 0)) = [0xFF, 4, 60, 0xFF, 29, 100] := by decide +kernel

/-! ### Witnesses: steps and invariants -/

/-- StepRunsTheCommandInFront. -/
theorem wit_StepRunsTheCommandInFront :
    ({ State.reset with pending := [.diagStop] } : State).pending = .diagStop :: [] := rfl

/-- EmptyQueueLetsTimePass: nothing due after reset, and a flash edge due. -/
theorem wit_EmptyQueueLetsTimePass : State.reset.pending = [] ∧ due State.reset = none ∧
    due { State.reset with flash := ⟨0, 125⟩ } = some .flashEdge := by decide +kernel

/-- EmptyQueueLetsTimePass: a level settled for 40 ms and one for 39, a warning at 0, a gate at 100 ms and one at 99. -/
theorem wit_EmptyQueueLetsTimePass_due :
    let lead (n : Nat) : State := { door .idleClosed with
      lead := { noLead with loa := true, mains := true }, settle := { PerLead.all none with loa := some n } }
    let warn : State := { door .warning with dcu := { (door .warning).dcu with warnTimer := some 0 } }
    let gate (n : Nat) : State := { door .idleClosed with enu := { Enu.reset with running := true, gate := some n } }
    [lead 40, lead 39, warn, gate 100, gate 99].map (fun s => due { s with lead := { s.lead with mains := true } }) =
      [some (.loPressed .a), none, some .warningTimerExpiry, some .gateEnd, none] := by decide +kernel

/-- A door in JOINED with one station in its table, one alarm record and its pins following, and a command in front. -/
def steady : State :=
  let s := door .idlePartial
  let s1 : State := { s with
    ste := { s.ste with table := [panelEntry] }
    alu := [⟨.stall, .clearedUnacked, 255, 65535, 0⟩]
    pending := [.flashEdge] }
  { s1 with outs := outsFor s1 }

/-- StepsKeepOpeningsFedAndClaimsJoined. -/
theorem wit_StepsKeepOpeningsFedAndClaimsJoined :
    OpeningFed steady ∧ ClaimsJoined steady ∧ ∃ t, step steady = .next t :=
  ⟨⟨by decide +kernel, by decide +kernel, by decide +kernel, by decide +kernel, by decide +kernel, by decide +kernel⟩,
    ⟨by decide +kernel, by decide +kernel, by decide +kernel, by decide +kernel, by decide +kernel, by decide +kernel,
      by decide +kernel⟩, _, rfl⟩

/-- StepsKeepThePumpGuarded. -/
theorem wit_StepsKeepThePumpGuarded : PumpGuarded steady ∧ ∃ t, step steady = .next t :=
  ⟨⟨by decide +kernel, by decide +kernel, by decide +kernel, by decide +kernel⟩, _, rfl⟩

/-- StepsKeepThePumpGuarded, unlocking: an acknowledgement at a door whose pump is locked, with and without a need to start. -/
theorem wit_StepsKeepThePumpGuarded_unlocks :
    let tg : Telegram := { demand 6 false with payload := encodeDemand ⟨.localControl, 0, 8, true, true⟩ }
    let s (p : Nat) : State := { taking (door .idleClosed) tg [panelEntry] with
      alu := [⟨.pumpFail, .clearedUnacked, 1, 0, 0⟩]
      enu := { Enu.reset with running := true, locked := true, p := some p } }
    (PumpGuarded (s 2599) ∧ PumpGuarded (s 2600)) ∧
    (∀ p ∈ [2599, 2600], (s p).doorRuns = true ∧ (s p).enu.running = true ∧ hasKind .pumpFail (s p).alu = true) ∧
    gives .telegramTaken (s 2599) (fun t => t.doorRuns && !hasKind .pumpFail t.alu && t.enu.pumpOn && t.enu.run == some 0) = true ∧
    gives .telegramTaken (s 2600) (fun t => t.doorRuns && !hasKind .pumpFail t.alu && !t.enu.locked && !t.enu.pumpOn) = true :=
  ⟨⟨by constructor <;> decide +kernel, by constructor <;> decide +kernel⟩, by decide +kernel, by decide +kernel, by decide +kernel⟩

/-- StepsKeepLanesSilentOutsideJoined: in JOINED with a lane that sends. -/
theorem wit_StepsKeepLanesSilentOutsideJoined :
    let s : State := { withLane .sending (fun l => { l with copy := some ⟨.state fullPart, 0⟩ }) with pending := [.flashEdge] }
    SendsJoined s ∧ s.laneA.sends ∧ ∃ t, step s = .next t :=
  ⟨⟨by decide +kernel, by decide +kernel, fun h => absurd rfl h, fun h => absurd rfl h⟩, Or.inr rfl, _, rfl⟩

/-- StepsKeepTheTableOrdered. -/
theorem wit_StepsKeepTheTableOrdered : TableOrdered steady ∧ ∃ t, step steady = .next t :=
  ⟨⟨by decide +kernel, by decide +kernel, by decide +kernel, by decide +kernel, by decide +kernel, by decide +kernel⟩, _, rfl⟩

/-- StepsKeepTheAlarmList: a count and an age at their bounds. -/
theorem wit_StepsKeepTheAlarmList : AlarmsListed steady ∧ ∃ t, step steady = .next t :=
  ⟨⟨by decide +kernel, by decide +kernel, by decide +kernel, by decide +kernel⟩, _, rfl⟩

/-- StepsKeepTheCountBounded: a referenced count at the travel count with the slack used up. -/
theorem wit_StepsKeepTheCountBounded :
    let s : State := { steady with trm := { steady.trm with ref := true, count := 1600, overrun := 40 } }
    CountBounded s ∧ ∃ t, step s = .next t :=
  ⟨⟨by decide +kernel, by decide +kernel, by decide +kernel, by decide +kernel, by decide +kernel, by decide +kernel⟩, _, rfl⟩

/-- StepsKeepPositionStrokesAndPins. -/
theorem wit_StepsKeepPositionStrokesAndPins : PinsFollow steady ∧ ∃ t, step steady = .next t :=
  ⟨⟨by decide +kernel, by decide +kernel, by decide +kernel, by decide +kernel, by decide +kernel, by decide +kernel⟩, _, rfl⟩

/-- A panel with an own alarm, its lamps painted and its sounder on. -/
def shown : State :=
  let s : State := { panel with alu := [⟨.mainsLoss, .activeUnacked, 1, 0, 0⟩], pending := [.silencePress] }
  let s1 : State := { s with pnu := { s.pnu with psnd := true } }
  { s1 with pnu := { s1.pnu with patterns := lampPatterns s1 } }

/-- A panel's table: a LIVE closed door of group 3, a STALE one of group 16 with alarms, a panel that shuts group 3, and a door without a
part. -/
def fleet : List Entry :=
  [peerEntry 1 { occupying with ctl := .idleClosed, pos := .closed },
    { panelEntry with num := 3, panel := some ⟨⟨.doorsClosed, 4, 7, true, true⟩, 7⟩ },
    { peerEntry 4 { occupying with group := 16, unacked := 2, active := 2 } with live := false },
    { Entry.blank 63 .door with live := false }]

/-- A panel with a table, an own alarm or none, its summaries, lamps and sounder in order. -/
def painted (alu : List AlarmRecord) : State :=
  let s : State := { panel with alu := alu, ste := { panel.ste with table := fleet } }
  let s1 : State := { s with pnu := { s.pnu with psnd := alarmExists s, summaries := summariesOf fleet } }
  { s1 with pnu := { s1.pnu with patterns := lampPatterns s1 } }

/-- StepsKeepThePanelsLampsAndSounder. -/
theorem wit_StepsKeepThePanelsLampsAndSounder : PanelShows shown ∧ ∃ t, step shown = .next t :=
  ⟨⟨by decide +kernel, by decide +kernel, by decide +kernel, by decide +kernel, by decide +kernel, by decide +kernel⟩, _, rfl⟩

/-- StepsKeepThePanelsLampsAndSounder, spelled out: door cells of each shape of entry, a group with a door and one without, the ship. -/
theorem wit_StepsKeepThePanelsLampsAndSounder_lamps :
    let s := painted [⟨.mainsLoss, .activeAcked, 1, 0, 0⟩]
    (PanelShows s ∧ PanelShows (painted [])) ∧ s.panelRuns = true ∧
    (entryOf s 2 = none ∧ s.conf.station = 2 ∧ entryOf s 62 = none ∧ (entryOf s 3).map (·.kind) = some .panel ∧
      (entryOf s 1).map (fun e => (e.kind, e.live, e.door.isSome)) = some (.door, true, true) ∧
      (entryOf s 4).map (fun e => (e.kind, e.live, e.door.isSome)) = some (.door, false, true) ∧
      (entryOf s 63).map (fun e => (e.kind, e.live, e.door)) = some (.door, false, none)) ∧
    [0, 1, 2, 9, 10, 11, 186, 187, 188, 195, 234, 235, 236, 237, 238, 239, 242, 245, 260, 271].map (fun i => s.pnu.patterns[i]?) =
      [some .steady, some .dark, some .dark, some .dark, some .slow, some .fast, some .dark, some .dark, some .slow,
        some .steady, some .dark, some .steady, some .fast, some .dark, some .steady, some .fast, some .steady, some .slow,
        some .steady, some .dark] :=
  ⟨⟨by constructor <;> decide +kernel, by constructor <;> decide +kernel⟩, by decide +kernel, by decide +kernel, by decide +kernel⟩

end Sys2Proof.Tests
end

