-- ==== Sys2Proof/Proofs/GateFigures.lean ====
section
/-! SUPPORT and PROOFS. The figures of a gate end: what its hand-on leaves of the energy unit, the pressure figure (R56) and the
usable-volume figure (R57). -/

namespace Sys2Proof.Machine

/-! ### The energy unit after a gate end -/

/-- What pump control reads: the configuration in force, the debounced leads and the energy unit (R64). -/
def PumpInputsKept (s t : State) : Prop := t.suc = s.suc ∧ t.deb = s.deb ∧ t.enu = s.enu

/-- Where its inputs are kept, pump control gives what it would have given (R64). -/
theorem PumpInputsKept.pumpActs_enu {s t : State} (h : PumpInputsKept s t) :
    (pumpActs t).enu = pumpControl s.conf s.deb.mains s.enu := by
  obtain ⟨suc, deb, enu⟩ := h
  simp [pumpActs, State.conf, suc, deb, enu]

/-- No operation of the door changes what pump control reads: its requests never enter or remove a PUMP_FAIL record (R65, R96). -/
theorem PumpInputsKept.carried (s : State) : Carried (PumpInputsKept s) where
  door := fun _ _ _ _ h => h
  offer := fun x h => by simpa [PumpInputsKept] using h
  alarm := fun q x hq h => by simpa [PumpInputsKept, alarm_enu_door q x hq] using h

/-- Of what a gate end hands on, pump control alone, its last act, reaches the energy unit (R62, R64). -/
theorem gateHandsOn_enu (before after : Enu) (s : State) :
    (gateHandsOn before after s).enu = pumpControl s.conf s.deb.mains s.enu := by
  have c := PumpInputsKept.carried s
  have alarms : PumpInputsKept s (gateAlarms before after s) := c.gateAlarms before after ⟨rfl, rfl, rfl⟩
  have start := Carried.ite (P := PumpInputsKept s) (b := before.permStart = after.permStart) alarms
    (c.doorEvent evaluateStanding (c.evaluateStanding alarms))
  have stop := Carried.ite (P := PumpInputsKept s) (b := after.permCont = true) start
    (c.doorEvent onStop (c.onStop start))
  exact (Carried.ite (P := PumpInputsKept s) stop (c.offer _ stop)).pumpActs_enu

/-- A gate end of a running unit: every figure judged, then pump control (R54 to R60, R64). -/
theorem exec_gateEnd_enu {s : State} (h : s.enu.running = true) :
    ∃ t, exec .gateEnd s = .next t ∧ t.enu = pumpControl s.conf s.deb.mains (judgeGate s.conf s.enu) := by
  have arm : exec .gateEnd s = execGateEnd s := rfl
  refine ⟨setOuts (gateHandsOn s.enu (judgeGate s.conf s.enu) { s with enu := judgeGate s.conf s.enu }), ?_, ?_⟩
  · simp [arm, execGateEnd, finish, h]
  · simp [gateHandsOn_enu, State.conf]

/-- Pump control leaves the pressure figure and the usable volume. -/
@[simp] theorem pumpControl_figures (c : Cfg) (m : Bool) (e : Enu) :
    (pumpControl c m e).p = e.p ∧ (pumpControl c m e).u = e.u := by
  have h := pumpControl_handed c m e
  rw [PumpHanded] at h
  rw [h]
  exact ⟨rfl, rfl⟩

/-- The pressure figure of an in-band gate is that of its count (R54, R56). -/
theorem judgeGate_p_of_inBand {c : Cfg} {e : Enu} (lo : c.nmin ≤ e.tally) (hi : e.tally ≤ c.nmax) :
    (judgeGate c e).p = some (pressureOf c e.tally) := by
  simp [judgeGate, inBand, lo, hi]

/-- The usable volume is that of the pressure figure, and absent with it (R57). -/
theorem judgeGate_u (c : Cfg) (e : Enu) : (judgeGate c e).u = (judgeGate c e).p.map (usableOf c) := rfl

/-! ### The pressure figure -/

theorem pressureOf_of_le {c : Cfg} {n : Nat} (h : n ≤ c.n0) : pressureOf c n = 0 := if_pos h

theorem pressureOf_of_lt {c : Cfg} {n : Nat} (h : c.n0 < n) : pressureOf c n = min ((n - c.n0) * c.kP / 256) 4000 :=
  if_neg h.not_ge

theorem pressureOf_le (c : Cfg) (n : Nat) : pressureOf c n ≤ 4000 := by
  rcases le_or_gt n c.n0 with h | h
  · simp [pressureOf_of_le h]
  · simp [pressureOf_of_lt h]

/-- The product of a count above n0 and the gain, at the greatest values of both (R56). -/
theorem pressure_product_le {c : Cfg} {n : Nat} (count : n ≤ 65535) (gain : c.kP ≤ 4095) :
    (n - c.n0) * c.kP ≤ 268365825 :=
  calc (n - c.n0) * c.kP
      ≤ 65535 * 4095 := Nat.mul_le_mul (by omega) gain
    _ = 268365825 := rfl

/-! ### The usable volume -/

theorem usableOf_of_le {c : Cfg} {p : Nat} (h : p ≤ c.pmin) : usableOf c p = 0 := if_pos h

theorem usableOf_of_lt {c : Cfg} {p : Nat} (h : c.pmin < p) :
    usableOf c p = c.v0 * c.p0 * (p - c.pmin) / (c.pmin * p) := if_neg h.not_ge

/-- The figure lies below V0 × p0 / Pmin: above Pmin the full-width quotient is V0 × p0 / Pmin times
(p - Pmin) / p, a factor below 1 (R57). -/
theorem usableOf_mul_pmin_lt {c : Cfg} (v0_pos : 0 < c.v0) (p0_pos : 0 < c.p0) (pmin_pos : 0 < c.pmin) (p : Nat) :
    usableOf c p * c.pmin < c.v0 * c.p0 := by
  have gas_pos : 0 < c.v0 * c.p0 := Nat.mul_pos v0_pos p0_pos
  rcases le_or_gt p c.pmin with h | h
  · simpa [usableOf_of_le h] using gas_pos
  · refine lt_of_mul_lt_mul_right (a := p) ?_ p.zero_le
    calc usableOf c p * c.pmin * p
        = c.v0 * c.p0 * (p - c.pmin) / (c.pmin * p) * (c.pmin * p) := by rw [usableOf_of_lt h, mul_assoc]
      _ ≤ c.v0 * c.p0 * (p - c.pmin) := Nat.div_mul_le_self _ _
      _ < c.v0 * c.p0 * p := Nat.mul_lt_mul_of_pos_left (by omega) gas_pos

/-- The numerator of the usable volume in an accepted configuration, at a pressure in range (R56, R57). -/
theorem usable_numerator_le {c : Cfg} {p : Nat} (p0_ge : 10 ≤ c.p0) (p0_lt : c.p0 < c.pmin) (pmin_le : c.pmin ≤ 4000)
    (v0_le : c.v0 ≤ 60000) (p_le : p ≤ 4000) : c.v0 * c.p0 * (p - c.pmin) ≤ 957360600000 :=
  calc c.v0 * c.p0 * (p - c.pmin)
      ≤ 60000 * 3999 * 3990 := Nat.mul_le_mul (Nat.mul_le_mul v0_le (by omega)) (by omega)
    _ = 957360600000 := rfl

/-! ### The statements -/

/-- Settles O22: the gate end leaves the figure of its count in the energy unit, and the figure is given by its two sides of n0. -/
theorem pressureFigureOfAnInBandGate : Obligations.PressureFigureOfAnInBandGate := by
  intro s running lo hi
  obtain ⟨t, next, enu⟩ := exec_gateEnd_enu running
  have p : t.enu.p = some (pressureOf s.conf s.enu.tally) := by simp [enu, judgeGate_p_of_inBand lo hi]
  refine ⟨t, pressureOf s.conf s.enu.tally, next, p, fun below => ⟨pressureOf_of_le below, ?_⟩, pressureOf_of_lt,
    pressureOf_le _ _, fun above limit => ?_, fun count gain => ⟨pressure_product_le count gain, by decide⟩⟩
  · simp [enu, judgeGate_u, judgeGate_p_of_inBand lo hi, pressureOf_of_le below, usableOf_of_le]
  · rw [pressureOf_of_lt above, min_eq_right limit]

/-- Settles O23: the figure is that of the pressure left by the gate end, and its bounds follow from U × Pmin < V0 × p0. -/
theorem usableVolumeFigureAndItsBounds : Obligations.UsableVolumeFigureAndItsBounds := by
  intro s running
  obtain ⟨t, next, enu⟩ := exec_gateEnd_enu running
  have u : t.enu.u = t.enu.p.map (usableOf s.conf) := by simp [enu, judgeGate_u]
  refine ⟨t, next, fun absent => by simp [u, absent], fun P present => ⟨usableOf s.conf P, by simp [u, present],
    usableOf_of_le, usableOf_of_lt, fun p0_ge p0_lt pmin_le v0_ge v0_le P_le => ?_⟩⟩
  have below_ratio := usableOf_mul_pmin_lt (c := s.conf) (by omega) (by omega) (by omega) P
  have ratio_lt : s.conf.v0 * s.conf.p0 < s.conf.v0 * s.conf.pmin := Nat.mul_lt_mul_of_pos_left p0_lt (by omega)
  have below_v0 : usableOf s.conf P < s.conf.v0 :=
    lt_of_mul_lt_mul_right (below_ratio.trans ratio_lt) s.conf.pmin.zero_le
  exact ⟨usable_numerator_le p0_ge p0_lt pmin_le v0_le P_le, by decide, Nat.mul_le_mul pmin_le P_le, by decide,
    below_ratio, ratio_lt, below_v0, by omega⟩

end Sys2Proof.Machine
end

