-- ==== Sys2Proof/Proofs/Commands.lean ====
section
/-! SUPPORT and PROOFS. The commands in families, and what a property has to survive to survive every command of a family: the
door's commands act by the operations of Laws/Carried.lean, the lanes', the panel's, the snapshot unit's and the diagnostic port's
leave the door's blocks alone. First use: every command completes and leaves the queue (log 6). -/

namespace Sys2Proof.Machine

/-! ### An outcome with a property -/

/-- The outcome is a next state with a property. -/
def Gives (P : State → Prop) (o : Host.Outcome State Fault Refusal) : Prop := ∃ t, o = .next t ∧ P t

namespace Gives

variable {P : State → Prop}

theorem next {t : State} (h : P t) : Gives P (.next t) := ⟨t, rfl, h⟩

theorem finish {t : State} (h : P (setOuts t)) : Gives P (finish t) := ⟨_, rfl, h⟩

theorem ite {b : Prop} [Decidable b] {o p : Host.Outcome State Fault Refusal} (h : b → Gives P o) (k : ¬ b → Gives P p) :
    Gives P (if b then o else p) := by
  split
  · exact h ‹_›
  · exact k ‹_›

/-- An outcome answers one state. -/
theorem of_next {o : Host.Outcome State Fault Refusal} {t : State} (h : Gives P o) (e : o = .next t) : P t := by
  obtain ⟨_, rfl, h⟩ := h
  cases e
  exact h

/-- A command of a lane acts while the lanes are on, or not at all (R135). -/
theorem onLane {s : State} {id : LaneId} {f : Lane → State → State} (h : P s)
    (k : s.suc.startUp.running = true → P (f (s.lane id) s)) : Gives P (onLane id f s) :=
  ite (fun r => next (k r)) (fun _ => next h)

/-- A key that is pressed acts on the debounced level, or not at all (R154). -/
theorem press {s : State} {key : Nat} {f : State → State} (h : P s)
    (k : s.panelOn = true → P (f { s with pnu := s.pnu.change key true })) : Gives P (press key f s) :=
  ite (fun r => next (k (by simp_all))) (fun _ => next h)

end Gives

/-! ### Families of commands -/

/-- The commands of levers, warning, pauses, the held-open limit, the claim hold and the travel monitor. -/
inductive DoorCommand : Instr → Prop
  | limitDebouncedChange (limit : Limit) (made : Bool) : DoorCommand (.limitDebouncedChange limit made)
  | lcPressed (side : Side) : DoorCommand (.lcPressed side)
  | lcReleased (side : Side) : DoorCommand (.lcReleased side)
  | loPressed (side : Side) : DoorCommand (.loPressed side)
  | loReleased (side : Side) : DoorCommand (.loReleased side)
  | warningTimerExpiry : DoorCommand .warningTimerExpiry
  | pauseTimerExpiry (valve : Valve) : DoorCommand (.pauseTimerExpiry valve)
  | heldOpenLimit : DoorCommand .heldOpenLimit
  | discordTimerExpiry : DoorCommand .discordTimerExpiry
  | conflictTimerExpiry : DoorCommand .conflictTimerExpiry
  | positionPulse (up : Bool) (since : Nat) : DoorCommand (.positionPulse up since)
  | closeMaximumPassed : DoorCommand .closeMaximumPassed
  | openMaximumPassed : DoorCommand .openMaximumPassed
  | stallWindowEnd : DoorCommand .stallWindowEnd
  | handMoveArmingExpiry : DoorCommand .handMoveArmingExpiry
  | handMoveWindowEnd : DoorCommand .handMoveWindowEnd
  | claimHoldExpiry : DoorCommand .claimHoldExpiry

/-- The commands of the lane units. -/
inductive LaneCommand : Instr → Prop
  | laneQuiet (lane : LaneId) : LaneCommand (.laneQuiet lane)
  | dominantEdgeQuietLane (lane : LaneId) : LaneCommand (.dominantEdgeQuietLane lane)
  | startMarkMeasured (lane : LaneId) (len : Nat) : LaneCommand (.startMarkMeasured lane len)
  | arbitrationByteReceived (lane : LaneId) (levels : List Bool) : LaneCommand (.arbitrationByteReceived lane levels)
  | arbitrationWon (lane : LaneId) : LaneCommand (.arbitrationWon lane)
  | arbitrationLost (lane : LaneId) : LaneCommand (.arbitrationLost lane)
  | bitError (lane : LaneId) (readBack : List Bool) : LaneCommand (.bitError lane readBack)
  | withdrawalEnd (lane : LaneId) : LaneCommand (.withdrawalEnd lane)
  | telegramSendComplete (lane : LaneId) (heard : Bool) : LaneCommand (.telegramSendComplete lane heard)
  | telegramReceiveComplete (lane : LaneId) (rest : List Bool) : LaneCommand (.telegramReceiveComplete lane rest)
  | receptionCutShort (lane : LaneId) (rest : List Bool) : LaneCommand (.receptionCutShort lane rest)
  | lineStuck (lane : LaneId) : LaneCommand (.lineStuck lane)
  | silenceTimerExpiry (lane : LaneId) : LaneCommand (.silenceTimerExpiry lane)

/-- The commands of the panel unit. -/
inductive PanelCommand : Instr → Prop
  | keyScan (keys : BitVec 32) : PanelCommand (.keyScan keys)
  | groupClosePress (group : Nat) : PanelCommand (.groupClosePress group)
  | modeSelectorChange (made : Bool) : PanelCommand (.modeSelectorChange made)
  | ackPress : PanelCommand .ackPress
  | silencePress : PanelCommand .silencePress
  | lampTestPress : PanelCommand .lampTestPress
  | lampTestRelease : PanelCommand .lampTestRelease
  | keyRelease (position : Nat) : PanelCommand (.keyRelease position)
  | lampTestTimeout : PanelCommand .lampTestTimeout
  | keyHeldLimit (position : Nat) : PanelCommand (.keyHeldLimit position)
  | modeConflictTimerExpiry : PanelCommand .modeConflictTimerExpiry
  | lampFrame : PanelCommand .lampFrame

/-- The commands of the diagnostic port. -/
inductive PortCommand : Instr → Prop
  | diagAddress (byte : Byte) : PortCommand (.diagAddress byte)
  | diagStop : PortCommand .diagStop
  | diagOutOfSequence : PortCommand .diagOutOfSequence
  | diagSubaddress (byte : Byte) : PortCommand (.diagSubaddress byte)
  | pageSelect (byte : Byte) : PortCommand (.pageSelect byte)
  | counterClear (byte : Byte) : PortCommand (.counterClear byte)
  | diagWriteRefused (byte : Byte) : PortCommand (.diagWriteRefused byte)
  | diagReadCopy : PortCommand .diagReadCopy
  | diagReadByte (acked : Bool) : PortCommand (.diagReadByte acked)
  | captureAgeTick : PortCommand .captureAgeTick

/-- The commands of the snapshot unit. -/
inductive SnapshotCommand : Instr → Prop
  | spacingTimerEnd : SnapshotCommand .spacingTimerEnd
  | refreshTimerExpiry : SnapshotCommand .refreshTimerExpiry
  | identTimerExpiry : SnapshotCommand .identTimerExpiry

/-- The commands of the station table. -/
inductive TableCommand : Instr → Prop
  | telegramTaken : TableCommand .telegramTaken
  | entryGoesStale (station : Nat) : TableCommand (.entryGoesStale station)
  | laneHeardAgeLimit (station : Nat) (lane : LaneId) : TableCommand (.laneHeardAgeLimit station lane)

/-- The commands of the energy unit, and a record's second. -/
inductive EnergyCommand : Instr → Prop
  | pfqPulse (since : Nat) : EnergyCommand (.pfqPulse since)
  | gateEnd : EnergyCommand .gateEnd
  | mainsDebouncedChange (made : Bool) : EnergyCommand (.mainsDebouncedChange made)
  | pumpRunLimit : EnergyCommand .pumpRunLimit
  | alarmAgeTick (kind : AlarmKind) : EnergyCommand (.alarmAgeTick kind)

/-- The commands of start-up, of the flash timing and of the leads' levels. -/
inductive StartCommand : Instr → Prop
  | reset (leads : PerLead Bool) (straps : BitVec 2) : StartCommand (.reset leads straps)
  | configAddressNotAcked : StartCommand .configAddressNotAcked
  | configRetryWaitExpiry : StartCommand .configRetryWaitExpiry
  | configReadDone (image : List Byte) (keys : BitVec 32) : StartCommand (.configReadDone image keys)
  | csdLowAfterNineClocks : StartCommand .csdLowAfterNineClocks
  | listenTimerExpiry : StartCommand .listenTimerExpiry
  | flashEdge : StartCommand .flashEdge
  | levelInputEdge (lead : Lead) (made : Bool) : StartCommand (.levelInputEdge lead made)

/-- A property of commands that holds of every family holds of every command. -/
theorem Instr.of_families {Q : Instr → Prop} (door : ∀ c, DoorCommand c → Q c) (lane : ∀ c, LaneCommand c → Q c)
    (panel : ∀ c, PanelCommand c → Q c) (port : ∀ c, PortCommand c → Q c) (snapshot : ∀ c, SnapshotCommand c → Q c)
    (table : ∀ c, TableCommand c → Q c) (energy : ∀ c, EnergyCommand c → Q c) (start : ∀ c, StartCommand c → Q c) :
    ∀ c, Q c := by
  intro c
  cases c
  all_goals first
    | exact door _ (by constructor)
    | exact lane _ (by constructor)
    | exact panel _ (by constructor)
    | exact port _ (by constructor)
    | exact snapshot _ (by constructor)
    | exact table _ (by constructor)
    | exact energy _ (by constructor)
    | exact start _ (by constructor)

/-! ### The door's commands -/

/-- A property the door's operations carry that looks at no lever or limit alone and at no pin survives the door's commands. -/
theorem Carried.command {P : State → Prop} (c : Carried P) (leads : ∀ s l m, l ≠ .mains → P s → P (setDebounced l m s))
    (outs : ∀ s, P s → P (setOuts s)) {i : Instr} (hi : DoorCommand i) {s : State} (h : P s) : Gives P (exec i s) := by
  have lever : ∀ (l : Lead) (m : Bool) (g : PerLead Bool → PerLead Bool → Bool) (f : State → State), l ≠ .mains →
      (∀ {x}, P x → P (f x)) → P (leverChange l m g f s) := by
    intro l m g f hl event
    simp only [leverChange]
    exact Carried.ite (P := P) h (Carried.ite (P := P) (c.doorEvent f (event (leads _ _ _ hl h))) (leads _ _ _ hl h))
  cases hi with
  | limitDebouncedChange limit made =>
    have k := leads s limit.lead made (by cases limit <;> simp [Limit.lead]) h
    exact .ite (fun _ => .next h) fun _ => .ite (fun _ => .finish (outs _ (c.limitActs _ k))) fun _ =>
      .finish (outs _ (c.trm _ k))
  | lcPressed side => exact .finish (outs _ (lever _ _ _ _ (by cases side <;> simp [Side.closeLead]) (c.onLcPressed _)))
  | lcReleased side => exact .finish (outs _ (lever _ _ _ _ (by cases side <;> simp [Side.closeLead]) c.onLcReleased))
  | loPressed side => exact .finish (outs _ (lever _ _ _ _ (by cases side <;> simp [Side.openLead]) c.onLoPressed))
  | loReleased side => exact .finish (outs _ (lever _ _ _ _ (by cases side <;> simp [Side.openLead]) c.onLoReleased))
  | warningTimerExpiry => exact .ite (fun _ => .finish (outs _ (c.doorEvent _ (c.onWarningExpiry h)))) fun _ => .next h
  | pauseTimerExpiry valve => exact .finish (outs _ (c.valves (c.dcu _ h)))
  | heldOpenLimit => exact .ite (fun _ => .finish (outs _ (c.alarm _ _ rfl (c.dcu _ h)))) fun _ => .next h
  | discordTimerExpiry => exact .ite (fun _ => .finish (outs _ (c.alarm _ _ rfl (c.trm _ h)))) fun _ => .next h
  | conflictTimerExpiry => exact .ite (fun _ => .finish (outs _ (c.alarm _ _ rfl (c.trm _ h)))) fun _ => .next h
  | positionPulse up since => exact .ite (fun _ => .finish (outs _ (c.takePulse _ h))) fun _ => .next h
  | closeMaximumPassed => exact .ite (fun _ => .finish (outs _ (c.alarm _ _ rfl (c.trm _ h)))) fun _ => .next h
  | openMaximumPassed =>
    exact .ite (fun _ => .finish (outs _ (c.doorEvent _ (c.onStop (c.alarm _ _ rfl (c.setFinding _ (c.trm _ h))))))) fun _ =>
      .ite (fun _ => .finish (outs _ (c.alarm _ _ rfl (c.setFinding _ h)))) fun _ => .next h
  | stallWindowEnd =>
    change Gives P (execStallWindowEnd s)
    rw [execStallWindowEnd]
    split
    · exact .finish (outs _ (c.windowEnds _ h))
    · exact .ite (fun _ => .finish (outs _ (c.alarm _ _ rfl (c.setFinding _ h)))) fun _ => .next (c.setFinding _ h)
    · exact .next h
  | handMoveArmingExpiry => exact .ite (fun _ => .next (c.trm _ h)) fun _ => .next h
  | handMoveWindowEnd => exact .ite (fun _ => .next (c.trm _ h)) fun _ => .next h
  | claimHoldExpiry => exact .ite (fun _ => .finish (outs _ (c.doorEvent _ (c.onHoldExpiry h)))) fun _ => .next h

/-! ### The lanes' commands -/

/-- A send copy is held in CONTENDING and SENDING alone, and only in JOINED does the lane send (R135). -/
def Lane.Fit (joined : Prop) (l : Lane) : Prop :=
  (l.copy.isSome = true → l.activity = .contending ∨ l.activity = .sending) ∧ (¬ joined → ¬ l.sends)

/-- At most four telegrams wait, of stations 1 to 63 (R147). -/
def Rxq.Fit (q : Rxq) : Prop := (∀ t ∈ q.queue, 1 ≤ t.origin ∧ t.origin ≤ 63) ∧ q.queue.length ≤ 4

/-- A lane without a copy that does not contend is fit. -/
theorem Lane.Fit.of_silent {j : Prop} {l : Lane} (hc : l.copy = none) (ha : l.activity ≠ .contending) : l.Fit j := by
  simp [Lane.Fit, Lane.sends, hc, ha]

/-- A lane that takes a telegram is without a copy, so it stays fit whatever it turns to but CONTENDING. -/
theorem Lane.Fit.of_taking {j : Prop} {l m : Lane} (ht : l.activity = .receiving ∨ l.activity = .withdrawn)
    (hc : m.copy = l.copy) (ha : m.activity ≠ .contending) (h : l.Fit j) : m.Fit j := by
  refine .of_silent ?_ ha
  obtain ⟨copy, -⟩ := h
  rw [hc]
  by_contra k
  rcases ht with ht | ht <;> simp_all [Option.isSome_iff_ne_none]

/-- Fitness looks at the activity and the copy alone. -/
theorem Lane.Fit.of_eq {j : Prop} {l m : Lane} (hc : m.copy = l.copy) (ha : m.activity = l.activity) (h : l.Fit j) :
    m.Fit j := by
  simpa [Lane.Fit, Lane.sends, hc, ha] using h

/-- The record of what was sent leaves the activity and the reported health (R132). -/
@[simp] theorem Lane.record_keeps (l : Lane) (c : SendCopy) :
    (l.record c).activity = l.activity ∧ (l.record c).health = l.health := by
  simp only [Lane.record]
  split <;> exact ⟨rfl, rfl⟩

/-- The tallies leave the activity and the reported health (R141). -/
@[simp] theorem Lane.completes_keeps (l : Lane) (heard : Bool) :
    (l.completes heard).activity = l.activity ∧ (l.completes heard).health = l.health := by
  simp only [Lane.completes]
  split <;> exact ⟨rfl, rfl⟩

/-- What a property has to survive to survive the commands of the lanes. -/
structure LaneKept (P : State → Prop) : Prop where
  lane : ∀ (s : State) (id : LaneId) (l : Lane),
    ((s.lane id).Fit (s.suc.startUp = .joined) → l.Fit (s.suc.startUp = .joined)) → l.health = (s.lane id).health →
    P s → P (s.setLane id l)
  rehealth : ∀ (id : LaneId) (s : State), P s → P (rehealth id s)
  rxq : ∀ (s : State) (q : Rxq), (s.rxq.Fit → q.Fit) → P s → P { s with rxq := q }
  dgp : ∀ (s : State) (d : Dgp), P s → P { s with dgp := d }

namespace LaneKept

variable {P : State → Prop} (k : LaneKept P)
include k

/-- A lane looks for work. -/
theorem tryBegin (id : LaneId) {s : State} (h : P s) : P (tryBegin id s) := by
  simp only [Machine.tryBegin]
  split
  · rename_i hj
    split
    · exact k.lane s id _ (fun _ => by simp [Lane.Fit, hj.1]) rfl h
    · exact h
  · exact h

/-- A rejection offered to the capture. -/
theorem captureOffer (c : Capture) {s : State} (h : P s) : P (captureOffer c s) := by
  simp only [Machine.captureOffer]
  split
  · exact h
  · exact k.dgp _ _ h

/-- A reception that ends, with counters. -/
theorem endReception (id : LaneId) {s : State} (ht : (s.lane id).taking = true) (c : LaneCounters) (h : P s) :
    P (s.setLane id { (s.lane id).endReception with ctr := c }) := by
  simp only [Lane.taking, Bool.and_eq_true, Bool.or_eq_true, beq_iff_eq] at ht
  refine k.lane s id _ (fun f => f.of_taking ht.1 rfl ?_) rfl h
  simp only [Lane.endReception]
  split <;> simp

/-- A format error. -/
theorem formatError (id : LaneId) {s : State} (ht : (s.lane id).taking = true) (c : Capture) (h : P s) :
    P (formatError id (s.lane id) c s) :=
  k.captureOffer c (k.endReception id ht _ h)

/-- A dominant edge on a quiet lane. -/
theorem edgeTaken (id : LaneId) {s : State} (h : P s) : P (edgeTaken id (s.lane id) s) := by
  simp only [Machine.edgeTaken]
  split
  · split
    · rename_i hw
      have hj : s.suc.startUp = .joined := by
        by_contra hn
        simp [hn] at hw
      exact k.lane s id _ (fun _ => by simp [Lane.Fit, hj]) rfl h
    · exact k.lane s id _ (fun _ => .of_silent rfl (by simp [Lane.receives])) rfl h
  · exact k.lane s id _ (fun f => f.of_eq rfl rfl) rfl h
  · exact k.lane s id _ (fun f => f.of_eq rfl rfl) rfl h

/-- A valid telegram is placed, or dropped (R146, R147). -/
theorem place (id : LaneId) {s : State} (ht : (s.lane id).taking = true) (t : Telegram)
    (ho : 1 ≤ t.origin ∧ t.origin ≤ 63) (h : P s) : P (place id (s.lane id) t s) := by
  have hp : (s.lane id).activity = .receiving ∨ (s.lane id).activity = .withdrawn := by
    simp only [Lane.taking, Bool.and_eq_true, Bool.or_eq_true, beq_iff_eq] at ht
    exact ht.1
  have hl : ∀ x : State, x.lane id = s.lane id → ∀ b c, P x →
      P (x.setLane id { (s.lane id).hearsPeer with slot := b, ctr := c }) := by
    intro x hx b c hP
    refine k.lane x id _ (fun f => (hx ▸ f).of_taking hp rfl ?_) (by rw [hx]; rfl) hP
    simp only [Lane.hearsPeer, Lane.endReception]
    split <;> simp
  rw [Machine.place]
  split
  · rename_i hq
    refine hl _ (by cases id <;> rfl) _ _ (k.rxq s _ (fun ⟨f, _⟩ => ⟨?_, ?_⟩) h)
    · simp only [List.mem_append, List.mem_singleton]
      rintro x (hx | rfl)
      · exact f x hx
      · exact ho
    · simpa [Config.queuePlaces, Nat.succ_le_iff] using hq
  · exact hl { s with rxq := { s.rxq with overflow := bump s.rxq.overflow } } (by cases id <;> rfl) _ _
      (k.rxq s _ (fun f => f) h)

end LaneKept

/-- A telegram judged valid names a station 1 to 63 (R145). -/
theorem judgeTelegram_origin {id : LaneId} {c : Cls} {bytes : List Byte} {t : Telegram}
    (h : judgeTelegram id c bytes = .valid t) : 1 ≤ t.origin ∧ t.origin ≤ 63 := by
  simp only [judgeTelegram] at h
  split at h
  · cases h
  · split at h
    · cases h
    · split at h
      · cases h
      · cases h
        have : originOf (byteAt bytes 0) < 2 ^ 6 := BitVec.isLt _
        exact ⟨Nat.one_le_iff_ne_zero.mpr ‹_›, Nat.le_of_lt_succ this⟩

/-- A property that survives a lane replaced by one as fit, a health reported, the queue and the capture survives the commands
of the lanes. -/
theorem LaneKept.command {P : State → Prop} (k : LaneKept P) {i : Instr} (hi : LaneCommand i) {s : State} (h : P s) :
    Gives P (exec i s) := by
  cases hi with
  | laneQuiet id =>
    unfold exec execLaneQuiet
    refine Gives.onLane h fun _ => Carried.ite (P := P) h (k.tryBegin id (k.rehealth id _ (k.lane s id _ (fun f => ?_) rfl h)))
    by_cases hs : (s.lane id).activity = .sending ∧ (s.lane id).copy = none
    · exact .of_silent hs.2 (by simp [Lane.becomesQuiet, hs])
    · exact Lane.Fit.of_eq (l := s.lane id) rfl (by simp [Lane.becomesQuiet, hs]) f
  | dominantEdgeQuietLane id =>
    unfold exec execDominantEdgeQuietLane
    exact Gives.onLane h fun _ => Carried.ite (P := P) (k.edgeTaken id h) h
  | startMarkMeasured id len =>
    unfold exec execStartMarkMeasured
    refine Gives.onLane h fun _ => ?_
    split
    · rename_i ht
      have taking : (s.lane id).taking = true := by simp_all [Lane.takingFirst]
      exact Carried.ite (P := P) (k.endReception id taking _ h) (k.captureOffer _ (k.endReception id taking _ h))
    · exact h
  | arbitrationByteReceived id levels =>
    unfold exec execArbitrationByteReceived
    refine Gives.onLane h fun _ => ?_
    split
    · rename_i ht _
      have taking : (s.lane id).taking = true := by simp_all [Lane.takingFirst]
      simp only [arbitrationTaken]
      split
      · exact k.formatError id taking _ h
      · exact k.lane s id _ (fun f => f.of_eq rfl rfl) rfl h
    · exact h
  | arbitrationWon id =>
    unfold exec execArbitrationWon
    refine Gives.onLane h fun _ => ?_
    split
    · rename_i hc
      refine k.lane s id _ (fun ⟨_, f⟩ => ⟨fun _ => .inr rfl, fun hj => absurd (.inl hc) (f hj)⟩) rfl h
    · exact h
  | arbitrationLost id =>
    unfold exec execArbitrationLost
    exact Gives.onLane h fun _ => Carried.ite (P := P) (k.lane s id _ (fun _ => .of_silent rfl (by simp [Lane.receives])) rfl h) h
  | bitError id readBack =>
    unfold exec execBitError
    refine Gives.onLane h fun _ => Carried.ite (P := P) (k.rehealth id _ (k.lane s id _ (fun _ => .of_silent ?_ ?_) ?_ h)) h <;>
      (simp only [Lane.bitErrs]; split <;> simp [Lane.receives])
  | withdrawalEnd id =>
    unfold exec execWithdrawalEnd
    refine Gives.onLane h fun _ => ?_
    split
    · rename_i hw
      refine k.tryBegin id (k.rehealth id _ (k.lane s id _ (fun f => f.of_taking (.inr hw) rfl ?_) rfl h))
      simp only [Lane.returns]
      split <;> simp
    · exact h
  | telegramSendComplete id heard =>
    unfold exec execTelegramSendComplete
    refine Gives.onLane h fun _ => ?_
    split
    · rename_i c hs _
      refine k.rehealth id _ (k.lane s id _ (fun _ => .of_silent rfl ?_) ?_ h)
      · simp [hs]
      · simp
    · exact h
  | telegramReceiveComplete id rest =>
    unfold exec execTelegramReceiveComplete
    refine Gives.onLane h fun _ => ?_
    simp only
    split
    · rename_i ht _
      split
      · simp only [receiveComplete]
        split
        · rename_i hv
          exact k.rehealth id _ (k.place id ht _ (judgeTelegram_origin hv) h)
        · exact k.captureOffer _ (k.endReception id ht _ h)
        · exact k.formatError id ht _ h
      · exact h
    · exact h
  | receptionCutShort id rest =>
    unfold exec execReceptionCutShort
    refine Gives.onLane h fun _ => ?_
    split
    · rename_i ht
      exact Carried.ite (P := P) (k.formatError id ht _ h) (k.endReception id ht _ h)
    · exact h
  | lineStuck id =>
    unfold exec execLineStuck
    exact Gives.onLane h fun _ => Carried.ite (P := P) h (k.rehealth id _ (k.lane s id _ (fun f => f.of_eq rfl rfl) rfl h))
  | silenceTimerExpiry id =>
    unfold exec execSilenceTimerExpiry
    exact Gives.onLane h fun _ => Carried.ite (P := P) (k.rehealth id _ (k.lane s id _ (fun f => f.of_eq rfl rfl) rfl h)) h

/-! ### The commands beside the door -/

/-- What a property has to survive to survive the commands of the panel. An acknowledge request among them comes from the own ACK key, at a
panel. -/
structure Pressed (P : State → Prop) : Prop where
  offer : ∀ s : State, P s → P (offer s)
  alarm : ∀ (q : AlarmRequest) (s : State), doorRequest q = true → P s → P (alarm q s)
  ack : ∀ s : State, s.panelRuns = true → P s → P (Machine.alarm .acknowledge s)
  pnu : ∀ (s : State) (p : Pnu), P s → P { s with pnu := p }

/-- What a property has to survive to survive the commands of the port. -/
structure Ported (P : State → Prop) : Prop where
  dgp : ∀ (s : State) (d : Dgp), P s → P { s with dgp := d }
  clear : ∀ s : State, P s → P (clearCounters s)

/-- What a property has to survive to survive the commands of the lanes and of the snapshot unit too. -/
structure Aside (P : State → Prop) : Prop extends Pressed P, Ported P where
  lane : ∀ (s : State) (id : LaneId) (l : Lane),
    ((s.lane id).Fit (s.suc.startUp = .joined) → l.Fit (s.suc.startUp = .joined)) → P s → P (s.setLane id l)
  rxq : ∀ (s : State) (q : Rxq), (s.rxq.Fit → q.Fit) → P s → P { s with rxq := q }
  snu : ∀ (s : State) (n : Snu), P s → P { s with snu := n }

namespace Pressed

variable {P : State → Prop} (a : Pressed P)
include a

theorem judgeConflict {s : State} (h : P s) : P (judgeConflict s) := by
  simp only [Machine.judgeConflict]
  have k := a.pnu s { s.pnu with conflict := .stopped } h
  exact Carried.ite (P := P) (Carried.ite (P := P) (a.pnu _ _ h) h) (Carried.ite (P := P) (a.alarm _ _ rfl k) k)

theorem releaseKey (key : Nat) {s : State} (h : P s) : P (releaseKey key s) := by
  simp only [Machine.releaseKey]
  have k := a.pnu s (s.pnu.change key false) h
  exact Carried.ite (P := P) (a.alarm _ _ rfl k) k

/-- The commands of the panel unit. -/
theorem panelCommand {i : Instr} (hi : PanelCommand i) {s : State} (h : P s) : Gives P (exec i s) := by
  have pressed : ∀ key, P { s with pnu := s.pnu.change key true } := fun key => a.pnu s _ h
  cases hi with
  | keyScan keys => exact .ite (fun _ => .next (a.pnu _ _ h)) fun _ => .next h
  | groupClosePress group =>
    exact .ite (fun _ => .ite (fun _ => .next (a.offer _ (a.pnu _ _ (a.pnu _ _ (a.pnu s _ h))))) fun _ => .next h) fun _ =>
      .next h
  | modeSelectorChange made =>
    exact .ite (fun _ => .next (a.offer _ (a.pnu _ _ (a.judgeConflict (a.pnu _ _ (a.pnu s _ h)))))) fun _ => .next h
  | ackPress =>
    unfold exec execAckPress
    exact .press h fun on => a.offer _ (a.pnu _ _ (a.ack _ (by simp_all [State.panelOn, State.panelRuns, State.conf]) (pressed _)))
  | silencePress =>
    exact .ite (fun _ => .next (Carried.ite (P := P) (a.pnu _ _ (a.pnu _ _ (a.pnu _ _ (pressed _)))) (pressed _))) fun _ =>
      .next h
  | lampTestPress => exact .ite (fun _ => .next (Carried.ite (P := P) (pressed _) (a.pnu _ _ (pressed _)))) fun _ => .next h
  | lampTestRelease => exact .ite (fun _ => .next (a.releaseKey _ (a.pnu _ _ h))) fun _ => .next h
  | keyRelease position => exact .ite (fun _ => .next (a.releaseKey _ h)) fun _ => .next h
  | lampTestTimeout => exact .ite (fun _ => .next (a.pnu _ _ h)) fun _ => .next h
  | keyHeldLimit position =>
    exact .ite (fun _ => .next (Carried.ite (P := P) (a.pnu _ _ h) (a.alarm _ _ rfl (a.pnu _ _ h)))) fun _ => .next h
  | modeConflictTimerExpiry => exact .ite (fun _ => .next (a.alarm _ _ rfl (a.pnu _ _ h))) fun _ => .next h
  | lampFrame => exact .ite (fun _ => .next h) fun _ => .next (a.pnu _ _ h)

end Pressed

/-- The commands of the diagnostic port. -/
theorem Ported.portCommand {P : State → Prop} (a : Ported P) {i : Instr} (hi : PortCommand i) {s : State} (h : P s) : Gives P (exec i s) := by
  cases hi with
  | diagAddress byte => exact .next (a.dgp _ _ h)
  | diagStop => exact .next (a.dgp _ _ h)
  | diagOutOfSequence => exact .next (a.dgp _ _ h)
  | diagSubaddress byte => exact .ite (fun _ => .next (a.dgp _ _ h)) fun _ => .next h
  | pageSelect byte => exact .ite (fun _ => .next (a.dgp _ _ h)) fun _ => .next h
  | counterClear byte => exact .ite (fun _ => .next (a.dgp _ _ (a.clear _ h))) fun _ => .next h
  | diagWriteRefused byte => exact .ite (fun _ => .next (a.dgp _ _ h)) fun _ => .next h
  | diagReadCopy => exact .ite (fun _ => .next (a.dgp _ _ h)) fun _ => .next h
  | diagReadByte acked =>
    change Gives P (execDiagReadByte acked s)
    unfold execDiagReadByte
    split
    · exact .next (a.dgp _ _ h)
    · exact .next h
  | captureAgeTick => exact .next (a.dgp _ _ h)

namespace Aside

variable {P : State → Prop} (a : Aside P)
include a

/-- A lane's reported health is set, and handed on (R151). -/
theorem rehealth (id : LaneId) {s : State} (h : P s) : P (rehealth id s) := by
  have k := a.lane s id { s.lane id with health := healthOf (s.lane id) } (fun f => f.of_eq rfl rfl) h
  have alarmed := Carried.ite (P := P) (b := (s.lane id.other).good = true)
    (a.alarm (condition .laneFault (healthOf (s.lane id) != .good)) _
      (by cases (healthOf (s.lane id) != .good) <;> rfl) k) k
  simp only [Machine.rehealth]
  exact Carried.ite (P := P) h (Carried.ite (P := P) k
    (Carried.ite (P := P) (a.pnu _ _ (a.offer _ alarmed)) (a.offer _ alarmed)))

theorem laneKept : LaneKept P where
  lane := fun s id l f _ h => a.lane s id l f h
  rehealth := fun id _ h => a.rehealth id h
  rxq := a.rxq
  dgp := a.dgp

theorem tryBegins {s : State} (h : P s) : P (tryBegins s) := a.laneKept.tryBegin .b (a.laneKept.tryBegin .a h)

theorem makeOwn {s : State} (h : P s) : P (makeOwn s) := by
  simp only [Machine.makeOwn]
  split
  · exact a.tryBegins (a.snu _ _ h)
  · exact a.tryBegins (a.snu _ _ h)

theorem makeIdent {s : State} (h : P s) : P (makeIdent s) := a.tryBegins (a.snu _ _ h)

/-- The commands of the snapshot unit. -/
theorem snapshotCommand {i : Instr} (hi : SnapshotCommand i) {s : State} (h : P s) : Gives P (exec i s) := by
  cases hi with
  | spacingTimerEnd =>
    have rest : P (restOwn s) := by
      rw [restOwn]
      split
      · exact a.snu _ _ h
      · exact a.snu _ _ h
    exact .ite (fun _ => .ite (fun _ => .next (a.makeOwn h)) fun _ => .next rest) fun _ => .next h
  | refreshTimerExpiry => exact .ite (fun _ => .next (a.makeOwn h)) fun _ => .next h
  | identTimerExpiry => exact .ite (fun _ => .next (a.makeIdent h)) fun _ => .next h

end Aside

/-! ### The commands of the energy unit and of the table -/

/-- A property the door's operations carry that looks at the energy unit and the mains no further than a change of either
keeps it, and survives PUMP_FAIL and a record's second, survives the commands of the energy unit. -/
theorem Carried.energyCommand {P : State → Prop} (c : Carried P) (enu : ∀ s e, P s → P { s with enu := e })
    (mains : ∀ s m, P s → P (setDebounced .mains m s)) (pumpFail : ∀ s, P s → P (Machine.alarm (.occurred .pumpFail) s))
    (older : ∀ s k, P s → P { s with alu := s.alu.map (fun r => if r.kind = k then r.older else r) })
    (outs : ∀ s, P s → P (setOuts s)) {i : Instr} (hi : EnergyCommand i) {s : State} (h : P s) : Gives P (exec i s) := by
  cases hi with
  | pfqPulse since => exact .ite (fun _ => .next (enu _ _ h)) fun _ => .next h
  | gateEnd => exact .ite (fun _ => .finish (outs _ (c.gateHandsOn _ _ (enu _ _ h) fun x => enu x _))) fun _ => .next h
  | mainsDebouncedChange made =>
    have k := mains s made h
    exact .ite (fun _ => .next h) fun _ =>
      .ite (fun _ => .finish (outs _ (enu _ _ (c.condition .mainsLoss (!made) rfl k)))) fun _ => .finish (outs _ k)
  | pumpRunLimit => exact .ite (fun _ => .finish (outs _ (enu _ _ (enu _ _ (pumpFail _ (enu _ _ h)))))) fun _ => .next h
  | alarmAgeTick kind => exact .next (older _ _ h)

/-- A property carried that far survives the commands of the table where it survives the queue and the passage to MUTE. -/
theorem CarriedWide.tableCommand {P : State → Prop} (c : CarriedWide P) (rxq : ∀ s q, (s.rxq.Fit → q.Fit) → P s → P { s with rxq := q })
    (mute : ∀ s, P s → P (Machine.toMute s)) (outs : ∀ s, P s → P (setOuts s)) {i : Instr} (hi : TableCommand i) {s : State}
    (h : P s) : Gives P (exec i s) := by
  cases hi with
  | telegramTaken =>
    change Gives P (execTelegramTaken s)
    unfold execTelegramTaken
    split
    · rename_i t rest _ hq
      have k := rxq s { s.rxq with queue := rest }
        (fun ⟨f, l⟩ => ⟨fun x hx => f x (by simp [hq, hx]), by simp [hq] at l; dsimp only; omega⟩) h
      exact .finish (outs _ (Carried.ite (P := P) (Carried.ite (P := P) (mute _ k) k) (c.takeOther _ k)))
    · exact .next h
  | entryGoesStale station =>
    change Gives P (execEntryGoesStale station s)
    unfold execEntryGoesStale
    split
    · exact .next h
    · exact .ite (fun _ => .finish (outs _ (c.goStale _ h))) fun _ => .next h
  | laneHeardAgeLimit station lane =>
    change Gives P (execLaneHeardAgeLimit station lane s)
    unfold execLaneHeardAgeLimit
    split
    · exact .next h
    · exact .ite (fun _ => .next (c.deriveDegraded (c.setEntry _ h))) fun _ => .next h

/-! ### Every command completes -/

/-- The same commands wait. -/
def Waits (q : List Instr) (s : State) : Prop := s.pending = q

theorem Waits.wide (q : List Instr) : CarriedWide (Waits q) where
  door := fun _ _ _ _ h => h
  offer := fun s h => by simpa [Waits] using h
  alarm := fun r s _ h => by simpa [Waits] using h
  ste := fun _ _ h => h
  pnu := fun _ _ h => h
  ack := fun s h => by simpa [Waits] using h

theorem Waits.aside (q : List Instr) : Aside (Waits q) where
  offer := (Waits.wide q).offer
  alarm := (Waits.wide q).alarm
  ack := fun s _ => (Waits.wide q).ack s
  lane := fun s id l _ h => by simpa [Waits] using h
  rxq := fun _ _ _ h => h
  snu := fun _ _ h => h
  pnu := fun _ _ h => h
  dgp := fun _ _ h => h
  clear := fun s h => by simpa [Waits] using h

/-- A start-up command completes. -/
theorem startCommand_waits {i : Instr} (hi : StartCommand i) (s : State) : Gives (Waits s.pending) (exec i s) := by
  cases hi with
  | reset leads straps => exact .next rfl
  | configAddressNotAcked => exact .ite (fun _ => .ite (fun _ => .next rfl) fun _ => .next rfl) fun _ => .next rfl
  | configRetryWaitExpiry => exact .ite (fun _ => .next rfl) fun _ => .next rfl
  | configReadDone image keys =>
    exact .ite (fun _ => .ite (fun _ => .next rfl) fun _ => .ite (fun _ => .next rfl) fun _ =>
      .finish (by simp [Waits])) fun _ => .next rfl
  | csdLowAfterNineClocks => exact .ite (fun _ => .next rfl) fun _ => .next rfl
  | listenTimerExpiry => exact .ite (fun _ => .finish (by simp [Waits])) fun _ => .next rfl
  | flashEdge => exact .finish (by simp [Waits])
  | levelInputEdge lead made => exact .ite (fun _ => .next rfl) fun _ => .next (by simp [Waits])

/-- Settles O51: by families; what each hands on leaves the queue. -/
theorem everyCommandCompletes : Obligations.EveryCommandCompletes := by
  intro c s
  have w := Waits.wide s.pending
  have a := Waits.aside s.pending
  refine Instr.of_families (Q := fun c => Gives (Waits s.pending) (exec c s)) ?door ?lane ?panel ?port ?snapshot ?table
    ?energy ?start c
  case door => exact fun _ hc => w.command (fun _ _ _ _ h => h) (fun _ h => h) hc rfl
  case lane => exact fun _ hc => a.laneKept.command hc rfl
  case panel => exact fun _ hc => a.panelCommand hc rfl
  case port => exact fun _ hc => a.portCommand hc rfl
  case snapshot => exact fun _ hc => a.snapshotCommand hc rfl
  case table => exact fun _ hc => w.tableCommand (fun _ _ _ h => h) (fun _ h => by simpa [Waits] using h) (fun _ h => h) hc rfl
  case energy =>
    exact fun _ hc => w.energyCommand (fun _ _ h => h) (fun _ _ h => h) (fun _ h => by simpa [Waits] using h)
      (fun _ _ h => h) (fun _ h => h) hc rfl
  case start => exact fun _ hc => startCommand_waits hc s

end Sys2Proof.Machine
end

