-- ==== Sys2Proof/Proofs/AlarmList.lean ====
section
/-! SUPPORT and PROOFS. The alarm list: what every request and every second leave well formed (R88 to R90), and what steps on
lanes keep silent outside JOINED (R135, R142). -/

namespace Sys2Proof.Machine

/-! ### The alarm list -/

/-- A record within the bounds of 5.2 (R88 to R90). -/
def AlarmRecord.Fit (r : AlarmRecord) : Prop :=
  1 ≤ r.count ∧ r.count ≤ 255 ∧ r.age ≤ 65535 ∧ (isEvent r.kind = true → r.st = .clearedUnacked)

/-- A list of such records with no kind twice. -/
def Listed (l : List AlarmRecord) : Prop := (l.map (·.kind)).Nodup ∧ ∀ r ∈ l, r.Fit

theorem alarmsListed_iff (s : State) : AlarmsListed s ↔ Listed s.alu := by
  constructor
  · rintro ⟨once, count, age, event⟩
    exact ⟨once, fun r hr => ⟨(count r hr).1, (count r hr).2, age r hr, event r hr⟩⟩
  · rintro ⟨once, fit⟩
    exact ⟨once, fun r hr => ⟨(fit r hr).1, (fit r hr).2.1⟩, fun r hr => (fit r hr).2.2.1, fun r hr => (fit r hr).2.2.2⟩

/-- Records changed in place. -/
theorem Listed.map {l : List AlarmRecord} (h : Listed l) (f : AlarmRecord → AlarmRecord) (kind : ∀ r, (f r).kind = r.kind)
    (fit : ∀ r ∈ l, r.Fit → (f r).Fit) : Listed (l.map f) := by
  refine ⟨by simpa [Function.comp_def, kind] using h.1, fun r hr => ?_⟩
  obtain ⟨x, hx, rfl⟩ := List.mem_map.mp hr
  exact fit x hx (h.2 x hx)

/-- Records removed. -/
theorem Listed.filter {l : List AlarmRecord} (h : Listed l) (p : AlarmRecord → Bool) : Listed (l.filter p) :=
  ⟨h.1.sublist (List.filter_sublist.map _), fun r hr => h.2 r (List.mem_of_mem_filter hr)⟩

/-- A record entered for a kind without one. -/
theorem Listed.push {l : List AlarmRecord} (h : Listed l) {r : AlarmRecord} (new : hasKind r.kind l = false) (fit : r.Fit) :
    Listed (l ++ [r]) := by
  refine ⟨?_, fun x hx => ?_⟩
  · rw [List.map_append, List.nodup_append]
    refine ⟨h.1, by simp, fun a ha b hb => ?_⟩
    obtain ⟨x, hx, rfl⟩ := List.mem_map.mp ha
    simp only [hasKind, List.any_eq_false, beq_iff_eq] at new
    simp only [List.map_cons, List.map_nil, List.mem_singleton] at hb
    exact hb ▸ new x hx
  · rcases List.mem_append.mp hx with hx | hx
    · exact h.2 x hx
    · rw [List.mem_singleton.mp hx]
      exact fit

/-- A request that speaks of a condition by its edges and of an event by its occurrence (R82). -/
def AlarmRequest.speaks : AlarmRequest → Bool
  | .becameTrue k => !isEvent k
  | .becameFalse _ => true
  | .occurred k => isEvent k
  | .acknowledge => true

/-- The requests of the door are such. -/
theorem speaks_of_doorRequest {q : AlarmRequest} (h : doorRequest q = true) : q.speaks = true := by
  cases q <;> simp_all [doorRequest, AlarmRequest.speaks]

theorem bumpCount_fit (n : Nat) : 1 ≤ bumpCount n ∧ bumpCount n ≤ 255 := by
  simp only [bumpCount]
  omega

/-- Every such request leaves the list well formed (R83 to R89). -/
theorem Listed.applyRequest {l : List AlarmRecord} (h : Listed l) {q : AlarmRequest} (hq : q.speaks = true) :
    Listed (applyRequest q l) := by
  cases q with
  | becameTrue k =>
    simp only [Machine.applyRequest]
    split
    · refine h.map _ (fun r => by split <;> rfl) fun r _ ⟨c1, c2, a, e⟩ => ?_
      split
      · rename_i hr
        refine ⟨(bumpCount_fit _).1, (bumpCount_fit _).2, a, fun k => ?_⟩
        simp_all [AlarmRequest.speaks]
      · exact ⟨c1, c2, a, e⟩
    · refine h.push (by simp_all) ⟨by simp, by simp, by simp, fun k => ?_⟩
      simp_all [AlarmRequest.speaks]
  | becameFalse k =>
    refine (h.filter _).map _ (fun r => by split <;> rfl) fun r _ ⟨c1, c2, a, e⟩ => ?_
    split
    · exact ⟨c1, c2, a, fun _ => rfl⟩
    · exact ⟨c1, c2, a, e⟩
  | occurred k =>
    simp only [Machine.applyRequest]
    split
    · refine h.map _ (fun r => by split <;> rfl) fun r _ ⟨c1, c2, a, e⟩ => ?_
      split
      · exact ⟨(bumpCount_fit _).1, (bumpCount_fit _).2, a, e⟩
      · exact ⟨c1, c2, a, e⟩
    · exact h.push (by simp_all) ⟨by simp, by simp, by simp, fun _ => rfl⟩
  | acknowledge =>
    refine (h.filter _).map _ (fun r => by split <;> rfl) fun r hr ⟨c1, c2, a, e⟩ => ?_
    have hc := List.of_mem_filter hr
    split
    · exact ⟨c1, c2, a, fun k => absurd (e k) (by simpa using hc)⟩
    · exact ⟨c1, c2, a, e⟩

/-- The list is all that the invariant looks at. -/
theorem AlarmsListed.of_alu {s t : State} (h : AlarmsListed s) (e : t.alu = s.alu) : AlarmsListed t := by
  rw [alarmsListed_iff] at h ⊢
  rwa [e]

theorem AlarmsListed.alarm {s : State} (h : AlarmsListed s) {q : AlarmRequest} (hq : q.speaks = true) :
    AlarmsListed (alarm q s) := by
  rw [alarmsListed_iff] at h ⊢
  simpa using h.applyRequest hq

theorem AlarmsListed.wide : CarriedWide AlarmsListed where
  door := fun _ _ _ _ h => h.of_alu rfl
  offer := fun _ h => h.of_alu (by simp)
  alarm := fun _ _ hq h => h.alarm (speaks_of_doorRequest hq)
  ste := fun _ _ h => h.of_alu rfl
  pnu := fun _ _ h => h.of_alu rfl
  ack := fun _ h => h.alarm rfl

theorem AlarmsListed.aside : Aside AlarmsListed where
  offer := wide.offer
  alarm := wide.alarm
  ack := fun s _ => wide.ack s
  lane := fun _ _ _ _ h => h.of_alu (by simp)
  rxq := fun _ _ _ h => h.of_alu rfl
  snu := fun _ _ h => h.of_alu rfl
  pnu := wide.pnu
  dgp := fun _ _ h => h.of_alu rfl
  clear := fun _ h => h.of_alu rfl

/-- A second passes for the records of one kind (R90). -/
theorem AlarmsListed.older {s : State} (k : AlarmKind) (h : AlarmsListed s) :
    AlarmsListed { s with alu := s.alu.map (fun r => if r.kind = k then r.older else r) } := by
  rw [alarmsListed_iff] at h ⊢
  refine h.map _ (fun r => by split <;> rfl) fun r _ ⟨c1, c2, a, e⟩ => ?_
  split
  · exact ⟨c1, c2, by simp [AlarmRecord.older, bump], e⟩
  · exact ⟨c1, c2, a, e⟩

/-- The passage to MUTE makes requests of the door alone (R174). -/
theorem AlarmsListed.toMute {s : State} (h : AlarmsListed s) : AlarmsListed (toMute s) :=
  wide.toMute h fun _ _ _ _ _ h => h.of_alu rfl

theorem AlarmsListed.startCommand {i : Instr} (hi : StartCommand i) {s : State} (h : AlarmsListed s) :
    Gives AlarmsListed (exec i s) := by
  cases hi with
  | reset leads straps => exact .next ⟨by simp [State.reset], by simp [State.reset], by simp [State.reset], by simp [State.reset]⟩
  | configAddressNotAcked =>
    exact .ite (fun _ => .ite (fun _ => .next (h.of_alu rfl)) fun _ => .next (h.of_alu rfl)) fun _ => .next h
  | configRetryWaitExpiry => exact .ite (fun _ => .next (h.of_alu rfl)) fun _ => .next h
  | configReadDone image keys =>
    refine .ite (fun _ => .ite (fun _ => .next (h.of_alu rfl)) fun _ => .ite (fun _ => .next (h.of_alu rfl)) fun _ =>
      .finish (.of_alu (s := startBlocks keys _) ?_ rfl)) fun _ => .next h
    simp only [startBlocks]
    split
    · exact wide.startDcu (wide.startMains (h.of_alu (by simp)))
    · exact wide.startMains (h.of_alu (by simp))
  | csdLowAfterNineClocks => exact .ite (fun _ => .next (h.of_alu rfl)) fun _ => .next h
  | listenTimerExpiry =>
    refine .ite (fun _ => .finish (.of_alu (wide.joinDoor (h.of_alu ?_)) rfl)) fun _ => .next h
    simp
  | flashEdge => exact .finish (h.of_alu rfl)
  | levelInputEdge lead made => exact .ite (fun _ => .next (h.of_alu rfl)) fun _ => .next (h.of_alu (by simp))

/-- Every command keeps the alarm list well formed. -/
theorem AlarmsListed.command (c : Instr) {s : State} (h : AlarmsListed s) : Gives AlarmsListed (exec c s) := by
  have outs : ∀ s, AlarmsListed s → AlarmsListed (setOuts s) := fun _ h => h.of_alu rfl
  revert c
  refine Instr.of_families ?door ?lane ?panel ?port ?snapshot ?table ?energy ?start
  case door => exact fun _ hc => wide.command (fun _ _ _ _ h => h.of_alu (by simp)) outs hc h
  case lane => exact fun _ hc => aside.laneKept.command hc h
  case panel => exact fun _ hc => aside.panelCommand hc h
  case port => exact fun _ hc => aside.portCommand hc h
  case snapshot => exact fun _ hc => aside.snapshotCommand hc h
  case table => exact fun _ hc => wide.tableCommand (fun _ _ _ h => h.of_alu rfl) (fun _ => toMute) outs hc h
  case energy =>
    exact fun _ hc => wide.energyCommand (fun _ _ h => h.of_alu rfl) (fun _ _ h => h.of_alu (by simp)) (fun _ h => h.alarm rfl)
      (fun _ k h => h.older k) outs hc h
  case start => exact fun _ hc => startCommand hc h

/-- A millisecond counts on the records and changes no more of them. -/
theorem AlarmsListed.tick {s : State} (h : AlarmsListed s) : AlarmsListed (tick s) := by
  rw [alarmsListed_iff] at h ⊢
  exact h.map _ (fun _ => rfl) fun _ _ h => h

/-- Settles O57: every request keeps the list well formed, and a step makes only such requests. -/
theorem stepsKeepTheAlarmList : Obligations.StepsKeepTheAlarmList := by
  intro s t h
  exact step_keeps (P := AlarmsListed) (fun _ _ h => h.of_alu rfl) (fun c _ _ h => (h.command c).of_next)
    (fun _ h => h.tick) h

/-! ### Lanes silent outside JOINED -/

theorem sendsJoined_iff (s : State) :
    SendsJoined s ↔ s.laneA.Fit (s.suc.startUp = .joined) ∧ s.laneB.Fit (s.suc.startUp = .joined) := by
  constructor
  · rintro ⟨copyA, copyB, joinedA, joinedB⟩
    exact ⟨⟨copyA, joinedA⟩, ⟨copyB, joinedB⟩⟩
  · rintro ⟨⟨copyA, joinedA⟩, ⟨copyB, joinedB⟩⟩
    exact ⟨copyA, copyB, joinedA, joinedB⟩

/-- Fitness of the lanes and the start-up state are all that the invariant looks at. -/
theorem SendsJoined.of_eq {s t : State} (h : SendsJoined s) (e : t.suc.startUp = s.suc.startUp) (a : t.laneA = s.laneA)
    (b : t.laneB = s.laneB) : SendsJoined t := by
  rw [sendsJoined_iff] at h ⊢
  rwa [e, a, b]

/-- A lane that a making let begin is fit in JOINED (R134, R138). -/
theorem Lane.Fit.handed {j : Prop} {l m : Lane} (h : l.Fit j) (k : LaneHanded l m) (hj : m ≠ l → j) : m.Fit j := by
  obtain rfl | ⟨-, -, c, rfl⟩ := k
  · exact h
  · by_cases e : beginTelegram l c = l
    · rwa [e]
    · simp [Lane.Fit, hj e]

/-- Nothing handed on sends outside JOINED (R134). -/
theorem SendsJoined.handed {s t : State} (h : SendsJoined s) (k : HandsOn s t) : SendsJoined t := by
  rw [sendsJoined_iff] at h ⊢
  rw [k.suc]
  have outside : ∀ {l m : Lane}, (s.suc.startUp ≠ .joined → m = l) → m ≠ l → s.suc.startUp = .joined :=
    fun f hm => by_contra fun hj => hm (f hj)
  exact ⟨h.1.handed k.laneA (outside fun hj => (k.silent hj).2.1), h.2.handed k.laneB (outside fun hj => (k.silent hj).2.2)⟩

theorem SendsJoined.wide : CarriedWide SendsJoined where
  door := fun _ _ _ _ h => h.of_eq rfl rfl rfl
  offer := fun _ h => h.handed (offer_hands _)
  alarm := fun _ _ _ h => h.handed (alarm_hands _ _)
  ste := fun _ _ h => h.of_eq rfl rfl rfl
  pnu := fun _ _ h => h.of_eq rfl rfl rfl
  ack := fun _ h => h.handed (alarm_hands _ _)

theorem SendsJoined.aside : Aside SendsJoined where
  offer := wide.offer
  alarm := wide.alarm
  ack := fun s _ => wide.ack s
  lane := fun s id l f h => by
    rw [sendsJoined_iff] at h ⊢
    cases id
    · exact ⟨f h.1, h.2⟩
    · exact ⟨h.1, f h.2⟩
  rxq := fun _ _ _ h => h.of_eq rfl rfl rfl
  snu := fun _ _ h => h.of_eq rfl rfl rfl
  pnu := wide.pnu
  dgp := fun _ _ h => h.of_eq rfl rfl rfl
  clear := fun s h => by
    rw [sendsJoined_iff] at h ⊢
    exact ⟨h.1.of_eq rfl rfl, h.2.of_eq rfl rfl⟩

/-- A lane at the passage to MUTE gives up what it sends (R142). -/
theorem muteLane_fit {j k : Prop} (n : Nat) {l : Lane} (h : l.Fit j) : (muteLane n l).Fit k := by
  obtain ⟨copy, -⟩ := h
  simp only [muteLane]
  split
  · exact .of_silent rfl (by simp)
  · exact .of_silent rfl (by simp)
  · rename_i hc hs
    have none : l.copy = none := by
      by_contra hn
      obtain ⟨c, hn⟩ := Option.ne_none_iff_exists'.mp hn
      rcases copy (by simp [hn]) with ha | ha
      · exact hc ha
      · exact hs c ha hn
    exact .of_silent none hc

theorem SendsJoined.toMute {s : State} (h : SendsJoined s) : SendsJoined (toMute s) := by
  have k : SendsJoined { s with
      suc := { s.suc with startUp := .mute, flt := true, listenTimer := none }
      laneA := muteLane s.conf.station s.laneA
      laneB := muteLane s.conf.station s.laneB
      snu := ⟨s.snu.state.stop, s.snu.demand.stop, { s.snu.ident with timer := none }⟩ } := by
    rw [sendsJoined_iff] at h ⊢
    exact ⟨muteLane_fit _ h.1, muteLane_fit _ h.2⟩
  exact Carried.ite (P := SendsJoined)
    (wide.noPanelCheck (wide.doorEvent _ (Carried.ite (P := SendsJoined) (wide.evaluate k) k))) k

/-- A part that was not in JOINED has no lane that sends, and may come to any start-up state so. -/
theorem SendsJoined.start {s t : State} (h : SendsJoined s) (hj : s.suc.startUp ≠ .joined)
    (a : t.laneA.copy = s.laneA.copy ∧ t.laneA.activity = s.laneA.activity)
    (b : t.laneB.copy = s.laneB.copy ∧ t.laneB.activity = s.laneB.activity) : SendsJoined t := by
  rw [sendsJoined_iff] at h ⊢
  have silent : ∀ {l m : Lane}, l.Fit (s.suc.startUp = .joined) → m.copy = l.copy ∧ m.activity = l.activity →
      m.Fit (t.suc.startUp = .joined) := by
    rintro l m ⟨-, f⟩ ⟨c, a⟩
    have := f hj
    simp only [Lane.sends, not_or, Bool.not_eq_true, Option.isSome_eq_false_iff, Option.isNone_iff_eq_none] at this
    exact .of_silent (c.trans this.2) (a ▸ this.1)
  exact ⟨silent h.1 a, silent h.2 b⟩

theorem SendsJoined.startCommand {i : Instr} (hi : StartCommand i) {s : State} (h : SendsJoined s) :
    Gives SendsJoined (exec i s) := by
  have reading : s.reads = true → s.suc.startUp ≠ .joined := by
    intro hr
    simp only [State.reads, Bool.and_eq_true, beq_iff_eq] at hr
    simp [hr.1]
  cases hi with
  | reset leads straps => exact .next ⟨nofun, nofun, by simp [Lane.sends, State.reset, Lane.reset], by simp [Lane.sends, State.reset, Lane.reset]⟩
  | configAddressNotAcked =>
    exact .ite (fun hr => .ite (fun _ => .next (h.start (reading hr) ⟨rfl, rfl⟩ ⟨rfl, rfl⟩)) fun _ => .next (h.of_eq rfl rfl rfl))
      fun _ => .next h
  | configRetryWaitExpiry => exact .ite (fun _ => .next (h.of_eq rfl rfl rfl)) fun _ => .next h
  | configReadDone image keys =>
    refine .ite (fun hr => ?_) fun _ => .next h
    have hj := reading (by simp_all)
    refine .ite (fun _ => .next (h.start hj ⟨rfl, rfl⟩ ⟨rfl, rfl⟩)) fun _ =>
      .ite (fun _ => .next (h.start hj ⟨rfl, rfl⟩ ⟨rfl, rfl⟩)) fun _ =>
      .finish (.of_eq (s := startBlocks keys _) ?_ rfl rfl rfl)
    simp only [startBlocks]
    split
    · exact wide.startDcu (wide.startMains (h.start hj ⟨rfl, rfl⟩ ⟨rfl, rfl⟩))
    · exact wide.startMains (h.start hj ⟨rfl, rfl⟩ ⟨rfl, rfl⟩)
  | csdLowAfterNineClocks => exact .ite (fun hr => .next (h.start (reading hr) ⟨rfl, rfl⟩ ⟨rfl, rfl⟩)) fun _ => .next h
  | listenTimerExpiry =>
    refine .ite (fun hl => .finish (.of_eq (s := joinDoor _) (wide.joinDoor (aside.makeIdent (aside.makeOwn ?_))) rfl rfl rfl))
      fun _ => .next h
    exact h.start (by simp [hl]) ⟨rfl, rfl⟩ ⟨rfl, rfl⟩
  | flashEdge => exact .finish (h.of_eq rfl rfl rfl)
  | levelInputEdge lead made => exact .ite (fun _ => .next (h.of_eq rfl rfl rfl)) fun _ => .next (h.of_eq (by simp) (by simp) (by simp))

/-- Every command keeps the lanes silent outside JOINED. -/
theorem SendsJoined.command (c : Instr) {s : State} (h : SendsJoined s) : Gives SendsJoined (exec c s) := by
  have outs : ∀ s, SendsJoined s → SendsJoined (setOuts s) := fun _ h => h.of_eq rfl rfl rfl
  revert c
  refine Instr.of_families ?door ?lane ?panel ?port ?snapshot ?table ?energy ?start
  case door => exact fun _ hc => wide.command (fun _ _ _ _ h => h.of_eq (by simp) (by simp) (by simp)) outs hc h
  case lane => exact fun _ hc => aside.laneKept.command hc h
  case panel => exact fun _ hc => aside.panelCommand hc h
  case port => exact fun _ hc => aside.portCommand hc h
  case snapshot => exact fun _ hc => aside.snapshotCommand hc h
  case table => exact fun _ hc => wide.tableCommand (fun _ _ _ h => h.of_eq rfl rfl rfl) (fun _ => toMute) outs hc h
  case energy =>
    exact fun _ hc => wide.energyCommand (fun _ _ h => h.of_eq rfl rfl rfl) (fun _ _ h => h.of_eq (by simp) (by simp) (by simp))
      (fun _ h => h.handed (alarm_hands _ _)) (fun _ _ h => h.of_eq rfl rfl rfl) outs hc h
  case start => exact fun _ hc => startCommand hc h

/-- Settles O55: a lane begins to send in JOINED alone, and the passages out of JOINED stop what it sends. -/
theorem stepsKeepLanesSilentOutsideJoined : Obligations.StepsKeepLanesSilentOutsideJoined := by
  intro s t h
  refine step_keeps (fun _ _ h => h.of_eq rfl rfl rfl) (fun c _ _ h => (h.command c).of_next) (fun s h => ?_) h
  rw [sendsJoined_iff] at h ⊢
  exact ⟨h.1.of_eq rfl rfl, h.2.of_eq rfl rfl⟩

end Sys2Proof.Machine
end

