-- ==== Sys2Proof/Proofs/Table.lean ====
section
/-! SUPPORT and PROOFS. The station table: an entry at its place (R99), what an acceptance, a copy and a passage to STALE leave in
the table (R105 to R114), and the order that every step keeps. -/

namespace Sys2Proof.Machine

/-! ### An entry at its place -/

/-- The entry put is the entry found. -/
theorem find_putEntry_same (e : Entry) (l : List Entry) : (putEntry e l).find? (·.num == e.num) = some e := by
  induction l with
  | nil => simp [putEntry]
  | cons x xs ih =>
    simp only [putEntry]
    split
    · simp
    · split
      · simp
      · rename_i h
        simp [Ne.symm h, ih]

/-- Every other number finds what it found. -/
theorem find_putEntry_other (e : Entry) (l : List Entry) {n : Nat} (h : n ≠ e.num) :
    (putEntry e l).find? (·.num == n) = l.find? (·.num == n) := by
  induction l with
  | nil => simp [putEntry, h.symm]
  | cons x xs ih =>
    simp only [putEntry]
    split
    · simp [h.symm]
    · split
      · rename_i hx
        simp [← hx, h.symm]
      · simp [List.find?_cons, ih]

theorem mem_putEntry {e x : Entry} {l : List Entry} (h : x ∈ putEntry e l) : x = e ∨ x ∈ l := by
  induction l with
  | nil => simpa [putEntry] using h
  | cons y ys ih =>
    simp only [putEntry] at h
    split at h
    · simpa using h
    · split at h
      · rcases List.mem_cons.mp h with h | h
        · exact .inl h
        · exact .inr (List.mem_cons_of_mem _ h)
      · rcases List.mem_cons.mp h with h | h
        · exact .inr (h ▸ List.mem_cons_self)
        · exact (ih h).imp_right (List.mem_cons_of_mem _)

/-- The table stays in rising order (R99). -/
theorem putEntry_rising {e : Entry} {l : List Entry} (h : l.Pairwise (fun e f => e.num < f.num)) :
    (putEntry e l).Pairwise (fun e f => e.num < f.num) := by
  induction l with
  | nil => simp [putEntry]
  | cons x xs ih =>
    obtain ⟨hx, hs⟩ := List.pairwise_cons.mp h
    simp only [putEntry]
    split
    · rename_i hlt
      refine List.pairwise_cons.mpr ⟨fun y hy => ?_, h⟩
      rcases List.mem_cons.mp hy with rfl | hy
      · exact hlt
      · exact hlt.trans (hx y hy)
    · split
      · rename_i he
        exact List.pairwise_cons.mpr ⟨fun y hy => he ▸ hx y hy, hs⟩
      · refine List.pairwise_cons.mpr ⟨fun y hy => ?_, ih hs⟩
        rcases mem_putEntry hy with rfl | hy
        · omega
        · exact hx y hy

@[simp] theorem setEntry_ste (e : Entry) (s : State) : (setEntry e s).ste = { s.ste with table := putEntry e s.ste.table } := rfl

theorem entryOf_num {s : State} {n : Nat} {e : Entry} (h : entryOf s n = some e) : e.num = n := by
  simpa using List.find?_some h

theorem entryOf_mem {s : State} {n : Nat} {e : Entry} (h : entryOf s n = some e) : e ∈ s.ste.table := List.mem_of_find?_eq_some h

/-! ### The derivations -/

/-- A derivation looks at the table and the configuration alone (R112 to R114). -/
theorem derivations_of_eq {s t : State} (hc : t.suc = s.suc) (ht : t.ste.table = s.ste.table) :
    mismatchNow t = mismatchNow s ∧ lostNow t = lostNow s ∧ degradedNow t = degradedNow s := by
  simp [mismatchNow, lostNow, degradedNow, State.conf, hc, ht]

theorem deriveMismatch_ste (s : State) : (deriveMismatch s).ste = { s.ste with mismatch := mismatchNow s } := by
  simp only [deriveMismatch]
  split
  · rename_i h
    rw [h]
  · simp

theorem deriveLost_ste (s : State) :
    (deriveLost s).ste = { s.ste with lost := if s.panelRuns then lostNow s else s.ste.lost } := by
  simp only [deriveLost]
  by_cases hp : s.panelRuns = true
  · by_cases h : lostNow s = s.ste.lost
    · simp [hp, h]
    · simp [hp, h]
  · simp [hp]

theorem deriveDegraded_ste (s : State) :
    (deriveDegraded s).ste = { s.ste with degraded := if s.panelRuns then degradedNow s else s.ste.degraded } := by
  simp only [deriveDegraded]
  by_cases hp : s.panelRuns = true
  · by_cases h : degradedNow s = s.ste.degraded
    · simp [hp, h]
    · simp [hp, h]
  · simp [hp]

/-- What the derivations leave in the table engine: each its outcome on the table as it stands, at a panel (R112 to R114). -/
theorem derive_ste (s : State) : (derive s).ste = { s.ste with
    mismatch := mismatchNow s
    lost := if s.panelRuns then lostNow s else s.ste.lost
    degraded := if s.panelRuns then degradedNow s else s.ste.degraded } := by
  have m := deriveMismatch_ste s
  have l := deriveLost_ste (deriveMismatch s)
  have dl := derivations_of_eq (s := s) (t := deriveMismatch s) (by simp) (by rw [m])
  have dd := derivations_of_eq (s := s) (t := deriveLost (deriveMismatch s)) (by simp) (by rw [l, m])
  have hp : ∀ x : State, x.suc = s.suc → x.panelRuns = s.panelRuns := fun x h => by simp [State.panelRuns, State.conf, h]
  rw [derive, deriveDegraded_ste, l, m, dl.2.1, dd.2.2, hp (deriveMismatch s) (by simp),
    hp (deriveLost (deriveMismatch s)) (by simp)]

/-! ### What an acceptance leaves in the table engine -/

/-- The accepted entry's number is that of the telegram (R105). -/
theorem acceptedEntry_num {s : State} (limit : Nat) (t : Telegram) :
    (acceptedEntry limit (entryOf s t.origin) t).num = t.origin := by
  have base : (baseEntry (entryOf s t.origin) t).num = t.origin := by
    simp only [baseEntry]
    split
    · rfl
    · rename_i e he
      have hn := entryOf_num he
      (repeat' split) <;> simp [hn, Entry.blank]
  obtain ⟨lane, cls, origin, serial, payload⟩ := t
  cases lane <;> cases cls <;> exact base

/-- The table engine after an acceptance: the entry, and the derivations of the new table (R111). -/
theorem acceptTelegram_ste (old : Option Entry) (t : Telegram) (s : State) : (acceptTelegram old t s).ste =
    (derive (setEntry (acceptedEntry s.staleMs old t) s)).ste := by
  simp only [acceptTelegram, giveNotice_keeps]
  split
  · rw [derive_ste, derive_ste]
    simp [mismatchNow, lostNow, degradedNow, State.panelRuns, State.conf]
  · rfl

/-- The table engine after a copy that was not accepted (R107). -/
theorem hearCopy_ste (e : Entry) (l : LaneId) (s : State) :
    (hearCopy e l s).ste = (deriveDegraded (setEntry (rejudge s.staleMs (e.setHeard l 0)) s)).ste := rfl

/-- The table engine after a passage to STALE (R108). -/
theorem goStale_ste (e : Entry) (s : State) :
    (goStale e s).ste = (derive (setEntry { e with live := false, single := false } s)).ste := by
  simp [goStale]

@[simp] theorem derive_table (s : State) : (derive s).ste.table = s.ste.table := by rw [derive_ste]

@[simp] theorem deriveDegraded_table (s : State) : (deriveDegraded s).ste.table = s.ste.table := by rw [deriveDegraded_ste]

/-- A lane's heard age and the marking leave the number. -/
@[simp] theorem rejudge_setHeard_num (limit : Nat) (e : Entry) (l : LaneId) (ms : Nat) :
    (rejudge limit (e.setHeard l ms)).num = e.num := by cases l <;> rfl

/-! ### The order of the table -/

/-- The table, the queue, the own number and whether the part runs are all that the invariant looks at. -/
theorem TableOrdered.of_eq {s t : State} (h : TableOrdered s) (ht : t.ste.table = s.ste.table) (hq : t.rxq.queue = s.rxq.queue)
    (hc : t.suc.accepted = s.suc.accepted) (hr : t.suc.startUp.running = s.suc.startUp.running) : TableOrdered t := by
  obtain ⟨rising, range, own, origins, places, idle⟩ := h
  have conf : t.conf = s.conf := by simp [State.conf, hc]
  exact ⟨ht ▸ rising, ht ▸ range, by rw [ht, conf]; exact own, hq ▸ origins, hq ▸ places, by rw [hr, ht]; exact idle⟩

/-- Until the part runs the table is empty, whatever configuration comes. -/
theorem TableOrdered.start {s t : State} (h : TableOrdered s) (hr : s.suc.startUp.running = false)
    (ht : t.ste.table = s.ste.table) (hq : t.rxq.queue = s.rxq.queue) : TableOrdered t := by
  have empty : t.ste.table = [] := ht.trans (h.idle hr)
  exact ⟨by simp [empty], by simp [empty], by simp [empty], hq ▸ h.origins, hq ▸ h.places, fun _ => empty⟩

/-- An entry of another station put at its place while the part runs. -/
theorem TableOrdered.put {s t : State} (h : TableOrdered s) {e : Entry} (ht : t.ste.table = putEntry e s.ste.table)
    (hn : 1 ≤ e.num ∧ e.num ≤ 63) (ho : e.num ≠ s.conf.station) (hq : t.rxq.queue = s.rxq.queue) (hc : t.suc = s.suc)
    (hr : s.suc.startUp.running = true) : TableOrdered t := by
  have conf : t.conf = s.conf := by simp [State.conf, hc]
  have mem : ∀ {p : Entry → Prop}, p e → (∀ x ∈ s.ste.table, p x) → ∀ x ∈ t.ste.table, p x := by
    intro p he hs x hx
    rw [ht] at hx
    rcases mem_putEntry hx with rfl | hx
    · exact he
    · exact hs x hx
  exact ⟨ht ▸ putEntry_rising h.rising, mem hn h.range, by rw [conf]; exact mem ho h.own, hq ▸ h.origins, hq ▸ h.places,
    fun hi => by simp [hc, hr] at hi⟩

theorem TableOrdered.carried : Carried TableOrdered where
  door := fun _ _ _ _ h => h.of_eq rfl rfl rfl rfl
  offer := fun _ h => h.of_eq (by simp) (by simp) (by simp) (by simp)
  alarm := fun _ _ _ h => h.of_eq (by simp) (by simp) (by simp) (by simp)

theorem TableOrdered.alarm {s : State} (h : TableOrdered s) (q : AlarmRequest) : TableOrdered (alarm q s) :=
  h.of_eq (by simp) (by simp) (by simp) (by simp)

theorem TableOrdered.aside : Aside TableOrdered where
  offer := carried.offer
  alarm := carried.alarm
  ack := fun _ _ h => h.alarm _
  lane := fun _ _ _ _ h => h.of_eq (by simp) (by simp) (by simp) (by simp)
  rxq := fun _ _ f h => ⟨h.rising, h.range, h.own, (f ⟨h.origins, h.places⟩).1, (f ⟨h.origins, h.places⟩).2, h.idle⟩
  snu := fun _ _ h => h.of_eq rfl rfl rfl rfl
  pnu := fun _ _ h => h.of_eq rfl rfl rfl rfl
  dgp := fun _ _ h => h.of_eq rfl rfl rfl rfl
  clear := fun _ h => h.of_eq rfl rfl rfl rfl

/-- A telegram of another station keeps the order: its entry stands at its number (R101 to R107). -/
theorem TableOrdered.takeOther {s : State} (h : TableOrdered s) (t : Telegram) (hn : 1 ≤ t.origin ∧ t.origin ≤ 63)
    (ho : t.origin ≠ s.conf.station) (hr : s.suc.startUp.running = true) : TableOrdered (takeOther t s) := by
  have copy : ∀ (x : Ste) (e : Entry), x.table = s.ste.table → entryOf s t.origin = some e →
      TableOrdered (hearCopy e t.lane { s with ste := x }) := by
    intro x e hx he
    have num := entryOf_num he
    refine h.put (e := rejudge s.staleMs (e.setHeard t.lane 0)) ?_ (by simpa [num]) (by simpa [num]) (by simp) (by simp) hr
    simp [hearCopy_ste, hx, State.staleMs, State.refreshMs, State.conf]
  simp only [Machine.takeOther]
  split
  · exact h.of_eq rfl rfl rfl rfl
  · split
    · exact copy _ _ rfl ‹_›
    · exact copy _ _ rfl ‹_›
    · refine h.put (e := acceptedEntry s.staleMs (entryOf s t.origin) t) ?_ ?_ ?_ (by simp) (by simp) hr
      · simp [acceptTelegram_ste]
      · rwa [acceptedEntry_num]
      · rwa [acceptedEntry_num]

/-- The passage to MUTE leaves the table. -/
theorem TableOrdered.toMute {s : State} (h : TableOrdered s) (hr : s.suc.startUp.running = true) : TableOrdered (toMute s) :=
  h.of_eq (by simp) (by simp) (by rw [toMute_suc]) (by rw [toMute_suc, hr]; rfl)

theorem TableOrdered.tableCommand {i : Instr} (hi : TableCommand i) {s : State} (h : TableOrdered s) :
    Gives TableOrdered (exec i s) := by
  have outs : ∀ s, TableOrdered s → TableOrdered (setOuts s) := fun _ h => h.of_eq rfl rfl rfl rfl
  have runs : ∀ {n e}, entryOf s n = some e → s.suc.startUp.running = true := by
    intro n e he
    by_contra hr
    have := entryOf_mem he
    simp [h.idle (by simpa using hr)] at this
  cases hi with
  | telegramTaken =>
    change Gives _ (execTelegramTaken s)
    unfold execTelegramTaken
    split
    · rename_i t rest hr hq
      have k : TableOrdered { s with rxq := { s.rxq with queue := rest } } :=
        ⟨h.rising, h.range, h.own, fun x hx => h.origins x (by simp [hq, hx]), by have := h.places; simp [hq] at this; dsimp only; omega,
          h.idle⟩
      have origin := h.origins t (by simp [hq])
      refine .finish (outs _ ?_)
      simp only [takeTelegram]
      split
      · exact Carried.ite (P := TableOrdered) (k.toMute hr) k
      · exact k.takeOther t origin ‹_› hr
    · exact .next h
  | entryGoesStale station =>
    change Gives _ (execEntryGoesStale station s)
    unfold execEntryGoesStale
    split
    · exact .next h
    · rename_i e he
      have mem := entryOf_mem he
      refine .ite (fun _ => .finish (outs _ (h.put (e := { e with live := false, single := false }) ?_ (h.range e mem) (h.own e mem)
        (by simp) (by simp) (runs he)))) fun _ => .next h
      simp [goStale_ste]
  | laneHeardAgeLimit station lane =>
    change Gives _ (execLaneHeardAgeLimit station lane s)
    unfold execLaneHeardAgeLimit
    split
    · exact .next h
    · rename_i e he
      have mem := entryOf_mem he
      exact .ite (fun _ => .next (h.put (e := rejudge s.staleMs e) (by simp) (h.range e mem) (h.own e mem) (by simp) (by simp)
        (runs he))) fun _ => .next h

theorem TableOrdered.startCommand {i : Instr} (hi : StartCommand i) {s : State} (h : TableOrdered s) :
    Gives TableOrdered (exec i s) := by
  have reading : s.reads = true → s.suc.startUp.running = false := by
    intro hr
    simp only [State.reads, Bool.and_eq_true, beq_iff_eq] at hr
    simp [hr.1, StartUp.running]
  cases hi with
  | reset leads straps => exact .next ⟨by simp [State.reset, Ste.reset], by simp [State.reset, Ste.reset], by simp [State.reset, Ste.reset], by simp [State.reset], by simp [State.reset], fun _ => rfl⟩
  | configAddressNotAcked =>
    exact .ite (fun hr => .ite (fun _ => .next (h.start (reading hr) rfl rfl)) fun _ => .next (h.of_eq rfl rfl rfl rfl))
      fun _ => .next h
  | configRetryWaitExpiry => exact .ite (fun _ => .next (h.of_eq rfl rfl rfl rfl)) fun _ => .next h
  | configReadDone image keys =>
    refine .ite (fun hr => ?_) fun _ => .next h
    have hj := reading (by simp_all)
    exact .ite (fun _ => .next (h.start hj rfl rfl)) fun _ => .ite (fun _ => .next (h.start hj rfl rfl)) fun _ =>
      .finish (h.start hj (by simp) (by simp))
  | csdLowAfterNineClocks => exact .ite (fun hr => .next (h.start (reading hr) rfl rfl)) fun _ => .next h
  | listenTimerExpiry =>
    exact .ite (fun hl => .finish (h.of_eq (by simp) (by simp) (by simp) (by simp [hl, StartUp.running]))) fun _ => .next h
  | flashEdge => exact .finish (h.of_eq rfl rfl rfl rfl)
  | levelInputEdge lead made =>
    exact .ite (fun _ => .next (h.of_eq rfl rfl rfl rfl)) fun _ => .next (h.of_eq (by simp) (by simp) (by simp) (by simp))

/-- Every command keeps the table in order. -/
theorem TableOrdered.command (c : Instr) {s : State} (h : TableOrdered s) : Gives TableOrdered (exec c s) := by
  have outs : ∀ s, TableOrdered s → TableOrdered (setOuts s) := fun _ h => h.of_eq rfl rfl rfl rfl
  have leads : ∀ l m s, TableOrdered s → TableOrdered (setDebounced l m s) :=
    fun _ _ _ h => h.of_eq (by simp) (by simp) (by simp) (by simp)
  revert c
  refine Instr.of_families ?door ?lane ?panel ?port ?snapshot ?table ?energy ?start
  case door => exact fun _ hc => carried.command (fun s l m _ => leads l m s) outs hc h
  case lane => exact fun _ hc => aside.laneKept.command hc h
  case panel => exact fun _ hc => aside.panelCommand hc h
  case port => exact fun _ hc => aside.portCommand hc h
  case snapshot => exact fun _ hc => aside.snapshotCommand hc h
  case table => exact fun _ hc => tableCommand hc h
  case energy =>
    exact fun _ hc => carried.energyCommand (fun _ _ h => h.of_eq rfl rfl rfl rfl) (fun s m => leads .mains m s)
      (fun _ h => h.alarm _) (fun _ _ h => h.of_eq rfl rfl rfl rfl) outs hc h
  case start => exact fun _ hc => startCommand hc h

/-- A millisecond changes ages alone. -/
theorem TableOrdered.tick {s : State} (h : TableOrdered s) : TableOrdered (tick s) := by
  have mem : ∀ {p : Entry → Prop}, (∀ e, p e → p e.later) → (∀ x ∈ s.ste.table, p x) → ∀ x ∈ (s.ste.table.map (·.later)), p x := by
    intro p hp hs x hx
    obtain ⟨y, hy, rfl⟩ := List.mem_map.mp hx
    exact hp y (hs y hy)
  exact ⟨List.pairwise_map.mpr h.rising, mem (fun _ h => h) h.range, mem (fun _ h => h) h.own, h.origins, h.places,
    fun hr => by simp [Machine.tick, h.idle hr]⟩

/-- Settles O56: an entry comes to its number's place alone, and a telegram waits only while a place is free. -/
theorem stepsKeepTheTableOrdered : Obligations.StepsKeepTheTableOrdered := by
  intro s t h
  exact step_keeps (P := TableOrdered) (fun _ _ h => h.of_eq rfl rfl rfl rfl) (fun c _ _ h => (h.command c).of_next)
    (fun _ h => h.tick) h

end Sys2Proof.Machine
end

