-- ==== Sys2Proof/Proofs/Port.lean ====
section
/-! SUPPORT and PROOFS. The diagnostic port: its address, the bytes of a write, the bytes of a read, and the seconds that are counted
(R90, R175 to R177, R179). -/

namespace Sys2Proof.Machine

/-! ### The address byte -/

/-- The address bits and the direction bit of an address byte, as numbers (R175). -/
theorem addressByte_toNat (b : Byte) :
    (b.extractLsb' 1 7).toNat = b.toNat / 2 ∧ (b.getLsbD 0 = true ↔ b.toNat % 2 = 1) := by
  have hb := b.isLt
  refine ⟨?_, ?_⟩
  · simp only [BitVec.extractLsb'_toNat, Nat.shiftRight_eq_div_pow]
    omega
  · simp [BitVec.getLsbD, Nat.testBit_zero]

theorem Dgp.addressed_iff (d : Dgp) (b : Byte) : d.addressed b = true ↔ b.toNat / 2 = d.addr.toNat := by
  rw [Dgp.addressed, beq_iff_eq, ← BitVec.toNat_inj, (addressByte_toNat b).1]

/-- Settles O45: the upper seven bits of the byte are the address, the lowest the direction. -/
theorem transfersOpenAndEnd : Obligations.TransfersOpenAndEnd := by
  intro b s
  have write : b.toNat = 2 * s.dgp.addr.toNat →
      s.dgp.addressed b = true ∧ b.getLsbD 0 = false := by
    intro h
    rw [Dgp.addressed_iff, ← Bool.not_eq_true, (addressByte_toNat b).2]
    omega
  have read : b.toNat = 2 * s.dgp.addr.toNat + 1 → s.dgp.addressed b = true ∧ b.getLsbD 0 = true := by
    intro h
    rw [Dgp.addressed_iff, (addressByte_toNat b).2]
    omega
  have other : b.toNat / 2 ≠ s.dgp.addr.toNat → s.dgp.addressed b = false := by
    rw [← Bool.not_eq_true, Dgp.addressed_iff]
    exact id
  refine ⟨fun h => ?_, fun h => ?_, fun h => ?_, rfl, rfl⟩
  · obtain ⟨own, dir⟩ := write h
    simp only [exec, execDiagAddress, Dgp.address, own, dir]
    rfl
  · obtain ⟨own, dir⟩ := read h
    simp only [exec, execDiagAddress, Dgp.address, own, dir]
    rfl
  · simp [exec, execDiagAddress, Dgp.address, other h, Dgp.idles]

/-! ### Bytes of a write -/

theorem pageExists_iff (n : Nat) : pageExists n = true ↔ n ≤ 3 ∨ (16 ≤ n ∧ n ≤ 78) := by
  simp [pageExists, Nat.lt_succ_iff]

/-- Settles O46: the subaddress and the byte decide between a page, the counter clear and a refusal. -/
theorem writeBytesActBySubaddress : Obligations.WriteBytesActBySubaddress := by
  intro b s
  have selects : s.dgp.selects b = true ↔ s.dgp.sub = 255 ∧ (b.toNat ≤ 3 ∨ (16 ≤ b.toNat ∧ b.toNat ≤ 78)) := by
    simp [Dgp.selects, pageExists_iff]
  have clears : s.dgp.clears = true ↔ s.dgp.sub = 254 ∧ s.dgp.page = 0 := by simp [Dgp.clears]
  refine ⟨fun hp hw => ?_, fun hp hw => ⟨fun hs hn => ?_, fun hs hn => ?_, fun hn hc => ?_⟩, fun hp => ?_⟩
  · simp [exec, execDiagSubaddress, Dgp.awaitsSub, hp, hw]
  · have sel : s.dgp.selects b = true := selects.mpr ⟨hs, hn⟩
    simp [exec, execPageSelect, execDiagWriteRefused, Dgp.awaitsData, hp, hw, sel]
  · have clr : s.dgp.clears = true := clears.mpr ⟨hs, hn⟩
    simp [exec, execCounterClear, execDiagWriteRefused, Dgp.awaitsData, hp, hw, clr, clearCounters, Lane.cleared]
  · have sel : s.dgp.selects b = false := by rw [← Bool.not_eq_true, selects]; exact hn
    have clr : s.dgp.clears = false := by rw [← Bool.not_eq_true, clears]; exact hc
    have data : s.dgp.awaitsData = true := by simp [Dgp.awaitsData, hp, hw]
    simp [exec, execPageSelect, execCounterClear, execDiagWriteRefused, data, sel, clr, Dgp.refuses, bne, Bool.beq_eq_decide_eq]
  · simp [exec, execDiagSubaddress, execPageSelect, execCounterClear, execDiagWriteRefused, Dgp.awaitsSub, Dgp.awaitsData, hp]

/-! ### Bytes of a read -/

/-- The byte of a read inside the page (R177). -/
theorem readByte_inside {bytes : List Byte} {i : Nat} (h : i < bytes.length) : bytes[i]? = some (readByte bytes i) := by
  have : min i (bytes.length - 1) = i := by omega
  simp [readByte, byteAt, this, h]

/-- Past its end, the page's last byte (R177). -/
theorem readByte_past {bytes : List Byte} {i : Nat} (hne : bytes ≠ []) (h : bytes.length ≤ i) :
    bytes.getLast? = some (readByte bytes i) := by
  have pos := List.length_pos_of_ne_nil hne
  have : min i (bytes.length - 1) = bytes.length - 1 := by omega
  rw [List.getLast?_eq_getElem?, readByte, this, byteAt, List.getD_eq_getElem?_getD]
  simp [pos]

/-- Settles O47: the copy is taken once, and every byte is `readByte` of it. -/
theorem readsCopyThenSendBytes : Obligations.ReadsCopyThenSendBytes := by
  intro s hp
  refine ⟨fun hc => ?_, fun hc => ?_, fun bytes acked hc => ⟨fun hm => ⟨readByte bytes s.dgp.sub, ?_, readByte_inside, readByte_past⟩,
    fun hm => ?_⟩⟩
  · simp [exec, execDiagReadCopy, hp, hc]
  · simp [exec, execDiagReadCopy, Option.isSome_iff_ne_none.mp hc]
  · simp [exec, execDiagReadByte, hp, hc, hm]
  · simp [exec, execDiagReadByte, hm]

/-! ### Seconds -/

/-- Settles O27: a second is one `older` record, and nothing beside it. -/
theorem agesGoUpByTheSecond : Obligations.AgesGoUpByTheSecond := by
  refine fun k s => ⟨rfl, fun c hc => ?_, fun hc => ?_⟩
  · simp [exec, execCaptureAgeTick, hc, Capture.older, bump]
  · have : s.dgp = { s.dgp with capture := none } := by rw [← hc]
    simp only [exec, execCaptureAgeTick, hc, Option.map_none]
    rw [← this]

end Sys2Proof.Machine
end

