-- ==== Sys2Proof/Proofs/StartUp.lean ====
section
/-! SUPPORT and PROOFS. Reset, the configuration read and its faults, the flash timing, and what a step runs (R1, R169 to R172). -/

namespace Sys2Proof.Machine

/-- Settles O49: the front of the queue is what `step` matches on. -/
theorem stepRunsTheCommandInFront : Obligations.StepRunsTheCommandInFront := by
  intro c rest s h
  simp [step, h]

/-! ### Reset -/

/-- Settles O1: a RESET builds its state from the values after reset. -/
theorem resetGivesEveryBlockItsValueAfterReset : Obligations.ResetGivesEveryBlockItsValueAfterReset := by
  intro leads straps s
  refine ⟨_, rfl, rfl, rfl, rfl, rfl, rfl, rfl, rfl, rfl, rfl, rfl, rfl, rfl, rfl, fun id => ?_, rfl, rfl, rfl, rfl, rfl⟩
  cases id <;> rfl

/-- Settles O52: after reset nothing runs, so what the invariants say of a running part is empty. -/
theorem resetMeetsTheInvariants : Obligations.ResetMeetsTheInvariants := by
  refine ⟨?opening, ?claims, ?pump, ?lanes, ?table, ?alarms, ?count, ?pins, ?panel⟩
  case opening => constructor <;> simp [State.reset, Enu.reset, Dcu.reset, atLeast]
  case claims =>
    constructor <;> simp [State.reset, Dcu.reset, Psu.reset, State.doorRuns, Suc.reset, StartUp.running, limitFor]
  case pump => constructor <;> simp [State.reset, Enu.reset, hasKind]
  case lanes => constructor <;> simp [State.reset, Lane.reset, Lane.sends]
  case table => constructor <;> simp [State.reset, Ste.reset]
  case alarms => constructor <;> simp [State.reset]
  case count =>
    constructor <;> simp [State.reset, Trm.reset, State.doorRuns, State.conf, Suc.reset, StartUp.running, Config.absent]
  case pins =>
    constructor <;> simp [State.reset, Trm.reset, Dcu.reset, Outs.reset, outsFor, positionOf, PerLead.all, Ctl.moving, Enu.reset,
      State.doorRuns, Suc.reset, StartUp.running]
  case panel => exact ⟨rfl, nofun, nofun, nofun, nofun, fun _ => ⟨rfl, rfl⟩⟩

/-! ### The configuration read -/

/-- A whole image in one transfer: every byte acknowledged but the 128th (R169). -/
theorem wholeRead_eq {image : List Byte} (h : image.length = 128) : wholeRead image =
    readAttempt ++ (image.take 127).map (fun b => .read b true) ++ [.read (byteAt image 127) false, .stop] := by
  have split : image = image.take 127 ++ [byteAt image 127] := by
    have last : image.drop 127 = [byteAt image 127] := by
      rw [List.drop_eq_getElem_cons (by omega), List.drop_eq_nil_of_le (by omega)]
      simp [byteAt, h]
    rw [← last, List.take_append_drop]
  conv_lhs => rw [wholeRead, split, sequentialRead_concat]
  simp

/-- Settles O2: each failure enters CONFIG_FAULT with its reason; a whole read is that of `wholeRead_eq`. -/
theorem configurationFaultsAreReached : Obligations.ConfigurationFaultsAreReached := by
  intro s hl
  refine ⟨fun hw => ?_, fun hw => ?_⟩
  · simp [exec, execConfigRetryWaitExpiry, hw, readAttempt_eq, Suc.reset]
  have reads : s.reads = true := by simp [State.reads, hl, hw]
  refine ⟨fun hn => ?_, fun hn => ?_, ?_, fun image keys hlen => ⟨fun hc => ?_, fun hc n off hj => ?_⟩⟩
  · simp [exec, execConfigAddressNotAcked, reads, Config.maxAttempts, Nat.not_le.mpr hn]
  · simp [exec, execConfigAddressNotAcked, reads, Config.maxAttempts, hn, enterFault, hw]
  · simp [exec, execCsdLowAfterNineClocks, reads, enterFault, hw]
  · simp [exec, execConfigReadDone, reads, hlen, storedCheck, hc, enterFault, hw, wholeRead_eq hlen, readAttempt_eq, Suc.reset]
  · simp [exec, execConfigReadDone, reads, hlen, storedCheck, hc, hj, enterFault, hw, wholeRead_eq hlen, readAttempt_eq, Suc.reset]

/-! ### Flash and leads -/

/-- Only BCN looks at the flash phase (R29). -/
theorem outsFor_flash (s : State) (f : Flash) :
    outsFor { s with flash := f } = { outsFor s with bcn := s.dcu.ctl.moving && slowOn f } := rfl

theorem moving_eq (c : Ctl) : c.moving = (c == .warning || c == .closing || c == .opening) := by cases c <;> rfl

/-- A limit lead of a running panel is ignored (log 20). -/
theorem limitIgnored_iff (s : State) (l : Lead) :
    s.limitIgnored l = true ↔ s.panelRuns = true ∧ (l = .cla ∨ l = .clb ∨ l = .olm) := by
  cases l <;> simp [State.limitIgnored]

/-- Settles O7: of the pins BCN alone reads the flash phase, and a lead edge is `leadEdge`. -/
theorem flashAndLevelEdgesActOnTheirOwnItems : Obligations.FlashAndLevelEdgesActOnTheirOwnItems := by
  refine ⟨fun s hs => ?_, fun l made s => ⟨fun he hp => ?_, fun he hp => ?_, fun hp hl => ?_⟩⟩
  · have := outsFor_flash s ⟨(s.flash.phase + 1) % 8, 0⟩
    have next : exec .flashEdge s = .next (setOuts { s with flash := ⟨(s.flash.phase + 1) % 8, 0⟩ }) := rfl
    rw [next, setOuts, this, hs, moving_eq]
    simp [slowOn]
  · rw [← limitIgnored_iff] at hp
    simp [exec, execLevelInputEdge, hp, leadEdge, he]
  · rw [← limitIgnored_iff] at hp
    simp [exec, execLevelInputEdge, hp, leadEdge, he, eq_comm]
  · have := (limitIgnored_iff s l).mpr ⟨hp, hl⟩
    simp [exec, execLevelInputEdge, this]

end Sys2Proof.Machine
end

