-- ==== Sys2Proof/Proofs/Codings.lean ====
section
/-! SUPPORT and PROOFS. The codings of 7.2 lose nothing: each field is read back from where it was put (R118 to R123). -/

namespace Sys2Proof.Machine

/-! ### Bytes and words -/

@[simp] theorem byteOf_toNat (n : Nat) : (byteOf n).toNat = n % 256 := by simp [byteOf]

/-- The number of two bytes. -/
@[simp] theorem wordOf_toNat (hi lo : Byte) : (wordOf hi lo).toNat = 256 * hi.toNat + lo.toNat := by
  rw [wordOf, BitVec.toNat_append, ← Nat.shiftLeft_add_eq_or_of_lt lo.isLt, Nat.shiftLeft_eq]
  omega

/-- The two bytes of a word, as numbers. -/
theorem wordBytes_eq (w : BitVec 16) : wordBytes w = [BitVec.ofNat 8 (w.toNat / 256), BitVec.ofNat 8 w.toNat] := by
  simp only [wordBytes, List.cons.injEq, ← BitVec.toNat_inj, and_true]
  constructor <;> simp [BitVec.extractLsb'_toNat, Nat.shiftRight_eq_div_pow]

/-- A word is read back from its two bytes (1.7). -/
@[simp] theorem wordOf_wordBytes (w : BitVec 16) : wordOf (w.extractLsb' 8 8) (w.extractLsb' 0 8) = w := by
  have h := w.isLt
  rw [← BitVec.toNat_inj, wordOf_toNat, BitVec.extractLsb'_toNat, BitVec.extractLsb'_toNat]
  simp only [Nat.shiftRight_eq_div_pow]
  omega

@[simp] theorem wordBytes_length (w : BitVec 16) : (wordBytes w).length = 2 := rfl

/-! ### Fields -/

@[simp] theorem modeOf_modeBit (m : Mode) : modeOf (modeBit m) = m := by cases m <;> rfl

@[simp] theorem wcauseOf_bit (w : WarningCause) : wcauseOf w.bit = w := by cases w <;> rfl

@[simp] theorem roleOf_roleBit (r : Role) : roleOf (roleBit r) = r := by cases r <;> rfl

@[simp] theorem posOfCode_code (p : Position) : posOfCode p.code = p := by cases p <;> rfl

@[simp] theorem phaseOfCode_code (p : Phase) : phaseOfCode p.code = p := by cases p <;> rfl

theorem ctlOf_code {c : Ctl} (h : c ≠ .inactive) : ctlOf c.code = c := by
  cases c
  case inactive => exact absurd rfl h
  all_goals rfl

/-- A figure up to 1000 is read back; an absent one is above them all (R123). -/
theorem figureOf_figureWord {v : Option Nat} (h : ∀ f, v = some f → f ≤ 1000) : figureOf (figureWord v) = v := by
  cases v with
  | none => rfl
  | some f =>
    have : f % 65536 = f := Nat.mod_eq_of_lt (by have := h f rfl; omega)
    simp [figureWord, figureOf, this, h f rfl]

/-- Closes up to 15 are read back; an absent figure is above them all (R123). -/
theorem closesOf_closesByte {v : Option Nat} (h : ∀ n, v = some n → n ≤ 15) : closesOf (closesByte v) = v := by
  cases v with
  | none => rfl
  | some n =>
    have : n % 256 = n := Nat.mod_eq_of_lt (by have := h n rfl; omega)
    simp [closesByte, closesOf, this, h n rfl]

/-- The low bits of a byte that ends in a field. -/
theorem low_of_append {n m : Nat} (z : BitVec n) (c : BitVec m) : (z ++ c).extractLsb' 0 m = c :=
  BitVec.extractLsb'_append_eq_right

/-- The flags byte of a STATE payload, each flag in its bit (7.2). -/
theorem stateFlags_read : ∀ (p : BitVec 2) (m cd w a b : Bool),
    let byte : Byte := p ++ BitVec.ofBool m ++ BitVec.ofBool cd ++ BitVec.ofBool w ++ 0#1 ++ BitVec.ofBool a ++ BitVec.ofBool b
    byte.extractLsb' 6 2 = p ∧ byte.getLsbD 5 = m ∧ byte.getLsbD 4 = cd ∧ byte.getLsbD 3 = w ∧ byte.getLsbD 1 = a ∧
      byte.getLsbD 0 = b := by
  decide

/-- The lowest two bits of a byte of flags. -/
theorem bits8_low (b7 b6 b5 b4 b3 b2 b1 b0 : Bool) :
    (bits8 b7 b6 b5 b4 b3 b2 b1 b0).getLsbD 0 = b0 ∧ (bits8 b7 b6 b5 b4 b3 b2 b1 b0).getLsbD 1 = b1 := by
  revert b7 b6 b5 b4 b3 b2 b1 b0
  decide

/-! ### Payloads -/

theorem decodeDemand_encodeDemand (c : PanelPart) : decodeDemand (encodeDemand c) = c := by
  obtain ⟨mode, groups, ack, goodA, goodB⟩ := c
  simp only [decodeDemand, encodeDemand, byteAt, wordBytes, List.cons_append, List.nil_append,
    List.getD_cons_zero, List.getD_cons_succ, bits8_low, modeOf_modeBit, wordOf_wordBytes]

theorem decodeState_encodeState {c : DoorPart} (hc : c.ctl ≠ .inactive) (hg : c.group ≤ 255)
    (hf : ∀ f, c.figure = some f → f ≤ 1000) (hn : ∀ n, c.closes = some n → n ≤ 15) : decodeState (encodeState c) = c := by
  obtain ⟨group, ctl, pos, figure, closes, phase, mode, cd, wcause, active, unacked, goodA, goodB⟩ := c
  have flags := stateFlags_read phase.code (modeBit mode) cd wcause.bit goodA goodB
  simp only at hc hg hf hn flags
  simp only [decodeState, encodeState, byteAt, wordBytes, List.cons_append, List.nil_append,
    List.getD_cons_zero, List.getD_cons_succ, flags, low_of_append, modeOf_modeBit, wordOf_wordBytes, posOfCode_code,
    phaseOfCode_code, wcauseOf_bit, ctlOf_code hc, figureOf_figureWord hf, closesOf_closesByte hn, byteOf_toNat,
    Nat.mod_eq_of_lt (Nat.lt_succ_of_le hg)]

theorem decodeIdent_encodeIdent {c : IdentPart} (hg : c.group ≤ 255) (hl : c.limit ≤ 255) (hr : c.refresh ≤ 255) :
    decodeIdent (encodeIdent c) = c := by
  obtain ⟨role, group, limit, refresh, digest⟩ := c
  simp only at hg hl hr
  simp only [decodeIdent, encodeIdent, byteAt, wordBytes, List.cons_append, List.nil_append, List.getD_cons_zero,
    List.getD_cons_succ, bits8_low, roleOf_roleBit, wordOf_wordBytes, byteOf_toNat, Nat.mod_eq_of_lt (Nat.lt_succ_of_le hg),
    Nat.mod_eq_of_lt (Nat.lt_succ_of_le hl), Nat.mod_eq_of_lt (Nat.lt_succ_of_le hr)]

@[simp] theorem encode_lengths (p : PanelPart) (d : DoorPart) (i : IdentPart) :
    (encodeDemand p).length = 5 ∧ (encodeState d).length = 11 ∧ (encodeIdent i).length = 6 := ⟨rfl, rfl, rfl⟩

/-- The payload of a content has the length of its class (R118). -/
theorem payload_length (c : Content) : c.payload.length = c.cls.payloadLength := by cases c <;> rfl

/-- Settles O33: every field stands in its own bits, and each coding of a field is undone by its reading. -/
theorem payloadsAreReadAsTheyWereMade : Obligations.PayloadsAreReadAsTheyWereMade :=
  ⟨fun c => ⟨decodeDemand_encodeDemand c, rfl⟩, fun _ hc hg hf hn => ⟨decodeState_encodeState hc hg hf hn, rfl⟩,
    fun _ hg hl hr => ⟨decodeIdent_encodeIdent hg hl hr, rfl⟩⟩

end Sys2Proof.Machine
end

