-- ==== Sys2Proof/Proofs/Offers.lean ====
section
/-! SUPPORT. What a making and an offer leave in the lanes, exactly (R128, R132, R134, R138), and what a lane with changed conditions
hands on (R151). -/

namespace Sys2Proof.Machine

/-! ### Lanes that look for work -/

/-- Offered twice, a lane that began is no longer idle. -/
@[simp] theorem Lane.offered_offered (n : Snu) (l : Lane) : (l.offered n).offered n = l.offered n := by
  by_cases hi : l.activity = .idle ∧ l.quiet = true
  · cases hw : laneWork n l <;> simp [Lane.offered, hi, hw]
  · simp [Lane.offered, hi]

/-- Only the newest snapshots and their serials are work (R132). -/
theorem Lane.offered_congr {n m : Snu} (l : Lane) (hd : m.demand.newest = n.demand.newest ∧ m.demand.serial = n.demand.serial)
    (hs : m.state.newest = n.state.newest ∧ m.state.serial = n.state.serial) (hi : m.ident.newest = n.ident.newest ∧
    m.ident.serial = n.ident.serial) : l.offered m = l.offered n := by
  simp only [Lane.offered, laneWork, hd, hs, hi]

theorem tryBegin_lane_eq (id : LaneId) (s : State) :
    (tryBegin id s).lane id = if s.suc.startUp = .joined then (s.lane id).offered s.snu else s.lane id := by
  simp only [tryBegin, Lane.offered]
  by_cases hj : s.suc.startUp = .joined
  · simp only [hj, true_and, if_true]
    split
    · split <;> simp_all
    · rfl
  · simp [hj]

/-- In JOINED each lane looks for work at a making (R134). -/
theorem tryBegins_eq {s : State} (hj : s.suc.startUp = .joined) :
    tryBegins s = { s with laneA := s.laneA.offered s.snu, laneB := s.laneB.offered s.snu } := by
  have replaced : ∀ (id : LaneId) (x : State), x.suc.startUp = .joined →
      tryBegin id x = x.setLane id ((x.lane id).offered x.snu) := by
    intro id x hx
    by_cases idle : (x.lane id).activity = .idle ∧ (x.lane id).quiet = true
    · rw [tryBegin, Lane.offered, if_pos ⟨hx, idle⟩, if_pos idle]
      cases laneWork x.snu (x.lane id) with
      | none => exact (setLane_lane x id).symm
      | some work => rfl
    · rw [tryBegin, Lane.offered, if_neg fun begins => idle begins.2, if_neg idle]
      exact (setLane_lane x id).symm
  rw [tryBegins, replaced .a s hj, replaced .b (s.setLane .a _) (by simpa using hj)]
  rfl

/-! ### The own class -/

/-- The spacing of the class the role sends has ended (R128). -/
def State.ownReady (s : State) : Bool :=
  match s.conf.role with
  | .door => s.snu.state.ready
  | .panel => s.snu.demand.ready

/-- The snapshot unit after a making of the own class (R128). -/
def State.snuMade (s : State) : Snu :=
  match s.conf.role with
  | .door => { s.snu with state := s.snu.state.make (doorContent s) }
  | .panel => { s.snu with demand := s.snu.demand.make (panelContent s) }

/-- The snapshot unit with a change of the own class pending (R128). -/
def State.snuPending (s : State) : Snu :=
  match s.conf.role with
  | .door => { s.snu with state := { s.snu.state with pending := true } }
  | .panel => { s.snu with demand := { s.snu.demand with pending := true } }

theorem makeOwn_eq {s : State} (hj : s.suc.startUp = .joined) : makeOwn s =
    { s with snu := s.snuMade, laneA := s.laneA.offered s.snuMade, laneB := s.laneB.offered s.snuMade } := by
  cases hr : s.conf.role
  · rw [makeOwn, State.snuMade, hr]
    exact tryBegins_eq (s := { s with snu := { s.snu with state := s.snu.state.make (doorContent s) } }) hj
  · rw [makeOwn, State.snuMade, hr]
    exact tryBegins_eq (s := { s with snu := { s.snu with demand := s.snu.demand.make (panelContent s) } }) hj

/-- An offer in JOINED makes the snapshot at once, or leaves the change pending (R128). -/
theorem offer_eq {s : State} (hj : s.suc.startUp = .joined) :
    offer s = if s.ownReady then makeOwn s else { s with snu := s.snuPending } := by
  cases hr : s.conf.role <;> simp [offer, hj, State.ownReady, State.snuPending, hr]

/-- A fresh snapshot's spacing has not ended. -/
@[simp] theorem Keeper.make_ready {α : Type} (k : Keeper α) (c : α) : (k.make c).ready = false := by
  simp [Keeper.make, Keeper.ready, Config.spacingMs]

theorem makeOwn_ownReady {s : State} (hj : s.suc.startUp = .joined) : (makeOwn s).ownReady = false := by
  rw [makeOwn_eq hj]
  unfold State.ownReady State.snuMade State.conf
  cases h : (s.suc.accepted.getD Config.absent).role <;> simp

/-- A pending change moves no newest snapshot. -/
theorem Lane.offered_snuPending (s : State) (l : Lane) : l.offered s.snuPending = l.offered s.snu := by
  refine Lane.offered_congr l ?_ ?_ ?_ <;> (unfold State.snuPending; cases s.conf.role <;> exact ⟨rfl, rfl⟩)

/-- A lane that stood as `l` before offers: as it was, or, a snapshot having been made in JOINED, with the work it then had. -/
def Begun (id : LaneId) (l : Lane) (x : State) : Prop :=
  x.lane id = l ∨ (x.suc.startUp = .joined ∧ x.ownReady = false ∧ x.lane id = l.offered x.snu)

/-- At most the first of several offers makes a snapshot, so the lane has begun by the newest. -/
theorem Begun.offer {id : LaneId} {l : Lane} {x : State} (h : Begun id l x) : Begun id l (offer x) := by
  by_cases hj : x.suc.startUp = .joined
  · rw [offer_eq hj]
    split
    · rename_i hr
      have stood : x.lane id = l := h.resolve_right (by simp [hr])
      refine .inr ⟨by simpa using hj, makeOwn_ownReady hj, ?_⟩
      rw [makeOwn_eq hj, ← stood]
      cases id <;> rfl
    · rename_i hr
      rcases h with h | ⟨-, -, h⟩
      · exact .inl (by rw [← h]; cases id <;> rfl)
      · refine .inr ⟨hj, ?_, ?_⟩
        · unfold State.ownReady State.snuPending State.conf at *
          revert hr
          cases hc : (x.suc.accepted.getD Config.absent).role <;> simp [Keeper.ready]
        · rw [Lane.offered_snuPending, ← h]
          cases id <;> rfl
  · rwa [offer_outside x hj]

/-- The lane, the snapshot unit and the start-up controller are all `Begun` looks at. -/
theorem Begun.of_eq {id : LaneId} {l : Lane} {x y : State} (h : Begun id l x) (hl : y.lane id = x.lane id)
    (hn : y.snu = x.snu) (hs : y.suc = x.suc) : Begun id l y := by
  simpa [Begun, State.ownReady, State.conf, hl, hn, hs] using h

theorem Begun.alarm {id : LaneId} {l : Lane} {x : State} (h : Begun id l x) (q : AlarmRequest) : Begun id l (alarm q x) := by
  have same : ∀ y : State, y.laneA = x.laneA → y.laneB = x.laneB → y.snu = x.snu → y.suc = x.suc → Begun id l y :=
    fun y ha hb hn hs => h.of_eq (by cases id <;> simp [State.lane, ha, hb]) hn hs
  simp only [Machine.alarm]
  split
  · have k := same (pumpReport x.alu (applyRequest q x.alu) { x with alu := applyRequest q x.alu }) (by simp) (by simp) (by simp)
      (by simp)
    exact Carried.ite (P := Begun id l) k.offer k
  · refine Carried.ite (P := Begun id l) (Carried.ite (P := Begun id l) ?_ ?_) (same _ rfl rfl rfl rfl)
    · refine same _ ?_ ?_ ?_ ?_ <;> (simp; split <;> rfl)
    · refine same _ ?_ ?_ ?_ ?_ <;> (split <;> rfl)

/-! ### A lane's health -/

/-- A lane that comes to `l` with its conditions: what `rehealth` makes of it is `LaneMoved` (R151). -/
theorem rehealth_moved (id : LaneId) (l : Lane) (s : State) : LaneMoved id l s (rehealth id (s.setLane id l)) := by
  have eta : ∀ {h : Health}, h = l.health → { l with health := h } = l := by rintro h rfl; rfl
  have keep : ∀ {x y : State}, x.doorRuns = false → HandsOn y x → HandsOn y (repaint x) := fun {x y} hx h =>
    h.trans
      { lead := rfl, deb := rfl, settle := rfl, flash := rfl, suc := rfl, ste := rfl, rxq := rfl, dgp := rfl, pending := rfl,
        laneA := .inl rfl, laneB := .inl rfl, silent := fun _ => ⟨rfl, rfl, rfl⟩, ident := rfl, demand := fun _ => rfl,
        state := fun _ => rfl, demandOnce := .inl rfl, stateOnce := .inl rfl, pump := rfl, pumpDoor := fun _ => rfl, panel := rfl,
        panelOut := fun h => absurd h (by simp [hx]) }
  have other : ∀ m : Lane, ((s.setLane id m).lane id.other).good = (s.lane id.other).good := by simp
  simp only [rehealth, lane_setLane_same, setLane_setLane, other]
  by_cases hh : healthOf l = l.health
  · rw [if_pos hh]
    exact ⟨by simp [hh, asked, applyRequests], by simp, by simp, ⟨by simp, by simp, by simp⟩, by rw [eta hh]; exact .same _⟩
  rw [if_neg hh]
  by_cases hg : (healthOf l == .good) = (l.health == .good)
  · rw [if_pos hg]
    exact ⟨by simp [hg, asked, applyRequests], by simp, by simp, ⟨by simp, by simp, by simp⟩, .same _⟩
  rw [if_neg hg]
  have ne : ((healthOf l == .good) != (l.health == .good)) = true := by simpa using hg
  have hands : HandsOn (s.setLane id { l with health := healthOf l }) (offer (if (s.lane id.other).good then
      alarm (condition .laneFault (healthOf l != .good)) (s.setLane id { l with health := healthOf l })
      else s.setLane id { l with health := healthOf l })) :=
    (HandsOn.ite (alarm_hands _ _) (.same _)).trans (offer_hands _)
  refine ⟨?_, ?_, ?_, ⟨?_, ?_, ?_⟩, ?_⟩
  · rw [ne]
    cases (s.lane id.other).good <;> cases (s.setLane id l).panelRuns <;> simp [asked, applyRequests]
  · have enu := alarm_condition_enu .laneFault (healthOf l != .good) (s.setLane id { l with health := healthOf l }) rfl
    cases (s.lane id.other).good <;> cases (s.setLane id l).panelRuns <;> simp [enu]
  · cases (s.lane id.other).good <;> cases (s.setLane id l).panelRuns <;> simp
  · cases (s.lane id.other).good <;> cases (s.setLane id l).panelRuns <;> simp
  · cases (s.lane id.other).good <;> cases (s.setLane id l).panelRuns <;> simp
  · cases (s.lane id.other).good <;> cases (s.setLane id l).panelRuns <;> simp
  · split
    · rename_i hp
      refine keep ?_ hands
      have : s.conf.role = .panel := by simp_all [State.panelRuns, State.conf]
      simp [State.doorRuns, State.conf, apply_ite State.suc] at this ⊢
      simp [this]
    · exact hands

/-- The lane after its health was set and handed on. -/
theorem rehealth_begun (id : LaneId) (l : Lane) (s : State) :
    Begun id { l with health := healthOf l } (rehealth id (s.setLane id l)) := by
  simp only [rehealth, lane_setLane_same, setLane_setLane, apply_ite (Begun id { l with health := healthOf l })]
  have start : Begun id { l with health := healthOf l } (s.setLane id { l with health := healthOf l }) := .inl (by simp)
  have alarmed := Carried.ite (P := Begun id { l with health := healthOf l })
    (b := ((s.setLane id l).lane id.other).good = true) (start.alarm (condition .laneFault (healthOf l != .good))) start
  split
  · rename_i hh
    exact .inl (by rw [hh]; simp)
  · split
    · exact start
    · split
      · exact alarmed.offer.of_eq rfl rfl rfl
      · exact alarmed.offer

/-- Looking for work after that, in JOINED, finds what the newest snapshots give (R138). -/
theorem tryBegin_rehealth_lane (id : LaneId) (l : Lane) (s : State) :
    let after : Lane := { l with health := healthOf l }
    let t := tryBegin id (rehealth id (s.setLane id l))
    t.lane id = if s.suc.startUp = .joined then after.offered t.snu else after := by
  simp only
  rw [tryBegin_lane_eq]
  simp only [rehealth_keeps, setLane_keeps, tryBegin_keeps]
  rcases rehealth_begun id l s with h | ⟨hj, -, h⟩
  · rw [h]
  · simp only [rehealth_keeps, setLane_keeps] at hj
    rw [if_pos hj, if_pos hj, h, Lane.offered_offered]

/-- Looking for work hands on no more than a move of the lane does. -/
theorem LaneMoved.tryBegin {id : LaneId} {l : Lane} {s t : State} (h : LaneMoved id l s t) :
    LaneMoved id l s (tryBegin id t) := by
  obtain ⟨alu, enu, outs, ⟨dcu, trm, psu⟩, hands⟩ := h
  refine ⟨by simpa, by simpa, by simpa, ⟨by simpa, by simpa, by simpa⟩, hands.trans ?_⟩
  have lane := tryBegin_lane id t
  by_cases hj : t.suc.startUp = .joined
  · constructor
    case laneA => cases id; exacts [lane.1, .inl lane.2]
    case laneB => cases id; exacts [.inl lane.2, lane.1]
    case silent => exact fun h => absurd hj h
    case demandOnce => exact .inl (by simp)
    case stateOnce => exact .inl (by simp)
    case pump => simp [PumpHanded]
    case panel => simp [PanelHanded]
    all_goals simp
  · have : Machine.tryBegin id t = t := by simp [Machine.tryBegin, hj]
    rw [this]
    exact .same t

end Sys2Proof.Machine
end

