-- ==== Sys2Proof/Proofs/LaneCommands.lean ====
section
/-! SUPPORT and PROOFS. The commands of the lane units: quiet and edges, the start and the rejection of a reception, contention, bit
errors and withdrawal, completion, STUCK and SILENT (R137 to R151). -/

namespace Sys2Proof.Machine

/-- While the lanes are on a command of a lane acts on its lane (R135). -/
theorem onLane_eq {s : State} (on : s.suc.startUp.running = true) (id : LaneId) (f : Lane → State → State) :
    onLane id f s = .next (f (s.lane id) s) := if_pos on

/-! ### Quiet and edges -/

/-- Settles O35: becoming quiet is `rehealth` and a look for work; an edge begins what the lane can. -/
theorem quietLaneBeginsOrReceives : Obligations.QuietLaneBeginsOrReceives := by
  intro id s on
  refine ⟨fun hq => ?_, fun hq => ?_, fun hq hi => ⟨fun c hj hw => ?_, fun hn => ?_⟩, fun hq hw => ?_⟩
  · refine ⟨_, ?_, (rehealth_moved id (s.lane id).becomesQuiet s).tryBegin, tryBegin_rehealth_lane id _ s⟩
    simp [exec, execLaneQuiet, onLane_eq on, hq]
  · simp [exec, execLaneQuiet, onLane_eq on, hq]
  · simp [exec, execDominantEdgeQuietLane, onLane_eq on, hq, edgeTaken, hi, hj, hw, beginTelegram]
  · have none : (if s.suc.startUp = .joined then laneWork s.snu (s.lane id) else none) = none := by
      rcases hn with hn | hn <;> simp [hn]
    simp [exec, execDominantEdgeQuietLane, onLane_eq on, hq, edgeTaken, hi, none, Lane.receives]
  · simp [exec, execDominantEdgeQuietLane, onLane_eq on, hq, edgeTaken, hw]

/-! ### The start of a reception -/

theorem startMarkPasses_iff (cell len : Nat) : startMarkPasses cell len = true ↔ 7 * cell ≤ 2 * len ∧ 2 * len ≤ 9 * cell := by
  simp [startMarkPasses]

/-- FIRST keeps a capture, LATEST replaces it (R179). -/
theorem captureOffer_eq (c : Capture) (s : State) : captureOffer c s = { s with dgp := { s.dgp with
    capture := if s.conf.captureMode = .first then some (s.dgp.capture.getD c) else some c } } := by
  have eta : ∀ x : Capture, s.dgp.capture = some x → s = { s with dgp := { s.dgp with capture := some x } } := fun x h => by
    rw [← h]
  cases hm : s.conf.captureMode
  · cases hc : s.dgp.capture with
    | none => simp [captureOffer, hm, hc]
    | some x => simpa [captureOffer, hm, hc] using eta x hc
  · cases hc : s.dgp.capture <;> simp [captureOffer, hm, hc]

/-- The class code of an arbitration byte names a class below 192 alone (R118). -/
theorem classOf_isSome (b : Byte) : (classOf b).isSome = true ↔ b.toNat < 192 := by
  have hb := b.isLt
  have code : (b.extractLsb' 6 2).toNat = b.toNat / 64 := by
    simp only [BitVec.extractLsb'_toNat, Nat.shiftRight_eq_div_pow]
    omega
  unfold classOf
  rw [code]
  rcases (by omega : b.toNat / 64 = 0 ∨ b.toNat / 64 = 1 ∨ b.toNat / 64 = 2 ∨ b.toNat / 64 = 3) with h | h | h | h <;> simp [h] <;>
    omega

/-- Settles O36: a start mark, an arbitration byte and a telegram cut short pass or are rejected. -/
theorem receptionStartsOrIsRejected : Obligations.ReceptionStartsOrIsRejected := by
  intro id s on ha
  have conf : ∀ l : Lane, (s.setLane id l).conf = s.conf := fun l => by simp [State.conf]
  have taking : ∀ {b}, (s.lane id).rx = some b → (s.lane id).taking = true := fun h => by
    rcases ha with ha | ha <;> simp [Lane.taking, ha, h]
  refine ⟨fun hr len => ?_, fun hr levels b hl => ?_, fun bytes hr levels => ?_⟩
  · have first : (s.lane id).takingFirst = true := by simp [Lane.takingFirst, taking hr, hr]
    refine ⟨fun hp => ?_, fun hp => ?_⟩
    · have pass : startMarkPasses (cellNs s.conf.rate) len = true := by
        rw [startMarkPasses_iff]
        revert hp
        cases s.conf.rate <;> exact fun h => h
      simp [exec, execStartMarkMeasured, onLane_eq on, pass]
    · have fail : startMarkPasses (cellNs s.conf.rate) len = false := by
        rw [← Bool.not_eq_true, startMarkPasses_iff]
        revert hp
        cases s.conf.rate <;> simp only [cellNs] <;> omega
      refine ⟨fun ho => ?_, fun ho => ?_⟩
      · simp [exec, execStartMarkMeasured, onLane_eq on, first, fail, rateError, ho, captureOffer_eq, conf, Lane.endReception,
          Capture.bare, bump]
      · simp [exec, execStartMarkMeasured, onLane_eq on, first, fail, rateError, ho, Lane.endReception]
  · have first : (s.lane id).takingFirst = true := by simp [Lane.takingFirst, taking hr, hr]
    refine ⟨fun hb => ?_, fun hb => ?_⟩
    · obtain ⟨c, hc⟩ := Option.isSome_iff_exists.mp ((classOf_isSome b).mpr hb)
      simp [exec, execArbitrationByteReceived, onLane_eq on, first, hl, arbitrationTaken, hc]
    · have hc : classOf b = none := by
        rw [← Option.not_isSome_iff_eq_none, classOf_isSome]
        omega
      simp [exec, execArbitrationByteReceived, onLane_eq on, first, hl, arbitrationTaken, hc, formatError, captureOffer_eq, conf,
        Lane.endReception, Capture.header, Capture.bare, bump]
  · refine ⟨fun ho => ?_, fun ho => ?_⟩
    · simp [exec, execReceptionCutShort, onLane_eq on, taking hr, hr, ho, formatError, captureOffer_eq, conf, Lane.endReception,
        Capture.header, Capture.bare, bump]
    · simp [exec, execReceptionCutShort, onLane_eq on, taking hr, ho, Lane.endReception]

/-! ### Contention, bit errors, completion -/

/-- A lane after a bit error, spelled out (R140, R143). -/
theorem Lane.bitErrs_eq (l : Lane) (readBack : List Byte) : l.bitErrs readBack = { l with
    activity := if 15 ≤ l.bitErr then .withdrawn else .receiving
    copy := none
    rx := some readBack
    own := .bitError
    bitErr := l.bitErr + 1
    errored := l.errored || decide (15 ≤ l.bitErr)
    withdraw := if 15 ≤ l.bitErr then some 0 else l.withdraw
    ctr := { l.ctr with bitErrors := min (l.ctr.bitErrors + 1) 65535 } } := by
  by_cases h : 15 ≤ l.bitErr <;> simp [Lane.bitErrs, Config.maxBitErrors, h, Lane.receives, bump]

/-- Settles O37: a bit error and the end of a withdrawal are moves of the lane with its health. -/
theorem contentionBitErrorsAndWithdrawal : Obligations.ContentionBitErrorsAndWithdrawal := by
  intro id s on
  refine ⟨fun hc => ⟨?_, ?_⟩, fun hf readBack => ⟨rehealth id (s.setLane id ((s.lane id).bitErrs (spelled readBack))), ?_, ?_⟩,
    fun hw => ⟨_, ?_, (rehealth_moved id (s.lane id).returns s).tryBegin, tryBegin_rehealth_lane id _ s⟩⟩
  · simp [exec, execArbitrationWon, onLane_eq on, hc]
  · simp [exec, execArbitrationLost, onLane_eq on, hc, Lane.receives, bump]
  · have flies : (s.lane id).inFlight = true := by simpa [Lane.inFlight] using hf
    simp [exec, execBitError, onLane_eq on, flies]
  · rw [← Lane.bitErrs_eq]
    exact rehealth_moved id _ s
  · simp [exec, execWithdrawalEnd, onLane_eq on, hw]

/-- A lane whose own telegram is complete, spelled out (R132, R141, R150). -/
theorem Lane.completes_record_eq (l : Lane) (c : SendCopy) (heard : Bool) :
    { (l.record c).completes heard with copy := none } = { l with
      copy := none
      sentD := if c.content.cls = .demand then some c.serial else l.sentD
      sentS := if c.content.cls = .state then some c.serial else l.sentS
      sentI := if c.content.cls = .ident then some c.serial else l.sentI
      unheard := if heard = true then 0 else min (l.unheard + 1) 8
      bitErr := 0
      alone := if heard = true then false else (l.alone || min (l.unheard + 1) 8 == 8)
      ctr := { l.ctr with unheard := if heard = true then l.ctr.unheard else min (l.ctr.unheard + 1) 65535 } } := by
  cases hc : c.content.cls <;> cases heard <;> simp [Lane.record, hc, Lane.completes, Config.maxUnheard, bump]

/-- Settles O38: the record and the tallies, then the health. -/
theorem sendCompleteRecordsAndTallies : Obligations.SendCompleteRecordsAndTallies := by
  intro id heard c s on ha hc
  refine ⟨rehealth id (s.setLane id { ((s.lane id).record c).completes heard with copy := none }), ?_, ?_⟩
  · simp [exec, execTelegramSendComplete, onLane_eq on, ha, hc]
  · rw [← Lane.completes_record_eq]
    exact rehealth_moved id _ s

/-! ### STUCK and SILENT -/

/-- The reported health after a move of a lane is that of its conditions. -/
theorem LaneMoved.health {id : LaneId} {l : Lane} {s t : State} (h : LaneMoved id l s t) : (t.lane id).health = healthOf l := by
  have handed : LaneHanded { l with health := healthOf l } (t.lane id) := by
    cases id
    · exact h.hands.laneA
    · exact h.hands.laneB
  rcases handed with e | ⟨-, -, c, e⟩ <;> rw [e]
  rfl

/-- Settles O40: STUCK stands first in the order of R151, SILENT third. -/
theorem stuckAndSilentLanes : Obligations.StuckAndSilentLanes := by
  intro id s on
  refine ⟨fun hq => ⟨_, ?_, rehealth_moved id _ s, ?_⟩, fun hq => ?_, fun hr => ⟨_, ?_, rehealth_moved id _ s, ?_⟩, fun hr => ?_⟩
  · simp [exec, execLineStuck, onLane_eq on, hq]
  · rw [(rehealth_moved id _ s).health]
    rfl
  · simp [exec, execLineStuck, onLane_eq on, hq]
  · simp [exec, execSilenceTimerExpiry, onLane_eq on, hr]
  · rw [(rehealth_moved id _ s).health]
    rfl
  · simp [exec, execSilenceTimerExpiry, onLane_eq on, hr]

end Sys2Proof.Machine
end

