-- ==== Sys2Proof/Proofs/Telegrams.lean ====
section
/-! SUPPORT and PROOFS. A telegram in its cells, and a telegram as it was received: the check, the header, the place in the queue
(R118, R119, R136, R145 to R147). -/

namespace Sys2Proof.Machine

/-! ### Cells -/

/-- A 1 is dominant for a quarter of its cell, a 0 for three quarters (R136). -/
theorem levelAt_iff (rate : LoopRate) (driven : List Bool) (ns : Nat) :
    levelAt rate driven ns = true ↔ ∃ b ∈ driven, if b = true then 4 * ns < cellNs rate else 4 * ns < 3 * cellNs rate := by
  have one : ∀ b, ns < dominantNs rate b ↔ if b = true then 4 * ns < cellNs rate else 4 * ns < 3 * cellNs rate := by
    intro b
    cases rate <;> cases b <;> simp only [dominantNs, cellNs, if_true, if_false, Bool.false_eq_true] <;> omega
  simp [levelAt, one]

/-- A sample is dominant exactly where some station drives a 0. -/
theorem sampleOf_iff (rate : LoopRate) (driven : List Bool) : sampleOf rate driven = true ↔ false ∈ driven := by
  simp [sampleOf, levelAt, driven_at_sample]

theorem sampleOf_one (rate : LoopRate) (b : Bool) : sampleOf rate [b] = !b := by
  simp [sampleOf, levelAt, driven_at_sample]

/-- The cells of bytes as driven spell the bytes. -/
theorem spelled_flatMap (bytes : List Byte) : spelled ((bytes.flatMap byteBits).map (!·)) = bytes := by
  induction bytes with
  | nil => rfl
  | cons b bs ih => rw [List.flatMap_cons, List.map_append, spelled_byteBits, ih]

/-! ### A whole telegram -/

/-- The class and the station of an arbitration byte (R118). -/
theorem arbitrationByte_read : ∀ (c : Cls) (n : Fin 64), classOf (arbitrationByte c n) = some c ∧ originOf (arbitrationByte c n) = n := by
  intro c
  cases c <;> decide

/-- The bytes of a telegram before its check (R119). -/
def telegramBody (station : Nat) (c : SendCopy) : List Byte :=
  [arbitrationByte c.content.cls station, c.serial, byteOf c.content.cls.payloadLength] ++ c.content.payload

theorem telegramBytes_eq (station : Nat) (c : SendCopy) :
    telegramBytes station c = telegramBody station c ++ wordBytes (check16 (telegramBody station c)) := rfl

theorem telegramBody_length (station : Nat) (c : SendCopy) :
    (telegramBody station c).length = 3 + c.content.cls.payloadLength := by
  simp [telegramBody, payload_length]
  omega

/-- A telegram is as long as its class says (R118). -/
theorem telegramBytes_length (station : Nat) (c : SendCopy) :
    (telegramBytes station c).length = c.content.cls.telegramLength := by
  simp [telegramBytes_eq, telegramBody_length, Cls.telegramLength]

theorem computedCheck_telegramBytes (station : Nat) (c : SendCopy) :
    computedCheck (telegramBytes station c) = check16 (telegramBody station c) := by
  simp [computedCheck, telegramBytes_eq]

theorem carriedCheck_append (body : List Byte) (w : BitVec 16) : carriedCheck (body ++ wordBytes w) = w := by
  have hi : byteAt (body ++ wordBytes w) (body.length + 2 - 2) = w.extractLsb' 8 8 := by simp [byteAt, wordBytes]
  have lo : byteAt (body ++ wordBytes w) (body.length + 2 - 1) = w.extractLsb' 0 8 := by simp [byteAt, wordBytes]
  rw [carriedCheck, List.length_append, wordBytes_length, hi, lo, wordOf_wordBytes]

/-- A telegram as made is judged valid, with what was made (R145). -/
theorem judgeTelegram_telegramBytes (id : LaneId) {station : Nat} (c : SendCopy) (h1 : 1 ≤ station) (h2 : station ≤ 63) :
    judgeTelegram id c.content.cls (telegramBytes station c) =
      .valid ⟨id, c.content.cls, station, c.serial, c.content.payload⟩ := by
  have check : computedCheck (telegramBytes station c) = carriedCheck (telegramBytes station c) := by
    rw [computedCheck_telegramBytes, telegramBytes_eq, carriedCheck_append]
  have first : originOf (byteAt (telegramBytes station c) 0) = station :=
    (arbitrationByte_read c.content.cls ⟨station, by omega⟩).2
  have second : byteAt (telegramBytes station c) 1 = c.serial := rfl
  have third : (byteAt (telegramBytes station c) 2).toNat = c.content.cls.payloadLength := by
    have : byteAt (telegramBytes station c) 2 = byteOf c.content.cls.payloadLength := rfl
    rw [this]
    cases c.content.cls <;> rfl
  have payload : ((telegramBytes station c).drop 3).take c.content.cls.payloadLength = c.content.payload := by
    rw [← payload_length]
    simp [telegramBytes]
  simp only [judgeTelegram, check, first, second, third, payload, ne_eq, not_true, if_false, Nat.ne_of_gt h1]

/-- The class of a telegram's first byte. -/
theorem classOf_telegramBytes {station : Nat} (c : SendCopy) (h : station ≤ 63) :
    classOf (byteAt (telegramBytes station c) 0) = some c.content.cls :=
  (arbitrationByte_read c.content.cls ⟨station, by omega⟩).1

/-! ### Reception -/

/-- What a lane that takes a telegram makes of its last cells (R144). -/
theorem exec_receiveComplete {id : LaneId} {first : List Byte} {rest : List Bool} {s : State} {c : Cls}
    (on : s.suc.startUp.running = true) (ha : (s.lane id).activity = .receiving ∨ (s.lane id).activity = .withdrawn)
    (hr : (s.lane id).rx = some first) (hc : classOf (byteAt (first ++ spelled rest) 0) = some c)
    (hl : (first ++ spelled rest).length = c.telegramLength) :
    exec (.telegramReceiveComplete id rest) s = .next (receiveComplete id (s.lane id) c (first ++ spelled rest) s) := by
  have taking : (s.lane id).taking = true := by rcases ha with ha | ha <;> simp [Lane.taking, ha, hr]
  simp only [exec, execTelegramReceiveComplete, onLane_eq on, hr, Option.getD_some, taking, hc, hl, if_true]

/-- The capture of a whole telegram, with the bytes of its header (R145, R179). -/
theorem Capture.whole_eq (id : LaneId) (r : Reject) {bytes : List Byte} {n : Nat} (h : bytes.length = n + 5) :
    Capture.whole id r bytes = ⟨id, r, some (byteAt bytes 0), some (byteAt bytes 1), some (byteAt bytes 2),
      some (wordOf (byteAt bytes (n + 3)) (byteAt bytes (n + 4))), some (check16 (bytes.take (n + 3))), 0, 0⟩ := by
  have at' : ∀ i, i < bytes.length → bytes[i]? = some (byteAt bytes i) := fun i hi => by simp [byteAt, hi]
  simp only [Capture.whole, Capture.header, Capture.bare, computedCheck, carriedCheck, at' 0 (by omega), at' 1 (by omega),
    at' 2 (by omega)]
  rw [h]
  rfl

/-- A rejected telegram: counted and offered to the capture, nothing placed (R145). -/
theorem receiveComplete_rejected {id : LaneId} {l : Lane} {c : Cls} {bytes : List Byte} {s : State} :
    (computedCheck bytes ≠ carriedCheck bytes → receiveComplete id l c bytes s = captureOffer (Capture.whole id .check bytes)
      (s.setLane id { l.endReception with ctr := { l.ctr with checkErrors := bump l.ctr.checkErrors } })) ∧
    (computedCheck bytes = carriedCheck bytes → originOf (byteAt bytes 0) = 0 ∨ (byteAt bytes 2).toNat ≠ c.payloadLength →
      receiveComplete id l c bytes s = formatError id l (Capture.whole id .format bytes) s) := by
  refine ⟨fun hc => ?_, fun hc hf => ?_⟩
  · simp [receiveComplete, judgeTelegram, hc]
  · by_cases ho : originOf (byteAt bytes 0) = 0
    · simp [receiveComplete, judgeTelegram, hc, ho]
    · simp [receiveComplete, judgeTelegram, hc, ho, hf.resolve_left ho]

/-- Settles O39: the check comes before the header, and a rejection ends the reception. -/
theorem completeTelegramIsRejected : Obligations.CompleteTelegramIsRejected := by
  intro id c first rest s on ha hr
  have conf : ∀ l : Lane, (s.setLane id l).conf = s.conf := fun l => by simp [State.conf]
  have size : ∀ n, n = c.payloadLength → classOf (byteAt (first ++ spelled rest) 0) = some c →
      (first ++ spelled rest).length = n + 5 →
      exec (.telegramReceiveComplete id rest) s = .next (receiveComplete id (s.lane id) c (first ++ spelled rest) s) ∧
      computedCheck (first ++ spelled rest) = check16 ((first ++ spelled rest).take (n + 3)) ∧
      carriedCheck (first ++ spelled rest) =
        wordOf (byteAt (first ++ spelled rest) (n + 3)) (byteAt (first ++ spelled rest) (n + 4)) := by
    intro n hn hc hl
    refine ⟨exec_receiveComplete on ha hr hc (by rw [hl, Cls.telegramLength, hn]; omega), ?_, ?_⟩
    · rw [computedCheck, hl]
      rfl
    · rw [carriedCheck, hl]
      rfl
  have rejected := @receiveComplete_rejected id (s.lane id) c (first ++ spelled rest) s
  cases c <;>
    · intro bytes size' hc hl
      obtain ⟨run, computed, carried⟩ := size _ rfl hc hl
      rw [computed, carried] at rejected
      refine ⟨fun h => ?_, fun h hf => ?_⟩
      · rw [run, rejected.1 h, Capture.whole_eq id _ hl, captureOffer_eq, conf]
        simp [Lane.endReception, bump]
      · rw [run, rejected.2 h hf, formatError, Capture.whole_eq id _ hl, captureOffer_eq, conf]
        simp [Lane.endReception, bump]

/-- Settles O34: what the cells spell is judged valid with the content sent, and placed where there is room. -/
theorem sentTelegramIsReceivedAsMade : Obligations.SentTelegramIsReceivedAsMade := by
  have run : ∀ (id : LaneId) {station : Nat} (c : SendCopy) {first : List Byte} {rest : List Bool} (s : State),
      1 ≤ station → station ≤ 63 → s.suc.startUp.running = true → first ++ spelled rest = telegramBytes station c →
      (s.lane id).activity = .receiving ∨ (s.lane id).activity = .withdrawn → (s.lane id).rx = some first →
      exec (.telegramReceiveComplete id rest) s =
        .next (rehealth id (place id (s.lane id) ⟨id, c.content.cls, station, c.serial, c.content.payload⟩ s)) := by
    intro id station c first rest s h1 h2 on hb ha hr
    rw [exec_receiveComplete on ha hr (hb ▸ classOf_telegramBytes c h2) (hb ▸ telegramBytes_length station c), hb, receiveComplete,
      judgeTelegram_telegramBytes id c h1 h2]
  refine ⟨⟨fun rate driven ns => ⟨?_, ?_, sampleOf_iff rate driven⟩, fun rate bytes => ?_, fun station l c => ⟨fun hs => ?_, fun hs hc ha => ?_,
    fun hs ha hc => ?_⟩⟩, fun id station c first rest s h1 h2 on hb ha hr => ⟨fun hq => ?_, fun hq => ?_, ?_, ?_, ?_⟩⟩
  · rw [levelAt_iff]
    cases rate <;> exact Iff.rfl
  · cases rate <;> rfl
  · simp only [sampleOf_one]
    exact spelled_flatMap bytes
  · simp [Lane.tx, hs]
  · have drives : l.drives = true := by rcases ha with ha | ha <;> simp [Lane.drives, ha, hc]
    simp only [Lane.tx, hs, drives, hc, if_true, Option.map_some, Option.getD_some, Bool.false_eq_true, if_false]
    rfl
  · have drives : l.drives = false := by rcases hc with hc | hc <;> simp [Lane.drives, ha, hc, hs]
    simp [Lane.tx, hs, drives]
  · refine ⟨_, ?_, rehealth_moved id _ _⟩
    simp [run id c s h1 h2 on hb ha hr, place, Config.queuePlaces, hq, Lane.hearsPeer, Lane.endReception, bump]
  · refine ⟨_, ?_, rehealth_moved id _ _⟩
    simp [run id c s h1 h2 on hb ha hr, place, Config.queuePlaces, Nat.not_lt.mpr hq, Lane.hearsPeer, Lane.endReception, bump]
  · rintro p hp
    simp [hp, Content.payload, decodeDemand_encodeDemand]
  · rintro p hp hi hg hf hn
    simp [hp, Content.payload, decodeState_encodeState hi hg hf hn]
  · rintro p hp hg hl hr
    simp [hp, Content.payload, decodeIdent_encodeIdent hg hl hr]

end Sys2Proof.Machine
end

