-- ==== Sys2Proof/Proofs/Records.lean ====
section
/-! SUPPORT and PROOFS. The life cycle of an alarm record, cell by cell (R83 to R89), and what a request of the door leaves of the
state around it. -/

namespace Sys2Proof.Machine

/-! ### Requests on a list -/

theorem hasKind_eq_false {k : AlarmKind} {l : List AlarmRecord} : hasKind k l = false ↔ ∀ r ∈ l, r.kind ≠ k := by
  simp [hasKind]

/-- A change of one kind's records leaves a list without one. -/
theorem map_of_no_kind {k : AlarmKind} {l : List AlarmRecord} (h : hasKind k l = false) (st : AlarmState)
    (f : AlarmRecord → AlarmRecord) : l.map (fun r => if r.kind = k ∧ r.st = st then f r else r) = l := by
  rw [hasKind_eq_false] at h
  conv_rhs => rw [← List.map_id' l]
  exact List.map_congr_left fun r hr => by simp [h r hr]

theorem filter_of_no_kind {k : AlarmKind} {l : List AlarmRecord} (h : hasKind k l = false) (st : AlarmState) :
    l.filter (fun r => !(r.kind = k ∧ r.st = st)) = l := by
  rw [hasKind_eq_false] at h
  exact List.filter_eq_self.mpr fun r hr => by simp [h r hr]

/-- The one record of a kind: changed where it stands in the state asked for, the others as they were. -/
theorem map_one_kind {pre post : List AlarmRecord} {r : AlarmRecord} (h : hasKind r.kind (pre ++ post) = false) (st : AlarmState)
    (f : AlarmRecord → AlarmRecord) : (pre ++ r :: post).map (fun x => if x.kind = r.kind ∧ x.st = st then f x else x) =
      pre ++ (if r.st = st then f r else r) :: post := by
  have parts : hasKind r.kind pre = false ∧ hasKind r.kind post = false := by simpa [hasKind] using h
  rw [List.map_append, List.map_cons, map_of_no_kind parts.1, map_of_no_kind parts.2]
  simp

theorem filter_one_kind {pre post : List AlarmRecord} {r : AlarmRecord} (h : hasKind r.kind (pre ++ post) = false)
    (st : AlarmState) : (pre ++ r :: post).filter (fun x => !(x.kind = r.kind ∧ x.st = st)) =
      if r.st = st then pre ++ post else pre ++ r :: post := by
  have parts : hasKind r.kind pre = false ∧ hasKind r.kind post = false := by simpa [hasKind] using h
  rw [List.filter_append, List.filter_cons, filter_of_no_kind parts.1, filter_of_no_kind parts.2]
  by_cases hs : r.st = st <;> simp [hs]

/-- The cells of a kind without a record (R83). -/
theorem applyRequest_absent {k : AlarmKind} {l : List AlarmRecord} (h : hasKind k l = false) :
    applyRequest (.becameTrue k) l = l ++ [⟨k, .activeUnacked, 1, 0, 0⟩] ∧ applyRequest (.becameFalse k) l = l ∧
      applyRequest (.occurred k) l = l ++ [⟨k, .clearedUnacked, 1, 0, 0⟩] := by
  refine ⟨by simp [applyRequest, h], ?_, by simp [applyRequest, h]⟩
  rw [applyRequest, filter_of_no_kind h, map_of_no_kind h]

/-- The cells of the one record of a kind (R83 to R89). -/
theorem applyRequest_one {pre post : List AlarmRecord} {r : AlarmRecord} (h : hasKind r.kind (pre ++ post) = false) :
    applyRequest (.becameTrue r.kind) (pre ++ r :: post) = pre ++
      (if r.st = .clearedUnacked then { r with st := .activeUnacked, count := bumpCount r.count } else r) :: post ∧
    applyRequest (.becameFalse r.kind) (pre ++ r :: post) = (if r.st = .activeAcked then pre ++ post else
      pre ++ (if r.st = .activeUnacked then { r with st := .clearedUnacked } else r) :: post) ∧
    applyRequest (.occurred r.kind) (pre ++ r :: post) = pre ++
      (if r.st = .clearedUnacked then { r with count := bumpCount r.count } else r) :: post := by
  have present : hasKind r.kind (pre ++ r :: post) = true := by simp [hasKind]
  refine ⟨?_, ?_, ?_⟩
  · rw [applyRequest, if_pos present, map_one_kind h]
  · rw [applyRequest, filter_one_kind h]
    split
    · exact map_of_no_kind h _ _
    · exact map_one_kind h _ _
  · rw [applyRequest, if_pos present, map_one_kind h]

/-- An acknowledge leaves every active record ACTIVE_ACKED and removes the others (R87). -/
theorem applyRequest_acknowledge (l : List AlarmRecord) : applyRequest .acknowledge l =
    (l.filter (fun r => r.st ≠ .clearedUnacked)).map (fun r => { r with st := .activeAcked }) := by
  rw [applyRequest]
  refine List.map_congr_left fun r hr => ?_
  have : r.st ≠ .clearedUnacked := by simpa using (List.mem_filter.mp hr).2
  obtain ⟨kind, st, count, age, ms⟩ := r
  cases st <;> simp_all

/-! ### Requests on a state -/

/-- A cell that changes nothing hands nothing on (R95 to R97). -/
theorem alarm_same {q : AlarmRequest} {s : State} (h : applyRequest q s.alu = s.alu) (hn : newAlarm q s.alu = false) :
    alarm q s = s := by
  have report : pumpReport s.alu s.alu s = s := by cases hk : hasKind .pumpFail s.alu <;> simp [pumpReport, hk]
  simp [alarm, h, hn, report]

/-- Settles O26: the cells of `applyRequest`, and what an alarm request hands on. -/
theorem alarmRecordLifeCycle : Obligations.AlarmRecordLifeCycle := by
  intro s
  refine ⟨fun k hk => ?_, fun pre r post hs hk => ?_, ?_, fun ha => ?_, fun q => ⟨⟨by simp, by simp, by simp⟩, alarm_hands q s⟩⟩
  · obtain ⟨raised, cleared, occurred⟩ := applyRequest_absent hk
    exact ⟨by simp [raised], alarm_same cleared rfl, by simp [occurred]⟩
  · obtain ⟨raised, cleared, occurred⟩ := applyRequest_one hk
    simp only [alarm_alu, hs, raised, cleared, occurred]
    refine ⟨fun hr => alarm_same ?_ ?_, fun hr => by simp [hr, bumpCount], fun hr => by simp [hr], fun hr => by simp [hr],
      fun hr => alarm_same ?_ rfl, fun hr => by simp [hr, bumpCount]⟩
    · rw [hs, raised]
      rcases hr with hr | hr <;> simp [hr]
    · rcases hr with hr | hr <;> simp [newAlarm, hs, hr, AlarmState.active]
    · rw [hs, cleared]
      simp [hr]
  · rw [alarm_alu, applyRequest_acknowledge]
  · refine alarm_same ?_ rfl
    rw [applyRequest_acknowledge, List.filter_eq_self.mpr fun r hr => by simp [ha r hr]]
    conv_rhs => rw [← List.map_id' s.alu]
    exact List.map_congr_left fun r hr => by rw [← ha r hr]

/-- A raised condition stands active in the list. -/
theorem becameTrue_active (k : AlarmKind) (l : List AlarmRecord) :
    ∃ r ∈ applyRequest (.becameTrue k) l, r.kind = k ∧ r.st.active = true := by
  by_cases h : hasKind k l = true
  · obtain ⟨r, hr, hk⟩ : ∃ r ∈ l, r.kind = k := by simpa [hasKind] using h
    rw [applyRequest, if_pos h]
    refine ⟨_, List.mem_map_of_mem hr, ?_, ?_⟩
    · split <;> exact hk
    · split
      · rfl
      · rename_i hn
        obtain ⟨kind, st, count, age, ms⟩ := r
        cases st <;> simp_all [AlarmState.active]
  · rw [applyRequest, if_neg h]
    exact ⟨⟨k, .activeUnacked, 1, 0, 0⟩, by simp, rfl, rfl⟩

/-- A cleared condition has no active record. -/
theorem becameFalse_inactive (k : AlarmKind) (l : List AlarmRecord) :
    ∀ r ∈ applyRequest (.becameFalse k) l, r.kind = k → r.st.active = false := by
  intro r hr hk
  obtain ⟨x, hx, rfl⟩ := List.mem_map.mp hr
  obtain ⟨-, hx⟩ := List.mem_filter.mp hx
  have kind : x.kind = k := by
    split at hk <;> exact hk
  obtain ⟨kind', st, count, age, ms⟩ := x
  cases st <;> simp_all [AlarmState.active]

/-- An occurred event has a record. -/
theorem occurred_hasKind (k : AlarmKind) (l : List AlarmRecord) : hasKind k (applyRequest (.occurred k) l) = true := by
  by_cases h : hasKind k l = true
  · rw [applyRequest, if_pos h, hasKind_map _ _ (fun r => by split <;> rfl)]
    exact h
  · rw [applyRequest, if_neg h]
    simp [hasKind]

/-- The kind a request names. -/
def AlarmRequest.kind : AlarmRequest → Option AlarmKind
  | .becameTrue k => some k
  | .becameFalse k => some k
  | .occurred k => some k
  | .acknowledge => none

/-- A request leaves the records of every other kind, and enters none (R82, R83). -/
theorem mem_applyRequest_other {q : AlarmRequest} {k : AlarmKind} (hq : q.kind = some k) {r : AlarmRecord} (hr : r.kind ≠ k)
    (l : List AlarmRecord) : r ∈ applyRequest q l ↔ r ∈ l := by
  have changed : ∀ (m : List AlarmRecord) (st : AlarmState) (f : AlarmRecord → AlarmRecord), (∀ x, (f x).kind = x.kind) →
      (r ∈ m.map (fun x => if x.kind = k ∧ x.st = st then f x else x) ↔ r ∈ m) := by
    intro m st f hf
    rw [List.mem_map]
    constructor
    · rintro ⟨x, hx, e⟩
      split at e
      · rename_i hk
        exact absurd (e ▸ (hf x).trans hk.1) hr
      · exact e ▸ hx
    · exact fun h => ⟨r, h, by simp [hr]⟩
  have entered : ∀ x : AlarmRecord, x.kind = k → (r ∈ l ++ [x] ↔ r ∈ l) := by
    rintro x hx
    have : r ≠ x := fun e => hr (e ▸ hx)
    simp [this]
  cases q with
  | becameTrue k' =>
    obtain rfl : k' = k := by simpa [AlarmRequest.kind] using hq
    simp only [applyRequest]
    split
    · exact changed _ _ _ fun _ => rfl
    · exact entered _ rfl
  | becameFalse k' =>
    obtain rfl : k' = k := by simpa [AlarmRequest.kind] using hq
    simp only [applyRequest]
    exact (changed _ _ (fun x => { x with st := .clearedUnacked }) fun _ => rfl).trans (by simp [hr])
  | occurred k' =>
    obtain rfl : k' = k := by simpa [AlarmRequest.kind] using hq
    simp only [applyRequest]
    split
    · exact changed _ _ _ fun _ => rfl
    · exact entered _ rfl
  | acknowledge => simp [AlarmRequest.kind] at hq

/-! ### What a request of the door leaves -/

/-- A request of the door on a state that has handed on no more than it may: its record, and nothing else of the door's. -/
structure Raised (s x : State) (q : AlarmRequest) (t : State) : Prop where
  dcu : t.dcu = x.dcu
  trm : t.trm = x.trm
  psu : t.psu = x.psu
  alu : t.alu = applyRequest q x.alu
  enu : t.enu = x.enu
  hands : HandsOn s t

theorem raised_alarm {s x : State} (h : HandsOn s x) {q : AlarmRequest} (hq : doorRequest q = true) : Raised s x q (alarm q x) :=
  ⟨by simp, by simp, by simp, by simp, alarm_enu_door q x hq, h.trans (alarm_hands q x)⟩

theorem Raised.setOuts {s x t : State} {q : AlarmRequest} (h : Raised s x q t) : Raised s x q (setOuts t) :=
  ⟨by simp [h.dcu], by simp [h.trm], by simp [h.psu], by simp [h.alu], by simp [h.enu], h.hands.trans (setOuts_hands t)⟩

/-- The pins set are those of the state they are set in. -/
@[simp] theorem outsFor_setOuts (s : State) : outsFor (setOuts s) = outsFor s := rfl

end Sys2Proof.Machine
end

