-- ==== Sys2Proof/Proofs/Monitor.lean ====
section
/-! SUPPORT and PROOFS. Supervision timers, limit changes, position pulses and windows (R25, R33 to R50, R167). -/

namespace Sys2Proof.Machine

/-! ### Timers that pass their limit -/

theorem Watch.expire_running (limit ms : Nat) : (Watch.running ms).expire limit = .past (max ms limit) := rfl

/-- Settles O14: each expiry marks its timer and makes its one request. -/
theorem supervisionTimersRaiseTheirConditions : Obligations.SupervisionTimersRaiseTheirConditions := by
  intro s ms
  have c := HandsOn.carried s
  refine ⟨fun h => ?_, fun h => ?_, fun h => ?_, fun hs h => ?_, fun hp h => ?_⟩
  · obtain ⟨dcu, trm, psu, alu, enu, hands⟩ := (raised_alarm (q := .becameTrue .openTooLong)
      (c.dcu { s.dcu with held := .past (max ms (s.conf.passageMax * 1000 + 1)) } (.same s)) rfl).setOuts
    refine ⟨_, ?_, dcu, trm, psu, alu, hands, enu, rfl⟩
    simp [exec, execHeldOpenLimit, finish, h, Watch.isRunning, Watch.expire]
  · obtain ⟨dcu, trm, psu, alu, enu, hands⟩ := (raised_alarm (q := .becameTrue .limitDiscord)
      (c.trm { s.trm with discord := .past (max ms s.conf.discordTime) } (.same s)) rfl).setOuts
    refine ⟨_, ?_, trm, dcu, psu, alu, hands, enu, rfl⟩
    simp [exec, execDiscordTimerExpiry, finish, h, Watch.isRunning, Watch.expire]
  · obtain ⟨dcu, trm, psu, alu, enu, hands⟩ := (raised_alarm (q := .becameTrue .limitConflict)
      (c.trm { s.trm with conflict := .past (max ms s.conf.discordTime) } (.same s)) rfl).setOuts
    refine ⟨_, ?_, trm, dcu, psu, alu, hands, enu, rfl⟩
    simp [exec, execConflictTimerExpiry, finish, h, Watch.isRunning, Watch.expire]
  · obtain ⟨dcu, trm, psu, alu, enu, hands⟩ := (raised_alarm (q := .becameTrue .closeTimeout)
      (c.trm { s.trm with strokeTimer := .past (max ms (s.conf.closeMax * 1000)) } (.same s)) rfl).setOuts
    refine ⟨_, ?_, trm, dcu, psu, alu, hands, enu, rfl⟩
    simp [exec, execCloseMaximumPassed, finish, hs, h, Watch.isRunning, Watch.expire, passMaximum]
  · let x : State := { s with pnu := { s.pnu with conflict := .past (max ms 10000) } }
    have hands := alarm_hands (.becameTrue .modeConflict) x
    refine ⟨alarm (.becameTrue .modeConflict) x, ?_, ?_, by simp [x], by simp [x], by simp [x], by simp [x], hands, by simp [x]⟩
    · simp [exec, execModeConflictTimerExpiry, h, Watch.isRunning, Watch.expire, Config.modeConflictMs, x]
    · rw [hands.panel]

/-! ### Limits -/

/-- The position states by the debounced limits (R34). -/
theorem positionOf_iff (d : PerLead Bool) :
    (positionOf d = .closed ↔ d.cla = true ∧ d.clb = true ∧ d.olm = false) ∧
    (positionOf d = .opened ↔ d.cla = false ∧ d.clb = false ∧ d.olm = true) ∧
    (positionOf d = .unknown ↔ d.olm = true ∧ (d.cla = true ∨ d.clb = true)) := by
  cases ha : d.cla <;> cases hb : d.clb <;> cases ho : d.olm <;> simp [positionOf, ha, hb, ho]

theorem discordAfter_eq (l : Limit) (d : PerLead Bool) (w : Watch) :
    discordAfter l d w = if l = .olm then w else if d.cla = d.clb then .stopped else .running 0 := by
  cases l <;> simp [discordAfter]

/-- A debounced change of a limit, in a part that is not a running panel (R33). -/
theorem exec_limitChange {limit : Limit} {made : Bool} {s : State} (hp : s.panelRuns = false)
    (h : s.deb.get limit.lead ≠ made) : exec (.limitDebouncedChange limit made) s =
      if s.trm.running then .next (setOuts (limitActs limit (setDebounced limit.lead made s)))
      else .next (setOuts { setDebounced limit.lead made s with
        trm := { s.trm with pos := positionOf (setDebounced limit.lead made s).deb } }) := by
  have acts : (s.limitIgnored limit.lead || s.deb.get limit.lead == made) = false := by
    cases limit <;> simp_all [State.limitIgnored, Limit.lead]
  have : exec (.limitDebouncedChange limit made) s = execLimitDebouncedChange limit made s := rfl
  rw [this, execLimitDebouncedChange, acts]
  rfl

/-- The travel monitor after a change of the position state, before the door acts: timers and reference (R34 to R36, R40). -/
def Trm.arrived (c : Cfg) (limit : Limit) (d : PerLead Bool) (t : Trm) : Trm :=
  (arrive c (positionOf d) { t with
    discord := discordAfter limit d t.discord
    conflict := conflictAfter t.pos (positionOf d) t.conflict }).slowed c

/-- The requests of the monitor at a change of the position state, in the order they are made (log 5). -/
def arrivalRequests (c : Cfg) (limit : Limit) (d : PerLead Bool) (t : Trm) : List AlarmRequest :=
  asked (drifts c (positionOf d) t) (.occurred .positionFault) ++
    asked (t.discord.isPast && !(discordAfter limit d t.discord).isPast) (.becameFalse .limitDiscord) ++
    asked (t.conflict.isPast && !(conflictAfter t.pos (positionOf d) t.conflict).isPast) (.becameFalse .limitConflict)

/-- The monitor's part of a change of the position state (R34 to R36, R40, R51). -/
def monitorActs (limit : Limit) (s : State) : State :=
  clearWatch .limitConflict s.trm.conflict (conflictAfter s.trm.pos (positionOf s.deb) s.trm.conflict)
    (clearWatch .limitDiscord s.trm.discord (discordAfter limit s.deb s.trm.discord)
      (handPosition (drifts s.conf (positionOf s.deb) s.trm) { s with trm := s.trm.arrived s.conf limit s.deb }))

theorem limitActs_eq {limit : Limit} {s : State} (h : positionOf s.deb ≠ s.trm.pos) :
    limitActs limit s = doorEvent onPosition (monitorActs limit s) := by
  simp only [limitActs, if_neg h]
  rfl

/-- What a clearing leaves (R35, R36). -/
theorem clearWatch_leaves (k : AlarmKind) (a b : Watch) (s : State) (hk : isEvent k = false) :
    (clearWatch k a b s).alu = applyRequests (asked (a.isPast && !b.isPast) (.becameFalse k)) s.alu ∧
      (clearWatch k a b s).enu = s.enu := by
  simp only [clearWatch, asked, applyRequests]
  split
  · exact ⟨by simp, alarm_enu_door _ _ (by simp [doorRequest, hk])⟩
  · exact ⟨rfl, rfl⟩

/-- What the drift's offer and alarm leave (R40, R51). -/
theorem handPosition_leaves (b : Bool) (s : State) :
    (handPosition b s).alu = applyRequests (asked b (.occurred .positionFault)) s.alu ∧ (handPosition b s).enu = s.enu := by
  simp only [handPosition, asked, applyRequests]
  split
  · exact ⟨by simp, by rw [alarm_enu_door _ _ rfl]; simp⟩
  · exact ⟨by simp, by simp⟩

/-- The monitor moves nothing but itself and its alarms. -/
theorem monitorActs_leaves (limit : Limit) (s : State) : (monitorActs limit s).dcu = s.dcu ∧
    (monitorActs limit s).trm = s.trm.arrived s.conf limit s.deb ∧ (monitorActs limit s).psu = s.psu ∧
    (monitorActs limit s).alu = applyRequests (arrivalRequests s.conf limit s.deb s.trm) s.alu ∧
    (monitorActs limit s).enu = s.enu ∧ HandsOn s (monitorActs limit s) := by
  have c := HandsOn.carried s
  refine ⟨by simp [monitorActs], by simp [monitorActs], by simp [monitorActs], ?_, ?_, ?_⟩
  · rw [monitorActs, (clearWatch_leaves .limitConflict _ _ _ rfl).1, (clearWatch_leaves .limitDiscord _ _ _ rfl).1,
      (handPosition_leaves _ _).1, arrivalRequests, applyRequests_append, applyRequests_append]
  · rw [monitorActs, (clearWatch_leaves .limitConflict _ _ _ rfl).2, (clearWatch_leaves .limitDiscord _ _ _ rfl).2,
      (handPosition_leaves _ _).2]
  · exact c.clearWatch _ _ _ (c.clearWatch _ _ _ (c.handPosition _ (c.trm _ (.same s))) rfl) rfl

/-- What the door's reaction keeps of the alarms: a POSITION_FAULT record stays (R40). -/
theorem Carried.keepsPositionFault : Carried (fun s => hasKind .positionFault s.alu = true) where
  door := fun _ _ _ _ h => h
  offer := fun _ h => by simpa using h
  alarm := by
    intro q s hq h
    rw [alarm_alu]
    cases q with
    | becameTrue k =>
      simp only [applyRequest]
      split
      · rwa [hasKind_map _ _ (fun r => by split <;> rfl)]
      · simp only [hasKind, List.any_append, Bool.or_eq_true] at h ⊢
        exact .inl h
    | becameFalse k =>
      have hk : k ≠ .positionFault := by rintro rfl; simp [doorRequest, isEvent] at hq
      obtain ⟨r, hr, hf⟩ := List.any_eq_true.mp h
      have hf : r.kind = .positionFault := by simpa using hf
      exact List.any_eq_true.mpr ⟨r, (mem_applyRequest_other rfl (by rw [hf]; exact hk.symm) _).mpr hr, by simpa using hf⟩
    | occurred k =>
      simp only [applyRequest]
      split
      · rwa [hasKind_map _ _ (fun r => by split <;> rfl)]
      · simp only [hasKind, List.any_append, Bool.or_eq_true] at h ⊢
        exact .inl h
    | acknowledge => simp [doorRequest] at hq

/-- The reference a change of the position state takes, or leaves (R40). -/
theorem Trm.arrived_reference (c : Cfg) (limit : Limit) (d : PerLead Bool) (t : Trm) :
    (positionOf d = .closed → (t.arrived c limit d).count = 0 ∧ (t.arrived c limit d).ref = true ∧
      (t.arrived c limit d).overrun = 0) ∧
    (positionOf d = .opened → (t.arrived c limit d).count = c.travelCount ∧ (t.arrived c limit d).ref = true ∧
      (t.arrived c limit d).overrun = 0) ∧
    (positionOf d = .between ∨ positionOf d = .unknown → (t.arrived c limit d).count = t.count ∧
      (t.arrived c limit d).ref = t.ref ∧ (t.arrived c limit d).overrun = t.overrun) ∧
    (t.arrived c limit d).pos = positionOf d ∧ (t.arrived c limit d).running = t.running ∧
    (t.arrived c limit d).discord = discordAfter limit d t.discord ∧
    (t.arrived c limit d).conflict = conflictAfter t.pos (positionOf d) t.conflict := by
  cases hp : positionOf d <;> simp [Trm.arrived, Trm.slowed, arrive, limitValue, hp]

/-- The drift's alarm is in the list after the monitor's part (R40). -/
theorem monitorActs_drift {limit : Limit} {s : State} (h : drifts s.conf (positionOf s.deb) s.trm = true) :
    hasKind .positionFault (monitorActs limit s).alu = true := by
  have c := Carried.keepsPositionFault
  refine c.clearWatch _ _ _ (c.clearWatch _ _ _ ?_ rfl) rfl
  rw [h, (handPosition_leaves _ _).1]
  exact occurred_hasKind .positionFault _

/-- What the door's reaction to an arrival leaves of the monitor. -/
theorem limitActs_leaves {limit : Limit} {s : State} (h : positionOf s.deb ≠ s.trm.pos) :
    (limitActs limit s).trm.pos = (s.trm.arrived s.conf limit s.deb).pos ∧
    (limitActs limit s).trm.running = (s.trm.arrived s.conf limit s.deb).running ∧
    (limitActs limit s).trm.discord = (s.trm.arrived s.conf limit s.deb).discord ∧
    (limitActs limit s).trm.conflict = (s.trm.arrived s.conf limit s.deb).conflict ∧
    (limitActs limit s).trm.count = (s.trm.arrived s.conf limit s.deb).count ∧
    (limitActs limit s).trm.ref = (s.trm.arrived s.conf limit s.deb).ref ∧
    (limitActs limit s).trm.overrun = (s.trm.arrived s.conf limit s.deb).overrun := by
  obtain ⟨-, trm, -⟩ := monitorActs_leaves limit s
  rw [limitActs_eq h]
  simp [doorEvent, trm]

/-- Settles O16: the monitor takes its timers and its reference, and the door's reaction moves none of them. -/
theorem limitChangeSetsPositionTimersAndReference : Obligations.LimitChangeSetsPositionTimersAndReference := by
  intro limit made s hp hne
  have run := exec_limitChange hp hne
  have c := HandsOn.carried (setDebounced limit.lead made s)
  refine ⟨positionOf_iff _, fun hr => ?_, fun hr he => ?_, fun hr hn => ?_⟩
  · rw [run, hr]
    rfl
  · obtain ⟨alu, enu⟩ := clearWatch_leaves .limitDiscord s.trm.discord
      (discordAfter limit (setDebounced limit.lead made s).deb s.trm.discord)
      (setTrm { s.trm with discord := discordAfter limit (setDebounced limit.lead made s).deb s.trm.discord }
        (setDebounced limit.lead made s)) rfl
    have hands : HandsOn (setDebounced limit.lead made s) (limitActs limit (setDebounced limit.lead made s)) :=
      c.limitActs limit (.same _)
    have acts : limitActs limit (setDebounced limit.lead made s) = clearWatch .limitDiscord s.trm.discord
      (discordAfter limit (setDebounced limit.lead made s).deb s.trm.discord)
      (setTrm { s.trm with discord := discordAfter limit (setDebounced limit.lead made s).deb s.trm.discord }
        (setDebounced limit.lead made s)) := if_pos he
    rw [acts] at hands
    refine ⟨_, by rw [run, hr, if_pos rfl, acts], ?_, ?_, ?_, ?_, ?_, rfl, hands.trans (setOuts_hands _)⟩
    · rw [← discordAfter_eq]
      simp [setTrm, Trm.slowed, State.conf]
    · simp
    · simp
    · simp [enu]
    · rw [← discordAfter_eq]
      simp [alu]
  · obtain ⟨pos, running, discord, conflict, count, ref, overrun⟩ :=
      limitActs_leaves (limit := limit) (s := setDebounced limit.lead made s) hn
    obtain ⟨closed, opened, other, pos', running', discord', conflict'⟩ := Trm.arrived_reference s.conf limit
      (setDebounced limit.lead made s).deb s.trm
    have drift : drifts s.conf (positionOf (setDebounced limit.lead made s).deb) s.trm = true →
        hasKind .positionFault (limitActs limit (setDebounced limit.lead made s)).alu = true := by
      intro hd
      rw [limitActs_eq hn]
      exact Carried.keepsPositionFault.doorEvent _ (Carried.keepsPositionFault.onPosition (monitorActs_drift hd))
    refine ⟨setOuts (limitActs limit (setDebounced limit.lead made s)), by rw [run, hr, if_pos rfl], pos.trans pos', running.trans (running'.trans hr), ?_, ?_, fun h => ?_, fun h => ?_,
      fun h => ?_, rfl, (c.limitActs limit (.same _)).trans (setOuts_hands _)⟩
    · rw [← discordAfter_eq]
      exact discord.trans discord'
    · refine conflict.trans (conflict'.trans ?_)
      rw [conflictAfter, if_neg (Ne.symm hn)]
    · obtain ⟨hc, hf, ho⟩ := closed h
      exact ⟨count.trans hc, ref.trans hf, overrun.trans ho, fun hs hl => drift (by simp [drifts, h, limitValue, hs, hl])⟩
    · obtain ⟨hc, hf, ho⟩ := opened h
      exact ⟨count.trans hc, ref.trans hf, overrun.trans ho, fun hs hl => drift (by simp [drifts, h, limitValue, hs, hl])⟩
    · obtain ⟨hc, hf, ho⟩ := other h
      exact ⟨count.trans hc, ref.trans hf, overrun.trans ho⟩

/-! ### Pulses and windows -/

/-- A pulse of the model, spelled out (R38, R39, R41, R47, R49). -/
theorem pulse_eq (c : Cfg) (up : Bool) (t : Trm) (held beyond dropped : Bool)
    (hh : held = (t.pos == .closed || t.pos == .opened))
    (hb : beyond = (t.ref && !held && (if up then decide ((c.travelCount : Int) ≤ t.count) else decide (t.count ≤ 0))))
    (hd : dropped = (beyond && decide (c.overrunSlack < t.overrun + 1))) :
    pulse c up t = { t with
      count :=
        if t.ref = true then
          if held = true ∨ beyond = true then t.count else if up then t.count + 1 else t.count - 1
        else if up then min (t.count + 1) 32767 else max (t.count - 1) (-32768)
      overrun := if beyond then t.overrun + 1 else t.overrun
      ref := t.ref && !dropped
      slow := t.slow || (dropped && t.stroke.isSome)
      stall := t.stall.map (fun w : StallWindow => { w with tally := w.tally + 1 })
      hand := t.hand.map (fun w : HandWindow => { w with tally := w.tally + 1 }) } := by
  have carries : overruns c up t = beyond := by
    rw [hb, hh]
    simp [overruns, bne, Bool.and_assoc]
  have past : (beyond && decide (c.overrunSlack < if beyond = true then t.overrun + 1 else t.overrun)) = dropped := by
    rw [hd]
    cases beyond <;> simp
  simp only [pulse, carries, past]
  congr 1
  simp only [countAfter, carries, hh]
  simp [or_assoc]

/-- What a taken pulse leaves (R37 to R43, R50). -/
theorem takePulse_leaves (up : Bool) (s : State) : (takePulse up s).trm = (pulse s.conf up s.trm).slowed s.conf ∧
    (takePulse up s).alu = applyRequests (asked (s.trm.ref && !(pulse s.conf up s.trm).ref) (.occurred .positionFault) ++
      asked (handMoves s.conf s.trm) (.occurred .handMove)) s.alu ∧
    (takePulse up s).enu = s.enu := by
  refine ⟨?_, ?_, ?_⟩
  · simp only [takePulse]
    (repeat' split) <;> simp [setTrm, Trm.slowed]
  · simp only [takePulse, asked]
    (repeat' split) <;> simp [applyRequests]
  · simp only [takePulse]
    (repeat' split) <;> simp [alarm_enu_door, doorRequest, isEvent]

/-- Settles O18: the pulse reaches the count and both windows, and its two alarms follow in the order of log 5. -/
theorem positionPulseMovesCountAndWindows : Obligations.PositionPulseMovesCountAndWindows := by
  intro up since s
  refine ⟨fun h => ?_, fun hr hs => ?_⟩
  · have off : (s.trm.running && decide (Config.pulseGapNs ≤ since)) = false := by
      rcases h with h | h
      · simp [h]
      · simp [Config.pulseGapNs, Nat.not_le.mpr h]
    simp [exec, execPositionPulse, off]
  · have on : (s.trm.running && decide (Config.pulseGapNs ≤ since)) = true := by simp [Config.pulseGapNs, hr, hs]
    obtain ⟨trm, alu, enu⟩ := takePulse_leaves up s
    have eq := pulse_eq s.conf up s.trm _ _ _ rfl rfl rfl
    have hands := (HandsOn.carried s).takePulse up (.same s)
    refine ⟨setOuts (takePulse up s), by simp [exec, execPositionPulse, on, finish], ?_, ?_, by simp, by simp, by simp [enu], rfl,
      hands.trans (setOuts_hands _)⟩
    · simp only [setOuts_keeps, trm, eq]
    · simp only [setOuts_keeps, alu, eq, handMoves]
      congr 3
      cases s.trm.ref <;> simp

/-- Settles O20: each window gives way to the next, and a stalled one in a close stroke asks for its alarm besides. -/
theorem supervisionWindowsFollowOneAnother : Obligations.SupervisionWindowsFollowOneAnother := by
  intro s
  have window : ∀ w, s.trm.stall = some w → exec .stallWindowEnd s = finish (windowEnds w s) := by
    intro w h
    have : exec .stallWindowEnd s = execStallWindowEnd s := rfl
    rw [this, execStallWindowEnd, h]
  refine ⟨fun w h hw => ?_, fun w h hn ht hs => ?_, fun h => ?_, fun h => ?_⟩
  · have quiet : stalls s.conf w = false := by
      rcases hw with hw | hw
      · simp [stalls, hw]
      · simp [stalls, Nat.not_lt.mpr hw]
    rw [window w h, windowEnds, quiet]
    rfl
  · have stalled : stalls s.conf w = true := by simp [stalls, hn, ht]
    obtain ⟨dcu, trm, psu, alu, enu, hands⟩ := (raised_alarm (q := .occurred .stall)
      ((HandsOn.carried s).trm { s.trm with stall := some ⟨0, w.number + 1, 0⟩ } (.same s)) rfl).setOuts
    refine ⟨_, ?_, trm, alu, dcu, psu, enu, rfl, hands⟩
    rw [window w h]
    simp [windowEnds, stalled, hs, finish]
  · simp [exec, execHandMoveArmingExpiry, h]
  · simp [exec, execHandMoveWindowEnd, h]

end Sys2Proof.Machine
end

