-- ==== Sys2Proof/Proofs/Moves.lean ====
section
/-! SUPPORT and PROOFS. Moves of the door before they are handed on, and how two of them make one: the layer the door's events are proved
from (R2 to R30). -/

namespace Sys2Proof.Machine

/-! ### Entering a control state -/

/-- The items that belong to a control state take new values; valves, pauses, mode, demand and lockout stay (R10 to R24). -/
def Dcu.enter (d : Dcu) (ctl : Ctl) (cause : Cause) (wcause : WarningCause) (timer : Option Nat) (held : Watch) : Dcu :=
  { d with ctl := ctl, cause := cause, wcause := wcause, warnTimer := timer, held := held }

@[simp] theorem Dcu.enter_valves (d : Dcu) (ctl : Ctl) (cause : Cause) (w : WarningCause) (timer : Option Nat) (held : Watch) :
    (d.enter ctl cause w timer held).vcl = d.vcl ∧ (d.enter ctl cause w timer held).vop = d.vop ∧
      (d.enter ctl cause w timer held).ctl = ctl := ⟨rfl, rfl, rfl⟩

theorem toIdle_eq (c : Ctl) (s : State) : toIdle c s = moveTo (s.dcu.enter c .noCause s.dcu.wcause none .stopped) s := rfl

theorem toClosing_eq (c : Cause) (s : State) :
    toClosing c s = moveTo (s.dcu.enter .closing c s.dcu.wcause none .stopped) s := rfl

theorem toOpening_eq (s : State) : toOpening s = moveTo (s.dcu.enter .opening .noCause s.dcu.wcause none .stopped) s := rfl

theorem toClaiming_eq (s : State) : toClaiming s = moveTo (s.dcu.enter .claiming .noCause s.dcu.wcause none .stopped) s := rfl

theorem toHeldOpen_eq (s : State) :
    toHeldOpen s = moveTo (s.dcu.enter .heldOpen .noCause s.dcu.wcause none (.running 0)) s := rfl

theorem toWarning_remote (s : State) :
    toWarning .remote s = moveTo (s.dcu.enter .warning .noCause .remote (some s.conf.warningTime) .stopped) s := rfl

theorem toWarning_reclose (s : State) :
    toWarning .reclose s = moveTo (s.dcu.enter .warning .noCause .reclose (some s.conf.recloseDelay) .stopped) s := rfl

/-! ### A move before it is handed on -/

/-- The door has moved from the control state of `s` to that of `d`, and what this hands on is still to come: `Moved` without the
look at PASSAGE_EXCESS and the pins. -/
structure Shifted (s : State) (d : Dcu) (t : State) : Prop where
  dcu : t.dcu = d.driven s.enu.permCont
  trm : t.trm = s.trm.driven s.conf d t.dcu
  psu : t.psu = claimFor s.conf.claimHold s.dcu.ctl d.ctl s.psu
  alu : t.alu = applyRequests
    (asked (switchedOff d t.dcu && s.trm.stroke == some .closing && s.trm.strokeTimer.isPast) (.becameFalse .closeTimeout) ++
      asked (s.dcu.ctl == .heldOpen && d.ctl != .heldOpen && s.dcu.held.isPast) (.becameFalse .openTooLong)) s.alu
  enu : t.enu = s.enu
  hands : HandsOn s t

theorem moveTo_shifted (d : Dcu) (s : State) : Shifted s d (moveTo d s) := by
  have c := HandsOn.carried s
  constructor
  case dcu =>
    simp only [moveTo]
    split <;> simp [valves_dcu_eq]
  case trm =>
    have e := valves_trm_eq { s with dcu := d, psu := claimFor s.conf.claimHold s.dcu.ctl d.ctl s.psu }
    simp only [moveTo]
    split
    · simp only [alarm_keeps]
      exact e
    · exact e
  case psu => exact moveTo_psu d s
  case alu =>
    have e := valves_alu_eq { s with dcu := d, psu := claimFor s.conf.claimHold s.dcu.ctl d.ctl s.psu }
    rw [applyRequests_append]
    by_cases h : s.dcu.ctl = .heldOpen ∧ d.ctl ≠ .heldOpen ∧ s.dcu.held.isPast = true
    · have left : (s.dcu.ctl == .heldOpen && d.ctl != .heldOpen && s.dcu.held.isPast) = true := by simpa [and_assoc] using h
      have moved : moveTo d s = alarm (.becameFalse .openTooLong) _ := if_pos h
      rw [left, moved, alarm_alu, (alarm_keeps _ _).2.2.2.2.2.1, e]
      rfl
    · have left : (s.dcu.ctl == .heldOpen && d.ctl != .heldOpen && s.dcu.held.isPast) = false := by simpa [and_assoc] using h
      have moved : moveTo d s = valves _ := if_neg h
      rw [left, moved, e]
      rfl
  case enu => exact moveTo_enu d s
  case hands => exact c.moveTo _ (.same s)

/-- A move seen from a state with the same door before it, whose other blocks have only handed on. -/
theorem Shifted.of_same {s m : State} {d : Dcu} {t : State} (h : Shifted m d t) (ctl : m.dcu.ctl = s.dcu.ctl)
    (held : m.dcu.held = s.dcu.held) (trm : m.trm = s.trm) (psu : m.psu = s.psu) (alu : m.alu = s.alu) (enu : m.enu = s.enu)
    (suc : m.suc = s.suc) (hands : HandsOn s m) : Shifted s d t := by
  have conf : m.conf = s.conf := by simp [State.conf, suc]
  obtain ⟨hd, ht, hp, ha, he, hh⟩ := h
  rw [enu] at hd
  rw [trm, conf] at ht
  rw [ctl, conf, psu] at hp
  rw [ctl, held, trm, alu] at ha
  exact ⟨hd, ht, hp, ha, he.trans enu, hands.trans hh⟩

/-- A move from the state with other items of the door control unit: control state and held-open timer alone tell. -/
theorem Shifted.of_dcu {s : State} {x d : Dcu} {t : State} (h : Shifted { s with dcu := x } d t) (ctl : x.ctl = s.dcu.ctl)
    (held : x.held = s.dcu.held) : Shifted s d t :=
  h.of_same ctl held rfl rfl rfl rfl rfl (HandsOn.door s x s.trm s.psu s.alu s.outs)

theorem Ctl.idle_cases {c : Ctl} (h : c.isIdle = true) : c = .idleClosed ∨ c = .idleOpen ∨ c = .idlePartial := by
  cases c <;> simp_all [Ctl.isIdle]

/-- The valves in a state that commands neither: off, each pause restarted by the other valve's switching off (R27). -/
theorem Dcu.driven_idle {d : Dcu} {b : Bool} (h : d.ctl.isIdle = true) : d.driven b = { d with
    vcl := false, vop := false
    vclPause := if d.vop then some 0 else d.vclPause
    vopPause := if d.vcl then some 0 else d.vopPause } := by
  rcases Ctl.idle_cases h with hc | hc | hc <;> simp [Dcu.driven, hc]

/-- Two moves in a row, over an idle state, make one, unless it comes back to where it began or a valve that was on is commanded again. -/
theorem Shifted.over_idle {s m t : State} {i ctl : Ctl} {cause cause' : Cause} {w w' : WarningCause} {timer timer' : Option Nat}
    {held held' : Watch} (h : Shifted s (s.dcu.enter i cause w timer held) m)
    (k : Shifted m (m.dcu.enter ctl cause' w' timer' held') t) (hi : i.isIdle = true) (ne : ctl ≠ s.dcu.ctl)
    (hcl : s.dcu.vcl = true → ctl ≠ .closing) (hop : s.dcu.vop = true → ctl ≠ .opening) :
    Shifted s (s.dcu.enter ctl cause' w' timer' held') t := by
  have conf : m.conf = s.conf := by simp [State.conf, h.hands.suc]
  have idle := h.dcu.trans (Dcu.driven_idle (d := s.dcu.enter i cause w timer held) hi)
  have dcu : t.dcu = (s.dcu.enter ctl cause' w' timer' held').driven s.enu.permCont := by
    rw [k.dcu, h.enu, idle]
    cases hv : s.dcu.vcl <;> cases hw : s.dcu.vop <;> cases ctl <;> simp_all [Dcu.driven, Dcu.enter]
  have offM : m.dcu.vcl = false ∧ m.dcu.vop = false := by
    rw [idle]
    exact ⟨rfl, rfl⟩
  have offT : s.dcu.vcl = true ∨ s.dcu.vop = true → t.dcu.vcl = false ∧ t.dcu.vop = false := by
    intro hv
    rw [dcu]
    cases ctl <;> cases hv' : s.dcu.vcl <;> cases hw : s.dcu.vop <;> simp_all [Dcu.driven, Dcu.enter]
  have off : switchedOff (s.dcu.enter i cause w timer held) m.dcu = (s.dcu.vcl || s.dcu.vop) := by
    simp [switchedOff, Dcu.enter, offM]
  have off' : switchedOff (m.dcu.enter ctl cause' w' timer' held') t.dcu = false := by simp [switchedOff, Dcu.enter, offM]
  have off'' : switchedOff (s.dcu.enter ctl cause' w' timer' held') t.dcu = (s.dcu.vcl || s.dcu.vop) := by
    cases hv : s.dcu.vcl <;> cases hw : s.dcu.vop <;> simp_all [switchedOff, Dcu.enter]
  constructor
  case dcu => exact dcu
  case trm =>
    rw [k.trm, h.trm, conf]
    simp only [Trm.driven, off, off', off'', offM, Dcu.enter_valves]
    by_cases hv : s.dcu.vcl = true <;> by_cases hw : s.dcu.vop = true <;> simp_all
  case psu =>
    rw [k.psu, h.psu, conf, idle]
    have hi' : i ≠ .claiming := by rintro rfl; simp [Ctl.isIdle] at hi
    simp only [claimFor, Dcu.enter]
    by_cases h1 : ctl = .claiming <;> by_cases h2 : s.dcu.ctl = .claiming <;> simp_all
  case alu =>
    have hi' : i ≠ .heldOpen := by rintro rfl; simp [Ctl.isIdle] at hi
    have left : (m.dcu.ctl == .heldOpen) = false := by rw [idle]; simpa [Dcu.enter] using hi'
    have there : (s.dcu.ctl == .heldOpen && ctl != .heldOpen) = (s.dcu.ctl == .heldOpen) := by
      cases hc : s.dcu.ctl <;> simp_all
    have here : (s.dcu.ctl == .heldOpen && i != .heldOpen) = (s.dcu.ctl == .heldOpen) := by simp [hi']
    rw [k.alu, h.alu, off, off', off'']
    simp only [Dcu.enter, left, there, here, Bool.false_and]
    rfl
  case enu => exact k.enu.trans h.enu
  case hands => exact h.hands.trans k.hands

/-! ### Handing on -/

/-- A move that an event has brought is handed on (R31, R80). -/
theorem Shifted.handed {s : State} {d : Dcu} {t : State} (h : Shifted s d t) (ne : d.ctl ≠ s.dcu.ctl) :
    Moved s d (setOuts (report s t)) := by
  have ctl : t.dcu.ctl = d.ctl := by rw [h.dcu]; rfl
  obtain ⟨hp, ha, he⟩ := report_moved s t (by rw [ctl]; exact ne.symm)
  have hx : excessNow (setOuts (report s t)) = excessNow t := excessNow_of_eq (by simp) (by simp [hp]) (by simp) (by simp)
  have hq : t.psu.excess = s.psu.excess := by
    rw [h.psu]
    simp only [claimFor]
    (repeat' split) <;> rfl
  constructor
  case dcu => simp [h.dcu]
  case trm => simp only [setOuts_keeps, report_keeps, h.trm]
  case psu => simp only [setOuts_keeps, hp, hx, h.psu]
  case alu => simp only [setOuts_keeps, report_keeps, hx, ha, hq, h.alu, ← applyRequests_append]
  case enu => simp [he, h.enu]
  case outs => rfl
  case hands => exact ((HandsOn.carried s).report _ h.hands).trans (setOuts_hands _)

/-- An event that changes no item of R31 and no claim phase hands nothing on. -/
theorem doorEvent_quiet {f : State → State} {s : State} (hr : reportDiffers s.dcu (f s).dcu = false)
    (hp : s.psu.phase = (f s).psu.phase) : doorEvent f s = f s := by
  have ctl : s.dcu.ctl = (f s).dcu.ctl := by simp_all [reportDiffers]
  simp [doorEvent, report, hr, hp, ctl]

/-- An event that leaves the control state hands on an offer at most. -/
theorem report_still {b s : State} (h : b.dcu.ctl = s.dcu.ctl) : (report b s).psu = s.psu ∧ (report b s).alu = s.alu ∧
    (report b s).enu = s.enu := by
  simp only [report, if_neg (not_not.mpr h)]
  (repeat' split) <;> simp

/-! ### The moves by name -/

theorem toIdle_shifted (c : Ctl) (s : State) : Shifted s (s.dcu.enter c .noCause s.dcu.wcause none .stopped) (toIdle c s) :=
  moveTo_shifted _ s

theorem toClosing_shifted (c : Cause) (s : State) :
    Shifted s (s.dcu.enter .closing c s.dcu.wcause none .stopped) (toClosing c s) := moveTo_shifted _ s

theorem toOpening_shifted (s : State) :
    Shifted s (s.dcu.enter .opening .noCause s.dcu.wcause none .stopped) (toOpening s) := moveTo_shifted _ s

theorem toClaiming_shifted (s : State) :
    Shifted s (s.dcu.enter .claiming .noCause s.dcu.wcause none .stopped) (toClaiming s) := moveTo_shifted _ s

theorem toHeldOpen_shifted (s : State) :
    Shifted s (s.dcu.enter .heldOpen .noCause s.dcu.wcause none (.running 0)) (toHeldOpen s) := moveTo_shifted _ s

theorem toWarning_remote_shifted (s : State) :
    Shifted s (s.dcu.enter .warning .noCause .remote (some s.conf.warningTime) .stopped) (toWarning .remote s) :=
  moveTo_shifted _ s

theorem toWarning_reclose_shifted (s : State) :
    Shifted s (s.dcu.enter .warning .noCause .reclose (some s.conf.recloseDelay) .stopped) (toWarning .reclose s) :=
  moveTo_shifted _ s

/-! ### The warning timer and the pauses -/

/-- Settles O12: either warning cause gives its move to CLOSING. -/
theorem warningExpiryCloses : Obligations.WarningExpiryCloses := by
  intro s h
  have run : exec .warningTimerExpiry s = .next (setOuts (doorEvent onWarningExpiry s)) := by
    simp [exec, execWarningTimerExpiry, h, finish]
  refine ⟨_, run, Shifted.handed ?_ (by simp [h])⟩
  cases hw : s.dcu.wcause with
  | remote => simpa [onWarningExpiry, Dcu.enter, hw] using toClosing_shifted .demand s
  | reclose => simpa [onWarningExpiry, Dcu.enter, hw] using toClosing_shifted .reclose s

/-- Valves in their states, and no valve that may come on: nothing follows (R28). -/
theorem valves_still {s : State} (hc : s.dcu.vcl = true → s.dcu.ctl = .closing) (ho : s.dcu.vop = true → s.dcu.ctl = .opening)
    (nc : s.dcu.ctl = .closing → s.dcu.vcl = true ∨ s.dcu.vclPause.isSome = true)
    (no : s.dcu.ctl = .opening → s.dcu.vop = true ∨ s.dcu.vopPause.isSome = true ∨ s.enu.permCont = false) : valves s = s := by
  have c1 : (s.dcu.vcl && s.dcu.ctl != .closing) = false := by simpa using hc
  have c2 : (s.dcu.vop && s.dcu.ctl != .opening) = false := by simpa using ho
  have c3 : (!s.dcu.vcl && s.dcu.ctl == .closing && s.dcu.vclPause.isNone) = false := by
    by_cases h : s.dcu.ctl = .closing
    · rcases nc h with h | h
      · simp [h]
      · simp [Option.isNone_eq_false_iff.mpr h]
    · simp [h]
  have c4 : (!s.dcu.vop && s.dcu.ctl == .opening && s.dcu.vopPause.isNone && s.enu.permCont) = false := by
    by_cases h : s.dcu.ctl = .opening
    · rcases no h with h | h | h
      · simp [h]
      · simp [Option.isNone_eq_false_iff.mpr h]
      · simp [h]
    · simp [h]
  simp only [valves, c1, c2, c3, c4, Bool.false_eq_true, if_false]

/-- Settles O13: a waiting valve comes on with its stroke; without one the valves stay. -/
theorem pauseExpiryEnergisesTheWaitingValve : Obligations.PauseExpiryEnergisesTheWaitingValve := by
  have run : ∀ (v : Valve) (s : State),
      exec (.pauseTimerExpiry v) s = .next (setOuts (valves { s with dcu := s.dcu.pauseEnds v })) := fun _ _ => rfl
  have still : ∀ (v : Valve) (s : State), (s.dcu.vcl = true → s.dcu.ctl = .closing) → (s.dcu.vop = true → s.dcu.ctl = .opening) →
      (s.dcu.ctl = .closing → s.dcu.vcl = true ∨ (s.dcu.pauseEnds v).vclPause.isSome = true) →
      (s.dcu.ctl = .opening → s.dcu.vop = true ∨ (s.dcu.pauseEnds v).vopPause.isSome = true ∨ s.enu.permCont = false) →
      exec (.pauseTimerExpiry v) s = .next (setOuts { s with dcu := s.dcu.pauseEnds v }) := by
    intro v s hc ho nc no
    have : valves { s with dcu := s.dcu.pauseEnds v } = { s with dcu := s.dcu.pauseEnds v } := by
      cases v <;> exact valves_still hc ho nc no
    rw [run, this]
  have commanded : ∀ s : State, (s.dcu.vcl = true → s.dcu.ctl = .closing) → (s.dcu.vop = true → s.dcu.ctl = .opening) →
      s.dcu.vcl = true ∨ s.dcu.vop = true →
      (s.dcu.ctl = .closing → s.dcu.vcl = true) ∧ (s.dcu.ctl = .opening → s.dcu.vop = true) := by
    intro s hc ho hv
    refine ⟨fun h => hv.resolve_right fun hw => ?_, fun h => hv.resolve_left fun hw => ?_⟩
    · simp [ho hw] at h
    · simp [hc hw] at h
  refine ⟨fun s hc ho => ⟨fun hv => ?_, fun h hp => still .vop s hc ho (fun _ => .inr hp) (by simp [h]),
      fun h hp => still .vcl s hc ho (by simp [h]) (fun _ => .inr hp)⟩, fun s hv hw => ?_⟩
  · obtain ⟨nc, no⟩ := commanded s hc ho hv
    exact ⟨still .vcl s hc ho (fun h => .inl (nc h)) (fun h => .inl (no h)),
      still .vop s hc ho (fun h => .inl (nc h)) (fun h => .inl (no h))⟩
  · have hc : s.dcu.vcl = true → s.dcu.ctl = .closing := by simp [hv]
    have ho : s.dcu.vop = true → s.dcu.ctl = .opening := by simp [hw]
    refine ⟨fun h => ?_, fun h hp => ?_, fun h h' => ?_, fun h hp => still .vop s hc ho (by simp [h]) (fun _ => .inr (.inr hp))⟩
    · simp [run, valves, hv, hw, h, Dcu.pauseEnds, strokeStart, setTrm, Trm.strokeBegins, Trm.slowed, State.conf]
    · simp [run, valves, hv, hw, h, hp, Dcu.pauseEnds, strokeStart, setTrm, Trm.strokeBegins, Trm.slowed, State.conf]
    · exact ⟨still .vcl s hc ho (absurd · h) (absurd · h'), still .vop s hc ho (absurd · h) (absurd · h')⟩

end Sys2Proof.Machine
end

