-- ==== Sys2Proof/Proofs/Levers.lean ====
section
/-! SUPPORT and PROOFS. The idle state's rules, and the levers (R4, R10 to R17, R22 to R26). -/

namespace Sys2Proof.Machine

/-! ### What the levers say -/

@[simp] theorem leverClose_closeMade (side : Side) (d : PerLead Bool) : leverClose (d.set side.closeLead true) = true := by
  cases side <;> simp [leverClose, Side.closeLead, PerLead.set]

@[simp] theorem leverOpen_closeMade (side : Side) (d : PerLead Bool) : leverOpen (d.set side.closeLead true) = false := by
  simp [leverOpen]

@[simp] theorem leverClose_openLead (side : Side) (b : Bool) (d : PerLead Bool) :
    leverClose (d.set side.openLead b) = leverClose d := by
  cases side <;> rfl

theorem leverOpen_openMade (side : Side) (d : PerLead Bool) :
    leverOpen (d.set side.openLead true) = !leverClose d := by
  cases side <;> simp [leverOpen, leverClose, Side.openLead, PerLead.set]

theorem leverOpen_closeOpened (side : Side) (d : PerLead Bool) :
    leverOpen (d.set side.closeLead false) = ((d.loa || d.lob) && !leverClose (d.set side.closeLead false)) := by
  cases side <;> rfl

@[simp] theorem setDebounced_deb (l : Lead) (b : Bool) (s : State) : (setDebounced l b s).deb = s.deb.set l b := rfl

@[simp] theorem setDebounced_conf (l : Lead) (b : Bool) (s : State) : (setDebounced l b s).conf = s.conf := rfl

@[simp] theorem setDebounced_doorRuns (l : Lead) (b : Bool) (s : State) : (setDebounced l b s).doorRuns = s.doorRuns := rfl

/-- A move to an idle state leaves what the levers, the position and the request say. -/
@[simp] theorem toIdle_request (c : Ctl) (s : State) : lcHeld (toIdle c s) = lcHeld s ∧ loHeld (toIdle c s) = loHeld s ∧
    requestStands (toIdle c s) = requestStands s := by
  simp [lcHeld, loHeld, requestStands]

theorem requestStands_eq (s : State) : requestStands s = (loHeld s && s.trm.pos != .opened) := rfl

theorem loHeld_of_lcHeld {s : State} (h : lcHeld s = true) : loHeld s = false := by
  simp only [lcHeld] at h
  simp [loHeld, leverOpen, h]

/-! ### The rules of an idle state (R10, R12, R17, R24) -/

theorem isIdle_idleFor (p : Position) : (idleFor p).isIdle = true := by cases p <;> rfl

theorem idleRules_busy {s : State} (h : s.dcu.ctl.isIdle = false) : idleRules s = s := by simp [idleRules, h]

theorem idleRules_closes {s : State} (h : s.dcu.ctl.isIdle = true) (lc : lcHeld s = true) (pos : s.trm.pos ≠ .closed) :
    idleRules s = toClosing .lever s := by
  simp [idleRules, h, lc, pos]

theorem idleRules_evaluates {s : State} (h : s.dcu.ctl.isIdle = true) (rq : requestStands s = true)
    (lo : s.dcu.lockout = false) : idleRules s = evaluate s := by
  have open' : loHeld s = true := by simp_all [requestStands]
  have lc : lcHeld s = false := by
    by_contra hc
    simp [loHeld_of_lcHeld (eq_true_of_ne_false hc)] at open'
  simp [idleRules, h, lc, rq, lo]

theorem idleRules_holds {s : State} (h : s.dcu.ctl = .idleOpen) (lo : loHeld s = true) (cd : s.dcu.cd = true)
    (rq : requestStands s = false ∨ s.dcu.lockout = true) : idleRules s = toHeldOpen s := by
  have lc : lcHeld s = false := by
    by_contra hc
    simp [loHeld_of_lcHeld (eq_true_of_ne_false hc)] at lo
  rcases rq with rq | rq <;> simp [idleRules, h, Ctl.isIdle, lc, rq, cd, lo]

theorem idleRules_warns {s : State} (h : s.dcu.ctl = .idleOpen ∧ loHeld s = false ∨
      s.dcu.ctl = .idlePartial ∧ (loHeld s = false ∨ s.dcu.lockout = true)) (cd : s.dcu.cd = true)
    (lc : lcHeld s = false ∨ s.trm.pos = .closed) : idleRules s = toWarning .remote s := by
  have quiet : (lcHeld s && s.trm.pos != .closed) = false := by rcases lc with lc | lc <;> simp [lc]
  rcases h with ⟨hc, lo⟩ | ⟨hc, lo | lo⟩ <;> simp [idleRules, hc, Ctl.isIdle, quiet, requestStands_eq, lo, cd]

theorem idleRules_stays {s : State} (lc : lcHeld s = false ∨ s.trm.pos = .closed)
    (rq : requestStands s = false ∨ s.dcu.lockout = true) (cd : s.dcu.cd = false ∨ s.dcu.ctl = .idleClosed) :
    idleRules s = s := by
  have quiet : (lcHeld s && s.trm.pos != .closed) = false := by rcases lc with lc | lc <;> simp [lc]
  have unasked : (requestStands s && !s.dcu.lockout) = false := by rcases rq with rq | rq <;> simp [rq]
  rcases cd with cd | cd <;> simp [idleRules, quiet, unasked, cd]

/-- The matching idle state, where no standing condition acts (R3). -/
theorem toMatching_rests {s : State} (lc : lcHeld s = false ∨ s.trm.pos = .closed)
    (rq : requestStands s = false ∨ s.dcu.lockout = true) (cd : s.dcu.cd = false ∨ s.trm.pos = .closed) :
    toMatching s = toIdle (idleFor s.trm.pos) s := by
  refine idleRules_stays (by simpa using lc) (rq.imp (fun h => by simpa using h) (fun h => by simpa [toIdle] using h)) ?_
  rcases cd with cd | cd
  · exact .inl (by simpa [toIdle] using cd)
  · exact .inr (by simp [toIdle, cd, idleFor])

/-! ### The open request (R12 to R14, R26) -/

theorem evaluate_opens {s : State} (ps : s.enu.permStart = true) (lim : s.psu.inForce = false) : evaluate s = toOpening s := by
  simp [evaluate, ps, lim]

theorem evaluate_claims {s : State} (ps : s.enu.permStart = true) (lim : s.psu.inForce = true) (j : s.suc.startUp = .joined)
    (nc : s.dcu.ctl ≠ .claiming) : evaluate s = toClaiming s := by
  simp [evaluate, ps, lim, j, nc]

theorem evaluate_refuses {s : State} (h : s.enu.permStart = false ∨ (s.psu.inForce = true ∧ s.suc.startUp ≠ .joined)) :
    evaluate s = refuse s := by
  rcases h with h | ⟨lim, j⟩
  · simp [evaluate, h]
  · simp [evaluate, lim, j]

theorem refuse_idle {s : State} (h : s.dcu.ctl.isIdle = true) : refuse s = s := by simp [refuse, h]

theorem refuse_busy {s : State} (h : s.dcu.ctl.isIdle = false) : refuse s = toIdle (idleFor s.trm.pos) s := by simp [refuse, h]

@[simp] theorem claimFor_inForce (hold : Nat) (a b : Ctl) (p : Psu) : (claimFor hold a b p).inForce = p.inForce := by
  simp only [claimFor]
  (repeat' split) <;> rfl

@[simp] theorem toIdle_energy (c : Ctl) (s : State) : (toIdle c s).enu = s.enu ∧ (toIdle c s).psu.inForce = s.psu.inForce ∧
    (toIdle c s).dcu.ctl = c ∧ (toIdle c s).dcu.lockout = s.dcu.lockout ∧ (toIdle c s).dcu.cd = s.dcu.cd := by
  simp [toIdle]

/-- The matching idle state, from where the request that stands is evaluated (R12). -/
theorem toMatching_evaluates {s : State} (rq : requestStands s = true) (lo : s.dcu.lockout = false) :
    toMatching s = evaluate (toIdle (idleFor s.trm.pos) s) :=
  idleRules_evaluates (by simp [isIdle_idleFor]) (by simpa using rq) (by simpa using lo)

/-! ### A lever's event -/

theorem leverChange_event {lead : Lead} {made : Bool} {changed : PerLead Bool → PerLead Bool → Bool} {event : State → State}
    {s : State} (h : s.deb.get lead ≠ made) (on : s.doorRuns = true)
    (hc : changed s.deb (s.deb.set lead made) = true) :
    leverChange lead made changed event s = doorEvent event (setDebounced lead made s) := by
  simp [leverChange, h, on, hc]

theorem leverChange_level {lead : Lead} {made : Bool} {changed : PerLead Bool → PerLead Bool → Bool} {event : State → State}
    {s : State} (h : s.deb.get lead ≠ made)
    (off : s.doorRuns = false ∨ changed s.deb (s.deb.set lead made) = false) :
    leverChange lead made changed event s = setDebounced lead made s := by
  rcases off with off | off <;> simp [leverChange, h, off]

/-- The lockout cleared, as a release of LO does (R23). -/
def State.unlocked (s : State) : State := { s with dcu := { s.dcu with lockout := false } }

@[simp] theorem unlocked_dcu (s : State) : s.unlocked.dcu = { s.dcu with lockout := false } := rfl

@[simp] theorem unlocked_unlocked (s : State) : s.unlocked.unlocked = s.unlocked := rfl

@[simp] theorem unlocked_levers (s : State) : lcHeld s.unlocked = lcHeld s ∧ loHeld s.unlocked = loHeld s ∧
    requestStands s.unlocked = requestStands s ∧ s.unlocked.trm = s.trm ∧ s.unlocked.conf = s.conf := ⟨rfl, rfl, rfl, rfl, rfl⟩

/-- A move behind the release of the lockout. -/
theorem Shifted.of_unlocked {s t : State} {d : Dcu} (h : Shifted s.unlocked d t) : Shifted s d t := h.of_dcu rfl rfl

/-- Clearing the lockout alone hands nothing on. -/
theorem doorEvent_unlocked {f : State → State} {s : State} (h : f s = s.unlocked) : doorEvent f s = s.unlocked := by
  rw [doorEvent_quiet, h] <;> rw [h]
  · simp [reportDiffers]
  · rfl

theorem doorEvent_same {f : State → State} {s : State} (h : f s = s) : doorEvent f s = s := by
  rw [doorEvent_quiet, h] <;> rw [h]
  simp [reportDiffers]

/-! ### Release of LO (R12, R17, R22 to R24, R26) -/

theorem onLoReleased_eq (s : State) : onLoReleased s =
    if s.dcu.ctl = .opening ∨ s.dcu.ctl = .claiming then stopOrReclose s.unlocked
    else if s.dcu.ctl = .heldOpen then toWarning .reclose s.unlocked
    else idleRules s.unlocked := by
  rw [onLoReleased]
  split <;> simp_all [State.unlocked]

/-- What a release of LO brings, from the state with the lockout cleared: the same rules serve the release that LC's press makes. -/
theorem onLoReleased_opening {s : State} (h : s.dcu.ctl = .opening ∨ s.dcu.ctl = .claiming) (lo : loHeld s = false)
    (lc : lcHeld s = false ∨ s.trm.pos = .closed) : ∃ d, Shifted s d (onLoReleased s) ∧ d =
      (if s.dcu.cd = true then
        if s.trm.pos = .closed then s.unlocked.dcu.enter .idleClosed .noCause s.dcu.wcause none .stopped
        else s.unlocked.dcu.enter .warning .noCause .reclose (some s.conf.recloseDelay) .stopped
      else s.unlocked.dcu.enter (idleFor s.trm.pos) .noCause s.dcu.wcause none .stopped) := by
  have stops : onLoReleased s = stopOrReclose s.unlocked := by rw [onLoReleased_eq, if_pos h]
  refine ⟨_, ?_, rfl⟩
  rw [stops, stopOrReclose]
  cases hcd : s.dcu.cd with
  | true =>
    by_cases hp : s.trm.pos = .closed
    · simpa [hcd, hp] using (toIdle_shifted .idleClosed s.unlocked).of_unlocked
    · simpa [hcd, hp] using (toWarning_reclose_shifted s.unlocked).of_unlocked
  | false =>
    have rests := toMatching_rests (s := s.unlocked) (by simpa using lc) (.inl (by simp [requestStands_eq, lo])) (.inl hcd)
    simpa [hcd, rests] using (toIdle_shifted (idleFor s.trm.pos) s.unlocked).of_unlocked

theorem onLoReleased_held {s : State} (h : s.dcu.ctl = .heldOpen) :
    Shifted s (s.unlocked.dcu.enter .warning .noCause .reclose (some s.conf.recloseDelay) .stopped) (onLoReleased s) := by
  have warns : onLoReleased s = toWarning .reclose s.unlocked := by simp [onLoReleased_eq, h]
  rw [warns]
  exact (toWarning_reclose_shifted s.unlocked).of_unlocked

theorem onLoReleased_idle {s : State} (h : s.dcu.ctl = .idleOpen ∨ s.dcu.ctl = .idlePartial) (cd : s.dcu.cd = true)
    (lo : loHeld s = false) (lc : lcHeld s = false ∨ s.trm.pos = .closed) :
    Shifted s (s.unlocked.dcu.enter .warning .noCause .remote (some s.conf.warningTime) .stopped) (onLoReleased s) := by
  have rules : onLoReleased s = idleRules s.unlocked := by rcases h with h | h <;> simp [onLoReleased_eq, h]
  rw [rules, idleRules_warns (s := s.unlocked) (h.imp (⟨·, lo⟩) (⟨·, .inl lo⟩)) cd lc]
  exact (toWarning_remote_shifted s.unlocked).of_unlocked

theorem onLoReleased_busy {s : State} (h : s.dcu.ctl = .warning ∨ s.dcu.ctl = .closing ∨ s.dcu.ctl = .inactive) :
    onLoReleased s = s.unlocked := by
  rcases h with h | h | h <;> simp [onLoReleased_eq, h, idleRules, Ctl.isIdle]

theorem onLoReleased_quiet {s : State} (h : s.dcu.ctl = .idleClosed ∨ (s.dcu.ctl.isIdle = true ∧ s.dcu.cd = false) ∨
      s.dcu.ctl = .warning ∨ s.dcu.ctl = .closing ∨ s.dcu.ctl = .inactive) (lo : loHeld s = false)
    (lc : lcHeld s = false ∨ s.trm.pos = .closed) : onLoReleased s = s.unlocked := by
  have idle : s.dcu.ctl = .idleClosed ∨ s.dcu.ctl = .idleOpen ∨ s.dcu.ctl = .idlePartial →
      s.dcu.cd = false ∨ s.dcu.ctl = .idleClosed → onLoReleased s = s.unlocked := by
    intro hi cd
    have rules : onLoReleased s = idleRules s.unlocked := by rcases hi with hi | hi | hi <;> simp [onLoReleased_eq, hi]
    rw [rules]
    exact idleRules_stays lc (.inl (by simp [requestStands_eq, lo])) cd
  rcases h with h | ⟨h, cd⟩ | h
  · exact idle (.inl h) (.inr h)
  · exact idle (Ctl.idle_cases h) (.inl cd)
  · exact onLoReleased_busy h

theorem exec_loReleased {side : Side} {s : State} (h : s.deb.get side.openLead = true) (on : s.doorRuns = true)
    (lo : loHeld s = true) (after : leverOpen (s.deb.set side.openLead false) = false) :
    exec (.loReleased side) s = .next (setOuts (doorEvent onLoReleased (setDebounced side.openLead false s))) := by
  have run : exec (.loReleased side) s =
    .next (setOuts (leverChange side.openLead false (falls leverOpen) onLoReleased s)) := rfl
  simp only [loHeld] at lo
  rw [run, leverChange_event (by simp [h]) on (by simp [falls, lo, after])]

/-- Settles O11: each control state by its rule for a release. -/
theorem openLeverReleaseEndsTheRequest : Obligations.OpenLeverReleaseEndsTheRequest := by
  intro side s h
  have same : (setDebounced side.openLead false s).dcu = s.dcu := rfl
  have level : lcHeld (setDebounced side.openLead false s) = lcHeld s := leverClose_openLead side false s.deb
  have lc : loHeld s = true → lcHeld (setDebounced side.openLead false s) = false := fun lo => by
    rw [level]
    by_contra hc
    simp [loHeld_of_lcHeld (eq_true_of_ne_false hc)] at lo
  refine ⟨fun ⟨on, lo, after⟩ hc => ?_, fun ⟨on, lo, after⟩ hc => ?_, fun ⟨on, lo, after⟩ hc cd => ?_,
    fun ⟨on, lo, after⟩ hc => ?_, fun off => ?_⟩
  · obtain ⟨d, shifted, rfl⟩ := onLoReleased_opening (s := setDebounced side.openLead false s) hc after (.inl (lc lo))
    refine ⟨_, exec_loReleased h on lo after, shifted.handed ?_⟩
    rcases hc with hc | hc <;> (repeat' split) <;> cases hp : s.trm.pos <;> simp_all [idleFor]
  · exact ⟨_, exec_loReleased h on lo after, (onLoReleased_held (s := setDebounced side.openLead false s) hc).handed (by simp [hc])⟩
  · refine ⟨_, exec_loReleased h on lo after, (onLoReleased_idle (s := setDebounced side.openLead false s) hc cd after
      (.inl (lc lo))).handed ?_⟩
    rcases hc with hc | hc <;> simp [hc]
  · have quiet := onLoReleased_quiet (s := setDebounced side.openLead false s)
      (hc.imp_right (Or.imp_right (Or.imp_right Or.inl))) after (.inl (lc lo))
    rw [exec_loReleased h on lo after, doorEvent_unlocked quiet]
    rfl
  · have run : exec (.loReleased side) s =
      .next (setOuts (leverChange side.openLead false (falls leverOpen) onLoReleased s)) := rfl
    rw [run, leverChange_level (by simp [h])]
    rcases off with off | off | off
    · exact .inl off
    · simp only [loHeld] at off
      exact .inr (by simp [falls, off])
    · exact .inr (by simp [falls, off])

/-! ### Press of LC (R10) -/

/-- Settles O8: off the closed limits the press moves to CLOSING, and at them it releases LO alone. -/
theorem closeLeverPressCloses : Obligations.CloseLeverPressCloses := by
  intro side s h
  have run : exec (.lcPressed side) s =
    .next (setOuts (leverChange side.closeLead true (rises leverClose) (onLcPressed (loHeld s)) s)) := rfl
  have event : s.doorRuns = true → lcHeld s = false → exec (.lcPressed side) s =
      .next (setOuts (doorEvent (onLcPressed (loHeld s)) (setDebounced side.closeLead true s))) := by
    intro on lc
    simp only [lcHeld] at lc
    rw [run, leverChange_event (by simp [h]) on (by simp [rises, lc])]
  have same : (setDebounced side.closeLead true s).dcu = s.dcu := rfl
  have lo : loHeld (setDebounced side.closeLead true s) = false := leverOpen_closeMade side s.deb
  refine ⟨fun on lc pos nc ni => ⟨_, event on lc, Shifted.handed ?_ (by simpa [same] using nc.symm)⟩,
    fun on lc was pos => ?_, fun on lc was pos hc => ?_, fun off => ?_⟩
  · have closes : onLcPressed (loHeld s) (setDebounced side.closeLead true s) =
        toClosing .lever (if loHeld s then (setDebounced side.closeLead true s).unlocked else setDebounced side.closeLead true s) :=
      if_pos ⟨pos, nc, ni⟩
    rw [closes]
    cases hl : loHeld s with
    | true => simpa [hl, Dcu.enter, same] using (toClosing_shifted .lever (setDebounced side.closeLead true s).unlocked).of_unlocked
    | false => simpa [hl, Dcu.enter, same] using toClosing_shifted .lever (setDebounced side.closeLead true s)
  · have releases : onLcPressed (loHeld s) (setDebounced side.closeLead true s) =
        onLoReleased (setDebounced side.closeLead true s).unlocked := by
      rw [was]
      exact if_neg fun hp => hp.1 pos
    have run := event on lc
    refine ⟨fun hc => ?_, fun hc => ⟨_, run, Shifted.handed ?_ (by simp [hc])⟩,
      fun hc cd => ⟨_, run, Shifted.handed ?_ (by rcases hc with hc | hc <;> simp [hc])⟩, fun hc => ?_⟩
    · obtain ⟨d, shifted, hd⟩ := onLoReleased_opening (s := (setDebounced side.closeLead true s).unlocked) hc lo (.inr pos)
      have closed : d = ((setDebounced side.closeLead true s).unlocked.dcu.enter .idleClosed .noCause s.dcu.wcause none .stopped) := by
        rw [hd]
        cases hcd : s.dcu.cd <;> simp [hcd, pos, idleFor, setDebounced]
      rw [closed, ← releases] at shifted
      refine ⟨_, run, ?_⟩
      have moved := shifted.of_unlocked.handed (by rcases hc with hc | hc <;> simp [hc])
      simpa [Dcu.enter, doorEvent, same, was] using moved
    · rw [releases]
      simpa [Dcu.enter, same, was] using
        (onLoReleased_held (s := (setDebounced side.closeLead true s).unlocked) hc).of_unlocked
    · rw [releases]
      simpa [Dcu.enter, same, was] using
        (onLoReleased_idle (s := (setDebounced side.closeLead true s).unlocked) hc cd lo (.inr pos)).of_unlocked
    · rw [run, doorEvent_unlocked (releases.trans (onLoReleased_quiet (s := (setDebounced side.closeLead true s).unlocked) hc lo (.inr pos)))]
      rfl
  · have quiet : onLcPressed (loHeld s) (setDebounced side.closeLead true s) = (setDebounced side.closeLead true s).unlocked := by
      rw [was]
      refine (if_neg fun hp => ?_).trans (onLoReleased_busy (s := (setDebounced side.closeLead true s).unlocked) (.inr hc))
      exact hc.elim hp.2.1 hp.2.2
    rw [event on lc, doorEvent_unlocked quiet]
    rfl
  · rcases off with off | ⟨was, hc⟩ | off
    · simp only [lcHeld] at off
      rw [run, leverChange_level (by simp [h]) (.inr (by simp [rises, off]))]
    · have quiet : onLcPressed (loHeld s) (setDebounced side.closeLead true s) = setDebounced side.closeLead true s := by
        rw [was]
        exact (if_neg fun hp => hc.elim hp.1 hp.2.1).trans (if_neg (by simp))
      rw [run, leverChange]
      simp only [h, Bool.false_eq_true, if_false, doorEvent_same quiet, ite_self]
    · rw [run, leverChange_level (by simp [h]) (.inl off)]

/-! ### Press of LO (R12 to R16, R24, R26) -/

theorem onLoPressed_evaluates {s : State} (h : s.dcu.ctl.isIdle = true ∨ s.dcu.ctl = .warning ∨ s.dcu.ctl = .closing)
    (pos : s.trm.pos ≠ .opened) (lo : loHeld s = true) (lk : s.dcu.lockout = false) : onLoPressed s = evaluate s := by
  have rq : requestStands s = true := by simp [requestStands_eq, lo, pos]
  rcases h with h | h | h
  · have rules : onLoPressed s = idleRules s := by
      rcases Ctl.idle_cases h with h | h | h <;> simp [onLoPressed, h]
    rw [rules, idleRules_evaluates h rq lk]
  · simp [onLoPressed, h, pos]
  · simp [onLoPressed, h, rq]

/-- Settles O10: the press is a request off OPEN, and a hold at it. -/
theorem openLeverPressOpensClaimsOrIsRefused : Obligations.OpenLeverPressOpensClaimsOrIsRefused := by
  intro side s h
  have run : exec (.loPressed side) s = .next (setOuts (leverChange side.openLead true (rises leverOpen) onLoPressed s)) := rfl
  have lo : lcHeld s = false → loHeld (setDebounced side.openLead true s) = true := by
    intro lc
    simp only [lcHeld] at lc
    simp [loHeld, leverOpen_openMade, lc]
  have event : s.doorRuns = true → loHeld s = false → lcHeld s = false →
      exec (.loPressed side) s = .next (setOuts (doorEvent onLoPressed (setDebounced side.openLead true s))) := by
    intro on was lc
    simp only [loHeld] at was
    simp only [lcHeld] at lc
    rw [run, leverChange_event (by simp [h]) on (by simp [rises, was, leverOpen_openMade, lc])]
  refine ⟨fun ⟨on, was, lc, lk⟩ pos hc => ?_, fun ⟨on, was, lc, lk⟩ pos hc => ?_, fun off => ?_⟩
  · have asks := onLoPressed_evaluates (s := setDebounced side.openLead true s) hc pos (lo lc) lk
    have elsewhere : ∀ c : Ctl, c = .opening ∨ c = .claiming → c ≠ s.dcu.ctl := by
      rintro c (rfl | rfl) e <;> simp [← e, Ctl.isIdle] at hc
    refine ⟨fun ps lim => ⟨_, event on was lc, Shifted.handed ?_ (elsewhere _ (.inl rfl))⟩,
      fun ps lim j => ⟨_, event on was lc, Shifted.handed ?_ (elsewhere _ (.inr rfl))⟩,
      fun rf hi => ⟨_, event on was lc, Shifted.handed ?_ ?_⟩, fun rf hi => ?_⟩
    · rw [asks, evaluate_opens (s := setDebounced side.openLead true s) ps lim]
      exact toOpening_shifted _
    · rw [asks, evaluate_claims (s := setDebounced side.openLead true s) ps lim j (elsewhere _ (.inr rfl)).symm]
      exact toClaiming_shifted _
    · rw [asks, evaluate_refuses (s := setDebounced side.openLead true s) rf, refuse_busy (s := setDebounced side.openLead true s) hi]
      exact toIdle_shifted _ _
    · intro same
      have idle := isIdle_idleFor s.trm.pos
      have same : idleFor s.trm.pos = s.dcu.ctl := same
      rw [same, hi] at idle
      exact absurd idle (by simp)
    · rw [event on was lc, doorEvent_same]
      rw [asks, evaluate_refuses (s := setDebounced side.openLead true s) rf, refuse_idle (s := setDebounced side.openLead true s) hi]
  · refine ⟨_, event on was lc, Shifted.handed (t := onLoPressed (setDebounced side.openLead true s)) ?_ ?_⟩
    · have holds : onLoPressed (setDebounced side.openLead true s) = toHeldOpen (setDebounced side.openLead true s) := by
        rcases hc with hc | ⟨hc, cd⟩
        · simp [onLoPressed, hc, pos]
        · have rules : onLoPressed (setDebounced side.openLead true s) = idleRules (setDebounced side.openLead true s) := by
            simp [onLoPressed, hc]
          rw [rules, idleRules_holds (s := setDebounced side.openLead true s) hc (lo lc) cd (.inl (by simp [requestStands_eq, pos]))]
      rw [holds]
      exact toHeldOpen_shifted _
    · rcases hc with hc | ⟨hc, -⟩ <;> simp [hc]
  · rcases off with off | off | off | ⟨pos, hc, cd⟩
    · rw [run, leverChange_level (by simp [h]) (.inl off)]
    · simp only [loHeld] at off
      rw [run, leverChange_level (by simp [h]) (.inr (by simp [rises, off]))]
    · simp only [lcHeld] at off
      rw [run, leverChange_level (by simp [h]) (.inr (by simp [rises, leverOpen_openMade, off]))]
    · have quiet : lcHeld s = false → onLoPressed (setDebounced side.openLead true s) = setDebounced side.openLead true s := by
        intro lc
        have rules : onLoPressed (setDebounced side.openLead true s) = idleRules (setDebounced side.openLead true s) := by
          simp [onLoPressed, hc]
        rw [rules]
        exact idleRules_stays (.inl ((leverClose_openLead side true s.deb).trans lc)) (.inl (by simp [requestStands_eq, pos])) (.inl cd)
      by_cases lc : lcHeld s = true
      · simp only [lcHeld] at lc
        rw [run, leverChange_level (by simp [h]) (.inr (by simp [rises, leverOpen_openMade, lc]))]
      · rw [run, leverChange]
        simp only [h, Bool.false_eq_true, if_false, doorEvent_same (quiet (eq_false_of_ne_true lc)), ite_self]

/-! ### Release of LC (R11) -/

/-- A closing of the lever that goes on for closure demand (R11). -/
def State.onDemand (s : State) : State := { s with dcu := { s.dcu with cause := .demand } }

/-- What the release of LC alone does to a closing, before an open lever left made presses LO (R11). -/
def yieldClosing (s : State) : State :=
  if s.dcu.ctl = .closing ∧ s.dcu.cause = .lever then if s.dcu.cd then s.onDemand else toMatching s else s

@[simp] theorem yieldClosing_lo (s : State) : loHeld (yieldClosing s) = loHeld s := by
  simp only [yieldClosing]
  (repeat' split) <;> simp [loHeld, State.onDemand]

theorem onLcReleased_eq (s : State) : onLcReleased s = if loHeld s then onLoPressed (yieldClosing s) else yieldClosing s := by
  rw [← yieldClosing_lo]
  rfl

/-- The permitted request behind a release of LC opens the door, from the closing or from an idle state (R11 to R13). -/
theorem onLcReleased_opens {s : State} (lo : loHeld s = true)
    (h : (s.dcu.ctl = .closing ∧ s.dcu.cause = .lever) ∨ s.dcu.ctl.isIdle = true) (pos : s.trm.pos ≠ .opened)
    (lk : s.dcu.lockout = false) (ps : s.enu.permStart = true) (lim : s.psu.inForce = false) (vop : s.dcu.vop = false) :
    Shifted s (s.dcu.enter .opening .noCause s.dcu.wcause none .stopped) (onLcReleased s) := by
  have rq : requestStands s = true := by simp [requestStands_eq, lo, pos]
  rw [onLcReleased_eq, if_pos lo]
  rcases h with ⟨hc, cause⟩ | h
  · cases cd : s.dcu.cd with
    | true =>
      have yields : yieldClosing s = s.onDemand := by simp [yieldClosing, hc, cause, cd]
      rw [yields, onLoPressed_evaluates (s := s.onDemand) (.inr (.inr hc)) pos lo lk, evaluate_opens (s := s.onDemand) ps lim]
      exact (toOpening_shifted s.onDemand).of_dcu rfl rfl
    | false =>
      have yields : yieldClosing s = toOpening (toIdle (idleFor s.trm.pos) s) := by
        rw [← evaluate_opens (by simpa using ps) (by simpa using lim), ← toMatching_evaluates rq lk]
        simp [yieldClosing, hc, cause, cd]
      have busy : onLoPressed (toOpening (toIdle (idleFor s.trm.pos) s)) = toOpening (toIdle (idleFor s.trm.pos) s) := by
        have rules : onLoPressed (toOpening (toIdle (idleFor s.trm.pos) s)) = idleRules (toOpening (toIdle (idleFor s.trm.pos) s)) := by
          simp [onLoPressed, toOpening]
        rw [rules, idleRules_busy (by simp [toOpening, Ctl.isIdle])]
      rw [yields, busy]
      have second := toOpening_shifted (toIdle (idleFor s.trm.pos) s)
      have wcause : (toIdle (idleFor s.trm.pos) s).dcu.wcause = s.dcu.wcause := by simp [toIdle]
      rw [wcause] at second
      exact (toIdle_shifted _ s).over_idle second (isIdle_idleFor _) (by simp [hc]) (by simp) (by simp [vop])
  · have yields : yieldClosing s = s := by rcases Ctl.idle_cases h with h | h | h <;> simp [yieldClosing, h]
    rw [yields, onLoPressed_evaluates (.inl h) pos lo lk, evaluate_opens ps lim]
    exact toOpening_shifted s

/-- Settles O9: the closing goes on or stops, and an open lever left made is a press of LO. -/
theorem closeLeverReleaseStopsOrYields : Obligations.CloseLeverReleaseStopsOrYields := by
  intro side s h
  have run : exec (.lcReleased side) s =
    .next (setOuts (leverChange side.closeLead false (falls leverClose) onLcReleased s)) := rfl
  have held : leverClose s.deb = true := by
    cases side <;> simp_all [leverClose, Side.closeLead, PerLead.get]
  have event : s.doorRuns = true → leverClose (setDebounced side.closeLead false s).deb = false → exec (.lcReleased side) s =
      .next (setOuts (doorEvent onLcReleased (setDebounced side.closeLead false s))) := by
    intro on lc
    rw [run, leverChange_event (by simp [h]) on (by simpa [falls, held] using lc)]
  have lo : leverClose (setDebounced side.closeLead false s).deb = false →
      loHeld (setDebounced side.closeLead false s) = (s.deb.loa || s.deb.lob) := by
    intro lc
    have : loHeld (setDebounced side.closeLead false s) = leverOpen (s.deb.set side.closeLead false) := rfl
    rw [this, leverOpen_closeOpened, setDebounced_deb] at *
    simp [lc]
  have unheld : leverClose (setDebounced side.closeLead false s).deb = false → s.deb.loa = false → s.deb.lob = false →
      onLcReleased (setDebounced side.closeLead false s) = yieldClosing (setDebounced side.closeLead false s) := by
    intro lc loa lob
    rw [onLcReleased_eq, lo lc]
    simp [loa, lob]
  refine ⟨fun on lc loa lob hc cause => ⟨fun cd => ?_, fun cd => ⟨_, event on lc, Shifted.handed ?_ ?_⟩⟩,
    fun on lc la hc pos lk ps lim vop => ⟨_, event on lc, Shifted.handed ?_ ?_⟩, fun off => ?_⟩
  · have goes : onLcReleased (setDebounced side.closeLead false s) = (setDebounced side.closeLead false s).onDemand := by
      rw [unheld lc loa lob]
      simp [yieldClosing, setDebounced, hc, cause, cd]
    rw [event on lc, doorEvent_quiet, goes]
    · rfl
    all_goals rw [goes]
    · simp [reportDiffers, State.onDemand, setDebounced]
    · rfl
  · have rests := toMatching_rests (s := setDebounced side.closeLead false s) (.inl lc)
      (.inl (by simp [requestStands_eq, lo lc, loa, lob])) (.inl cd)
    have stops : onLcReleased (setDebounced side.closeLead false s) = toIdle (idleFor s.trm.pos) (setDebounced side.closeLead false s) := by
      have matching : yieldClosing (setDebounced side.closeLead false s) = toMatching (setDebounced side.closeLead false s) :=
        (if_pos ⟨hc, cause⟩).trans (if_neg (by simp [setDebounced, cd]))
      rw [unheld lc loa lob, matching, rests]
      rfl
    rw [stops]
    exact toIdle_shifted _ _
  · intro same
    have idle := isIdle_idleFor s.trm.pos
    have same : idleFor s.trm.pos = s.dcu.ctl := same
    rw [same, hc] at idle
    exact absurd idle (by simp [Ctl.isIdle])
  · exact onLcReleased_opens (s := setDebounced side.closeLead false s) (by rw [lo lc]; simpa using la) hc pos lk ps lim vop
  · rcases hc with ⟨hc, -⟩ | hc
    · simp [hc]
    · rcases Ctl.idle_cases hc with hc | hc | hc <;> simp [hc]
  · rcases off with off | off | ⟨hc, loa, lob⟩
    · rw [run, leverChange_level (by simp [h]) (.inr (by simpa [falls, held] using off))]
    · rw [run, leverChange_level (by simp [h]) (.inl off)]
    · by_cases lc : leverClose (setDebounced side.closeLead false s).deb = true
      · rw [run, leverChange_level (by simp [h]) (.inr (by simpa [falls, held] using lc))]
      · have stays : onLcReleased (setDebounced side.closeLead false s) = setDebounced side.closeLead false s := by
          rw [unheld (eq_false_of_ne_true lc) loa lob]
          exact if_neg fun hp => hc.elim (· hp.1) (· hp.2)
        rw [run, leverChange]
        simp only [h, Bool.true_eq_false, if_false, doorEvent_same stays, ite_self]

end Sys2Proof.Machine
end

