-- ==== Sys2Proof/Proofs/Arrivals.lean ====
section
/-! SUPPORT and PROOFS. Changes of the position state at the door, and stops of the opening stroke (R3, R10 to R26, R46, R48, R59). -/

namespace Sys2Proof.Machine

/-! ### A move seen from before the alarms of its event -/

/-- What is handed on depends on the control state, the items of R31 and the claim phase before the event alone. -/
theorem report_congr {b b' : State} (s : State) (hd : b'.dcu = b.dcu) (hp : b'.psu = b.psu) : report b' s = report b s := by
  simp [report, hd, hp]

/-- A move of an event that runs on a state whose other blocks have only handed on, seen from the state before that. -/
theorem Shifted.doorEvent {b m : State} {d : Dcu} {f : State → State} (h : Shifted m d (f m)) (ne : d.ctl ≠ b.dcu.ctl)
    (dcu : m.dcu = b.dcu) (trm : m.trm = b.trm) (psu : m.psu = b.psu) (alu : m.alu = b.alu) (enu : m.enu = b.enu)
    (hands : HandsOn b m) : Moved b d (setOuts (doorEvent f m)) := by
  rw [Machine.doorEvent, report_congr _ dcu psu]
  exact (h.of_same (by rw [dcu]) (by rw [dcu]) trm psu alu enu hands.suc hands).handed ne

/-! ### The matching idle state and what stands there (R3, R12, R17, R24) -/

/-- The items a standing request gives (R12, R13). -/
def State.judged (s : State) : Dcu :=
  if s.enu.permStart = false then s.dcu.enter (idleFor s.trm.pos) .noCause s.dcu.wcause none .stopped
  else if s.psu.inForce = false then s.dcu.enter .opening .noCause s.dcu.wcause none .stopped
  else if s.suc.startUp = .joined then s.dcu.enter .claiming .noCause s.dcu.wcause none .stopped
  else s.dcu.enter (idleFor s.trm.pos) .noCause s.dcu.wcause none .stopped

/-- The items with which the door comes to rest from the matching idle state, LC aside. -/
def State.rest (s : State) : Dcu :=
  if loHeld s = true ∧ s.trm.pos ≠ .opened ∧ s.dcu.lockout = false then s.judged
  else if s.dcu.cd = false ∨ s.trm.pos = .closed then s.dcu.enter (idleFor s.trm.pos) .noCause s.dcu.wcause none .stopped
  else if s.trm.pos = .opened ∧ loHeld s = true then s.dcu.enter .heldOpen .noCause s.dcu.wcause none (.running 0)
  else s.dcu.enter .warning .noCause .remote (some s.conf.warningTime) .stopped

theorem refused_of {s : State} (ho : ¬ (s.enu.permStart = true ∧ s.psu.inForce = false))
    (hc : ¬ (s.enu.permStart = true ∧ s.psu.inForce = true ∧ s.suc.startUp = .joined)) :
    s.enu.permStart = false ∨ (s.psu.inForce = true ∧ s.suc.startUp ≠ .joined) := by
  cases hp : s.enu.permStart <;> cases hf : s.psu.inForce <;> simp_all

theorem judged_opens {s : State} (ps : s.enu.permStart = true) (lim : s.psu.inForce = false) :
    s.judged = s.dcu.enter .opening .noCause s.dcu.wcause none .stopped := by
  simp [State.judged, ps, lim]

theorem judged_claims {s : State} (ps : s.enu.permStart = true) (lim : s.psu.inForce = true) (j : s.suc.startUp = .joined) :
    s.judged = s.dcu.enter .claiming .noCause s.dcu.wcause none .stopped := by
  simp [State.judged, ps, lim, j]

theorem judged_refuses {s : State} (h : s.enu.permStart = false ∨ (s.psu.inForce = true ∧ s.suc.startUp ≠ .joined)) :
    s.judged = s.dcu.enter (idleFor s.trm.pos) .noCause s.dcu.wcause none .stopped := by
  rcases h with h | ⟨lim, j⟩
  · simp [State.judged, h]
  · simp [State.judged, lim, j]

/-- An idle state that stays, or a second move from it. -/
def Settles (s : State) (d : Dcu) (t : State) : Prop :=
  (t = toIdle (idleFor s.trm.pos) s ∧ d = s.dcu.enter (idleFor s.trm.pos) .noCause s.dcu.wcause none .stopped) ∨
    ∃ ctl w timer held, ctl.isIdle = false ∧ ctl ≠ .closing ∧ d = s.dcu.enter ctl .noCause w timer held ∧
      Shifted (toIdle (idleFor s.trm.pos) s) ((toIdle (idleFor s.trm.pos) s).dcu.enter ctl .noCause w timer held) t

theorem toIdle_wcause (c : Ctl) (s : State) : (toIdle c s).dcu.wcause = s.dcu.wcause := by simp [toIdle]

theorem evaluate_settles {s : State} : Settles s s.judged (evaluate (toIdle (idleFor s.trm.pos) s)) := by
  have wcause := toIdle_wcause (idleFor s.trm.pos) s
  by_cases ho : s.enu.permStart = true ∧ s.psu.inForce = false
  · refine .inr ⟨.opening, s.dcu.wcause, none, .stopped, rfl, by simp, judged_opens ho.1 ho.2, ?_⟩
    rw [evaluate_opens (by simpa using ho.1) (by simpa using ho.2), ← wcause]
    exact toOpening_shifted _
  by_cases hc : s.enu.permStart = true ∧ s.psu.inForce = true ∧ s.suc.startUp = .joined
  · refine .inr ⟨.claiming, s.dcu.wcause, none, .stopped, rfl, by simp, judged_claims hc.1 hc.2.1 hc.2.2, ?_⟩
    have busy : (toIdle (idleFor s.trm.pos) s).dcu.ctl ≠ .claiming := by cases s.trm.pos <;> simp [idleFor]
    rw [evaluate_claims (by simpa using hc.1) (by simpa using hc.2.1) (by simpa using hc.2.2) busy, ← wcause]
    exact toClaiming_shifted _
  · have refused := refused_of ho hc
    refine .inl ⟨?_, judged_refuses refused⟩
    rw [evaluate_refuses (by simpa using refused), refuse_idle (by simp [isIdle_idleFor])]

theorem toMatching_settles {s : State} (lc : lcHeld s = false ∨ s.trm.pos = .closed) : Settles s s.rest (toMatching s) := by
  have wcause := toIdle_wcause (idleFor s.trm.pos) s
  have lc' : lcHeld (toIdle (idleFor s.trm.pos) s) = false ∨ (toIdle (idleFor s.trm.pos) s).trm.pos = .closed := by simpa using lc
  by_cases hj : loHeld s = true ∧ s.trm.pos ≠ .opened ∧ s.dcu.lockout = false
  · rw [State.rest, if_pos hj, toMatching_evaluates (by simp [requestStands_eq, hj.1, hj.2.1]) hj.2.2]
    exact evaluate_settles
  · have rq : requestStands s = false ∨ s.dcu.lockout = true := by
      cases hl : s.dcu.lockout <;> cases ho : loHeld s <;> cases hp : s.trm.pos <;> simp_all [requestStands_eq]
    rw [State.rest, if_neg hj]
    by_cases hq : s.dcu.cd = false ∨ s.trm.pos = .closed
    · rw [if_pos hq]
      exact .inl ⟨toMatching_rests lc rq hq, rfl⟩
    · obtain ⟨cd, pos⟩ := not_or.mp hq
      have cd : s.dcu.cd = true := by simpa using cd
      rw [if_neg hq]
      by_cases hh : s.trm.pos = .opened ∧ loHeld s = true
      · rw [if_pos hh]
        refine .inr ⟨.heldOpen, s.dcu.wcause, none, .running 0, rfl, by simp, rfl, ?_⟩
        rw [toMatching, idleRules_holds (by simp [hh.1, idleFor]) (by simpa using hh.2) (by simpa using cd) (by simpa using rq), ← wcause]
        exact toHeldOpen_shifted _
      · rw [if_neg hh]
        refine .inr ⟨.warning, .remote, some s.conf.warningTime, .stopped, rfl, by simp, rfl, ?_⟩
        have conf : (toIdle (idleFor s.trm.pos) s).conf = s.conf := by simp [State.conf]
        rw [toMatching, idleRules_warns ?_ (by simpa using cd) lc', ← conf]
        · exact toWarning_remote_shifted _
        · cases hp : s.trm.pos with
          | closed => exact absurd hp pos
          | opened => exact .inl ⟨by simp [idleFor], by simpa [hp] using hh⟩
          | between => exact .inr ⟨by simp [idleFor], by simpa [hp, ← Bool.not_eq_true, imp_iff_not_or] using hj⟩
          | unknown => exact .inr ⟨by simp [idleFor], by simpa [hp, ← Bool.not_eq_true, imp_iff_not_or] using hj⟩

/-- To settle is one move, where no valve is on and the control state changes. -/
theorem Settles.shifted {s t : State} {d : Dcu} (h : Settles s d t) (ne : d.ctl ≠ s.dcu.ctl) (vop : s.dcu.vop = false) :
    Shifted s d t := by
  rcases h with ⟨rfl, rfl⟩ | ⟨ctl, w, timer, held, -, nc, rfl, k⟩
  · exact toIdle_shifted _ s
  · exact (toIdle_shifted _ s).over_idle k (isIdle_idleFor _) ne (fun _ => nc) (by simp [vop])

/-- To settle in the idle state the door stands in, with no valve on, changes the items of the state alone. -/
theorem Settles.still {s t : State} {d : Dcu} (h : Settles s d t) (idle : s.dcu.ctl.isIdle = true) (same : s.dcu.ctl = d.ctl)
    (vcl : s.dcu.vcl = false) (vop : s.dcu.vop = false) :
    t.dcu = d ∧ t.trm = s.trm ∧ t.psu = s.psu ∧ t.alu = s.alu ∧ t.enu = s.enu ∧ HandsOn s t ∧ d.mode = s.dcu.mode ∧
      d.cd = s.dcu.cd ∧ d.wcause = s.dcu.wcause := by
  rcases h with ⟨rfl, rfl⟩ | ⟨ctl, w, timer, held, busy, -, rfl, -⟩
  · obtain ⟨dcu, trm, psu, alu, enu, hands⟩ := toIdle_shifted (idleFor s.trm.pos) s
    have hd : (toIdle (idleFor s.trm.pos) s).dcu = s.dcu.enter (idleFor s.trm.pos) .noCause s.dcu.wcause none .stopped := by
      rw [dcu, Dcu.driven_idle (isIdle_idleFor _)]
      simp [Dcu.enter, vcl, vop]
    have off : switchedOff (s.dcu.enter (idleFor s.trm.pos) .noCause s.dcu.wcause none .stopped)
        (toIdle (idleFor s.trm.pos) s).dcu = false := by simp [switchedOff, vcl, vop]
    have kept : s.dcu.ctl ≠ .heldOpen := by
      rintro hc
      simp [hc, Ctl.isIdle] at idle
    refine ⟨hd, ?_, ?_, ?_, enu, hands, rfl, rfl, rfl⟩
    · rw [trm, Trm.driven, off]
      simp [hd, vcl, vop]
    · rw [psu]
      refine claimFor_outside _ _ ?_ ?_
      · rintro hc
        simp [hc, Ctl.isIdle] at idle
      · cases s.trm.pos <;> simp [idleFor]
    · rw [alu, off]
      simp [kept, asked, applyRequests]
  · rw [same] at idle
    exact absurd (idle.symm.trans busy) (by simp)

/-! ### A change of the position state (R3, R10, R18, R20, R21, R24, R26) -/

theorem onPosition_closes {s : State} (lc : lcHeld s = true) (pos : s.trm.pos ≠ .closed) (nc : s.dcu.ctl ≠ .closing)
    (ni : s.dcu.ctl ≠ .inactive) : onPosition s = toClosing .lever s := by
  rw [onPosition, if_neg ni, if_pos ⟨lc, pos, nc⟩]

/-- The rule of the control state, where LC does not take the door. -/
theorem onPosition_rule {s : State} (ni : s.dcu.ctl ≠ .inactive)
    (lc : ¬ (lcHeld s = true ∧ s.trm.pos ≠ .closed ∧ s.dcu.ctl ≠ .closing)) :
    (s.dcu.ctl = .warning ∨ s.dcu.ctl = .closing → onPosition s = if s.trm.pos = .closed then toIdle .idleClosed s else s) ∧
    (s.dcu.ctl = .claiming → onPosition s =
      if s.trm.pos = .opened then if s.dcu.cd then toHeldOpen s else toIdle .idleOpen s else s) ∧
    (s.dcu.ctl = .opening → onPosition s = if s.trm.pos = .opened then
        if s.dcu.cd then if loHeld s then toHeldOpen s else toWarning .reclose s else toIdle .idleOpen s else s) ∧
    (s.dcu.ctl = .heldOpen → onPosition s = if s.trm.pos ≠ .opened then
        if requestStands s && !s.dcu.lockout then evaluate s else toMatching s else s) ∧
    (s.dcu.ctl.isIdle = true → onPosition s = toMatching s) := by
  rw [onPosition, if_neg ni, if_neg lc]
  refine ⟨fun h => ?_, fun h => by rw [h], fun h => by rw [h], fun h => by rw [h], fun h => ?_⟩
  · rcases h with h | h <;> rw [h]
  · rcases Ctl.idle_cases h with h | h | h <;> rw [h]

/-- Off OPEN the door does not come to rest in HELD_OPEN (R24). -/
theorem rest_off_open {s : State} (pos : s.trm.pos ≠ .opened) : s.rest.ctl ≠ .heldOpen := by
  have matching : idleFor s.trm.pos ≠ .heldOpen := by cases s.trm.pos <;> simp [idleFor]
  have held : ¬ (s.trm.pos = .opened ∧ loHeld s = true) := fun h => pos h.1
  rw [State.rest, State.judged, if_neg held]
  (repeat' split) <;> simp [matching]

/-- HELD_OPEN that leaves OPEN comes to rest as an idle door would. -/
theorem onPosition_leavesOpen {s : State} (hc : s.dcu.ctl = .heldOpen) (pos : s.trm.pos ≠ .opened)
    (lc : lcHeld s = false ∨ s.trm.pos = .closed) (vop : s.dcu.vop = false) : Shifted s s.rest (onPosition s) := by
  have rule := (onPosition_rule (s := s) (by simp [hc]) (fun h => lc.elim (by simp [h.1]) h.2.1)).2.2.2.1 hc
  rw [if_pos pos] at rule
  by_cases hj : (requestStands s && !s.dcu.lockout) = true
  · obtain ⟨rq, lk⟩ : requestStands s = true ∧ s.dcu.lockout = false := by simpa using hj
    have lo : loHeld s = true := by simp_all [requestStands_eq]
    rw [rule, if_pos hj, State.rest, if_pos ⟨lo, pos, lk⟩]
    by_cases ho : s.enu.permStart = true ∧ s.psu.inForce = false
    · rw [evaluate_opens ho.1 ho.2, judged_opens ho.1 ho.2]
      exact toOpening_shifted s
    by_cases hk : s.enu.permStart = true ∧ s.psu.inForce = true ∧ s.suc.startUp = .joined
    · rw [evaluate_claims hk.1 hk.2.1 hk.2.2 (by simp [hc]), judged_claims hk.1 hk.2.1 hk.2.2]
      exact toClaiming_shifted s
    · have refused := refused_of ho hk
      rw [evaluate_refuses refused, refuse_busy (by simp [hc, Ctl.isIdle]), judged_refuses refused]
      exact toIdle_shifted _ s
  · rw [rule, if_neg hj]
    refine (toMatching_settles lc).shifted ?_ vop
    rw [hc]
    exact rest_off_open pos

/-- What the monitor leaves when the position state changes, before the door acts (log 5). -/
def State.arrived (limit : Limit) (s : State) : State :=
  { s with
    trm := s.trm.arrived s.conf limit s.deb
    alu := applyRequests (arrivalRequests s.conf limit s.deb s.trm) s.alu }

theorem monitorActs_arrived (limit : Limit) (s : State) : (monitorActs limit s).dcu = s.dcu ∧
    (monitorActs limit s).trm = (s.arrived limit).trm ∧ (monitorActs limit s).psu = s.psu ∧
    (monitorActs limit s).alu = (s.arrived limit).alu ∧ (monitorActs limit s).enu = s.enu ∧
    HandsOn (s.arrived limit) (monitorActs limit s) := by
  obtain ⟨dcu, trm, psu, alu, enu, hands⟩ := monitorActs_leaves limit s
  exact ⟨dcu, trm, psu, alu, enu, (HandsOn.door (s.arrived limit) s.dcu s.trm s.psu s.alu s.outs).trans hands⟩

/-- The reference a new position state brings, by the limit's value (R40). -/
theorem arrive_eq (c : Cfg) (pos : Position) (t : Trm) :
    let value : Option Int := if pos = .closed then some 0 else if pos = .opened then some c.travelCount else none
    arrive c pos t = { t with
      pos := pos
      count := value.getD t.count
      overrun := if value.isSome then 0 else t.overrun
      ref := value.isSome || t.ref } := by
  cases pos <;> rfl

/-- The state the statement names is the one the monitor leaves. -/
theorem arrived_eq (limit : Limit) (s : State) (hn : positionOf s.deb ≠ s.trm.pos) :
    let pos : Position := positionOf s.deb
    let discord : Watch := if limit = .olm then s.trm.discord else if s.deb.cla = s.deb.clb then .stopped else .running 0
    let value : Option Int := if pos = .closed then some 0 else if pos = .opened then some s.conf.travelCount else none
    let drift : Bool := value.any (fun v => s.trm.ref && decide (s.conf.overrunSlack < (s.trm.count - v).natAbs))
    s.arrived limit = { s with
      trm := ({ s.trm with
        pos := pos
        discord := discord
        conflict := if pos = .unknown then .running 0 else .stopped
        count := value.getD s.trm.count
        overrun := if value.isSome then 0 else s.trm.overrun
        ref := value.isSome || s.trm.ref } : Trm).slowed s.conf
      alu := applyRequests (asked drift (.occurred .positionFault) ++
        asked (s.trm.discord.isPast && !discord.isPast) (.becameFalse .limitDiscord) ++
        asked s.trm.conflict.isPast (.becameFalse .limitConflict)) s.alu } := by
  intro pos discord value drift
  have conflict : conflictAfter s.trm.pos pos s.trm.conflict = if pos = .unknown then .running 0 else .stopped := by
    rw [conflictAfter, if_neg (Ne.symm hn)]
  have gone : (s.trm.conflict.isPast && !(conflictAfter s.trm.pos pos s.trm.conflict).isPast) = s.trm.conflict.isPast := by
    rw [conflict]
    split <;> simp [Watch.isPast]
  have found : drifts s.conf pos s.trm = drift := by
    simp only [drift, value]
    cases pos <;> simp [drifts, limitValue]
  have monitor : s.trm.arrived s.conf limit s.deb = ({ s.trm with
        pos := pos
        discord := discord
        conflict := if pos = .unknown then .running 0 else .stopped
        count := value.getD s.trm.count
        overrun := if value.isSome then 0 else s.trm.overrun
        ref := value.isSome || s.trm.ref } : Trm).slowed s.conf := by
    have hd : discordAfter limit s.deb s.trm.discord = discord := discordAfter_eq _ _ _
    have hc : conflictAfter s.trm.pos (positionOf s.deb) s.trm.conflict = _ := conflict
    rw [Trm.arrived, hd, hc]
    exact congrArg (Trm.slowed s.conf) (arrive_eq s.conf pos _)
  have hd : discordAfter limit s.deb s.trm.discord = discord := discordAfter_eq _ _ _
  have requests : arrivalRequests s.conf limit s.deb s.trm = asked drift (.occurred .positionFault) ++
        asked (s.trm.discord.isPast && !discord.isPast) (.becameFalse .limitDiscord) ++
        asked s.trm.conflict.isPast (.becameFalse .limitConflict) := by
    rw [arrivalRequests, hd]
    exact congrArg₂ _ (congrArg₂ _ (congrArg (asked · _) found) rfl) (congrArg (asked · _) gone)
  rw [State.arrived, monitor, requests]

@[simp] theorem levers_limit (limit : Limit) (b : Bool) (d : PerLead Bool) :
    leverClose (d.set limit.lead b) = leverClose d ∧ leverOpen (d.set limit.lead b) = leverOpen d := by
  cases limit <;> exact ⟨rfl, rfl⟩

/-- Settles O17: the monitor leaves the state the statement names, and the door acts on it by the rule of its control state. -/
theorem arrivalsEndStrokes : Obligations.ArrivalsEndStrokes := by
  intro limit made s on hr hne
  have run : exec (.limitDebouncedChange limit made) s = .next (setOuts (limitActs limit (setDebounced limit.lead made s))) := by
    have np : s.panelRuns = false := by
      simp only [State.doorRuns, State.panelRuns, Bool.and_eq_true, beq_iff_eq] at on ⊢
      simp [on.2]
    rw [exec_limitChange np hne, if_pos hr]
  obtain ⟨m, hm⟩ : ∃ m, m = monitorActs limit (setDebounced limit.lead made s) := ⟨_, rfl⟩
  obtain ⟨dcu, trm, psu, alu, enu, hands⟩ := monitorActs_arrived limit (setDebounced limit.lead made s)
  obtain ⟨-, -, -, -, -, hands1⟩ := monitorActs_leaves limit (setDebounced limit.lead made s)
  rw [← hm] at dcu trm psu alu enu hands hands1
  have dcu : m.dcu = s.dcu := dcu
  have pos : m.trm.pos = positionOf (setDebounced limit.lead made s).deb := by
    rw [trm]
    exact (Trm.arrived_reference s.conf limit (setDebounced limit.lead made s).deb s.trm).2.2.2.1
  have deb : m.deb = s.deb.set limit.lead made := hands.deb
  have lc : lcHeld m = lcHeld s := by simp [lcHeld, deb]
  have lo : loHeld m = loHeld s := by simp [loHeld, deb]
  have conf : m.conf = s.conf := by simp only [State.conf, hands.suc]; rfl
  have suc : m.suc = s.suc := hands.suc
  refine fun hn => ?_
  have named := arrived_eq limit (setDebounced limit.lead made s) hn
  have run : exec (.limitDebouncedChange limit made) s = .next (setOuts (doorEvent onPosition m)) := by
    rw [run, limitActs_eq hn, hm]
  have moved : ∀ d : Dcu, Shifted m d (onPosition m) → d.ctl ≠ s.dcu.ctl → Moved _ d (setOuts (doorEvent onPosition m)) :=
    fun d h ne => (congrArg (fun b => Moved b d (setOuts (doorEvent onPosition m))) named).mp
      (h.doorEvent ne dcu trm psu alu enu hands)
  have still : onPosition m = m → ∃ t, exec (.limitDebouncedChange limit made) s = .next t ∧ t.dcu = s.dcu ∧
      t.trm = ((setDebounced limit.lead made s).arrived limit).trm ∧ t.psu = s.psu ∧
      t.alu = ((setDebounced limit.lead made s).arrived limit).alu ∧ t.enu = s.enu ∧ t.outs = outsFor t ∧
      HandsOn (setDebounced limit.lead made s) t := by
    intro h
    exact ⟨setOuts m, by rw [run, doorEvent_same h], dcu, trm, psu, alu, enu, rfl, hands1.trans (setOuts_hands m)⟩
  have psu' : m.psu = s.psu := psu
  have enu' : m.enu = s.enu := enu
  refine ⟨fun hp hc => ⟨_, run, moved _ ?_ ?_⟩, fun hp hc hl => ⟨_, run, moved _ ?_ ?_⟩, fun h => ?_,
    fun hl hp nc ni => ⟨_, run, moved _ ?_ ?_⟩, fun hl hp hc => ⟨_, run, moved _ ?_ ?_⟩, fun hi hc cd hl ho => ⟨_, run, moved _ ?_ ?_⟩,
    fun vcl vop hl => ⟨fun h => ?_, fun hi hc => ?_⟩⟩
  · have rule := (onPosition_rule (s := m) (by rcases hc with hc | hc <;> simp [dcu, hc])
      (fun h => h.2.1 (pos.trans hp))).1 (by rw [dcu]; exact hc.symm)
    rw [rule, if_pos (pos.trans hp), ← dcu]
    exact toIdle_shifted .idleClosed m
  · rcases hc with hc | hc <;> simp [hc]
  · have rule := (onPosition_rule (s := m) (by simp [dcu, hc]) (fun h => by simp [lc, hl] at h)).2.2.1 (by rw [dcu, hc])
    rw [rule, if_pos (pos.trans hp), ← dcu, ← lo, ← conf]
    (repeat' split)
    · exact toHeldOpen_shifted m
    · exact toWarning_reclose_shifted m
    · exact toIdle_shifted .idleOpen m
  · rw [hc]
    (repeat' split) <;> simp
  · have same : onPosition m = m := by
      rcases h with ⟨hp, hc⟩ | ⟨hl, h⟩
      · have rule := (onPosition_rule (s := m) (by simp [dcu, hc]) (fun h => h.2.2 (by rw [dcu, hc]))).1 (.inr (by rw [dcu, hc]))
        rw [rule, if_neg (by rwa [pos])]
      · have free : ¬ (lcHeld m = true ∧ m.trm.pos ≠ .closed ∧ m.dcu.ctl ≠ .closing) := by
          rw [lc, pos]
          exact fun h' => hl.elim (by simp [h'.1]) h'.2.1
        rcases h with ⟨hp, hc⟩ | ⟨hp, hc | hc⟩ | ⟨hp, hc⟩
        · rw [(onPosition_rule (s := m) (by simp [dcu, hc]) free).1 (.inl (by rw [dcu, hc])), if_neg (by rwa [pos])]
        · rw [(onPosition_rule (s := m) (by simp [dcu, hc]) free).2.2.1 (by rw [dcu, hc]), if_neg (by rwa [pos])]
        · rw [(onPosition_rule (s := m) (by simp [dcu, hc]) free).2.1 (by rw [dcu, hc]), if_neg (by rwa [pos])]
        · rw [(onPosition_rule (s := m) (by simp [dcu, hc]) free).2.2.2.1 (by rw [dcu, hc]), if_neg (by simpa [pos] using hp)]
    obtain ⟨t, hx, hd, ht, hp, ha, he, ho, hh⟩ := still same
    exact ⟨t, hx, hd, ht.trans (congrArg State.trm named), hp, ha.trans (congrArg State.alu named), he, ho, hh⟩
  · rw [onPosition_closes (lc.trans hl) (by rwa [pos]) (by rwa [dcu]) (by rwa [dcu]), ← dcu]
    exact toClosing_shifted .lever m
  · exact nc.symm
  · have rule := (onPosition_rule (s := m) (by simp [dcu, hc]) (fun h => by simp [lc, hl] at h)).2.1 (by rw [dcu, hc])
    rw [rule, if_pos (pos.trans hp), ← dcu]
    split
    · exact toHeldOpen_shifted m
    · exact toIdle_shifted .idleOpen m
  · rw [hc]
    split <;> simp
  · have ni : m.dcu.ctl ≠ .inactive := by
      rintro h
      rw [dcu] at h
      simp [h, Ctl.isIdle] at hi
    have rule := (onPosition_rule ni (fun h => by simp [lc, hl] at h)).2.2.2.2 (by rwa [dcu])
    rw [rule, toMatching_rests (.inl (lc.trans hl)) (.inl (by simp [requestStands_eq, lo, ho])) (.inl (by rwa [dcu])), ← pos, ← dcu]
    exact toIdle_shifted _ m
  · exact hc.symm
  · have ni : s.dcu.ctl.isIdle = true → m.dcu.ctl ≠ .inactive := by
      rw [dcu]
      rintro hi hc
      simp [hc, Ctl.isIdle] at hi
    have free : ¬ (lcHeld m = true ∧ m.trm.pos ≠ .closed ∧ m.dcu.ctl ≠ .closing) :=
      fun h => hl.elim (by simp [← lc, h.1]) (by simpa [pos] using h.2.1)
    have settled : Shifted m m.rest (onPosition m) ∧ m.rest.ctl ≠ s.dcu.ctl := by
      rcases h with ⟨hp, hc⟩ | ⟨hi, hc⟩
      · refine ⟨onPosition_leavesOpen (dcu ▸ hc) (by rwa [pos]) (by rwa [lc, pos]) (by rwa [dcu]), ?_⟩
        rw [hc]
        exact rest_off_open (by rwa [pos])
      · have ne : m.rest.ctl ≠ s.dcu.ctl := by
          simp only [State.rest, State.judged, dcu, lo, pos, conf, enu', psu', suc]
          exact Ne.symm hc
        rw [(onPosition_rule (ni hi) free).2.2.2.2 (by rwa [dcu])]
        exact ⟨(toMatching_settles (by rwa [lc, pos])).shifted (by rwa [dcu]) (by rwa [dcu]), ne⟩
    obtain ⟨shifted, ne⟩ := settled
    simp only [State.rest, State.judged, dcu, lo, pos, conf, enu', psu', suc] at shifted ne
    exact ⟨_, run, moved _ shifted ne⟩
  · have ni : m.dcu.ctl ≠ .inactive := by
      rintro h
      rw [dcu] at h
      simp [h, Ctl.isIdle] at hi
    have same : m.dcu.ctl = m.rest.ctl := by
      simp only [State.rest, State.judged, dcu, lo, pos, conf, enu', psu', suc]
      exact hc
    have settles : Settles m m.rest (onPosition m) := by
      rw [(onPosition_rule ni (fun h => hl.elim (by simp [← lc, h.1]) (by simpa [pos] using h.2.1))).2.2.2.2 (by rwa [dcu])]
      exact toMatching_settles (by rwa [lc, pos])
    obtain ⟨hd, ht, hp, ha, he, hh, mode, cd, wcause⟩ := settles.still (by rwa [dcu]) same (by rwa [dcu]) (by rwa [dcu])
    have quiet : doorEvent onPosition m = onPosition m := by
      refine doorEvent_quiet ?_ (by rw [hp])
      simp [reportDiffers, hd, ← same, mode, cd, wcause]
    refine ⟨_, run, ?_⟩
    simp only [State.rest, State.judged, dcu, lo, pos, conf, enu', psu', suc] at hd
    rw [quiet]
    exact ⟨hd, (ht.trans trm).trans (congrArg State.trm named), hp.trans psu, (ha.trans alu).trans (congrArg State.alu named),
      he.trans enu, rfl, (hands1.trans hh).trans (setOuts_hands _)⟩

end Sys2Proof.Machine
end

