-- ==== Sys2Proof/Proofs/Gates.lean ====
section
/-! SUPPORT and PROOFS. Stops of the opening stroke, gates, mains and the pump (R23, R46, R48, R53 to R66). -/

namespace Sys2Proof.Machine

/-! ### Stops (R23) -/

/-- The lockout set, as a stop does (R23). -/
def State.locked (s : State) : State := { s with dcu := { s.dcu with lockout := true } }

/-- The items of an opening that is stopped (R23). -/
def State.stopped (s : State) : Dcu :=
  if s.dcu.cd = true then
    if s.trm.pos = .closed then s.locked.dcu.enter .idleClosed .noCause s.dcu.wcause none .stopped
    else s.locked.dcu.enter .warning .noCause .reclose (some s.conf.recloseDelay) .stopped
  else s.locked.dcu.enter (idleFor s.trm.pos) .noCause s.dcu.wcause none .stopped

theorem onStop_shifted {s : State} (hc : s.dcu.ctl = .opening) (lc : lcHeld s = false) : Shifted s s.stopped (onStop s) := by
  have stops : onStop s = stopOrReclose s.locked := if_pos hc
  have here : stopOrReclose s.locked = if s.dcu.cd = true then
      if s.trm.pos = .closed then toIdle .idleClosed s.locked else toWarning .reclose s.locked else toMatching s.locked := rfl
  rw [stops, here, State.stopped]
  by_cases cd : s.dcu.cd = true
  · rw [if_pos cd, if_pos cd]
    by_cases hp : s.trm.pos = .closed
    · rw [if_pos hp, if_pos hp]
      exact (toIdle_shifted .idleClosed s.locked).of_dcu rfl rfl
    · rw [if_neg hp, if_neg hp]
      exact (toWarning_reclose_shifted s.locked).of_dcu rfl rfl
  · rw [if_neg cd, if_neg cd, toMatching_rests (s := s.locked) (.inl lc) (.inr rfl) (.inl (eq_false_of_ne_true cd))]
    exact (toIdle_shifted (idleFor s.trm.pos) s.locked).of_dcu rfl rfl

theorem stopped_leaves (s : State) : s.stopped.ctl ≠ .opening := by
  rw [State.stopped]
  have matching : idleFor s.trm.pos ≠ .opening := by cases s.trm.pos <;> simp [idleFor]
  (repeat' split) <;> simp [matching]

theorem onStop_elsewhere {s : State} (hc : s.dcu.ctl ≠ .opening) : onStop s = s := if_neg hc

/-- A stop behind an alarm of its event (R46, R48). -/
theorem stop_behind_alarm {b x : State} {q : AlarmRequest} (hq : doorRequest q = true) (hc : b.dcu.ctl = .opening)
    (lc : lcHeld b = false) (dcu : x.dcu = b.dcu) (trm : x.trm = b.trm) (psu : x.psu = b.psu)
    (alu : applyRequest q x.alu = b.alu) (enu : x.enu = b.enu) (hands : HandsOn b x) :
    Moved b b.stopped (setOuts (doorEvent onStop (alarm q x))) := by
  have hands' := hands.trans (alarm_hands q x)
  have same : (alarm q x).stopped = b.stopped := by
    have conf : (alarm q x).conf = b.conf := by simp only [State.conf, hands'.suc]
    have hd : (alarm q x).dcu = b.dcu := by simp [dcu]
    have ht : (alarm q x).trm = b.trm := by simp [trm]
    simp only [State.stopped, State.locked, conf, hd, ht]
  have shifted := onStop_shifted (s := alarm q x) (by simpa [dcu] using hc) (by rw [lcHeld, hands'.deb]; exact lc)
  rw [same] at shifted
  refine shifted.doorEvent ?_ (by simp [dcu]) (by simp [trm]) (by simp [psu]) (by simp [alu])
    (by rw [alarm_enu_door _ _ hq, enu]) hands'
  rw [hc]
  exact stopped_leaves b

/-! ### Gates -/

/-- What the alarms of a gate leave (R55, R61). -/
theorem gateAlarms_leaves (before after : Enu) (s : State) :
    (gateAlarms before after s).alu = applyRequests (
      (if before.oob ≠ 3 ∧ after.oob = 3 then [.becameTrue .pressureSensor]
        else if before.inb ≠ 3 ∧ after.inb = 3 then [.becameFalse .pressureSensor] else []) ++
      (if energyLow before = energyLow after then [] else [condition .energyLow (energyLow after)])) s.alu ∧
    (gateAlarms before after s).enu = s.enu := by
  have cond : ∀ x : State, (alarm (condition .energyLow (energyLow after)) x).enu = x.enu := fun x =>
    alarm_condition_enu _ _ _ rfl
  constructor
  · simp only [gateAlarms]
    (repeat' split) <;> simp [applyRequests]
  · simp only [gateAlarms]
    (repeat' split) <;> simp [cond, alarm_enu_door, doorRequest, isEvent]

/-- A gate that has ended, judged, before it is handed on. -/
def State.gateJudged (s : State) : State := { s with enu := judgeGate s.conf s.enu }

theorem exec_gateEnd {s : State} (h : s.enu.running = true) :
    exec .gateEnd s = .next (setOuts (gateHandsOn s.enu (judgeGate s.conf s.enu) s.gateJudged)) := by
  have : exec .gateEnd s = execGateEnd s := rfl
  rw [this, execGateEnd, if_pos h]
  rfl

/-- What a gate's end does behind its alarms where the door is opening (R59): the standing request waits, and the stop acts alone. -/
theorem gateHandsOn_opening {before after : Enu} {s : State} (hc : s.dcu.ctl = .opening) :
    (gateHandsOn before after s).dcu = (if after.permCont then s.dcu else (onStop (gateAlarms before after s)).dcu) ∧
      (gateHandsOn before after s).trm = (if after.permCont then s.trm else (onStop (gateAlarms before after s)).trm) := by
  have waits : doorEvent evaluateStanding (gateAlarms before after s) = gateAlarms before after s :=
    doorEvent_same (by simp [evaluateStanding, hc])
  simp only [gateHandsOn, waits, ite_self]
  split <;> simp [doorEvent]

/-! ### Stops of the opening stroke (R23, R46, R48, R59) -/

theorem finding_outs {q : AlarmRequest} (hq : doorRequest q = true) (f : Option Finding) (s : State) :
    Raised s (setFinding f s) q (setOuts (alarm q (setFinding f s))) :=
  (raised_alarm ((HandsOn.carried s).trm _ (.same s)) hq).setOuts

/-- Settles O19: each cause makes the stop behind its alarm, and a second finding adds its alarm alone. -/
theorem openingStrokeIsStopped : Obligations.OpeningStrokeIsStopped := by
  intro s on lc
  have window : exec .stallWindowEnd s = execStallWindowEnd s := rfl
  refine ⟨fun hc => ⟨fun ms w hs ht hw => ?_, fun w hs hw hn hl => ?_, fun hr hp => ?_⟩, fun hs hw => ⟨fun ms hf ht => ?_, fun w hf hn hl => ?_⟩⟩
  · have run : exec .openMaximumPassed s = .next (setOuts (doorEvent onStop (alarm (.occurred .openTimeout)
        (setFinding (timeoutFinding s.trm) (passMaximum (s.conf.openMax * 1000) s))))) := by
      have timed : s.trm.stroke = some .opening ∧ s.trm.strokeTimer.isRunning = true := by simp [hs, ht, Watch.isRunning]
      have : exec .openMaximumPassed s = execOpenMaximumPassed s := rfl
      rw [this, execOpenMaximumPassed, if_pos timed]
      rfl
    refine ⟨_, run, stop_behind_alarm rfl hc lc rfl ?_ rfl rfl rfl (HandsOn.door _ _ _ _ _ _)⟩
    simp [setFinding, passMaximum, timeoutFinding, ht, hw, Watch.expire]
  · have run : exec .stallWindowEnd s = .next (setOuts (doorEvent onStop (alarm (.occurred .stall)
        (setFinding (some .stall) { s with trm := { s.trm with stall := some ⟨0, w.number + 1, 0⟩ } })))) := by
      rw [window, execStallWindowEnd, hw]
      simp [windowEnds, stalls, hn, hl, hs, finish]
    exact ⟨_, run, stop_behind_alarm rfl hc lc rfl rfl rfl rfl rfl (HandsOn.door _ _ _ _ _ _)⟩
  · obtain ⟨alu, enu⟩ := gateAlarms_leaves s.enu (judgeGate s.conf s.enu) s.gateJudged
    obtain ⟨dcu, trm⟩ := gateHandsOn_opening (before := s.enu) (after := judgeGate s.conf s.enu) (s := s.gateJudged) hc
    have alarmed : (gateAlarms s.enu (judgeGate s.conf s.enu) s.gateJudged).stopped = s.stopped := by
      have hd : (gateAlarms s.enu (judgeGate s.conf s.enu) s.gateJudged).dcu = s.dcu := by simp [State.gateJudged]
      have ht : (gateAlarms s.enu (judgeGate s.conf s.enu) s.gateJudged).trm = s.trm := by simp [State.gateJudged]
      have conf : (gateAlarms s.enu (judgeGate s.conf s.enu) s.gateJudged).conf = s.conf := by simp [State.conf, State.gateJudged]
      simp only [State.stopped, State.locked, conf, hd, ht]
    have shifted := onStop_shifted (s := gateAlarms s.enu (judgeGate s.conf s.enu) s.gateJudged)
      (by simpa [State.gateJudged] using hc) (by simpa [lcHeld, State.gateJudged] using lc)
    rw [alarmed] at shifted
    have conf : (gateAlarms s.enu (judgeGate s.conf s.enu) s.gateJudged).conf = s.conf := by simp [State.conf, State.gateJudged]
    have permCont : (gateAlarms s.enu (judgeGate s.conf s.enu) s.gateJudged).enu.permCont = false := by rw [enu]; exact hp
    rw [if_neg (by simp [hp])] at dcu trm
    have dcu' := dcu.trans shifted.dcu
    rw [permCont] at dcu'
    refine ⟨_, exec_gateEnd hr, dcu', ?_, ?_, rfl⟩
    · have : (setOuts (gateHandsOn s.enu (judgeGate s.conf s.enu) s.gateJudged)).dcu.vop = (s.stopped.driven false).vop := by rw [← dcu']; rfl
      rw [this]
      simp [Dcu.driven, stopped_leaves]
    · have kept : (gateAlarms s.enu (judgeGate s.conf s.enu) s.gateJudged).trm = s.trm := by simp [State.gateJudged]
      have driven := trm.trans shifted.trm
      rw [conf, ← dcu, kept] at driven
      exact driven
  · have run : exec .openMaximumPassed s = .next (setOuts (alarm (.occurred .openTimeout) (setFinding none s))) := by
      have : exec .openMaximumPassed s = execOpenMaximumPassed s := rfl
      rw [this, execOpenMaximumPassed, if_neg (by simp [hs]), if_pos hf]
      rfl
    obtain ⟨dcu, trm, psu, alu, enu, hands⟩ := finding_outs (q := .occurred .openTimeout) rfl none s
    exact ⟨_, run, trm, alu, dcu, psu, enu, rfl, hands⟩
  · have run : exec .stallWindowEnd s = .next (setOuts (alarm (.occurred .stall) (setFinding none s))) := by
      rw [window, execStallWindowEnd, hw, hf]
      simp [stalls, hn, hl, finish]
    obtain ⟨dcu, trm, psu, alu, enu, hands⟩ := finding_outs (q := .occurred .stall) rfl none s
    exact ⟨_, run, trm, alu, dcu, psu, enu, rfl, hands⟩

/-! ### Pump control (R64 to R66) -/

/-- Pump control changes the pump and its run timer alone (R64). -/
@[simp] theorem pumpControl_keeps (c : Cfg) (m : Bool) (e : Enu) :
    (pumpControl c m e).running = e.running ∧ (pumpControl c m e).gate = e.gate ∧ (pumpControl c m e).tally = e.tally ∧
    (pumpControl c m e).lastN = e.lastN ∧ (pumpControl c m e).oob = e.oob ∧ (pumpControl c m e).inb = e.inb ∧
    (pumpControl c m e).p = e.p ∧ (pumpControl c m e).u = e.u ∧ (pumpControl c m e).closes = e.closes ∧
    (pumpControl c m e).permStart = e.permStart ∧ (pumpControl c m e).permCont = e.permCont ∧
    (pumpControl c m e).locked = e.locked := by
  simp only [pumpControl]
  (repeat' split) <;> simp

theorem pumpControl_stopped {c : Cfg} {m : Bool} {e : Enu} (h : e.running = false) : pumpControl c m e = e := by
  simp [pumpControl, h]

/-- The pump by the table of R64. -/
theorem pumpControl_on {c : Cfg} {m : Bool} {e : Enu} (h : e.running = true) :
    (pumpControl c m e).pumpOn = (m && !e.locked && e.p.any (fun p =>
      if e.pumpOn then decide (p < c.pOff) else decide (p < c.pOn))) := by
  cases hm : m <;> cases hl : e.locked <;> cases ho : e.pumpOn <;> cases hp : e.p <;>
    simp [pumpControl, h, hl, ho, hp, atLeast] <;> split <;> simp_all

/-- Pump control in a unit that runs only in a running door hands on no more than `HandsOn` says. -/
theorem pump_hands {s : State} {e : Enu} (h : PumpHanded s.enu e) (hd : s.doorRuns = false → e = s.enu) :
    HandsOn s { s with enu := e } := by
  constructor
  case laneA => exact .inl rfl
  case laneB => exact .inl rfl
  case demandOnce => exact .inl rfl
  case stateOnce => exact .inl rfl
  case pump => exact h
  case pumpDoor => exact hd
  case panel => rfl
  all_goals simp

theorem pumpActs_hands {s : State} (h : s.enu.running = true → s.doorRuns = true) : HandsOn s (pumpActs s) := by
  refine pump_hands (pumpControl_handed _ _ _) fun hd => pumpControl_stopped ?_
  by_contra hr
  simp [h (eq_true_of_ne_false hr)] at hd

/-- A lock on a pump that is off: nothing but the lock follows (R66). -/
theorem setLocked_off {s : State} (h : s.enu.pumpOn = false) : (setLocked true s).enu = { s.enu with locked := true } := by
  simp [setLocked, pumpActs, pumpControl, h]

theorem setLocked_hands {s : State} (h : s.doorRuns = true) (b : Bool) : HandsOn s (setLocked b s) :=
  pump_hands (PumpHanded.trans' (e := { s.enu with locked := b }) rfl (pumpControl_handed _ _ _)) (by simp [h])

/-- A PUMP_FAIL event at a door whose pump is off locks it, unless a record locked it before (R96). -/
theorem pumpFail_enu {s : State} (h : s.enu.pumpOn = false) (on : s.doorRuns = true) :
    (alarm (.occurred .pumpFail) s).enu = { s.enu with locked := s.enu.locked || !hasKind .pumpFail s.alu } := by
  have here := occurred_hasKind .pumpFail s.alu
  have report : (pumpReport s.alu (applyRequest (.occurred .pumpFail) s.alu)
      { s with alu := applyRequest (.occurred .pumpFail) s.alu }).enu =
      { s.enu with locked := s.enu.locked || !hasKind .pumpFail s.alu } := by
    cases was : hasKind .pumpFail s.alu with
    | true => simp [pumpReport, was, here]
    | false =>
      simp only [pumpReport, here, was, Bool.not_false, Bool.and_self, if_true]
      rw [setLocked_off (by exact h)]
      simp
  simp only [alarm, on, if_true]
  split <;> simpa using report

/-- Settles O24: the mains by its alarm and by pump control, the run limit by PUMP_FAIL and the lock. -/
theorem mainsAndPumpLimitActOnThePump : Obligations.MainsAndPumpLimitActOnThePump := by
  intro s
  refine ⟨fun made hm => ⟨fun hr => ?_, fun hr => ?_⟩, fun hp on => ?_⟩
  · simp [exec, execMainsDebouncedChange, hm, hr, finish]
  · obtain ⟨x, hx⟩ : ∃ x, x = alarm (condition .mainsLoss (!made)) (setDebounced .mains made s) := ⟨_, rfl⟩
    have run : exec (.mainsDebouncedChange made) s = .next (setOuts (pumpActs x)) := by
      simp [exec, execMainsDebouncedChange, hm, hr, finish, hx]
    have enu : x.enu = s.enu := by rw [hx, alarm_condition_enu _ _ _ rfl]; rfl
    have mains : x.deb.mains = made := by simp [hx, PerLead.set]
    have conf : x.conf = s.conf := by simp [hx, State.conf]
    have acted : (pumpActs x).enu = pumpControl s.conf made s.enu := by simp [pumpActs, enu, mains, conf]
    have hands := alarm_hands (condition .mainsLoss (!made)) (setDebounced .mains made s)
    rw [← hx] at hands
    refine ⟨_, run, by simp [hx], ⟨by simp [hx], by simp [hx], by simp [hx]⟩, fun he => ?_, fun he => ?_, ?_, rfl, fun hd => ?_⟩
    · simp only [setOuts_keeps, acted, pumpControl_on he]
    · simp only [setOuts_keeps, acted, pumpControl_stopped he]
    · simp [acted]
    · refine (hands.trans (pumpActs_hands ?_)).trans (setOuts_hands _)
      rw [enu, State.doorRuns, State.conf, hands.suc]
      exact hd
  · obtain ⟨x, hx⟩ : ∃ x : State, x = { s with enu := { s.enu with pumpOn := false, run := none } } := ⟨_, rfl⟩
    have run : exec .pumpRunLimit s = .next (setOuts (setLocked true (alarm (.occurred .pumpFail) x))) := by
      simp [exec, execPumpRunLimit, hp, finish, hx]
    have onX : x.doorRuns = true := by rw [hx]; exact on
    have off : x.enu.pumpOn = false := by simp [hx]
    have enu := pumpFail_enu off onX
    have hands := alarm_hands (.occurred .pumpFail) x
    refine ⟨_, run, ?_, by simp [hx], ⟨by simp [hx], by simp [hx], by simp [hx]⟩, rfl, ?_⟩
    · rw [(setOuts_keeps _).2.2.2.2.2.2.2.1, setLocked_off (by rw [enu]; exact off), enu]
      simp [hx]
    · have start : HandsOn s x := by
        rw [hx]
        exact pump_hands rfl (by simp [on])
      refine ((start.trans hands).trans (setLocked_hands ?_ true)).trans (setOuts_hands _)
      rw [State.doorRuns, State.conf, hands.suc]
      exact onX

end Sys2Proof.Machine
end

