-- ==== Sys2Proof/Proofs/Counts.lean ====
section
/-! SUPPORT and PROOFS. The position count's bounds over every step (R32, R38 to R41). -/

namespace Sys2Proof.Machine

/-- What the bounds look at: the count and its reference, and start-up control as far as it tells which role runs. -/
structure SameCount (s t : State) : Prop where
  count : t.trm.count = s.trm.count
  ref : t.trm.ref = s.trm.ref
  overrun : t.trm.overrun = s.trm.overrun
  running : t.trm.running = s.trm.running
  conf : t.conf = s.conf
  startUp : t.suc.startUp.running = s.suc.startUp.running

theorem CountBounded.of_same {s t : State} (h : CountBounded s) (k : SameCount s t) : CountBounded t := by
  obtain ⟨count, ref, overrun, running, conf, startUp⟩ := k
  obtain ⟨referenced, free, runs, monitor, idle, travel⟩ := h
  constructor
  case referenced => rwa [count, ref, overrun, conf]
  case free => rwa [count, ref]
  case runs => rwa [running, startUp]
  case monitor => rwa [State.doorRuns, startUp, conf, running]
  case idle => rwa [startUp, ref]
  case travel => rwa [conf]

theorem SameCount.of_trm {s t : State} (suc : t.suc = s.suc) (count : t.trm.count = s.trm.count) (ref : t.trm.ref = s.trm.ref)
    (overrun : t.trm.overrun = s.trm.overrun) (running : t.trm.running = s.trm.running) : SameCount s t :=
  ⟨count, ref, overrun, running, by rw [State.conf, suc]; rfl, by rw [suc]⟩

theorem SameCount.of_eq {s t : State} (suc : t.suc = s.suc) (trm : t.trm = s.trm) : SameCount s t :=
  .of_trm suc (by rw [trm]) (by rw [trm]) (by rw [trm]) (by rw [trm])

theorem CountBounded.of_eq {s t : State} (h : CountBounded s) (suc : t.suc = s.suc) (trm : t.trm = s.trm) : CountBounded t :=
  h.of_same (.of_eq suc trm)

theorem CountBounded.aside : Aside CountBounded where
  offer := fun s h => h.of_eq (by simp) (by simp)
  alarm := fun q s _ h => h.of_eq (by simp) (by simp)
  ack := fun s _ h => h.of_eq (by simp) (by simp)
  lane := fun s id l _ h => h.of_eq (by simp) (by simp)
  rxq := fun s q _ h => h.of_eq rfl rfl
  snu := fun s n h => h.of_eq rfl rfl
  pnu := fun s p h => h.of_eq rfl rfl
  dgp := fun s d h => h.of_eq rfl rfl
  clear := fun s h => h.of_eq (by simp) (by simp)

/-- A lever's event leaves the count. -/
theorem CountBounded.lever {s : State} (h : CountBounded s) (l : Lead) (m : Bool) (g : PerLead Bool → PerLead Bool → Bool)
    {f : State → State} (k : ∀ x, SameCount x (f x)) : CountBounded (setOuts (leverChange l m g f s)) := by
  have start : CountBounded (setDebounced l m s) := h.of_eq (by simp) (by simp)
  have event : CountBounded (doorEvent f (setDebounced l m s)) := (start.of_same (k _)).of_eq (by simp [doorEvent]) (by simp [doorEvent])
  have all : CountBounded (leverChange l m g f s) := by
    simp only [leverChange]
    exact Carried.ite (P := CountBounded) h (Carried.ite (P := CountBounded) event start)
  exact all.of_eq rfl rfl

/-- A reference is within the bounds (R40). -/
theorem CountBounded.arrived {s : State} (h : CountBounded s) (hr : s.trm.running = true) (limit : Limit) (t : State) (suc : t.suc = s.suc)
    (count : t.trm.count = (s.trm.arrived s.conf limit s.deb).count) (ref : t.trm.ref = (s.trm.arrived s.conf limit s.deb).ref)
    (overrun : t.trm.overrun = (s.trm.arrived s.conf limit s.deb).overrun)
    (running : t.trm.running = (s.trm.arrived s.conf limit s.deb).running) : CountBounded t := by
  obtain ⟨closed, opened, other, -, running', -⟩ := Trm.arrived_reference s.conf limit s.deb s.trm
  have taken : ∀ v : Int, 0 ≤ v → v ≤ s.conf.travelCount → t.trm.count = v → t.trm.ref = true → t.trm.overrun = 0 →
      CountBounded t := by
    intro v h0 hv hc hf ho
    have conf : t.conf = s.conf := by rw [State.conf, suc]; rfl
    have on : t.suc.startUp.running = true := by rw [suc]; exact h.runs hr
    refine ⟨fun _ => ?_, by simp [hf], fun _ => on, fun _ => running.trans (running'.trans hr), by simp [on], by rw [conf]; exact h.travel⟩
    rw [hc, ho, conf]
    exact ⟨h0, hv, Nat.zero_le _⟩
  cases hp : positionOf s.deb with
  | closed =>
    obtain ⟨hc, hf, ho⟩ := closed hp
    exact taken 0 (by simp) (by simp) (count.trans hc) (ref.trans hf) (overrun.trans ho)
  | opened =>
    obtain ⟨hc, hf, ho⟩ := opened hp
    exact taken _ (by simp) (by simp) (count.trans hc) (ref.trans hf) (overrun.trans ho)
  | between =>
    obtain ⟨hc, hf, ho⟩ := other (.inl hp)
    exact h.of_same (.of_trm suc (count.trans hc) (ref.trans hf) (overrun.trans ho) (running.trans running'))
  | unknown =>
    obtain ⟨hc, hf, ho⟩ := other (.inr hp)
    exact h.of_same (.of_trm suc (count.trans hc) (ref.trans hf) (overrun.trans ho) (running.trans running'))

/-- A pulse stays within the bounds (R38, R39, R41). -/
theorem CountBounded.pulsed {s : State} (h : CountBounded s) (hr : s.trm.running = true) (up : Bool) : CountBounded (takePulse up s) := by
  obtain ⟨trm, -, -⟩ := takePulse_leaves up s
  have conf : (takePulse up s).conf = s.conf := by simp [State.conf]
  have on := h.runs hr
  obtain ⟨held, hh⟩ : ∃ b, b = (s.trm.pos == .closed || s.trm.pos == .opened) := ⟨_, rfl⟩
  obtain ⟨beyond, hb⟩ : ∃ b, b = (s.trm.ref && !held &&
    (if up then decide ((s.conf.travelCount : Int) ≤ s.trm.count) else decide (s.trm.count ≤ 0))) := ⟨_, rfl⟩
  obtain ⟨dropped, hd⟩ : ∃ b, b = (beyond && decide (s.conf.overrunSlack < s.trm.overrun + 1)) := ⟨_, rfl⟩
  rw [pulse_eq s.conf up s.trm held beyond dropped hh hb hd] at trm
  have count : (takePulse up s).trm.count = if s.trm.ref = true then
      if held = true ∨ beyond = true then s.trm.count else if up then s.trm.count + 1 else s.trm.count - 1
      else if up then min (s.trm.count + 1) 32767 else max (s.trm.count - 1) (-32768) := by rw [trm]; rfl
  have ref : (takePulse up s).trm.ref = (s.trm.ref && !dropped) := by rw [trm]; rfl
  have overrun : (takePulse up s).trm.overrun = if beyond then s.trm.overrun + 1 else s.trm.overrun := by rw [trm]; rfl
  have inside : s.trm.ref = true → 0 ≤ (takePulse up s).trm.count ∧ (takePulse up s).trm.count ≤ s.conf.travelCount := by
    intro hf
    obtain ⟨h0, h1, -⟩ := h.referenced hf
    rw [count, if_pos hf]
    by_cases hx : held = true ∨ beyond = true
    · rw [if_pos hx]
      exact ⟨h0, h1⟩
    · obtain ⟨hn, hy⟩ := not_or.mp hx
      rw [if_neg hx]
      cases up <;> simp_all <;> omega
  have travel := h.travel
  constructor
  case referenced =>
    intro hf
    rw [ref, Bool.and_eq_true, Bool.not_eq_true'] at hf
    obtain ⟨-, -, h2⟩ := h.referenced hf.1
    obtain ⟨h0, h1⟩ := inside hf.1
    refine ⟨h0, by rwa [conf], ?_⟩
    rw [overrun, conf]
    split
    · simp_all
    · exact h2
  case free =>
    intro hf
    rw [ref, Bool.and_eq_false_iff] at hf
    cases hr' : s.trm.ref with
    | true =>
      obtain ⟨h0, h1⟩ := inside hr'
      omega
    | false =>
      obtain ⟨h0, h1⟩ := h.free hr'
      rw [count, hr']
      cases up <;> simp <;> omega
  case runs => simp [on]
  case monitor => exact fun _ => by rw [trm]; exact hr
  case idle => simp [on]
  case travel => rwa [conf]

/-- The travel monitor's start takes a reference at a limit (R32). -/
theorem CountBounded.started {s : State} (hf : s.trm.ref = false → -32768 ≤ s.trm.count ∧ s.trm.count ≤ 32767)
    (was : s.trm.ref = false) (on : s.suc.startUp.running = true) (travel : s.conf.travelCount ≤ 32767) :
    CountBounded (startTrm s) := by
  have conf : (startTrm s).conf = s.conf := rfl
  obtain ⟨h0, h1⟩ := hf was
  constructor
  case referenced =>
    rw [conf]
    intro _
    simp only [startTrm, setTrm] at *
    cases hp : s.trm.pos <;> simp_all
  case free =>
    intro _
    simp only [startTrm, setTrm] at *
    cases hp : s.trm.pos <;> simp_all
  case runs => exact fun _ => on
  case monitor => exact fun _ => rfl
  case idle => exact fun h => absurd on (by simpa using h)
  case travel => exact travel

/-- The travel count of an accepted image (10.4). -/
theorem configOf_travelCount (image : List Byte) : (configOf image).travelCount ≤ 4095 := by
  simp only [configOf]
  split
  · have : takenAt image 18 = max 200 (min 4095 ((fieldAt 18).raw image)) := rfl
    omega
  · omega

/-! ### Every command -/

theorem CountBounded.doorEvent {s : State} (h : CountBounded s) {f : State → State} (k : SameCount s (f s)) :
    CountBounded (doorEvent f s) :=
  (h.of_same k).of_eq (by simp [Machine.doorEvent]) (by simp [Machine.doorEvent])

theorem CountBounded.doorCommand {i : Instr} (hi : DoorCommand i) {s : State} (h : CountBounded s) :
    Gives CountBounded (exec i s) := by
  have outs : ∀ x, CountBounded x → CountBounded (setOuts x) := fun x h => h.of_eq rfl rfl
  have timer : ∀ (q : AlarmRequest) (x : State), SameCount s x → CountBounded (setOuts (alarm q x)) :=
    fun q x k => outs _ ((h.of_same k).of_eq (by simp) (by simp))
  have stop : ∀ (q : AlarmRequest) (x : State), SameCount s x → CountBounded (Machine.doorEvent onStop (alarm q x)) :=
    fun q x k => CountBounded.doorEvent ((h.of_same k).of_eq (by simp) (by simp))
      (.of_trm (by simp) (by simp) (by simp) (by simp) (by simp))
  cases hi with
  | limitDebouncedChange limit made =>
    have start : CountBounded (setDebounced limit.lead made s) := h.of_eq rfl rfl
    refine .ite (fun _ => .next h) fun _ => .ite (fun hr => .finish (outs _ ?_)) fun _ =>
      .finish (outs _ (start.of_same (.of_trm rfl rfl rfl rfl rfl)))
    by_cases hp : positionOf (setDebounced limit.lead made s).deb = (setDebounced limit.lead made s).trm.pos
    · have acts : limitActs limit (setDebounced limit.lead made s) = clearWatch _ _ _ (setTrm _ _) := if_pos hp
      rw [acts]
      exact start.of_same (.of_trm (by simp) (by simp [setTrm]) (by simp [setTrm]) (by simp [setTrm]) (by simp [setTrm]))
    · obtain ⟨-, running, -, -, count, ref, overrun⟩ := limitActs_leaves (limit := limit) hp
      exact start.arrived hr limit _ (by simp) count ref overrun running
  | lcPressed side => exact .finish (h.lever _ _ _ fun x => .of_trm (by simp) (by simp) (by simp) (by simp) (by simp))
  | lcReleased side => exact .finish (h.lever _ _ _ fun x => .of_trm (by simp) (by simp) (by simp) (by simp) (by simp))
  | loPressed side => exact .finish (h.lever _ _ _ fun x => .of_trm (by simp) (by simp) (by simp) (by simp) (by simp))
  | loReleased side => exact .finish (h.lever _ _ _ fun x => .of_trm (by simp) (by simp) (by simp) (by simp) (by simp))
  | warningTimerExpiry =>
    exact .ite (fun _ => .finish (outs _ (h.doorEvent (.of_trm (by simp) (by simp) (by simp) (by simp) (by simp))))) fun _ => .next h
  | pauseTimerExpiry valve => exact .finish (outs _ (h.of_same (.of_trm (by simp) (by simp) (by simp) (by simp) (by simp))))
  | heldOpenLimit => exact .ite (fun _ => .finish (timer _ _ (.of_eq rfl rfl))) fun _ => .next h
  | discordTimerExpiry => exact .ite (fun _ => .finish (timer _ _ (.of_trm rfl rfl rfl rfl rfl))) fun _ => .next h
  | conflictTimerExpiry => exact .ite (fun _ => .finish (timer _ _ (.of_trm rfl rfl rfl rfl rfl))) fun _ => .next h
  | positionPulse up since =>
    refine .ite (fun hr => .finish (outs _ (h.pulsed ?_ up))) fun _ => .next h
    simp only [Bool.and_eq_true] at hr
    exact hr.1
  | closeMaximumPassed => exact .ite (fun _ => .finish (timer _ _ (.of_trm rfl rfl rfl rfl rfl))) fun _ => .next h
  | openMaximumPassed =>
    exact .ite (fun _ => .finish (outs _ (stop _ _ (.of_trm rfl rfl rfl rfl rfl)))) fun _ =>
      .ite (fun _ => .finish (timer _ _ (.of_trm rfl rfl rfl rfl rfl))) fun _ => .next h
  | stallWindowEnd =>
    change Gives CountBounded (execStallWindowEnd s)
    rw [execStallWindowEnd]
    split
    · refine .finish (outs _ ?_)
      simp only [windowEnds]
      (repeat' split)
      · exact stop _ _ (.of_trm rfl rfl rfl rfl rfl)
      · exact h.of_same (.of_trm (by simp) (by simp) (by simp) (by simp) (by simp))
      · exact h.of_same (.of_trm rfl rfl rfl rfl rfl)
    · exact .ite (fun _ => .finish (timer _ _ (.of_trm rfl rfl rfl rfl rfl))) fun _ => .next (h.of_same (.of_trm rfl rfl rfl rfl rfl))
    · exact .next h
  | handMoveArmingExpiry => exact .ite (fun _ => .next (h.of_same (.of_trm rfl rfl rfl rfl rfl))) fun _ => .next h
  | handMoveWindowEnd => exact .ite (fun _ => .next (h.of_same (.of_trm rfl rfl rfl rfl rfl))) fun _ => .next h
  | claimHoldExpiry =>
    exact .ite (fun _ => .finish (outs _ (h.doorEvent (.of_trm (by simp) (by simp) (by simp) (by simp) (by simp))))) fun _ => .next h

theorem CountBounded.tableCommand {i : Instr} (hi : TableCommand i) {s : State} (h : CountBounded s) :
    Gives CountBounded (exec i s) := by
  have outs : ∀ x, CountBounded x → CountBounded (setOuts x) := fun x h => h.of_eq rfl rfl
  cases hi with
  | telegramTaken =>
    change Gives CountBounded (execTelegramTaken s)
    rw [execTelegramTaken]
    split
    · rename_i t rest hr hq
      have start : CountBounded { s with rxq := { s.rxq with queue := rest } } := h.of_eq rfl rfl
      refine .finish (outs _ (start.of_same ⟨by simp, by simp, by simp, by simp, ?_, ?_⟩))
      · simp only [takeTelegram, takeOwn]
        (repeat' split) <;> simp [State.conf]
      · simp only [takeTelegram, takeOwn]
        (repeat' split) <;> simp [hr, show StartUp.mute.running = true from rfl]
    · exact .next h
  | entryGoesStale station =>
    change Gives CountBounded (execEntryGoesStale station s)
    rw [execEntryGoesStale]
    split
    · exact .next h
    · exact .ite (fun _ => .finish (outs _ (h.of_same (.of_trm (by simp) (by simp) (by simp) (by simp) (by simp))))) fun _ => .next h
  | laneHeardAgeLimit station lane =>
    change Gives CountBounded (execLaneHeardAgeLimit station lane s)
    rw [execLaneHeardAgeLimit]
    split
    · exact .next h
    · exact .ite (fun _ => .next (h.of_eq (by simp) (by simp))) fun _ => .next h

theorem CountBounded.energyCommand {i : Instr} (hi : EnergyCommand i) {s : State} (h : CountBounded s) :
    Gives CountBounded (exec i s) := by
  have outs : ∀ x, CountBounded x → CountBounded (setOuts x) := fun x h => h.of_eq rfl rfl
  cases hi with
  | pfqPulse since => exact .ite (fun _ => .next (h.of_eq rfl rfl)) fun _ => .next h
  | gateEnd =>
    exact .ite (fun _ => .finish (outs _ (h.of_same (.of_trm (by simp) (by simp) (by simp) (by simp) (by simp))))) fun _ => .next h
  | mainsDebouncedChange made =>
    exact .ite (fun _ => .next h) fun _ => .ite (fun _ => .finish (outs _ (h.of_eq (by simp) (by simp)))) fun _ =>
      .finish (outs _ (h.of_eq (by simp) (by simp)))
  | pumpRunLimit => exact .ite (fun _ => .finish (outs _ (h.of_eq (by simp) (by simp)))) fun _ => .next h
  | alarmAgeTick kind => exact .next (h.of_eq rfl rfl)

/-- An accepted image leaves the count within its bounds (R32, R171). -/
theorem CountBounded.starts {s : State} (h : CountBounded s) (off : s.suc.startUp.running = false) (keys : BitVec 32) (image : List Byte)
    (x : State) (trm : x.trm = s.trm) : CountBounded (startBlocks keys (enterListen (configOf image) x)) := by
  have was := h.idle off
  have travel : (configOf image).travelCount ≤ 32767 := (configOf_travelCount image).trans (by norm_num)
  have conf : (enterListen (configOf image) x).conf = configOf image := rfl
  have trm' : (enterListen (configOf image) x).trm = s.trm := by simp [trm]
  cases hr : (enterListen (configOf image) x).conf.role with
  | door =>
    rw [startBlocks, hr]
    have started := CountBounded.started (s := { enterListen (configOf image) x with pnu := Pnu.reset })
      (by rw [show State.trm _ = s.trm from trm']; exact h.free) (by rw [show State.trm _ = s.trm from trm']; exact was) rfl travel
    have blocks : ∀ y : State, CountBounded y → CountBounded (startDcu (startMains (startEnu y))) := by
      intro y hy
      exact hy.of_same (.of_trm (by simp) (by simp [startDcu, Machine.doorEvent]) (by simp [startDcu, Machine.doorEvent])
        (by simp [startDcu, Machine.doorEvent]) (by simp [startDcu, Machine.doorEvent]))
    exact blocks _ started
  | panel =>
    rw [startBlocks, hr]
    refine CountBounded.of_eq (s := enterListen (configOf image) x) ?_ (by simp) (by simp)
    refine ⟨?_, ?_, fun _ => rfl, ?_, fun h => by simp [enterListen, StartUp.running] at h, travel⟩
    · rw [trm', was]
      simp
    · rw [trm']
      exact h.free
    · intro hd
      simp only [State.doorRuns, hr] at hd
      simp at hd

theorem CountBounded.startCommand {i : Instr} (hi : StartCommand i) {s : State} (h : CountBounded s) :
    Gives CountBounded (exec i s) := by
  have outs : ∀ x, CountBounded x → CountBounded (setOuts x) := fun x h => h.of_eq rfl rfl
  cases hi with
  | reset leads straps =>
    exact .next ⟨by simp [Trm.reset], by simp [Trm.reset], by simp [Trm.reset], by simp [State.doorRuns, Suc.reset, StartUp.running],
      fun _ => rfl, by simp [State.conf, Suc.reset, Config.absent]⟩
  | configAddressNotAcked =>
    refine .ite (fun hr => ?_) fun _ => .next h
    obtain ⟨off, -⟩ : s.suc.startUp = .loading ∧ s.suc.retryWait.isNone = true := by simpa [State.reads] using hr
    exact .ite (fun _ => .next (h.of_same ⟨rfl, rfl, rfl, rfl, rfl, by simp [enterFault, off, StartUp.running]⟩)) fun _ =>
      .next (h.of_same ⟨rfl, rfl, rfl, rfl, rfl, rfl⟩)
  | configRetryWaitExpiry => exact .ite (fun _ => .next (h.of_same ⟨rfl, rfl, rfl, rfl, rfl, rfl⟩)) fun _ => .next h
  | configReadDone image keys =>
    refine .ite (fun hr => ?_) fun _ => .next h
    obtain ⟨⟨off, -⟩, -⟩ : (s.suc.startUp = .loading ∧ s.suc.retryWait.isNone = true) ∧ _ := by
      simpa [State.reads] using hr
    exact .ite (fun _ => .next (h.of_same ⟨rfl, rfl, rfl, rfl, rfl, by simp [enterFault, off, StartUp.running]⟩)) fun _ =>
      .ite (fun _ => .next (h.of_same ⟨rfl, rfl, rfl, rfl, rfl, by simp [enterFault, off, StartUp.running]⟩)) fun _ =>
      .finish (outs _ (h.starts (by simp [off, StartUp.running]) keys image _ rfl))
  | csdLowAfterNineClocks =>
    refine .ite (fun hr => ?_) fun _ => .next h
    obtain ⟨off, -⟩ : s.suc.startUp = .loading ∧ s.suc.retryWait.isNone = true := by simpa [State.reads] using hr
    exact .next (h.of_same ⟨rfl, rfl, rfl, rfl, rfl, by simp [enterFault, off, StartUp.running]⟩)
  | listenTimerExpiry =>
    refine .ite (fun hl => .finish (outs _ (h.of_same ⟨?_, ?_, ?_, ?_, ?_, ?_⟩))) fun _ => .next h
    all_goals simp [State.conf, hl, StartUp.running]
  | flashEdge => exact .finish (outs _ (h.of_eq rfl rfl))
  | levelInputEdge lead made => exact .ite (fun _ => .next (h.of_eq rfl rfl)) fun _ => .next (h.of_eq (by simp) (by simp))

/-- Settles O58: command by command, and a millisecond counts no pulse. -/
theorem stepsKeepTheCountBounded : Obligations.StepsKeepTheCountBounded := by
  intro s t h e
  refine step_keeps (P := CountBounded) (fun s q h => h.of_eq rfl rfl) (fun c s t h e => ?_) (fun s h => ?_) h e
  · refine Gives.of_next ?_ e
    have a := CountBounded.aside
    exact Instr.of_families (Q := fun c => Gives CountBounded (exec c s)) (fun _ hc => h.doorCommand hc)
      (fun _ hc => a.laneKept.command hc h) (fun _ hc => a.panelCommand hc h) (fun _ hc => a.portCommand hc h)
      (fun _ hc => a.snapshotCommand hc h) (fun _ hc => h.tableCommand hc) (fun _ hc => h.energyCommand hc)
      (fun _ hc => h.startCommand hc) c
  · exact h.of_same ⟨rfl, rfl, rfl, rfl, rfl, rfl⟩

end Sys2Proof.Machine
end

