-- ==== Sys2Proof/Proofs/Pump.lean ====
section
/-! SUPPORT and PROOFS. The pump's guard over every step, and its restart when PUMP_FAIL leaves the list (R64 to R66, R96). -/

namespace Sys2Proof.Machine

/-! ### PUMP_FAIL records -/

/-- The energy unit after any request (R96): the lock follows a PUMP_FAIL record that enters or leaves, and pump control acts on it. -/
theorem alarm_enu_eq (q : AlarmRequest) (s : State) : (alarm q s).enu =
    if s.doorRuns = true ∧ hasKind .pumpFail (applyRequest q s.alu) ≠ hasKind .pumpFail s.alu then
      pumpControl s.conf s.deb.mains { s.enu with locked := hasKind .pumpFail (applyRequest q s.alu) }
    else s.enu := by
  by_cases h : hasKind .pumpFail (applyRequest q s.alu) = hasKind .pumpFail s.alu
  · rw [if_neg (fun k => k.2 h), alarm_enu q s fun _ => h]
  · cases hd : s.doorRuns with
    | false => rw [if_neg (by simp), alarm_enu q s (by simp [hd])]
    | true =>
      rw [if_pos ⟨rfl, h⟩]
      have report : ∀ x : State, (pumpReport s.alu (applyRequest q s.alu) x).enu =
          pumpControl x.conf x.deb.mains { x.enu with locked := hasKind .pumpFail (applyRequest q s.alu) } := by
        intro x
        cases ha : hasKind .pumpFail (applyRequest q s.alu) <;> cases hb : hasKind .pumpFail s.alu <;> simp_all [pumpReport] <;> rfl
      simp only [alarm, hd, if_true]
      split <;> simp [report, State.conf]

/-- The pump is on only as pump control leaves it on. -/
theorem pumpControl_guard {c : Cfg} {m : Bool} {e : Enu} (runs : e.pumpOn = true → e.running = true)
    (h : (pumpControl c m e).pumpOn = true) : e.running = true ∧ m = true ∧ e.p.isSome = true ∧ e.locked = false := by
  cases hr : e.running with
  | false =>
    rw [pumpControl_stopped hr] at h
    simp [hr] at runs
    simp [runs] at h
  | true =>
    rw [pumpControl_on hr] at h
    simp only [Bool.and_eq_true, Bool.not_eq_true'] at h
    obtain ⟨⟨hm, hl⟩, hp⟩ := h
    exact ⟨rfl, hm, Option.isSome_iff_exists.mpr ((Option.any_eq_true _ _).mp hp |>.imp fun _ h => h.1), hl⟩

/-! ### The guard -/

/-- The guard but for the figures pump control looks at, which it restores when it acts. -/
structure PumpLoose (s : State) : Prop where
  runs : s.enu.running = true → s.doorRuns = true
  on : s.enu.pumpOn = true → s.enu.running = true
  lock : s.enu.locked = hasKind .pumpFail s.alu
  other : s.doorRuns = false → hasKind .pumpFail s.alu = false

theorem PumpGuarded.loose {s : State} (h : PumpGuarded s) : PumpLoose s := ⟨h.runs, fun k => (h.on k).1, h.lock, h.other⟩

/-- What the guard looks at. -/
theorem PumpLoose.of_same {s t : State} (h : PumpLoose s) (on : t.doorRuns = s.doorRuns) (running : t.enu.running = s.enu.running)
    (pump : t.enu.pumpOn = true → s.enu.pumpOn = true) (locked : t.enu.locked = s.enu.locked)
    (alu : hasKind .pumpFail t.alu = hasKind .pumpFail s.alu) : PumpLoose t := by
  obtain ⟨runs, on', lock, other⟩ := h
  exact ⟨by rwa [running, on], fun k => by rw [running]; exact on' (pump k), by rw [locked, alu, lock], by rwa [on, alu]⟩

theorem PumpGuarded.of_grown {s t : State} (h : PumpGuarded s) (on : s.doorRuns = true → t.doorRuns = true) (enu : t.enu = s.enu)
    (mains : t.deb.mains = s.deb.mains) (alu : hasKind .pumpFail t.alu = hasKind .pumpFail s.alu) : PumpGuarded t := by
  obtain ⟨runs, on', lock, other⟩ := h
  refine ⟨fun k => on (runs (by rwa [enu] at k)), by rwa [enu, mains], by rw [enu, alu, lock], fun k => ?_⟩
  rw [alu]
  refine other (eq_false_of_ne_true fun r => ?_)
  simp [on r] at k

theorem PumpGuarded.of_same {s t : State} (h : PumpGuarded s) (on : t.doorRuns = s.doorRuns) (enu : t.enu = s.enu)
    (mains : t.deb.mains = s.deb.mains) (alu : hasKind .pumpFail t.alu = hasKind .pumpFail s.alu) : PumpGuarded t :=
  h.of_grown (fun k => on.trans k) enu mains alu

/-- Where the pump is off, the loose guard is the guard. -/
theorem PumpLoose.off {s : State} (h : PumpLoose s) (off : s.enu.pumpOn = false) : PumpGuarded s :=
  ⟨h.runs, fun k => by simp [off] at k, h.lock, h.other⟩

theorem PumpLoose.carried : Carried PumpLoose where
  door := fun _ _ _ _ h => h.of_same rfl rfl id rfl rfl
  offer := fun s h => h.of_same (by simp [State.doorRuns, State.conf]) (by simp) (by simp) (by simp) (by simp)
  alarm := fun q s hq h => by
    have enu := alarm_enu_door q s hq
    exact h.of_same (by simp [State.doorRuns, State.conf]) (by rw [enu]) (by rw [enu]; exact id) (by rw [enu])
      (by simp [applyRequest_pumpFail q s.alu hq])

theorem PumpLoose.pumpActs {s : State} (h : PumpLoose s) : PumpGuarded (pumpActs s) := by
  obtain ⟨runs, on, lock, other⟩ := h
  refine ⟨fun k => runs (by simpa [Machine.pumpActs] using k), fun k => ?_, by simpa [Machine.pumpActs] using lock, other⟩
  obtain ⟨hr, hm, hp, hl⟩ := pumpControl_guard on k
  exact ⟨by simpa [Machine.pumpActs] using hr, hm, by simpa [Machine.pumpActs] using hp, by simpa [Machine.pumpActs] using hl⟩

/-- A request of any kind, PUMP_FAIL in a door that runs alone. -/
theorem PumpGuarded.alarm {s : State} (h : PumpGuarded s) (q : AlarmRequest)
    (hq : s.doorRuns = false → hasKind .pumpFail (applyRequest q s.alu) = hasKind .pumpFail s.alu) : PumpGuarded (alarm q s) := by
  have enu := alarm_enu_eq q s
  have on : (Machine.alarm q s).doorRuns = s.doorRuns := by simp [State.doorRuns, State.conf]
  by_cases hk : hasKind .pumpFail (applyRequest q s.alu) = hasKind .pumpFail s.alu
  · rw [if_neg (fun k => k.2 hk)] at enu
    exact h.of_same on enu (by simp) (by simp [hk])
  · have hd : s.doorRuns = true := by
      by_contra hn
      exact hk (hq (eq_false_of_ne_true hn))
    rw [if_pos ⟨hd, hk⟩] at enu
    refine ⟨fun _ => on.trans hd, fun k => ?_, by rw [enu]; simp, fun hn => by simp [on, hd] at hn⟩
    rw [enu] at k ⊢
    obtain ⟨hr, hm, hp, hl⟩ := pumpControl_guard (e := { s.enu with locked := hasKind .pumpFail (applyRequest q s.alu) }) (fun k => (h.on k).1) k
    exact ⟨by simpa using hr, by simpa using hm, by simpa using hp, by simpa using hl⟩

theorem acknowledge_pumpFail {l : List AlarmRecord} (h : hasKind .pumpFail l = false) :
    hasKind .pumpFail (applyRequest .acknowledge l) = false := by
  rw [applyRequest_acknowledge, hasKind_map .pumpFail (fun r => { r with st := .activeAcked }) fun _ => rfl]
  simp only [hasKind, List.any_eq_false] at h ⊢
  exact fun r hr => h r (List.mem_of_mem_filter hr)

@[simp] theorem alarm_doorRuns (q : AlarmRequest) (s : State) : (alarm q s).doorRuns = s.doorRuns := by
  simp [State.doorRuns, State.conf]

@[simp] theorem offer_doorRuns (s : State) : (offer s).doorRuns = s.doorRuns := by simp [State.doorRuns, State.conf]

@[simp] theorem setLane_doorRuns (s : State) (id : LaneId) (l : Lane) : (s.setLane id l).doorRuns = s.doorRuns := by
  simp [State.doorRuns, State.conf]

theorem PumpGuarded.wide : CarriedWide PumpGuarded where
  door := fun _ _ _ _ h => h.of_same rfl rfl rfl rfl
  offer := fun s h => h.of_same (by simp) (by simp) (by simp) (by simp)
  alarm := fun q s hq h => h.alarm q fun _ => applyRequest_pumpFail q s.alu hq
  ste := fun _ _ h => h.of_same rfl rfl rfl rfl
  pnu := fun _ _ h => h.of_same rfl rfl rfl rfl
  ack := fun s h => h.alarm _ fun hd => (acknowledge_pumpFail (h.other hd)).trans (h.other hd).symm

theorem PumpGuarded.aside : Aside PumpGuarded where
  offer := PumpGuarded.wide.offer
  alarm := PumpGuarded.wide.alarm
  ack := fun s _ => PumpGuarded.wide.ack s
  lane := fun s id l _ h => h.of_same (by simp) (by simp) (by simp) (by simp)
  rxq := fun _ _ _ h => h.of_same rfl rfl rfl rfl
  snu := fun _ _ h => h.of_same rfl rfl rfl rfl
  pnu := fun _ _ h => h.of_same rfl rfl rfl rfl
  dgp := fun _ _ h => h.of_same rfl rfl rfl rfl
  clear := fun s h => h.of_same rfl rfl rfl rfl

/-! ### Every command keeps the guard -/

theorem PumpGuarded.outs {s : State} (h : PumpGuarded s) : PumpGuarded (setOuts s) := h.of_same rfl rfl rfl rfl

theorem PumpGuarded.toMute {s : State} (h : PumpGuarded s) : PumpGuarded (toMute s) := by
  have wide := PumpGuarded.wide
  have silent : ∀ x y n, PumpGuarded { s with
      suc := { s.suc with startUp := .mute, flt := true, listenTimer := none }, laneA := x, laneB := y, snu := n } := fun x y n =>
    h.of_grown (by simp [State.doorRuns, State.conf, StartUp.running]) rfl rfl rfl
  simp only [Machine.toMute]
  refine Carried.ite (P := PumpGuarded) (wide.noPanelCheck (wide.doorEvent _ ?_)) (silent _ _ _)
  exact Carried.ite (P := PumpGuarded) (wide.evaluate (silent _ _ _)) (silent _ _ _)

/-- The commands of the energy unit: a gate and the mains end in pump control, the run limit in the lock that its record brings. -/
theorem PumpGuarded.energyCommand {i : Instr} (hi : EnergyCommand i) {s : State} (h : PumpGuarded s) :
    Gives PumpGuarded (exec i s) := by
  have c := PumpLoose.carried
  cases hi with
  | pfqPulse since =>
    exact .ite (fun _ => .next ⟨h.runs, h.on, h.lock, h.other⟩) fun _ => .next h
  | gateEnd =>
    have judged : PumpLoose s.gateJudged := h.loose.of_same rfl rfl id rfl rfl
    refine .ite (fun _ => .finish (PumpGuarded.outs ?_)) fun _ => .next h
    have k1 := c.gateAlarms s.enu (judgeGate s.conf s.enu) judged
    have k2 := Carried.ite (P := PumpLoose) (b := s.enu.permStart = (judgeGate s.conf s.enu).permStart) k1
      (c.doorEvent _ (c.evaluateStanding k1))
    have k3 := Carried.ite (P := PumpLoose) (b := (judgeGate s.conf s.enu).permCont = true) k2 (c.doorEvent _ (c.onStop k2))
    exact (Carried.ite (P := PumpLoose) k3 (c.offer _ k3)).pumpActs
  | mainsDebouncedChange made =>
    have k : PumpLoose (setDebounced .mains made s) := h.loose.of_same rfl rfl id rfl rfl
    refine .ite (fun _ => .next h) fun _ => .ite (fun _ => .finish (PumpGuarded.outs ?_)) fun hn => .finish (PumpGuarded.outs (k.off ?_))
    · exact (c.condition .mainsLoss (!made) rfl k).pumpActs
    · by_contra hp
      have hd := h.runs (h.on (eq_true_of_ne_false hp)).1
      simp [State.doorRuns, hn] at hd
  | pumpRunLimit =>
    refine .ite (fun hp => .finish (PumpGuarded.outs ?_)) fun _ => .next h
    obtain ⟨x, hx⟩ : ∃ x : State, x = { s with enu := { s.enu with pumpOn := false, run := none } } := ⟨_, rfl⟩
    have on : x.doorRuns = true := by rw [hx]; exact h.runs (h.on hp).1
    have off : x.enu.pumpOn = false := by simp [hx]
    have start : PumpGuarded x := by
      rw [hx]
      exact PumpLoose.off ⟨h.runs, fun k => by simp at k, h.lock, h.other⟩ rfl
    have failed := start.alarm (.occurred .pumpFail) (by simp [on])
    have enu := pumpFail_enu off on
    have locked := failed.lock
    rw [alarm_alu, occurred_hasKind] at locked
    rw [← hx]
    refine failed.of_same rfl ?_ rfl rfl
    rw [setLocked_off (by rw [enu]; exact off), ← locked]
  | alarmAgeTick kind =>
    exact .next (h.of_same rfl rfl rfl (hasKind_map _ (fun r => if r.kind = kind then r.older else r) (fun r => by split <;> rfl) _))

theorem enterListen_doorRuns (c : Cfg) (s : State) : (enterListen c s).doorRuns = (c.role == .door) := by
  simp [State.doorRuns, State.conf, enterListen, StartUp.running]

theorem PumpGuarded.startCommand {i : Instr} (hi : StartCommand i) {s : State} (h : PumpGuarded s) :
    Gives PumpGuarded (exec i s) := by
  have wide := PumpGuarded.wide
  /- A part that does not run is under the guard whatever start-up does. -/
  have idle : ∀ x : State, s.doorRuns = false → x.enu = s.enu → x.deb = s.deb → x.alu = s.alu → PumpGuarded x :=
    fun x hd enu deb alu => h.of_grown (by simp [hd]) enu (by rw [deb]) (by rw [alu])
  have reading : s.reads = true → s.doorRuns = false := by
    intro hr
    obtain ⟨hl, -⟩ : s.suc.startUp = .loading ∧ s.suc.retryWait.isNone = true := by simpa [State.reads] using hr
    simp [State.doorRuns, hl, StartUp.running]
  cases hi with
  | reset leads straps =>
    exact .next (by constructor <;> simp [State.reset, Enu.reset, hasKind])
  | configAddressNotAcked =>
    exact .ite (fun hr => .ite (fun _ => .next (idle _ (reading hr) rfl rfl rfl)) fun _ => .next (idle _ (reading hr) rfl rfl rfl)) fun _ => .next h
  | configRetryWaitExpiry => exact .ite (fun _ => .next (h.of_same rfl rfl rfl rfl)) fun _ => .next h
  | configReadDone image keys =>
    refine .ite (fun hr => ?_) fun _ => .next h
    have off := reading (by simp only [Bool.and_eq_true] at hr; exact hr.1)
    refine .ite (fun _ => .next (idle _ off rfl rfl rfl)) fun _ => .ite (fun _ => .next (idle _ off rfl rfl rfl)) fun _ =>
      .finish (PumpGuarded.outs ?_)
    have stopped : s.enu.running = false := eq_false_of_ne_true fun hr => by simp [h.runs hr] at off
    have pumpOff : s.enu.pumpOn = false := eq_false_of_ne_true fun hp => by simp [(h.on hp).1] at stopped
    simp only [startBlocks]
    split
    · rename_i role
      refine wide.startDcu (wide.startMains ?_)
      exact PumpLoose.off ⟨fun _ => (enterListen_doorRuns _ _).trans (beq_iff_eq.mpr role), fun _ => rfl, h.lock, fun _ => h.other off⟩ pumpOff
    · exact wide.startMains (idle _ off (by simp) (by simp) (by simp))
  | csdLowAfterNineClocks => exact .ite (fun hr => .next (idle _ (reading hr) rfl rfl rfl)) fun _ => .next h
  | listenTimerExpiry =>
    refine .ite (fun hl => .finish (PumpGuarded.outs (wide.joinDoor ?_))) fun _ => .next h
    exact h.of_same (by simp [State.doorRuns, State.conf, hl, StartUp.running]) (by simp) (by simp) (by simp)
  | flashEdge => exact .finish (PumpGuarded.outs (h.of_same rfl rfl rfl rfl))
  | levelInputEdge lead made =>
    refine .ite (fun _ => .next (h.of_same rfl rfl rfl rfl)) fun _ => .next ?_
    simp only [leadEdge]
    exact Carried.ite (P := PumpGuarded) h (h.of_same rfl rfl rfl rfl)

/-- Every command keeps the pump guarded. -/
theorem PumpGuarded.command (c : Instr) {s : State} (h : PumpGuarded s) : Gives PumpGuarded (exec c s) := by
  have outs : ∀ s, PumpGuarded s → PumpGuarded (setOuts s) := fun _ => PumpGuarded.outs
  have wide := PumpGuarded.wide
  have aside := PumpGuarded.aside
  revert c
  refine Instr.of_families ?door ?lane ?panel ?port ?snapshot ?table ?energy ?start
  case door =>
    refine fun _ hc => wide.command (fun s l m hl h => h.of_same rfl rfl ?_ rfl) outs hc h
    cases l <;> simp_all [setDebounced, PerLead.set]
  case lane => exact fun _ hc => aside.laneKept.command hc h
  case panel => exact fun _ hc => aside.panelCommand hc h
  case port => exact fun _ hc => aside.portCommand hc h
  case snapshot => exact fun _ hc => aside.snapshotCommand hc h
  case table => exact fun _ hc => wide.tableCommand (fun _ _ _ h => h.of_same rfl rfl rfl rfl) (fun _ => PumpGuarded.toMute) outs hc h
  case energy => exact fun _ hc => PumpGuarded.energyCommand hc h
  case start => exact fun _ hc => PumpGuarded.startCommand hc h

/-! ### The lock that ends (R66) -/

/-- A PUMP_FAIL record stays in the list of a door that runs. -/
def PumpFailListed (s : State) : Prop := s.doorRuns = true ∧ hasKind .pumpFail s.alu = true

theorem PumpFailListed.of_same {s t : State} (h : PumpFailListed s) (on : t.doorRuns = s.doorRuns) (alu : t.alu = s.alu) :
    PumpFailListed t := by
  rw [PumpFailListed, on, alu]
  exact h

theorem PumpFailListed.carried : Carried PumpFailListed where
  door := fun _ _ _ _ h => h
  offer := fun s h => h.of_same (by simp) (by simp)
  alarm := fun q s hq h => by
    rw [PumpFailListed, alarm_doorRuns, alarm_alu, applyRequest_pumpFail q s.alu hq]
    exact h

theorem PumpFailListed.aside : Aside PumpFailListed where
  offer := PumpFailListed.carried.offer
  alarm := PumpFailListed.carried.alarm
  ack := fun s hp h => by simp_all [PumpFailListed, State.doorRuns, State.panelRuns]
  lane := fun s id l _ h => h.of_same (by simp) (by simp)
  rxq := fun _ _ _ h => h
  snu := fun _ _ h => h
  pnu := fun _ _ h => h
  dgp := fun _ _ h => h
  clear := fun _ h => h

/-- Where a PUMP_FAIL record stood, it still stands with the energy unit as it was, or pump control has acted on its removal. -/
structure Unlocking (c : Cfg) (mains : Bool) (e : Enu) (s : State) : Prop where
  conf : s.conf = c
  level : s.deb.mains = mains
  on : s.doorRuns = true
  pump : s.enu = if hasKind .pumpFail s.alu = true then e else pumpControl c mains { e with locked := false }

theorem Unlocking.of_same {c : Cfg} {m : Bool} {e : Enu} {s t : State} (h : Unlocking c m e s) (suc : t.suc = s.suc)
    (deb : t.deb = s.deb) (enu : t.enu = s.enu) (alu : hasKind .pumpFail t.alu = hasKind .pumpFail s.alu) : Unlocking c m e t := by
  obtain ⟨conf, level, on, pump⟩ := h
  have conf' : t.conf = s.conf := by rw [State.conf, suc]; rfl
  exact ⟨by rw [conf', conf], by rw [deb, level], by rwa [State.doorRuns, suc, conf'], by rw [enu, alu, pump]⟩

theorem Unlocking.wide (c : Cfg) (m : Bool) (e : Enu) : CarriedWide (Unlocking c m e) where
  door := fun _ _ _ _ h => h.of_same rfl rfl rfl rfl
  offer := fun s h => h.of_same (by simp) (by simp) (by simp) (by simp)
  alarm := fun q s hq h =>
    h.of_same (by simp) (by simp) (alarm_enu_door q s hq) (by simp [applyRequest_pumpFail q s.alu hq])
  ste := fun _ _ h => h.of_same rfl rfl rfl rfl
  pnu := fun _ _ h => h.of_same rfl rfl rfl rfl
  ack := fun s h => by
    have enu := alarm_enu_eq .acknowledge s
    obtain ⟨conf, level, on, pump⟩ := h
    refine ⟨by simpa [State.conf] using conf, by simpa using level, by simpa using on, ?_⟩
    rw [alarm_alu, enu, conf, level]
    cases was : hasKind .pumpFail s.alu with
    | false => simp [acknowledge_pumpFail was, pump, was]
    | true => cases now : hasKind .pumpFail (applyRequest .acknowledge s.alu) <;> simp [on, pump, was]

theorem Unlocking.toMute {c : Cfg} {m : Bool} {e : Enu} {s : State} (h : Unlocking c m e s) : Unlocking c m e (toMute s) := by
  have wide := Unlocking.wide c m e
  have silenced : (StartUp.mute.running && s.conf.role == .door) = true := by
    have on := h.on
    simp only [State.doorRuns, Bool.and_eq_true] at on
    simp [StartUp.running, on.2]
  have silent : ∀ x y n, Unlocking c m e { s with
      suc := { s.suc with startUp := .mute, flt := true, listenTimer := none }, laneA := x, laneB := y, snu := n } := fun x y n =>
    ⟨h.conf, h.level, silenced, h.pump⟩
  simp only [Machine.toMute]
  refine Carried.ite (P := Unlocking c m e) (wide.noPanelCheck (wide.doorEvent _ ?_)) (silent _ _ _)
  exact Carried.ite (P := Unlocking c m e) (wide.evaluate (silent _ _ _)) (silent _ _ _)

/-- Outside the table a PUMP_FAIL record stays while the door runs: an acknowledgement reaches a door in a telegram alone (R94). -/
theorem pumpFail_stays {c : Instr} (hc : ¬ TableCommand c) {s : State} (h : PumpFailListed s) :
    Gives (fun t => t.doorRuns = true → hasKind .pumpFail t.alu = true) (exec c s) := by
  have listed : ∀ {o}, Gives PumpFailListed o → Gives (fun t => t.doorRuns = true → hasKind .pumpFail t.alu = true) o :=
    fun ⟨t, e, _, k⟩ => ⟨t, e, fun _ => k⟩
  have door := PumpFailListed.carried
  have aside := PumpFailListed.aside
  have loaded : s.suc.startUp ≠ .loading := fun hl => by simp [PumpFailListed, State.doorRuns, hl, StartUp.running] at h
  refine Instr.of_families (Q := fun c => ¬ TableCommand c → Gives _ (exec c s)) ?door ?lane ?panel ?port ?snapshot ?table
    ?energy ?start c hc
  case door => exact fun _ hc _ => listed (door.command (fun _ _ _ _ h => h) (fun _ h => h) hc h)
  case lane => exact fun _ hc _ => listed (aside.laneKept.command hc h)
  case panel => exact fun _ hc _ => listed (aside.panelCommand hc h)
  case port => exact fun _ hc _ => listed (aside.portCommand hc h)
  case snapshot => exact fun _ hc _ => listed (aside.snapshotCommand hc h)
  case table => exact fun _ hc hn => absurd hc hn
  case energy =>
    refine fun _ hc _ => listed (door.energyCommand (fun _ _ h => h) (fun _ _ h => h) (fun s h => ?_) (fun s k h => ?_) (fun _ h => h) hc h)
    · exact ⟨by simp [h.1], by simp [occurred_hasKind]⟩
    · exact ⟨h.1, (hasKind_map _ (fun r => if r.kind = k then r.older else r) (fun r => by split <;> rfl) _).trans h.2⟩
  case start =>
    refine fun c hc _ => ?_
    have reading : s.reads = true → False := fun hr => loaded (by simp_all [State.reads])
    cases hc with
    | reset leads straps => exact .next fun on => by simp [State.doorRuns, Suc.reset, StartUp.running] at on
    | configAddressNotAcked => exact .ite (fun hr => (reading hr).elim) fun _ => listed (.next h)
    | configRetryWaitExpiry => exact listed (.ite (fun _ => .next h) fun _ => .next h)
    | configReadDone image keys =>
      exact .ite (fun hr => (reading (by simp only [Bool.and_eq_true] at hr; exact hr.1)).elim) fun _ => listed (.next h)
    | csdLowAfterNineClocks => exact .ite (fun hr => (reading hr).elim) fun _ => listed (.next h)
    | listenTimerExpiry =>
      refine listed (.ite (fun hl => .finish ?_) fun _ => .next h)
      refine door.joinDoor (h.of_same ?_ (by simp))
      simp [State.doorRuns, State.conf, hl, StartUp.running]
    | flashEdge => exact listed (.finish h)
    | levelInputEdge lead made =>
      refine listed (.ite (fun _ => .next h) fun _ => .next ?_)
      exact h.of_same (by simp [State.doorRuns, State.conf]) (by simp)

/-- At a door a lane-heard limit leaves the alarm list (R114). -/
theorem laneHeardAgeLimit_alu {s : State} (on : s.doorRuns = true) (n : Nat) (lane : LaneId) :
    Gives (fun t => t.alu = s.alu) (exec (.laneHeardAgeLimit n lane) s) := by
  have off : s.panelRuns = false := by
    simp_all [State.doorRuns, State.panelRuns]
  change Gives _ (execLaneHeardAgeLimit n lane s)
  rw [execLaneHeardAgeLimit]
  split
  · exact .next rfl
  · refine .ite (fun _ => .next ?_) fun _ => .next rfl
    rw [deriveDegraded, if_pos (Bool.or_eq_true_iff.mpr (.inl ?_))]
    · rfl
    · exact congrArg not off

/-- The table's commands that can remove a record set the pins (R64). -/
theorem tableCommand_outs {i : Instr} (hi : TableCommand i) {s : State} (on : s.doorRuns = true) :
    Gives (fun t => t.outs = outsFor t ∨ t.alu = s.alu) (exec i s) := by
  have outs : ∀ x : State, Gives (fun t => t.outs = outsFor t ∨ t.alu = s.alu) (finish x) := fun x => .finish (.inl rfl)
  cases hi with
  | telegramTaken =>
    change Gives _ (execTelegramTaken s)
    rw [execTelegramTaken]
    split
    · exact outs _
    · exact .next (.inr rfl)
  | entryGoesStale station =>
    change Gives _ (execEntryGoesStale station s)
    rw [execEntryGoesStale]
    split
    · exact .next (.inr rfl)
    · exact .ite (fun _ => outs _) fun _ => .next (.inr rfl)
  | laneHeardAgeLimit n lane =>
    obtain ⟨t, e, h⟩ := laneHeardAgeLimit_alu on n lane
    exact ⟨t, e, .inr h⟩

/-- A millisecond leaves what the guard looks at. -/
theorem PumpGuarded.ticked {s : State} (h : PumpGuarded s) : PumpGuarded (tick s) := by
  have alu : hasKind .pumpFail (tick s).alu = hasKind .pumpFail s.alu :=
    hasKind_map _ AlarmRecord.later (fun _ => rfl) _
  exact ⟨h.runs, h.on, h.lock.trans alu.symm, fun hd => alu.trans (h.other hd)⟩

/-- Settles O54: command by command; a record leaves by an acknowledgement alone, and pump control acts on it. -/
theorem stepsKeepThePumpGuarded : Obligations.StepsKeepThePumpGuarded := by
  refine ⟨fun s t h => ?_, fun c s t h on running listed e on' gone => ?_⟩
  · exact step_keeps (P := PumpGuarded) (fun _ _ h => h.of_same rfl rfl rfl rfl) (fun c _ _ h => (h.command c).of_next)
      (fun s h => h.ticked) h
  · by_cases hc : TableCommand c
    · have wide := Unlocking.wide s.conf s.deb.mains s.enu
      have start : Unlocking s.conf s.deb.mains s.enu s := ⟨rfl, rfl, on, by simp [listed]⟩
      have done := (wide.tableCommand (fun _ _ _ h => h.of_same rfl rfl rfl rfl) (fun _ h => h.toMute)
        (fun _ h => h.of_same rfl rfl rfl rfl) hc start).of_next e
      have off : s.enu.pumpOn = false := by
        refine eq_false_of_ne_true fun hp => ?_
        have := h.lock
        simp [(h.on hp).2.2.2, listed] at this
      refine ⟨?_, ?_⟩
      · rw [done.pump, gone]
        simp only [pumpControl, running, off]
        cases s.deb.mains <;> cases s.enu.p.any (fun p => decide (p < s.conf.pOn)) <;> simp
      · obtain outs | alu := (tableCommand_outs hc on).of_next e
        · rw [outs]; rfl
        · simp [alu, listed] at gone
    · have := (pumpFail_stays hc ⟨on, listed⟩).of_next e on'
      simp [this] at gone

end Sys2Proof.Machine
end

