-- ==== Sys2Proof/Proofs/Walks.lean ====
section
/-! SUPPORT and PROOFS. Properties that a door keeps on every walk through its control states: what a property has to survive is each move
under the condition the manual sets it (R2 to R31), so that one lemma for each event serves every such property. First uses: openings fed
and claims joined (R28, R58, R69 to R79), strokes and pins (R28 to R30, R34, R43, R44). -/

namespace Sys2Proof.Machine

/-! ### Closure demanded -/

/-- Closure demanded as the panels heard make it (R6, R7). -/
def State.cdNow (s : State) : Bool := modeNow s == .doorsClosed || demandNow s

/-- Mode, group demand and closure demanded taken from the panels heard (R5, R6). -/
def State.readDemand (s : State) : State :=
  { s with
    dcu := { s.dcu with
      mode := modeNow s, groupDemand := demandNow s, panelHeard := s.dcu.panelHeard || somePanelLive s, cd := s.cdNow } }

theorem rederive_eq (s : State) : rederive s = if s.cdNow = s.dcu.cd then s.readDemand else onCdChange (setLimit s.readDemand) := rfl

/-- The limit flag set from CD (R69). -/
theorem setLimit_psu (s : State) : (setLimit s).psu.inForce = limitFor s.conf s.dcu.cd ∧ (setLimit s).psu.phase = s.psu.phase ∧
    (setLimit s).psu.claimTimer = s.psu.claimTimer := by
  simp only [setLimit]
  split
  · rename_i h
    exact ⟨h.symm, rfl, rfl⟩
  · simp [(excessLook_psu _).1]

/-! ### The passage to MUTE -/

/-- The part in MUTE, before its claim ends and NO_PANEL is judged (R124, R142, R174). -/
def State.muted (s : State) : State :=
  { s with
    suc := { s.suc with startUp := .mute, flt := true, listenTimer := none }
    laneA := muteLane s.conf.station s.laneA
    laneB := muteLane s.conf.station s.laneB
    snu := { state := s.snu.state.stop, demand := s.snu.demand.stop, ident := { s.snu.ident with timer := none } } }

theorem toMute_eq (s : State) : toMute s = if s.muted.doorRuns then
    noPanelCheck (doorEvent (fun x => if x.dcu.ctl = .claiming then evaluate x else x) s.muted) else s.muted := rfl

theorem muted_doorRuns {s : State} (h : s.suc.startUp.running = true) : s.muted.doorRuns = s.doorRuns := by
  simp only [State.muted, State.doorRuns, State.conf, h, show StartUp.mute.running = true from rfl]

/-! ### Walks -/

/-- What the door control unit keeps of the panels heard (R5 to R7). -/
def Dcu.demand (d : Dcu) : Bool × Mode × Bool × Bool := (d.cd, d.mode, d.groupDemand, d.panelHeard)

/-- Items of the door control unit outside its control state, valves, pauses and what the panels demand. -/
def Dcu.sameCourse (d e : Dcu) : Prop :=
  e.ctl = d.ctl ∧ e.vcl = d.vcl ∧ e.vop = d.vop ∧ e.demand = d.demand

/-- Items of the door control unit outside its control state and its valves. -/
def Dcu.sameValves (d e : Dcu) : Prop := e.ctl = d.ctl ∧ e.vcl = d.vcl ∧ e.vop = d.vop

theorem Dcu.sameCourse.valves {d e : Dcu} (h : d.sameCourse e) : d.sameValves e := ⟨h.1, h.2.1, h.2.2.1⟩

theorem Dcu.sameCourse.cd {d e : Dcu} (h : d.sameCourse e) : e.cd = d.cd := congrArg Prod.fst h.2.2.2

theorem Dcu.sameCourse.of_eq {d e : Dcu} (h : e = d) : d.sameCourse e := by
  rw [h]
  exact ⟨rfl, rfl, rfl, rfl⟩

/-- Items of the passage unit outside the claim and the limit flag. -/
def Psu.sameClaim (p q : Psu) : Prop := q.phase = p.phase ∧ q.claimTimer = p.claimTimer ∧ q.inForce = p.inForce

theorem Psu.sameClaim.of_eq {p q : Psu} (h : q = p) : p.sameClaim q := by
  rw [h]
  exact ⟨rfl, rfl, rfl⟩

/-- A property that survives each move of the door where its rule allows the move, before the move is handed on. -/
structure Paced (P : State → Prop) : Prop where
  items : ∀ (s : State) (d : Dcu), s.dcu.sameCourse d → P s → P { s with dcu := d }
  figures : ∀ (s : State) (p : Psu), s.psu.sameClaim p → P s → P { s with psu := p }
  toIdle : ∀ (c : Ctl) (s : State), c.isIdle = true → s.dcu.ctl ≠ .inactive → P s → P (toIdle c s)
  toClosing : ∀ (c : Cause) (s : State), s.dcu.ctl ≠ .inactive → P s → P (toClosing c s)
  toOpening : ∀ s : State, s.dcu.ctl ≠ .inactive → P s → P (toOpening s)
  toClaiming : ∀ s : State, s.suc.startUp = .joined → s.psu.inForce = true → s.dcu.ctl ≠ .inactive → P s → P (toClaiming s)
  toWarning : ∀ (w : WarningCause) (s : State), s.dcu.cd = true ∨ s.dcu.ctl = .heldOpen → s.dcu.ctl ≠ .inactive → P s →
    P (toWarning w s)
  toHeldOpen : ∀ s : State, s.dcu.cd = true ∨ s.dcu.ctl = .warning → s.dcu.ctl ≠ .inactive → P s → P (toHeldOpen s)

/-- Such a property that survives an offer and PASSAGE_EXCESS too. -/
structure Reacts (P : State → Prop) : Prop extends Paced P where
  offer : ∀ s : State, P s → P (offer s)
  excess : ∀ (b : Bool) (s : State), P s → P (alarm (condition .passageExcess b) s)

/-- Such a property that survives every other request of the door too. -/
structure Walked (P : State → Prop) : Prop extends Reacts P where
  alarm : ∀ (q : AlarmRequest) (s : State), doorRequest q = true → P s → P (alarm q s)
  excess := fun b s h => alarm _ s (by cases b <;> rfl) h

/-- A property of moves as `Shifted` states them. -/
theorem Reacts.of_shifted {P : State → Prop} (offer : ∀ s : State, P s → P (Machine.offer s))
    (excess : ∀ (b : Bool) (s : State), P s → P (Machine.alarm (condition .passageExcess b) s))
    (items : ∀ (s : State) (d : Dcu), s.dcu.sameCourse d → P s → P { s with dcu := d })
    (figures : ∀ (s : State) (p : Psu), s.psu.sameClaim p → P s → P { s with psu := p })
    (move : ∀ (s t : State) (ctl : Ctl) (cause : Cause) (w : WarningCause) (timer : Option Nat) (held : Watch), ctl ≠ .inactive →
      (ctl = .claiming → s.suc.startUp = .joined ∧ s.psu.inForce = true) →
      (ctl = .warning ∨ ctl = .heldOpen → s.dcu.cd = true ∨ s.dcu.ctl = .heldOpen ∨ s.dcu.ctl = .warning) →
      s.dcu.ctl ≠ .inactive → P s → Shifted s (s.dcu.enter ctl cause w timer held) t → P t) : Reacts P where
  offer := offer
  excess := excess
  items := items
  figures := figures
  toIdle := fun c s hc live h => by
    rcases Ctl.idle_cases hc with rfl | rfl | rfl <;>
      exact move s _ _ _ _ _ _ (by simp) (by simp) (by simp) live h (toIdle_shifted _ s)
  toClosing := fun c s live h => move s _ _ _ _ _ _ (by simp) (by simp) (by simp) live h (toClosing_shifted c s)
  toOpening := fun s live h => move s _ _ _ _ _ _ (by simp) (by simp) (by simp) live h (toOpening_shifted s)
  toClaiming := fun s hj hf live h => move s _ _ _ _ _ _ (by simp) (fun _ => ⟨hj, hf⟩) (by simp) live h (toClaiming_shifted s)
  toWarning := fun w s hd live h => by
    have under : s.dcu.cd = true ∨ s.dcu.ctl = .heldOpen ∨ s.dcu.ctl = .warning := hd.imp_right .inl
    cases w with
    | remote => exact move s _ _ _ _ _ _ (by simp) (by simp) (fun _ => under) live h (toWarning_remote_shifted s)
    | reclose => exact move s _ _ _ _ _ _ (by simp) (by simp) (fun _ => under) live h (toWarning_reclose_shifted s)
  toHeldOpen := fun s hd live h =>
    move s _ _ _ _ _ _ (by simp) (by simp) (fun _ => hd.imp_right .inr) live h (toHeldOpen_shifted s)

theorem Walked.of_shifted {P : State → Prop} (offer : ∀ s : State, P s → P (Machine.offer s))
    (alarm : ∀ (q : AlarmRequest) (s : State), doorRequest q = true → P s → P (Machine.alarm q s))
    (items : ∀ (s : State) (d : Dcu), s.dcu.sameCourse d → P s → P { s with dcu := d })
    (figures : ∀ (s : State) (p : Psu), s.psu.sameClaim p → P s → P { s with psu := p })
    (move : ∀ (s t : State) (ctl : Ctl) (cause : Cause) (w : WarningCause) (timer : Option Nat) (held : Watch), ctl ≠ .inactive →
      (ctl = .claiming → s.suc.startUp = .joined ∧ s.psu.inForce = true) →
      (ctl = .warning ∨ ctl = .heldOpen → s.dcu.cd = true ∨ s.dcu.ctl = .heldOpen ∨ s.dcu.ctl = .warning) →
      s.dcu.ctl ≠ .inactive → P s → Shifted s (s.dcu.enter ctl cause w timer held) t → P t) : Walked P :=
  { Reacts.of_shifted offer (fun b s h => alarm _ s (by cases b <;> rfl) h) items figures move with alarm := alarm }

theorem Walked.and {P Q : State → Prop} (c : Walked P) (d : Walked Q) : Walked (fun s => P s ∧ Q s) where
  offer := fun s h => ⟨c.offer s h.1, d.offer s h.2⟩
  alarm := fun q s hq h => ⟨c.alarm q s hq h.1, d.alarm q s hq h.2⟩
  items := fun s x hx h => ⟨c.items s x hx h.1, d.items s x hx h.2⟩
  figures := fun s p hp h => ⟨c.figures s p hp h.1, d.figures s p hp h.2⟩
  toIdle := fun x s hx live h => ⟨c.toIdle x s hx live h.1, d.toIdle x s hx live h.2⟩
  toClosing := fun x s live h => ⟨c.toClosing x s live h.1, d.toClosing x s live h.2⟩
  toOpening := fun s live h => ⟨c.toOpening s live h.1, d.toOpening s live h.2⟩
  toClaiming := fun s hj hf live h => ⟨c.toClaiming s hj hf live h.1, d.toClaiming s hj hf live h.2⟩
  toWarning := fun w s hd live h => ⟨c.toWarning w s hd live h.1, d.toWarning w s hd live h.2⟩
  toHeldOpen := fun s hd live h => ⟨c.toHeldOpen s hd live h.1, d.toHeldOpen s hd live h.2⟩

namespace Paced

variable {P : State → Prop} (c : Paced P)
include c

theorem matching (p : Position) {s : State} (live : s.dcu.ctl ≠ .inactive) (h : P s) : P (Machine.toIdle (idleFor p) s) :=
  c.toIdle _ s (by cases p <;> rfl) live h

theorem refuse {s : State} (live : s.dcu.ctl ≠ .inactive) (h : P s) : P (refuse s) := by
  simp only [Machine.refuse]
  exact Carried.ite (P := P) h (c.matching _ live h)

theorem evaluate {s : State} (live : s.dcu.ctl ≠ .inactive) (h : P s) : P (evaluate s) := by
  simp only [Machine.evaluate]
  split
  · exact c.refuse live h
  · split
    · rename_i hf
      split
      · rename_i hj
        exact Carried.ite (P := P) h (c.toClaiming s hj hf live h)
      · exact c.refuse live h
    · exact c.toOpening s live h

theorem evaluateStanding {s : State} (h : P s) : P (evaluateStanding s) := by
  simp only [Machine.evaluateStanding]
  split
  · exact c.evaluate (by simp_all) h
  · exact h

/-- The standing conditions act in an idle state alone. -/
theorem idleRules {s : State} (h : P s) : P (idleRules s) := by
  by_cases hi : s.dcu.ctl.isIdle = true
  · have live : s.dcu.ctl ≠ .inactive := fun hc => by simp [hc, Ctl.isIdle] at hi
    simp only [Machine.idleRules]
    refine Carried.ite (P := P) h (Carried.ite (P := P) (c.toClosing _ s live h) (Carried.ite (P := P) (c.evaluate live h) ?_))
    split
    · rename_i hk
      simp only [Bool.and_eq_true] at hk
      exact c.toHeldOpen s (.inl hk.1.1) live h
    · split
      · rename_i hw
        simp only [Bool.and_eq_true] at hw
        exact c.toWarning _ s (.inl hw.1) live h
      · exact h
  · have rests : Machine.idleRules s = s := if_pos (by simpa using hi)
    rwa [rests]

theorem toMatching {s : State} (live : s.dcu.ctl ≠ .inactive) (h : P s) : P (toMatching s) := c.idleRules (c.matching _ live h)

theorem stopOrReclose {s : State} (live : s.dcu.ctl ≠ .inactive) (h : P s) : P (stopOrReclose s) := by
  simp only [Machine.stopOrReclose]
  split
  · rename_i hd
    exact Carried.ite (P := P) (c.toIdle _ s rfl live h) (c.toWarning _ s (.inl hd) live h)
  · exact c.toMatching live h

theorem onLoPressed {s : State} (h : P s) : P (onLoPressed s) := by
  simp only [Machine.onLoPressed]
  split
  · rename_i hw
    have live : s.dcu.ctl ≠ .inactive := by simp [hw]
    exact Carried.ite (P := P) (c.toHeldOpen s (.inr hw) live h) (c.evaluate live h)
  · rename_i hc
    have live : s.dcu.ctl ≠ .inactive := by simp [hc]
    exact Carried.ite (P := P) (c.evaluate live h) (c.toMatching live h)
  · exact c.idleRules h

theorem unlocked {s : State} (h : P s) : P s.unlocked := c.items s _ ⟨rfl, rfl, rfl, rfl⟩ h

theorem onLoReleased {s : State} (h : P s) : P (onLoReleased s) := by
  have k := c.unlocked h
  simp only [Machine.onLoReleased]
  split
  · rename_i hc
    exact c.stopOrReclose (by simp [hc]) k
  · rename_i hc
    exact c.stopOrReclose (by simp [hc]) k
  · rename_i hc
    exact c.toWarning _ _ (.inr hc) (by simp [hc]) k
  · exact c.idleRules k

theorem onLcPressed (w : Bool) {s : State} (h : P s) : P (onLcPressed w s) := by
  have k : P (if w then s.unlocked else s) := Carried.ite (P := P) (c.unlocked h) h
  simp only [Machine.onLcPressed]
  split
  · rename_i hc
    exact c.toClosing _ _ (by cases w <;> exact hc.2.2) k
  · exact Carried.ite (P := P) (c.onLoReleased k) k

theorem onLcReleased {s : State} (h : P s) : P (onLcReleased s) := by
  have yielded : P { s with dcu := { s.dcu with cause := .demand } } := c.items s _ ⟨rfl, rfl, rfl, rfl⟩ h
  have k : P (if s.dcu.ctl = .closing ∧ s.dcu.cause = .lever then
      if s.dcu.cd then { s with dcu := { s.dcu with cause := .demand } } else Machine.toMatching s else s) := by
    split
    · rename_i hc
      exact Carried.ite (P := P) yielded (c.toMatching (by simp [hc.1]) h)
    · exact h
  simp only [Machine.onLcReleased]
  exact Carried.ite (P := P) (c.onLoPressed k) k

theorem onWarningExpiry {s : State} (live : s.dcu.ctl ≠ .inactive) (h : P s) : P (onWarningExpiry s) := by
  simp only [Machine.onWarningExpiry]
  split
  · exact c.toClosing _ s live h
  · exact c.toClosing _ s live h

theorem onPosition {s : State} (h : P s) : P (onPosition s) := by
  by_cases hi : s.dcu.ctl = .inactive
  · have rests : Machine.onPosition s = s := if_pos hi
    rwa [rests]
  simp only [Machine.onPosition]
  refine Carried.ite (P := P) h (Carried.ite (P := P) (c.toClosing _ s hi h) ?_)
  split
  · exact Carried.ite (P := P) (c.toIdle _ s rfl hi h) h
  · exact Carried.ite (P := P) (c.toIdle _ s rfl hi h) h
  · refine Carried.ite (P := P) ?_ h
    split
    · exact c.toHeldOpen s (.inl ‹_›) hi h
    · exact c.toIdle _ s rfl hi h
  · refine Carried.ite (P := P) ?_ h
    split
    · exact Carried.ite (P := P) (c.toHeldOpen s (.inl ‹_›) hi h) (c.toWarning _ s (.inl ‹_›) hi h)
    · exact c.toIdle _ s rfl hi h
  · exact Carried.ite (P := P) (Carried.ite (P := P) (c.evaluate hi h) (c.toMatching hi h)) h
  · exact c.toMatching hi h

theorem onCdChange {s : State} (h : P s) : P (onCdChange s) := by
  simp only [Machine.onCdChange]
  refine Carried.ite (P := P) (c.idleRules h) ?_
  split
  · rename_i hc
    exact c.toMatching (by simp [hc]) h
  · rename_i hc
    exact c.evaluate (by simp [hc]) h
  · rename_i hc
    exact c.toIdle _ s rfl (by simp [hc]) h
  · exact c.idleRules h

theorem locked {s : State} (h : P s) : P s.locked := c.items s _ ⟨rfl, rfl, rfl, rfl⟩ h

theorem onStop {s : State} (h : P s) : P (onStop s) := by
  simp only [Machine.onStop]
  split
  · rename_i hc
    exact c.stopOrReclose (s := s.locked) (by simp [State.locked, hc]) (c.locked h)
  · exact h

theorem onGrant {s : State} (live : s.dcu.ctl ≠ .inactive) (h : P s) : P (onGrant s) := by
  simp only [Machine.onGrant]
  exact Carried.ite (P := P) (c.toOpening s live h) (c.refuse live h)

theorem evaluateClaim {s : State} (live : s.dcu.ctl ≠ .inactive) (h : P s) : P (evaluateClaim s) := by
  simp only [Machine.evaluateClaim]
  have k : P { s with psu := { s.psu with occupants := occupantsOf s, ahead := aheadOf s } } := c.figures s _ ⟨rfl, rfl, rfl⟩ h
  exact Carried.ite (P := P) (c.onGrant live k) k

end Paced

namespace Reacts

variable {P : State → Prop} (c : Reacts P)
include c

theorem excessLook {s : State} (h : P s) : P (excessLook s) := by
  simp only [Machine.excessLook]
  exact Carried.ite (P := P) h (c.excess _ _ (c.figures s _ ⟨rfl, rfl, rfl⟩ h))

theorem report (b : State) {s : State} (h : P s) : P (report b s) := by
  simp only [Machine.report]
  have k := Carried.ite (P := P) (b := reportDiffers b.dcu s.dcu) (c.offer s h) h
  have l := Carried.ite (P := P) (b := b.psu.phase ≠ s.psu.phase) (c.offer _ k) k
  exact Carried.ite (P := P) (c.excessLook l) l

theorem doorEvent (f : State → State) {s : State} (h : P (f s)) : P (doorEvent f s) := c.report s h

theorem peerNotice {s : State} (judged : s.psu.phase = .waiting → P (Machine.evaluateClaim s)) (h : P s) : P (peerNotice s) := by
  simp only [Machine.peerNotice]
  refine c.excessLook ?_
  split
  · exact c.doorEvent _ (judged ‹_›)
  · exact h

end Reacts

namespace Walked

variable {P : State → Prop} (c : Walked P)
include c

theorem noPanelCheck {s : State} (h : P s) : P (noPanelCheck s) := by
  simp only [Machine.noPanelCheck]
  exact Carried.ite (P := P) (c.alarm _ s rfl h) (Carried.ite (P := P) (c.alarm _ s rfl h) h)

theorem clearWatch (k : AlarmKind) (x y : Watch) {s : State} (h : P s) (hk : isEvent k = false) : P (clearWatch k x y s) := by
  simp only [Machine.clearWatch]
  exact Carried.ite (P := P) (c.alarm _ _ (by simp [doorRequest, hk]) h) h

theorem handPosition (y : Bool) {s : State} (h : P s) : P (handPosition y s) := by
  simp only [Machine.handPosition]
  have k := c.offer _ h
  exact Carried.ite (P := P) (c.alarm _ _ rfl k) k

theorem gateAlarms (x y : Enu) {s : State} (h : P s) : P (gateAlarms x y s) := by
  simp only [Machine.gateAlarms]
  have k : P (if x.oob ≠ 3 ∧ y.oob = 3 then Machine.alarm (.becameTrue .pressureSensor) s
      else if x.inb ≠ 3 ∧ y.inb = 3 then Machine.alarm (.becameFalse .pressureSensor) s else s) :=
    Carried.ite (P := P) (c.alarm _ _ rfl h) (Carried.ite (P := P) (c.alarm _ _ rfl h) h)
  refine Carried.ite (P := P) k (c.alarm _ _ ?_ k)
  cases energyLow y <;> rfl

theorem joinDoor {s : State} (h : P s) : P (joinDoor s) := by
  simp only [Machine.joinDoor]
  exact Carried.ite (P := P) (c.doorEvent _ (c.evaluateStanding (c.noPanelCheck h))) h

omit c in
/-- A lever's event. -/
theorem lever {s : State} (l : Lead) (m : Bool) (g : PerLead Bool → PerLead Bool → Bool) {f : State → State} (c : Walked P)
    (start : P (setDebounced l m s)) (event : ∀ x, P x → P (f x)) (h : P s) : P (leverChange l m g f s) := by
  simp only [leverChange]
  exact Carried.ite (P := P) h (Carried.ite (P := P) (c.doorEvent f (event _ start)) start)

/-- The commands of the door, where a property survives what they do to levers, monitor and claim. -/
theorem command (leads : ∀ (s : State) (l : Lead) (m : Bool), (l = .loa ∨ l = .lob ∨ l = .lca ∨ l = .lcb) → P s → P (setDebounced l m s))
    (trm : ∀ (s : State) (t : Trm), t.pos = s.trm.pos → t.count = s.trm.count → t.ref = s.trm.ref → t.stroke = s.trm.stroke →
      t.slow = s.trm.slow → t.vsl = s.trm.vsl → P s → P { s with trm := t })
    (limit : ∀ l m s, P s → Gives P (exec (.limitDebouncedChange l m) s)) (pulse : ∀ up s, P s → P (takePulse up s))
    (pause : ∀ v (s : State), P s → P (valves { s with dcu := s.dcu.pauseEnds v }))
    (claim : ∀ s, s.psu.phase = .fresh → P s → P (onHoldExpiry s))
    (outs : ∀ s, P s → P (setOuts s)) {i : Instr} (hi : DoorCommand i) {s : State} (h : P s) : Gives P (exec i s) := by
  have timer : ∀ t : Trm, t.pos = s.trm.pos → t.count = s.trm.count → t.ref = s.trm.ref → t.stroke = s.trm.stroke →
      t.slow = s.trm.slow → t.vsl = s.trm.vsl → P { s with trm := t } := fun t h1 h2 h3 h4 h5 h6 => trm s t h1 h2 h3 h4 h5 h6 h
  cases hi with
  | limitDebouncedChange l made => exact limit l made s h
  | lcPressed side => exact .finish (outs _ (c.lever _ _ _ (leads _ _ _ (by cases side <;> simp [Side.closeLead]) h) (fun _ => c.onLcPressed _) h))
  | lcReleased side => exact .finish (outs _ (c.lever _ _ _ (leads _ _ _ (by cases side <;> simp [Side.closeLead]) h) (fun _ => c.onLcReleased) h))
  | loPressed side => exact .finish (outs _ (c.lever _ _ _ (leads _ _ _ (by cases side <;> simp [Side.openLead]) h) (fun _ => c.onLoPressed) h))
  | loReleased side => exact .finish (outs _ (c.lever _ _ _ (leads _ _ _ (by cases side <;> simp [Side.openLead]) h) (fun _ => c.onLoReleased) h))
  | warningTimerExpiry =>
    exact .ite (fun hw => .finish (outs _ (c.doorEvent _ (c.onWarningExpiry (by simp [hw]) h)))) fun _ => .next h
  | pauseTimerExpiry valve => exact .finish (outs _ (pause _ _ h))
  | heldOpenLimit =>
    exact .ite (fun _ => .finish (outs _ (c.alarm _ _ rfl (c.items s _ ⟨rfl, rfl, rfl, rfl⟩ h)))) fun _ => .next h
  | discordTimerExpiry => exact .ite (fun _ => .finish (outs _ (c.alarm _ _ rfl (timer _ rfl rfl rfl rfl rfl rfl)))) fun _ => .next h
  | conflictTimerExpiry => exact .ite (fun _ => .finish (outs _ (c.alarm _ _ rfl (timer _ rfl rfl rfl rfl rfl rfl)))) fun _ => .next h
  | positionPulse up since => exact .ite (fun _ => .finish (outs _ (pulse _ _ h))) fun _ => .next h
  | closeMaximumPassed => exact .ite (fun _ => .finish (outs _ (c.alarm _ _ rfl (timer _ rfl rfl rfl rfl rfl rfl)))) fun _ => .next h
  | openMaximumPassed =>
    exact .ite (fun _ => .finish (outs _ (c.doorEvent _ (c.onStop (c.alarm _ _ rfl (timer _ rfl rfl rfl rfl rfl rfl)))))) fun _ =>
      .ite (fun _ => .finish (outs _ (c.alarm _ _ rfl (timer _ rfl rfl rfl rfl rfl rfl)))) fun _ => .next h
  | stallWindowEnd =>
    change Gives P (execStallWindowEnd s)
    rw [execStallWindowEnd]
    split
    · refine .finish (outs _ ?_)
      simp only [windowEnds]
      refine Carried.ite (P := P) ?_ (timer _ rfl rfl rfl rfl rfl rfl)
      exact Carried.ite (P := P) (c.doorEvent _ (c.onStop (c.alarm _ _ rfl (timer _ rfl rfl rfl rfl rfl rfl))))
        (c.alarm _ _ rfl (timer _ rfl rfl rfl rfl rfl rfl))
    · exact .ite (fun _ => .finish (outs _ (c.alarm _ _ rfl (timer _ rfl rfl rfl rfl rfl rfl)))) fun _ =>
        .next (timer _ rfl rfl rfl rfl rfl rfl)
    · exact .next h
  | handMoveArmingExpiry => exact .ite (fun _ => .next (timer _ rfl rfl rfl rfl rfl rfl)) fun _ => .next h
  | handMoveWindowEnd => exact .ite (fun _ => .next (timer _ rfl rfl rfl rfl rfl rfl)) fun _ => .next h
  | claimHoldExpiry => exact .ite (fun hf => .finish (outs _ (c.doorEvent _ (claim _ hf h)))) fun _ => .next h

theorem toMute {s : State} (h : P s.muted) : P (toMute s) := by
  rw [toMute_eq]
  refine Carried.ite (P := P) (c.noPanelCheck (c.doorEvent _ ?_)) h
  split
  · rename_i hc
    exact c.evaluate (by simp [hc]) h
  · exact h

end Walked

/-- A notice at a panel, for a property that looks at the panel unit nowhere. -/
theorem panelNotice_survives {P : State → Prop} (pnu : ∀ (s : State) (x : Pnu), P s → P { s with pnu := x })
    (alarm : ∀ (q : AlarmRequest) (s : State), doorRequest q = true → P s → P (alarm q s)) (n : Notice) {s : State} (h : P s) :
    P (panelNotice n s) := by
  have conflict : ∀ x : State, P x → P (judgeConflict x) := fun x h => by
    simp only [judgeConflict]
    have k := pnu x { x.pnu with conflict := .stopped } h
    exact Carried.ite (P := P) (Carried.ite (P := P) (pnu _ _ h) h) (Carried.ite (P := P) (alarm _ _ rfl k) k)
  have k : P (seeAlarms n.num (summarise s)) := by
    simp only [seeAlarms]
    exact Carried.ite (P := P) (pnu _ _ (pnu _ _ (pnu s _ h))) (pnu _ _ (pnu s _ h))
  simp only [panelNotice]
  exact pnu _ _ (pnu _ _ (Carried.ite (P := P) (conflict _ k) k))

/-- A property that survives every change of the door's own blocks survives every move. -/
theorem Carried.walked {P : State → Prop} (c : Carried P) : Walked P where
  offer := c.offer
  alarm := c.alarm
  items := fun _ d _ h => c.dcu d h
  figures := fun _ p _ h => c.psu p h
  toIdle := fun x _ _ _ h => c.toIdle x h
  toClosing := fun x _ _ h => c.toClosing x h
  toOpening := fun _ _ h => c.toOpening h
  toClaiming := fun _ _ _ _ h => c.toClaiming h
  toWarning := fun w _ _ _ h => c.toWarning w h
  toHeldOpen := fun _ _ _ h => c.toHeldOpen h

/-- A property that also survives what the table, the panel unit and an acknowledgement change, and the door's reactions to them. -/
structure TableWalked (P : State → Prop) : Prop extends Walked P where
  ste : ∀ (s : State) (x : Ste), P s → P { s with ste := x }
  panel : ∀ (n : Notice) (s : State), s.panelRuns = true → P s → P (panelNotice n s)
  ack : ∀ s : State, P s → P (Machine.alarm .acknowledge s)
  rederive : ∀ s : State, s.doorRuns = true → P s → P (rederive s)
  judged : ∀ s : State, s.psu.phase = .waiting → P s → P (evaluateClaim s)

namespace TableWalked

variable {P : State → Prop} (c : TableWalked P)
include c

theorem condition (k : AlarmKind) (b : Bool) {s : State} (hk : isEvent k = false) (h : P s) : P (Machine.alarm (condition k b) s) := by
  refine c.alarm _ s ?_ h
  cases b <;> simp [Machine.condition, doorRequest, hk]

theorem deriveDegraded {s : State} (h : P s) : P (deriveDegraded s) := by
  simp only [Machine.deriveDegraded]
  exact Carried.ite (P := P) h (c.condition _ _ rfl (c.ste s _ h))

theorem derive {s : State} (h : P s) : P (derive s) := by
  refine c.deriveDegraded ?_
  have k : P (deriveMismatch s) := by
    simp only [deriveMismatch]
    exact Carried.ite (P := P) h (c.condition _ _ rfl (c.ste s _ h))
  simp only [deriveLost]
  exact Carried.ite (P := P) k (c.condition _ _ rfl (c.ste _ _ k))

theorem recompute {s : State} (on : s.doorRuns = true) (h : P s) : P (recompute s) :=
  c.noPanelCheck (c.doorEvent _ (c.rederive s on h))

theorem giveNotice (n : Notice) {s : State} (h : P s) : P (giveNotice n s) := by
  simp only [Machine.giveNotice]
  split
  · rename_i on
    have k := Carried.ite (P := P) (b := n.ofPanel = true) (c.recompute on h) h
    exact Carried.ite (P := P) (c.peerNotice (fun w => c.judged _ w k) k) k
  · split
    · exact c.panel n s ‹_› h
    · exact h

theorem acceptTelegram (o : Option Entry) (t : Telegram) {s : State} (h : P s) : P (acceptTelegram o t s) := by
  simp only [Machine.acceptTelegram]
  have k : P (setEntry (acceptedEntry s.staleMs o t) s) := c.ste s _ h
  exact c.giveNotice _ (c.derive (Carried.ite (P := P) (c.ack _ k) k))

theorem takeOther (t : Telegram) {s : State} (h : P s) : P (takeOther t s) := by
  have heard : ∀ (e : Entry) (l : LaneId) (x : Ste), P (hearCopy e l { s with ste := x }) := fun e l x =>
    c.deriveDegraded (c.ste _ _ (c.ste s x h))
  simp only [Machine.takeOther]
  refine Carried.ite (P := P) (c.ste s _ h) ?_
  split
  · exact heard _ _ _
  · exact heard _ _ _
  · exact c.acceptTelegram _ _ h

/-- The commands of the table. -/
theorem tableCommand (rxq : ∀ (s : State) (q : Rxq), P s → P { s with rxq := q })
    (mute : ∀ s, s.suc.startUp = .listen ∨ s.suc.startUp = .joined → P s → P (toMute s)) (outs : ∀ s, P s → P (setOuts s))
    {i : Instr} (hi : TableCommand i) {s : State} (h : P s) : Gives P (exec i s) := by
  cases hi with
  | telegramTaken =>
    change Gives P (execTelegramTaken s)
    rw [execTelegramTaken]
    split
    · rename_i t rest hr hq
      have k : P { s with rxq := { s.rxq with queue := rest } } := rxq s _ h
      refine .finish (outs _ (Carried.ite (P := P) ?_ (c.takeOther _ k)))
      rw [takeOwn]
      split
      · exact mute _ ‹_› k
      · exact k
    · exact .next h
  | entryGoesStale station =>
    change Gives P (execEntryGoesStale station s)
    rw [execEntryGoesStale]
    split
    · exact .next h
    · exact .ite (fun _ => .finish (outs _ (c.giveNotice _ (c.derive (c.ste _ _ h))))) fun _ => .next h
  | laneHeardAgeLimit station lane =>
    change Gives P (execLaneHeardAgeLimit station lane s)
    rw [execLaneHeardAgeLimit]
    split
    · exact .next h
    · exact .ite (fun _ => .next (c.deriveDegraded (c.ste _ _ h))) fun _ => .next h

end TableWalked

end Sys2Proof.Machine
end

