-- ==== Sys2Proof/Proofs/Claims.lean ====
section
/-! SUPPORT and PROOFS. Openings fed and claims joined over every step (R2, R26, R28, R52, R58, R59, R69 to R79). -/

namespace Sys2Proof.Machine

/-! ### Claims -/

/-- The claim and the limit flag fit the control state and CD, whatever brought them about. -/
structure ClaimsHeld (s : State) : Prop where
  claim : s.psu.phase ≠ .noClaim ↔ s.dcu.ctl = .claiming
  timer : s.psu.claimTimer.isSome = true ↔ s.psu.phase = .fresh
  limit : s.psu.inForce = limitFor s.conf s.dcu.cd

theorem ClaimsJoined.held {s : State} (h : ClaimsJoined s) : ClaimsHeld s := ⟨h.claim, h.timer, h.limit⟩

/-- A move in a running door (R2, R26, R70, R77). -/
theorem ClaimsHeld.enters {s t : State} {ctl : Ctl} {cause : Cause} {w : WarningCause} {timer : Option Nat} {held : Watch}
    (h : ClaimsHeld s) (on : s.doorRuns = true) (live : ctl ≠ .inactive) (joined : ctl = .claiming → s.suc.startUp = .joined)
    (demanded : ctl = .warning ∨ ctl = .claiming ∨ ctl = .heldOpen → s.dcu.cd = true)
    (k : Shifted s (s.dcu.enter ctl cause w timer held) t) : ClaimsJoined t := by
  obtain ⟨claim, timer', limit⟩ := h
  have ctl' : t.dcu.ctl = ctl := by rw [k.dcu]; rfl
  have cd : t.dcu.cd = s.dcu.cd := by rw [k.dcu]; rfl
  have suc := k.hands.suc
  have conf : t.conf = s.conf := by rw [State.conf, suc]; rfl
  have psu : t.psu = claimFor s.conf.claimHold s.dcu.ctl ctl s.psu := k.psu
  refine ⟨?_, ?_, ?_, ?_, ?_, ?_, ?_⟩
  · simp [ctl', live, State.doorRuns, suc, conf]
    simpa [State.doorRuns] using on
  · simp [ctl', live]
  · rw [ctl', psu]
    by_cases h1 : ctl = .claiming <;> by_cases h2 : s.dcu.ctl = .claiming <;> simp_all [claimFor]
  · rw [psu]
    by_cases h1 : ctl = .claiming <;> by_cases h2 : s.dcu.ctl = .claiming <;> simp_all [claimFor]
  · rw [ctl', suc]
    exact joined
  · rwa [ctl', cd]
  · rw [psu, conf, cd, ← limit]
    simp only [claimFor]
    (repeat' split) <;> rfl

theorem ClaimsJoined.on {s : State} (h : ClaimsJoined s) (live : s.dcu.ctl ≠ .inactive) : s.doorRuns = true := by
  by_contra hn
  exact live (h.inactive.mpr (eq_false_of_ne_true hn))

/-- What the claims look at. -/
theorem ClaimsJoined.of_demand {s t : State} (h : ClaimsJoined s) (suc : t.suc = s.suc) (ctl : t.dcu.ctl = s.dcu.ctl)
    (cd : t.dcu.cd = s.dcu.cd) (psu : s.psu.sameClaim t.psu) : ClaimsJoined t := by
  obtain ⟨phase, timer, force⟩ := psu
  have conf : t.conf = s.conf := by rw [State.conf, suc]; rfl
  obtain ⟨h1, h2, h3, h4, h5, h6, h7⟩ := h
  exact ⟨by rwa [ctl, State.doorRuns, suc, conf], by rwa [ctl, cd], by rwa [ctl, phase], by rwa [timer, phase], by rwa [ctl, suc],
    by rwa [ctl, cd], by rwa [force, conf, cd]⟩

theorem ClaimsJoined.of_same {s t : State} (h : ClaimsJoined s) (suc : t.suc = s.suc) (dcu : s.dcu.sameCourse t.dcu)
    (psu : s.psu.sameClaim t.psu) : ClaimsJoined t := h.of_demand suc dcu.1 dcu.cd psu

theorem ClaimsJoined.of_eq {s t : State} (h : ClaimsJoined s) (suc : t.suc = s.suc) (dcu : t.dcu = s.dcu) (psu : t.psu = s.psu) :
    ClaimsJoined t := h.of_same suc (.of_eq dcu) (.of_eq psu)

theorem ClaimsJoined.walked : Walked ClaimsJoined :=
  .of_shifted (fun s h => h.of_eq (by simp) (by simp) (by simp)) (fun q s _ h => h.of_eq (by simp) (by simp) (by simp))
    (fun s d hd h => h.of_same rfl hd ⟨rfl, rfl, rfl⟩) (fun s p hp h => h.of_same rfl ⟨rfl, rfl, rfl, rfl⟩ hp)
    fun s t ctl cause w timer held ne claims warns live h k => by
      refine h.held.enters (h.on live) ne (fun hc => (claims hc).1) (fun hc => ?_) k
      by_cases hcl : ctl = .claiming
      · have force := (claims hcl).2
        rw [h.limit, limitFor, Bool.and_eq_true] at force
        exact force.1
      · exact (warns (by simp_all)).elim id fun hw => h.demanded (by rcases hw with hw | hw <;> simp [hw])

/-- CD has changed, and with it the limit flag: the door reacts (R7, R26, R69). -/
theorem ClaimsHeld.reacts {s : State} (h : ClaimsHeld s) (on : s.doorRuns = true) (live : s.dcu.ctl ≠ .inactive)
    (joined : s.dcu.ctl = .claiming → s.suc.startUp = .joined) : ClaimsJoined (onCdChange s) := by
  have c := ClaimsJoined.walked
  have whole : (s.dcu.ctl = .warning ∨ s.dcu.ctl = .claiming ∨ s.dcu.ctl = .heldOpen → s.dcu.cd = true) → ClaimsJoined s :=
    fun hd => ⟨by simp [live, on], by simp [live], h.claim, h.timer, joined, hd, h.limit⟩
  have idle : ∀ x : Ctl, x.isIdle = true → ClaimsJoined (toIdle x s) := fun x hx => by
    rcases Ctl.idle_cases hx with rfl | rfl | rfl <;>
      exact h.enters on (by simp) (by simp) (by simp) (toIdle_shifted _ s)
  have matching : ClaimsJoined (toIdle (idleFor s.trm.pos) s) := idle _ (by cases s.trm.pos <;> rfl)
  by_cases hcd : s.dcu.cd = true
  · rw [onCdChange, if_pos hcd]
    exact c.idleRules (whole fun _ => hcd)
  · rw [onCdChange, if_neg hcd]
    split
    · exact c.idleRules matching
    · rename_i hc
      have force : s.psu.inForce = false := by simp [h.limit, limitFor, hcd]
      simp only [evaluate, force, refuse, hc, Ctl.isIdle]
      refine Carried.ite (P := ClaimsJoined) matching ?_
      exact h.enters on (by simp) (by simp) (by simp) (toOpening_shifted s)
    · exact idle _ rfl
    · exact c.idleRules (whole (by simp_all))

/-- The claims with CD as the panels now demand it, and the limit flag of it (R69). -/
theorem ClaimsHeld.demanded {s : State} (h : ClaimsHeld s) : ClaimsHeld (setLimit s.readDemand) := by
  obtain ⟨force, phase, timer⟩ := setLimit_psu s.readDemand
  obtain ⟨claim, timer', limit⟩ := h
  refine ⟨?_, ?_, ?_⟩
  · rw [phase, (setLimit_keeps s.readDemand).2.2.2.2.2.1]
    exact claim
  · rw [phase, timer]
    exact timer'
  · rw [force]
    simp [State.conf]

theorem ClaimsHeld.read {s : State} (h : ClaimsHeld s) (hcd : s.cdNow = s.dcu.cd) : ClaimsHeld s.readDemand :=
  ⟨h.claim, h.timer, h.limit.trans (by rw [← hcd]; rfl)⟩

theorem ClaimsJoined.rederive {s : State} (on : s.doorRuns = true) (h : ClaimsJoined s) : ClaimsJoined (rederive s) := by
  have live : s.dcu.ctl ≠ .inactive := fun hc => by simp [h.inactive.mp hc] at on
  rw [rederive_eq]
  split
  · rename_i hcd
    exact h.of_demand rfl rfl hcd ⟨rfl, rfl, rfl⟩
  · refine h.held.demanded.reacts ?_ ?_ ?_
    · simpa [State.doorRuns, State.conf, State.readDemand] using on
    · simpa [State.readDemand] using live
    · simpa [State.readDemand] using h.joined

/-- The door leaves INACTIVE (R2): CD as demanded, then the matching idle state. -/
theorem ClaimsHeld.starts {s : State} (h : ClaimsHeld s) (on : s.doorRuns = true) (off : s.dcu.ctl = .inactive) (cd : s.dcu.cd = false) :
    ClaimsJoined (startDcu s) := by
  have c := ClaimsJoined.walked
  have held : ∀ x : State, ClaimsHeld x → x.doorRuns = true → ClaimsJoined (toMatching x) := by
    intro x k on
    refine c.idleRules ?_
    have moved := toIdle_shifted (idleFor x.trm.pos) x
    cases hp : x.trm.pos <;> rw [hp] at moved <;> exact k.enters on (by simp [idleFor]) (by simp [idleFor]) (by simp [idleFor]) moved
  refine c.doorEvent _ ?_
  rw [rederive_eq]
  split
  · rename_i hcd
    exact held _ (h.read hcd) on
  · rename_i hcd
    have rises : s.cdNow = true := by
      rw [cd] at hcd
      exact eq_true_of_ne_false hcd
    have none : (setLimit s.readDemand).dcu.ctl.isIdle = false := by
      rw [(setLimit_keeps s.readDemand).2.2.2.2.2.1]
      simp [State.readDemand, off, Ctl.isIdle]
    have waits : onCdChange (setLimit s.readDemand) = setLimit s.readDemand := by
      have hd : (setLimit s.readDemand).dcu.cd = true := by simpa [State.readDemand] using rises
      rw [onCdChange, if_pos hd, idleRules, none, if_pos (by rfl)]
    rw [waits]
    exact held _ h.demanded (by simpa [State.doorRuns, State.conf, State.readDemand] using on)

/-- A claim outside JOINED ends where it is evaluated again (R9, R174). -/
theorem ClaimsHeld.ends {s : State} (h : ClaimsHeld s) (on : s.doorRuns = true) (hc : s.dcu.ctl = .claiming)
    (hj : s.suc.startUp ≠ .joined) : ClaimsJoined (evaluate s) := by
  have matching : ClaimsJoined (toIdle (idleFor s.trm.pos) s) := by
    have moved := toIdle_shifted (idleFor s.trm.pos) s
    cases hp : s.trm.pos <;> rw [hp] at moved <;> exact h.enters on (by simp [idleFor]) (by simp [idleFor]) (by simp [idleFor]) moved
  have refused : refuse s = toIdle (idleFor s.trm.pos) s := by
    rw [refuse, hc]
    exact if_neg (by decide)
  simp only [evaluate, refused, if_neg hj]
  refine Carried.ite (P := ClaimsJoined) matching (Carried.ite (P := ClaimsJoined) matching ?_)
  exact h.enters on (by simp) (by simp) (by simp) (toOpening_shifted s)

/-- The passage to MUTE (R174). -/
theorem ClaimsJoined.toMute {s : State} (was : s.suc.startUp.running = true) (h : ClaimsJoined s) : ClaimsJoined (toMute s) := by
  have c := ClaimsJoined.walked
  obtain ⟨m, hm⟩ : ∃ m, m = s.muted := ⟨_, rfl⟩
  have on : m.doorRuns = s.doorRuns := by rw [hm, muted_doorRuns was]
  have dcu : m.dcu = s.dcu := by rw [hm]; rfl
  have held : ClaimsHeld m := by rw [hm]; exact ⟨h.claim, h.timer, h.limit⟩
  have rests : m.dcu.ctl ≠ .claiming → ClaimsJoined m := fun hc =>
    ⟨by rw [dcu, on]; exact h.inactive, by rw [dcu]; exact h.quietDemand, held.claim, held.timer, fun k => absurd k hc,
      by rw [dcu]; exact h.demanded, held.limit⟩
  rw [toMute_eq, ← hm]
  split
  · rename_i hd
    refine c.noPanelCheck (c.doorEvent _ ?_)
    by_cases hc : m.dcu.ctl = .claiming
    · rw [if_pos hc]
      exact held.ends hd hc (by simp [hm, State.muted])
    · rw [if_neg hc]
      exact rests hc
  · rename_i hd
    refine rests ?_
    rw [dcu, h.inactive.mpr (on.symm.trans (eq_false_of_ne_true hd))]
    simp

/-! ### Openings -/

/-- The open permissions follow the usable volume, and each valve stands in its state; VOP needs no permission yet, as between a gate's
figures and its stop (R62). -/
structure Permitted (s : State) : Prop where
  start : s.enu.permStart = atLeast s.enu.u (startThreshold s.conf)
  cont : s.enu.permCont = atLeast s.enu.u (continueThreshold s.conf)
  runs : s.enu.running = true → s.suc.startUp.running = true
  stopped : s.suc.startUp.running = false → s.enu.u = none
  valve : s.dcu.vop = true → s.dcu.ctl = .opening
  close : s.dcu.vcl = true → s.dcu.ctl = .closing

/-- VOP is on only with the permission to continue held (R28). -/
def Fed (s : State) : Prop := s.dcu.vop = true → s.enu.permCont = true

theorem openingFed_iff (s : State) : OpeningFed s ↔ Permitted s ∧ Fed s :=
  ⟨fun h => ⟨⟨h.start, h.cont, h.runs, h.stopped, fun k => (h.valve k).1, h.close⟩, fun k => (h.valve k).2⟩,
    fun ⟨h, k⟩ => ⟨h.start, h.cont, h.runs, h.stopped, fun x => ⟨h.valve x, k x⟩, h.close⟩⟩

/-- VOP is off and without the permission to continue, so no move switches it on (R28). -/
def Unfed (s : State) : Prop := s.dcu.vop = false ∧ s.enu.permCont = false

/-- The figures of the energy unit that the permissions follow are the same. -/
def Enu.sameFeed (e f : Enu) : Prop :=
  f.running = e.running ∧ f.u = e.u ∧ f.permStart = e.permStart ∧ f.permCont = e.permCont

theorem Permitted.of_same {s t : State} (h : Permitted s) (suc : t.suc = s.suc) (dcu : s.dcu.sameValves t.dcu)
    (enu : s.enu.sameFeed t.enu) : Permitted t := by
  obtain ⟨ctl, vcl, vop⟩ := dcu
  obtain ⟨running, u, start, cont⟩ := enu
  have conf : t.conf = s.conf := by rw [State.conf, suc]; rfl
  obtain ⟨h1, h2, h3, h4, h5, h6⟩ := h
  exact ⟨by rwa [start, u, conf], by rwa [cont, u, conf], by rwa [running, suc], by rwa [suc, u], by rwa [vop, ctl], by rwa [vcl, ctl]⟩

theorem Fed.of_same {s t : State} (h : Fed s) (dcu : s.dcu.sameValves t.dcu) (enu : s.enu.sameFeed t.enu) : Fed t := by
  obtain ⟨-, -, vop⟩ := dcu
  obtain ⟨-, -, -, cont⟩ := enu
  rwa [Fed, vop, cont]

theorem Unfed.of_same {s t : State} (h : Unfed s) (dcu : s.dcu.sameValves t.dcu) (enu : s.enu.sameFeed t.enu) : Unfed t := by
  obtain ⟨-, -, vop⟩ := dcu
  obtain ⟨-, -, -, cont⟩ := enu
  rwa [Unfed, vop, cont]

theorem Enu.sameFeed.of_eq {e f : Enu} (h : f = e) : e.sameFeed f := by
  rw [h]
  exact ⟨rfl, rfl, rfl, rfl⟩

theorem pumpControl_sameFeed (c : Cfg) (m : Bool) (e : Enu) : e.sameFeed (pumpControl c m e) := by simp [Enu.sameFeed]

/-- No request changes the permissions (R96). -/
theorem alarm_sameFeed (q : AlarmRequest) (s : State) : s.enu.sameFeed (alarm q s).enu := by
  rw [alarm_enu_eq]
  split
  · simp [Enu.sameFeed]
  · exact .of_eq rfl

/-- A move leaves each valve in its state. -/
theorem Permitted.enters {s t : State} {d : Dcu} (h : Permitted s) (k : Shifted s d t) : Permitted t := by
  have suc := k.hands.suc
  have conf : t.conf = s.conf := by rw [State.conf, suc]; rfl
  have enu := k.enu
  obtain ⟨h1, h2, h3, h4, -, -⟩ := h
  refine ⟨by rwa [enu, conf], by rwa [enu, conf], by rwa [enu, suc], by rwa [enu, suc], ?_, ?_⟩
  · rw [k.dcu]
    simp +contextual [Dcu.driven]
  · rw [k.dcu]
    simp +contextual [Dcu.driven]

theorem Permitted.walked : Walked Permitted :=
  .of_shifted (fun s h => h.of_same (by simp) (Dcu.sameCourse.of_eq (by simp)).valves (.of_eq (by simp)))
    (fun q s _ h => h.of_same (by simp) (Dcu.sameCourse.of_eq (by simp)).valves (alarm_sameFeed q s))
    (fun s d hd h => h.of_same rfl hd.valves (.of_eq rfl)) (fun s p _ h => h.of_same rfl ⟨rfl, rfl, rfl⟩ (.of_eq rfl))
    fun s t _ _ _ _ _ _ _ _ _ h k => h.enters k

/-- VOP comes on with the permission to continue, and stays on only where it was. -/
theorem Fed.enters {s t : State} {ctl : Ctl} {cause : Cause} {w : WarningCause} {timer : Option Nat} {held : Watch} (h : Fed s)
    (k : Shifted s (s.dcu.enter ctl cause w timer held) t) : Fed t := by
  rw [Fed, k.dcu, k.enu]
  simp only [Dcu.driven, Dcu.enter_valves, Bool.and_eq_true, Bool.or_eq_true]
  rintro ⟨-, on | ⟨-, on⟩⟩
  · exact h on
  · exact on

theorem Fed.walked : Walked Fed :=
  .of_shifted (fun s h => h.of_same (Dcu.sameCourse.of_eq (by simp)).valves (.of_eq (by simp)))
    (fun q s _ h => h.of_same (Dcu.sameCourse.of_eq (by simp)).valves (alarm_sameFeed q s))
    (fun s d hd h => h.of_same hd.valves (.of_eq rfl)) (fun s p _ h => h.of_same ⟨rfl, rfl, rfl⟩ (.of_eq rfl))
    fun s t _ _ _ _ _ _ _ _ _ h k => h.enters k

theorem Unfed.walked : Walked Unfed :=
  .of_shifted (fun s h => h.of_same (Dcu.sameCourse.of_eq (by simp)).valves (.of_eq (by simp)))
    (fun q s _ h => h.of_same (Dcu.sameCourse.of_eq (by simp)).valves (alarm_sameFeed q s))
    (fun s d hd h => h.of_same hd.valves (.of_eq rfl)) (fun s p _ h => h.of_same ⟨rfl, rfl, rfl⟩ (.of_eq rfl))
    fun s t ctl cause w timer held _ _ _ _ h k => by
      obtain ⟨off, none⟩ := h
      rw [Unfed, k.dcu, k.enu]
      simp [Dcu.driven, off, none]

/-- A move out of OPENING switches VOP off (R28). -/
theorem Unfed.leaves {s t : State} {ctl : Ctl} {cause : Cause} {w : WarningCause} {timer : Option Nat} {held : Watch}
    (none : s.enu.permCont = false) (ne : ctl ≠ .opening) (k : Shifted s (s.dcu.enter ctl cause w timer held) t) : Unfed t := by
  rw [Unfed, k.dcu, k.enu]
  simp [Dcu.driven, ne, none]

/-- A stop without the permission to continue leaves VOP off (R23, R59). -/
theorem Unfed.stops {s : State} (none : s.enu.permCont = false) (valve : s.dcu.vop = true → s.dcu.ctl = .opening) :
    Unfed (onStop s) := by
  have c := Unfed.walked
  rw [onStop]
  split
  · rename_i hc
    have live : s.locked.dcu.ctl ≠ .inactive := by simp [State.locked, hc]
    have idle : ∀ p : Position, Unfed (toIdle (idleFor p) s.locked) := fun p =>
      Unfed.leaves (s := s.locked) none (by cases p <;> simp [idleFor]) (toIdle_shifted (idleFor p) s.locked)
    change Unfed (stopOrReclose s.locked)
    simp only [stopOrReclose]
    refine Carried.ite (P := Unfed) (Carried.ite (P := Unfed) (idle .closed) ?_) (c.idleRules (idle _))
    exact Unfed.leaves (s := s.locked) none (by simp) (toWarning_reclose_shifted s.locked)
  · rename_i hc
    exact ⟨eq_false_of_ne_true fun hv => hc (valve hv), none⟩

/-! ### Both -/

/-- Openings fed and claims joined. -/
def DoorSound (s : State) : Prop := ClaimsJoined s ∧ Permitted s ∧ Fed s

theorem DoorSound.walked : Walked DoorSound := ClaimsJoined.walked.and (Permitted.walked.and Fed.walked)

theorem DoorSound.of_same {s t : State} (h : DoorSound s) (suc : t.suc = s.suc) (dcu : s.dcu.sameCourse t.dcu)
    (psu : s.psu.sameClaim t.psu) (enu : s.enu.sameFeed t.enu) : DoorSound t :=
  ⟨h.1.of_same suc dcu psu, h.2.1.of_same suc dcu.valves enu, h.2.2.of_same dcu.valves enu⟩

theorem DoorSound.of_eq {s t : State} (h : DoorSound s) (suc : t.suc = s.suc) (dcu : t.dcu = s.dcu) (psu : t.psu = s.psu)
    (enu : s.enu.sameFeed t.enu) : DoorSound t := h.of_same suc (.of_eq dcu) (.of_eq psu) enu

/-- A recomputation that does not look at CD. -/
theorem Walked.rederive {P : State → Prop} (c : Walked P) (read : ∀ s : State, P s → P s.readDemand)
    (force : ∀ (s : State) (b : Bool), P s → P { s with psu := { s.psu with inForce := b } }) {s : State} (h : P s) :
    P (rederive s) := by
  rw [rederive_eq]
  refine Carried.ite (P := P) (read s h) (c.onCdChange ?_)
  simp only [setLimit]
  exact Carried.ite (P := P) (read s h) (c.excessLook (force _ _ (read s h)))

theorem DoorSound.table : TableWalked DoorSound where
  toWalked := DoorSound.walked
  ste := fun _ _ h => h.of_eq rfl rfl rfl (.of_eq rfl)
  panel := fun n _ _ h => panelNotice_survives (fun _ _ h => h.of_eq rfl rfl rfl (.of_eq rfl)) DoorSound.walked.alarm n h
  ack := fun s h => h.of_eq (by simp) (by simp) (by simp) (alarm_sameFeed _ s)
  rederive := fun s on h => by
    obtain ⟨claims, permitted, fed⟩ := h
    exact ⟨claims.rederive on,
      Permitted.walked.rederive (fun _ h => h.of_same rfl ⟨rfl, rfl, rfl⟩ (.of_eq rfl))
        (fun _ _ h => h.of_same rfl ⟨rfl, rfl, rfl⟩ (.of_eq rfl)) permitted,
      Fed.walked.rederive (fun _ h => h.of_same ⟨rfl, rfl, rfl⟩ (.of_eq rfl))
        (fun _ _ h => h.of_same ⟨rfl, rfl, rfl⟩ (.of_eq rfl)) fed⟩
  judged := fun s w h => DoorSound.walked.evaluateClaim (by simp [h.1.claim.mp (by simp [w])]) h

theorem DoorSound.aside : Aside DoorSound where
  offer := DoorSound.walked.offer
  alarm := DoorSound.walked.alarm
  ack := fun s _ => DoorSound.table.ack s
  lane := fun s id l _ h => h.of_eq (by simp) (by simp) (by simp) (.of_eq (by simp))
  rxq := fun _ _ _ h => h.of_eq rfl rfl rfl (.of_eq rfl)
  snu := fun _ _ h => h.of_eq rfl rfl rfl (.of_eq rfl)
  pnu := fun _ _ h => h.of_eq rfl rfl rfl (.of_eq rfl)
  dgp := fun _ _ h => h.of_eq rfl rfl rfl (.of_eq rfl)
  clear := fun _ h => h.of_eq rfl rfl rfl (.of_eq rfl)

theorem DoorSound.outs {s : State} (h : DoorSound s) : DoorSound (setOuts s) := h.of_eq rfl rfl rfl (.of_eq rfl)

/-- The travel monitor is no part of it. -/
theorem DoorSound.trm {s : State} (t : Trm) (h : DoorSound s) : DoorSound { s with trm := t } := h.of_eq rfl rfl rfl (.of_eq rfl)

theorem DoorSound.limit (l : Limit) (m : Bool) {s : State} (h : DoorSound s) : Gives DoorSound (exec (.limitDebouncedChange l m) s) := by
  have c := DoorSound.walked
  have start : DoorSound (setDebounced l.lead m s) := h.of_eq rfl rfl rfl (.of_eq rfl)
  refine .ite (fun _ => .next h) fun _ => .ite (fun _ => .finish (DoorSound.outs ?_)) fun _ => .finish (DoorSound.outs (start.trm _))
  simp only [limitActs]
  split
  · exact c.clearWatch _ _ _ (start.trm _) rfl
  · exact c.doorEvent _ (c.onPosition (c.clearWatch _ _ _ (c.clearWatch _ _ _ (c.handPosition _ (start.trm _)) rfl) rfl))

theorem DoorSound.pulse (up : Bool) {s : State} (h : DoorSound s) : DoorSound (takePulse up s) := by
  have c := DoorSound.walked
  have k : DoorSound (offerFigure (positionFigure s) (setTrm (Machine.pulse s.conf up s.trm) s)) := by
    simp only [offerFigure]
    exact Carried.ite (P := DoorSound) (c.offer _ (h.trm _)) (h.trm _)
  simp only [takePulse]
  have l := Carried.ite (P := DoorSound) (b := (s.trm.ref && !(Machine.pulse s.conf up s.trm).ref) = true)
    (c.alarm (.occurred .positionFault) _ rfl k) k
  exact Carried.ite (P := DoorSound) (c.alarm (.occurred .handMove) _ rfl l) l

/-- Valves that follow the control state stay sound (R28). -/
theorem DoorSound.valves {s : State} (h : DoorSound s) : DoorSound (valves s) := by
  obtain ⟨claims, permitted, fed⟩ := h
  have dcu := valves_dcu_eq s
  have suc : (Machine.valves s).suc = s.suc := by simp
  have conf : (Machine.valves s).conf = s.conf := by rw [State.conf, suc]; rfl
  obtain ⟨ctl, -, -, -, -, -, -, -, cd, -⟩ := valves_dcu s
  obtain ⟨h1, h2, h3, h4, h5, h6, h7⟩ := claims
  refine ⟨⟨by rwa [ctl, State.doorRuns, suc, conf], by rwa [ctl, cd], by simpa [ctl] using h3, by simpa using h4, by rwa [ctl, suc],
    by rwa [ctl, cd], by simpa [conf] using h7⟩, ?_, ?_⟩
  · obtain ⟨k1, k2, k3, k4, -, -⟩ := permitted
    refine ⟨by simpa [conf] using k1, by simpa [conf] using k2, by simpa using k3, by simpa using k4, ?_, ?_⟩ <;>
      simp +contextual [dcu, Dcu.driven]
  · rw [Fed, dcu, valves_enu]
    simp only [Dcu.driven, Bool.and_eq_true, Bool.or_eq_true]
    rintro ⟨-, on | ⟨-, on⟩⟩
    · exact fed on
    · exact on

theorem DoorSound.doorCommand {i : Instr} (hi : DoorCommand i) {s : State} (h : DoorSound s) : Gives DoorSound (exec i s) := by
  refine DoorSound.walked.command (fun s l m _ h => h.of_eq rfl rfl rfl (.of_eq rfl)) (fun s t _ _ _ _ _ _ h => h.trm t)
    (fun l m s h => h.limit l m) (fun up s h => h.pulse up) (fun v s h => ?_) (fun s hf h => ?_) (fun s h => h.outs) hi h
  · exact DoorSound.valves (h.of_same rfl (by cases v <;> exact ⟨rfl, rfl, rfl, rfl⟩) ⟨rfl, rfl, rfl⟩ (.of_eq rfl))
  · have claiming : s.dcu.ctl = .claiming := h.1.claim.mp (by simp [hf])
    obtain ⟨⟨h1, h2, h3, h4, h5, h6, h7⟩, k⟩ := h
    exact DoorSound.walked.evaluateClaim (by simp [claiming])
      ⟨⟨h1, h2, by simp [claiming], by simp, h5, h6, h7⟩, k.1.of_same rfl ⟨rfl, rfl, rfl⟩ (.of_eq rfl), k.2⟩

/-- The commands of the energy unit: between a gate's figures and its stop VOP may stand without the permission (R59, R62). -/
theorem DoorSound.energyCommand {i : Instr} (hi : EnergyCommand i) {s : State} (h : DoorSound s) : Gives DoorSound (exec i s) := by
  have fedBy : ∀ e : Enu, s.enu.sameFeed e → DoorSound { s with enu := e } := fun e he => h.of_eq rfl rfl rfl he
  cases hi with
  | pfqPulse since => exact .ite (fun _ => .next (fedBy _ ⟨rfl, rfl, rfl, rfl⟩)) fun _ => .next h
  | gateEnd =>
    refine .ite (fun hr => .finish (DoorSound.outs ?_)) fun _ => .next h
    obtain ⟨e, he⟩ : ∃ e, e = judgeGate s.conf s.enu := ⟨_, rfl⟩
    have c := ClaimsJoined.walked.and Permitted.walked
    have enuKept : Carried (fun x => x.enu = e) :=
      ⟨fun _ _ _ _ h => h, fun s h => by simpa using h, fun q s hq h => (alarm_enu_door q s hq).trans h⟩
    have judged : ClaimsJoined s.gateJudged ∧ Permitted s.gateJudged :=
      ⟨h.1.of_eq rfl rfl rfl, ⟨rfl, rfl, h.2.1.runs, fun hn => absurd ((h.2.1.runs hr).symm.trans hn) (by simp), h.2.1.valve, h.2.1.close⟩⟩
    have k1 := c.gateAlarms s.enu e judged
    have e1 := enuKept.gateAlarms s.enu e (s := s.gateJudged) he.symm
    have k2 := Carried.ite (P := fun x => ClaimsJoined x ∧ Permitted x) (b := s.enu.permStart = e.permStart) k1
      (c.doorEvent _ (c.evaluateStanding k1))
    have e2 := Carried.ite (P := fun x => x.enu = e) (b := s.enu.permStart = e.permStart) e1
      (enuKept.doorEvent _ (enuKept.evaluateStanding e1))
    obtain ⟨x, hx⟩ : ∃ x, x = if s.enu.permStart = e.permStart then gateAlarms s.enu e s.gateJudged
      else doorEvent evaluateStanding (gateAlarms s.enu e s.gateJudged) := ⟨_, rfl⟩
    rw [← hx] at k2 e2
    have stopped : DoorSound (if e.permCont then x else doorEvent onStop x) := by
      cases hp : e.permCont with
      | true => exact ⟨k2.1, k2.2, fun _ => by rw [if_pos rfl, e2]; exact hp⟩
      | false =>
        have none : x.enu.permCont = false := by rw [e2]; exact hp
        have off := Unfed.walked.doorEvent _ (Unfed.stops none k2.2.valve)
        have k3 := c.doorEvent _ (c.onStop k2)
        exact ⟨k3.1, k3.2, fun hv => absurd hv (by simp [off.1])⟩
    have offered := Carried.ite (P := DoorSound) (b := (s.enu.closes = e.closes || reportDiffers (gateAlarms s.enu e s.gateJudged).dcu
      (if e.permCont then x else doorEvent onStop x).dcu) = true) stopped (DoorSound.walked.offer _ stopped)
    rw [hx] at offered
    have final := offered.of_eq (t := pumpActs _) rfl rfl rfl (pumpControl_sameFeed _ _ _)
    rw [he] at final
    exact final
  | mainsDebouncedChange made =>
    have k : DoorSound (setDebounced .mains made s) := h.of_eq rfl rfl rfl (.of_eq rfl)
    refine .ite (fun _ => .next h) fun _ => .ite (fun _ => .finish (DoorSound.outs ?_)) fun _ => .finish k.outs
    exact (DoorSound.table.condition .mainsLoss (!made) rfl k).of_eq (t := pumpActs _) rfl rfl rfl (pumpControl_sameFeed _ _ _)
  | pumpRunLimit =>
    refine .ite (fun _ => .finish (DoorSound.outs ?_)) fun _ => .next h
    have failed := (fedBy _ ⟨rfl, rfl, rfl, rfl⟩ : DoorSound { s with enu := { s.enu with pumpOn := false, run := none } }).of_eq
      (t := alarm (.occurred .pumpFail) _) (by simp) (by simp) (by simp) (alarm_sameFeed _ _)
    exact failed.of_eq (t := setLocked true _) rfl rfl rfl (pumpControl_sameFeed _ _ _)
  | alarmAgeTick kind => exact .next (h.of_eq rfl rfl rfl (.of_eq rfl))

/-! ### Start-up -/

theorem DoorSound.inactive {s : State} (h : DoorSound s) (off : s.suc.startUp.running = false) :
    s.dcu.ctl = .inactive ∧ s.dcu.cd = false ∧ s.psu.inForce = false ∧ s.enu.u = none ∧ s.enu.permStart = false ∧
      s.enu.permCont = false ∧ s.enu.running = false := by
  obtain ⟨claims, permitted, -⟩ := h
  have ctl := claims.inactive.mpr (by simp [State.doorRuns, off])
  have cd := claims.quietDemand ctl
  have none := permitted.stopped off
  refine ⟨ctl, cd, by rw [claims.limit, cd]; rfl, none, by rw [permitted.start, none]; rfl, by rw [permitted.cont, none]; rfl,
    eq_false_of_ne_true fun hr => by simp [permitted.runs hr] at off⟩

/-- Before start-up and without a door that runs the door rests (R2). -/
theorem DoorSound.idle {s t : State} (h : DoorSound s) (off : s.suc.startUp.running = false) (rest : t.doorRuns = false)
    (dcu : t.dcu = s.dcu) (psu : t.psu = s.psu) (enu : s.enu.sameFeed t.enu) : DoorSound t := by
  obtain ⟨ctl, cd, force, u, start, cont, running⟩ := h.inactive off
  obtain ⟨running', u', start', cont'⟩ := enu
  obtain ⟨claims, permitted, fed⟩ := h
  refine ⟨⟨by simp [dcu, ctl, rest], by simp [dcu, cd], by rw [psu, dcu]; exact claims.claim, by rw [psu]; exact claims.timer,
    by simp [dcu, ctl], by simp [dcu, ctl], by rw [psu, force, dcu, cd]; rfl⟩,
    ⟨by rw [start', start, u', u]; rfl, by rw [cont', cont, u', u]; rfl, by simp [running', running], by simp [u', u],
      by rw [dcu]; exact permitted.valve, by rw [dcu]; exact permitted.close⟩, by rw [Fed, dcu, cont']; exact fed⟩

/-- The blocks of a door start (R2, R52). -/
theorem DoorSound.starts {s x : State} (h : DoorSound s) (off : s.suc.startUp.running = false) (on : x.doorRuns = true)
    (dcu : x.dcu = s.dcu) (psu : x.psu = s.psu) (u : x.enu.u = s.enu.u) (start : x.enu.permStart = s.enu.permStart)
    (cont : x.enu.permCont = s.enu.permCont) : DoorSound (startDcu x) := by
  obtain ⟨ctl, cd, force, u', start', cont', -⟩ := h.inactive off
  obtain ⟨claims, permitted, fed⟩ := h
  have held : ClaimsHeld x := ⟨by rw [psu, dcu]; exact claims.claim, by rw [psu]; exact claims.timer,
    by rw [psu, force, dcu, cd]; rfl⟩
  have running : x.suc.startUp.running = true := by
    simp only [State.doorRuns, Bool.and_eq_true] at on
    exact on.1
  have kept : Permitted x := ⟨by rw [start, start', u, u']; rfl, by rw [cont, cont', u, u']; rfl, fun _ => running,
    fun hn => by simp [running] at hn, by rw [dcu]; exact permitted.valve, by rw [dcu]; exact permitted.close⟩
  have fed' : Fed x := by rw [Fed, dcu, cont]; exact fed
  have read : Permitted (rederive x) := Permitted.walked.rederive (fun _ h => h.of_same rfl ⟨rfl, rfl, rfl⟩ (.of_eq rfl))
    (fun _ _ h => h.of_same rfl ⟨rfl, rfl, rfl⟩ (.of_eq rfl)) kept
  have readFed : Fed (rederive x) := Fed.walked.rederive (fun _ h => h.of_same ⟨rfl, rfl, rfl⟩ (.of_eq rfl))
    (fun _ _ h => h.of_same ⟨rfl, rfl, rfl⟩ (.of_eq rfl)) fed'
  exact ⟨held.starts on (by rw [dcu]; exact ctl) (by rw [dcu]; exact cd),
    Permitted.walked.doorEvent _ (Permitted.walked.idleRules (read.enters (toIdle_shifted _ _))),
    Fed.walked.doorEvent _ (Fed.walked.idleRules (readFed.enters (toIdle_shifted _ _)))⟩

/-- MAINS_LOSS at the passage to LISTEN leaves the energy unit (R63). -/
@[simp] theorem startMains_enu (s : State) : (startMains s).enu = s.enu := by
  simp only [startMains]
  split
  · rfl
  · exact alarm_enu_door _ _ rfl

@[simp] theorem startMains_doorRuns (s : State) : (startMains s).doorRuns = s.doorRuns := by simp [State.doorRuns, State.conf]

theorem DoorSound.startCommand {i : Instr} (hi : StartCommand i) {s : State} (h : DoorSound s) : Gives DoorSound (exec i s) := by
  have reading : s.reads = true → s.suc.startUp.running = false := by
    intro hr
    obtain ⟨hl, -⟩ : s.suc.startUp = .loading ∧ s.suc.retryWait.isNone = true := by simpa [State.reads] using hr
    simp [hl, StartUp.running]
  have fault : ∀ (r : FaultReason) (x : State), s.reads = true → x.dcu = s.dcu → x.psu = s.psu → x.enu = s.enu →
      DoorSound (enterFault r x) := fun r x hr dcu psu enu =>
    h.idle (reading hr) (by simp [State.doorRuns, enterFault, StartUp.running]) dcu psu (.of_eq enu)
  have waiting : ∀ x : State, x.suc.startUp = s.suc.startUp → x.conf = s.conf → x.dcu = s.dcu → x.psu = s.psu → x.enu = s.enu →
      DoorSound x := by
    intro x startUp conf dcu psu enu
    obtain ⟨⟨h1, h2, h3, h4, h5, h6, h7⟩, ⟨k1, k2, k3, k4, k5, k6⟩, fed⟩ := h
    exact ⟨⟨by rwa [dcu, State.doorRuns, startUp, conf], by rwa [dcu], by rwa [psu, dcu], by rwa [psu], by rwa [dcu, startUp],
      by rwa [dcu], by rwa [psu, conf, dcu]⟩, ⟨by rwa [enu, conf], by rwa [enu, conf], by rwa [enu, startUp], by rwa [enu, startUp],
      by rwa [dcu], by rwa [dcu]⟩, by rwa [Fed, dcu, enu]⟩
  cases hi with
  | reset leads straps =>
    refine .next ⟨?_, ?_, ?_⟩
    · constructor <;> simp [State.reset, Dcu.reset, Psu.reset, State.doorRuns, Suc.reset, StartUp.running, limitFor]
    · constructor <;> simp [State.reset, Enu.reset, Dcu.reset, atLeast]
    · simp [Fed, State.reset, Dcu.reset]
  | configAddressNotAcked =>
    exact .ite (fun hr => .ite (fun _ => .next (fault _ _ hr rfl rfl rfl)) fun _ => .next (waiting _ rfl rfl rfl rfl rfl)) fun _ => .next h
  | configRetryWaitExpiry => exact .ite (fun _ => .next (waiting _ rfl rfl rfl rfl rfl)) fun _ => .next h
  | configReadDone image keys =>
    refine .ite (fun hr => ?_) fun _ => .next h
    have reads : s.reads = true := by simp only [Bool.and_eq_true] at hr; exact hr.1
    refine .ite (fun _ => .next (fault _ _ reads rfl rfl rfl)) fun _ => .ite (fun _ => .next (fault _ _ reads rfl rfl rfl)) fun _ =>
      .finish (DoorSound.outs ?_)
    simp only [startBlocks]
    split
    · rename_i role
      refine h.starts (reading reads) ?_ (by simp) (by simp) (by simp [startEnu]) (by simp [startEnu]) (by simp [startEnu])
      rw [startMains_doorRuns]
      exact (enterListen_doorRuns _ _).trans (beq_iff_eq.mpr role)
    · rename_i role
      refine h.idle (reading reads) ?_ (by simp) (by simp) (.of_eq (by simp))
      have suc : ∀ x : State, (startMains (startPnu keys x)).doorRuns = x.doorRuns := by simp [State.doorRuns, State.conf]
      rw [suc]
      have off : (configOf image).role = .panel := role
      exact (enterListen_doorRuns _ _).trans (by rw [off]; rfl)
  | csdLowAfterNineClocks => exact .ite (fun hr => .next (fault _ _ hr rfl rfl rfl)) fun _ => .next h
  | listenTimerExpiry =>
    refine .ite (fun hl => .finish (DoorSound.outs (DoorSound.walked.joinDoor ?_))) fun _ => .next h
    obtain ⟨⟨h1, h2, h3, h4, h5, h6, h7⟩, ⟨k1, k2, k3, k4, k5, k6⟩, fed⟩ := h
    have entered : DoorSound { s with suc := { s.suc with startUp := .joined, listenTimer := none } } :=
      ⟨⟨by simpa [State.doorRuns, State.conf, hl, StartUp.running] using h1, h2, h3, h4, fun _ => rfl, h6, h7⟩,
        ⟨k1, k2, fun _ => rfl, fun hn => by simp [StartUp.running] at hn, k5, k6⟩, fed⟩
    exact entered.of_eq (by simp) (by simp) (by simp) (.of_eq (by simp))
  | flashEdge => exact .finish (DoorSound.outs (h.of_eq rfl rfl rfl (.of_eq rfl)))
  | levelInputEdge lead made =>
    exact .ite (fun _ => .next (h.of_eq rfl rfl rfl (.of_eq rfl))) fun _ => .next (h.of_eq (by simp) (by simp) (by simp) (.of_eq (by simp)))

/-! ### Every command -/

theorem DoorSound.toMute {s : State} (was : s.suc.startUp.running = true) (h : DoorSound s) : DoorSound (toMute s) := by
  obtain ⟨claims, permitted, fed⟩ := h
  have silent : Permitted s.muted :=
    ⟨permitted.start, permitted.cont, fun _ => rfl, fun hn => by simp [State.muted, StartUp.running] at hn, permitted.valve, permitted.close⟩
  exact ⟨claims.toMute was, Permitted.walked.toMute silent, Fed.walked.toMute fed⟩

theorem DoorSound.command (c : Instr) {s : State} (h : DoorSound s) : Gives DoorSound (exec c s) := by
  have aside := DoorSound.aside
  revert c
  refine Instr.of_families ?door ?lane ?panel ?port ?snapshot ?table ?energy ?start
  case door => exact fun _ hc => h.doorCommand hc
  case lane => exact fun _ hc => aside.laneKept.command hc h
  case panel => exact fun _ hc => aside.panelCommand hc h
  case port => exact fun _ hc => aside.portCommand hc h
  case snapshot => exact fun _ hc => aside.snapshotCommand hc h
  case table =>
    refine fun _ hc => DoorSound.table.tableCommand (fun _ _ h => h.of_eq rfl rfl rfl (.of_eq rfl)) (fun s hs h => h.toMute ?_)
      (fun _ h => h.outs) hc h
    rcases hs with hs | hs <;> simp [hs, StartUp.running]
  case energy => exact fun _ hc => h.energyCommand hc
  case start => exact fun _ hc => h.startCommand hc

/-- A millisecond moves no door. -/
theorem DoorSound.ticked {s : State} (h : DoorSound s) : DoorSound (tick s) := by
  obtain ⟨⟨h1, h2, h3, h4, h5, h6, h7⟩, ⟨k1, k2, k3, k4, k5, k6⟩, fed⟩ := h
  exact ⟨⟨h1, h2, h3, by simpa [tick, sooner] using h4, h5, h6, h7⟩, ⟨k1, k2, k3, k4, k5, k6⟩, fed⟩

/-- Settles O53: on every walk of the door, with the gate's stop and the claim's end at MUTE. -/
theorem stepsKeepOpeningsFedAndClaimsJoined : Obligations.StepsKeepOpeningsFedAndClaimsJoined := by
  intro s t fed claims e
  have sound : DoorSound s := ⟨claims, (openingFed_iff s).mp fed⟩
  obtain ⟨claims', fed'⟩ := step_keeps (P := DoorSound) (fun _ _ h => h.of_eq rfl rfl rfl (.of_eq rfl))
    (fun c _ _ h => (h.command c).of_next) (fun _ h => h.ticked) sound e
  exact ⟨(openingFed_iff t).mpr fed', claims'⟩

end Sys2Proof.Machine
end

