-- ==== Sys2Proof/Proofs/Pins.lean ====
section
/-! SUPPORT and PROOFS. Position, strokes and pins over every step (R28 to R30, R34, R43, R44, R64). -/

namespace Sys2Proof.Machine

/-! ### Strokes -/

/-- Position, strokes and VSL follow the limits and the valves; the pins, set at the end of a command, are left out. -/
structure Strokes (s : State) : Prop where
  position : s.trm.pos = positionOf s.deb
  closing : s.trm.stroke = some .closing ↔ s.dcu.vcl = true
  opening : s.trm.stroke = some .opening ↔ s.dcu.vop = true
  fast : s.trm.stroke = none → s.trm.vsl = false
  slow : s.doorRuns = true → s.trm.vsl = vslFor s.conf s.trm

theorem pinsFollow_iff (s : State) : PinsFollow s ↔ Strokes s ∧ s.outs = outsFor s :=
  ⟨fun h => ⟨⟨h.position, h.closing, h.opening, h.fast, h.slow⟩, h.pins⟩,
    fun ⟨h, k⟩ => ⟨h.position, k, h.closing, h.opening, h.fast, h.slow⟩⟩

/-- VSL looks at the stroke, the flag of a slow stroke and the figure (R43). -/
theorem vslFor_of_eq {c : Cfg} {t u : Trm} (count : u.count = t.count) (ref : u.ref = t.ref) (stroke : u.stroke = t.stroke)
    (slow : u.slow = t.slow) : vslFor c u = vslFor c t := by
  simp only [vslFor, figureFor, count, ref, stroke, slow]

theorem vslFor_none {c : Cfg} {t : Trm} (h : t.stroke = none) : vslFor c t = false := by simp only [vslFor, h]

/-- What the strokes look at. -/
theorem Strokes.of_same {s t : State} (h : Strokes s) (suc : t.suc = s.suc) (deb : positionOf t.deb = positionOf s.deb)
    (dcu : s.dcu.sameValves t.dcu) (trm : t.trm = s.trm) : Strokes t := by
  obtain ⟨-, vcl, vop⟩ := dcu
  have conf : t.conf = s.conf := by rw [State.conf, suc]; rfl
  obtain ⟨h1, h2, h3, h4, h5⟩ := h
  exact ⟨by rw [trm, deb, h1], by rwa [trm, vcl], by rwa [trm, vop], by rwa [trm], by rwa [State.doorRuns, suc, conf, trm]⟩

theorem Strokes.of_eq {s t : State} (h : Strokes s) (suc : t.suc = s.suc) (deb : t.deb = s.deb) (dcu : t.dcu = s.dcu)
    (trm : t.trm = s.trm) : Strokes t := h.of_same suc (by rw [deb]) (Dcu.sameCourse.of_eq dcu).valves trm

/-- The travel monitor takes new values with the stroke as it is (R43). -/
theorem Strokes.set {s : State} {t : Trm} (closing : s.trm.stroke = some .closing ↔ s.dcu.vcl = true)
    (opening : s.trm.stroke = some .opening ↔ s.dcu.vop = true) (pos : t.pos = positionOf s.deb) (stroke : t.stroke = s.trm.stroke) :
    Strokes (setTrm t s) :=
  ⟨pos, by simpa [setTrm, stroke] using closing, by simpa [setTrm, stroke] using opening, fun h => vslFor_none (t := t) h, fun _ => rfl⟩

/-- The stroke of a valve that comes on, none behind one that goes off, else the one that ran (R44). -/
theorem Trm.driven_stroke (c : Cfg) (before after : Dcu) (t : Trm) : (t.driven c before after).stroke =
    if (!before.vcl && after.vcl) = true then some .closing
    else if (!before.vop && after.vop) = true then some .opening
    else if switchedOff before after = true then none else t.stroke := by
  simp only [Trm.driven]
  (repeat' split) <;> rfl

theorem Trm.driven_pos (c : Cfg) (before after : Dcu) (t : Trm) : (t.driven c before after).pos = t.pos := by
  simp only [Trm.driven]
  (repeat' split) <;> rfl

/-- VSL is decided afresh wherever a stroke begins or ends (R43). -/
theorem Trm.driven_vsl (c : Cfg) (before after : Dcu) (t : Trm) :
    t.driven c before after = t ∨ (t.driven c before after).vsl = vslFor c (t.driven c before after) := by
  by_cases begins : (!before.vcl && after.vcl) = true
  · simp only [Trm.driven, if_pos begins]
    exact .inr rfl
  · by_cases begins' : (!before.vop && after.vop) = true
    · simp only [Trm.driven, if_neg begins, if_pos begins']
      exact .inr rfl
    · by_cases ends : switchedOff before after = true
      · simp only [Trm.driven, if_neg begins, if_neg begins', if_pos ends]
        exact .inr rfl
      · refine .inl ?_
        simp only [Trm.driven, if_neg begins, if_neg begins', if_neg ends]

/-- The stroke follows the valves (R28, R44). -/
theorem Strokes.driven {s t : State} {d : Dcu} {b : Bool} (h : Strokes s) (vcl : d.vcl = s.dcu.vcl) (vop : d.vop = s.dcu.vop)
    (dcu : t.dcu = d.driven b) (trm : t.trm = s.trm.driven s.conf d t.dcu) (suc : t.suc = s.suc) (deb : t.deb = s.deb) : Strokes t := by
  have conf : t.conf = s.conf := by rw [State.conf, suc]; rfl
  have runs : t.doorRuns = s.doorRuns := by rw [State.doorRuns, suc, conf]; rfl
  obtain ⟨position, closing, opening, fast, slow⟩ := h
  have one : ¬ (s.dcu.vcl = true ∧ s.dcu.vop = true) := fun ⟨hv, hw⟩ => by simp [closing.mpr hv] at opening; simp [hw] at opening
  have on : (t.dcu.vcl = true → s.dcu.vcl = true ∨ s.dcu.vop = false) ∧ (t.dcu.vop = true → s.dcu.vop = true ∨ s.dcu.vcl = false) ∧
      ¬ (t.dcu.vcl = true ∧ t.dcu.vop = true) := by
    rw [dcu]
    simp only [Dcu.driven, Bool.and_eq_true, Bool.or_eq_true, beq_iff_eq, Bool.not_eq_true', vcl, vop]
    refine ⟨fun h => h.2.imp_right fun h => h.1, fun h => h.2.imp_right fun h => h.1.1, fun h => ?_⟩
    simp [h.1.1] at h
  have stroke := congrArg Trm.stroke trm
  rw [Trm.driven_stroke, vcl, vop] at stroke
  have valves : (t.trm.stroke = some .closing ↔ t.dcu.vcl = true) ∧ (t.trm.stroke = some .opening ↔ t.dcu.vop = true) := by
    rw [stroke]
    simp only [switchedOff, vcl, vop]
    cases hv : s.dcu.vcl <;> cases hw : s.dcu.vop <;> cases hv' : t.dcu.vcl <;> cases hw' : t.dcu.vop <;> simp_all
  have vsl := Trm.driven_vsl s.conf d t.dcu s.trm
  rw [← trm] at vsl
  refine ⟨by rw [trm, Trm.driven_pos, deb, position], valves.1, valves.2, fun hn => ?_, fun hr => ?_⟩
  · rcases vsl with same | afresh
    · rw [same]
      exact fast (by rwa [same] at hn)
    · rw [afresh]
      exact vslFor_none hn
  · rcases vsl with same | afresh
    · rw [conf, same]
      exact slow (runs.symm.trans hr)
    · rw [conf, afresh]

theorem Strokes.enters {s t : State} {ctl : Ctl} {cause : Cause} {w : WarningCause} {timer : Option Nat} {held : Watch} (h : Strokes s)
    (k : Shifted s (s.dcu.enter ctl cause w timer held) t) : Strokes t :=
  h.driven (d := s.dcu.enter ctl cause w timer held) rfl rfl k.dcu k.trm k.hands.suc k.hands.deb

theorem Strokes.walked : Walked Strokes :=
  .of_shifted (fun s h => h.of_eq (by simp) (by simp) (by simp) (by simp)) (fun q s _ h => h.of_eq (by simp) (by simp) (by simp) (by simp))
    (fun s d hd h => h.of_same rfl rfl hd.valves rfl) (fun s p _ h => h.of_eq rfl rfl rfl rfl)
    fun s t _ _ _ _ _ _ _ _ _ h k => h.enters k

/-- A claim judged moves the door to OPENING or to the matching idle state (R26, R75). -/
theorem Strokes.evaluateClaim {s : State} (h : Strokes s) : Strokes (evaluateClaim s) := by
  have k : Strokes { s with psu := { s.psu with occupants := occupantsOf s, ahead := aheadOf s } } := h.of_eq rfl rfl rfl rfl
  simp only [Machine.evaluateClaim, onGrant, refuse]
  refine Carried.ite (P := Strokes) (Carried.ite (P := Strokes) (k.enters (toOpening_shifted _)) ?_) k
  exact Carried.ite (P := Strokes) k (k.enters (toIdle_shifted _ _))

theorem Strokes.rederive {s : State} (h : Strokes s) : Strokes (rederive s) :=
  Strokes.walked.rederive (fun _ h => h.of_same rfl rfl ⟨rfl, rfl, rfl⟩ rfl) (fun _ _ h => h.of_eq rfl rfl rfl rfl) h

theorem Strokes.table : TableWalked Strokes where
  toWalked := Strokes.walked
  ste := fun _ _ h => h.of_eq rfl rfl rfl rfl
  panel := fun n _ _ h => panelNotice_survives (fun _ _ h => h.of_eq rfl rfl rfl rfl) Strokes.walked.alarm n h
  ack := fun s h => h.of_eq (by simp) (by simp) (by simp) (by simp)
  rederive := fun s _ h => h.rederive
  judged := fun s _ h => h.evaluateClaim

theorem Strokes.outs {s : State} (h : Strokes s) : Strokes (setOuts s) := h.of_eq rfl rfl rfl rfl

theorem Strokes.limit (l : Limit) (m : Bool) {s : State} (h : Strokes s) : Gives Strokes (exec (.limitDebouncedChange l m) s) := by
  have c := Strokes.walked
  obtain ⟨position, closing, opening, fast, slow⟩ := h
  obtain ⟨x, hx⟩ : ∃ x, x = setDebounced l.lead m s := ⟨_, rfl⟩
  have dcu : x.dcu = s.dcu := by rw [hx]; rfl
  have trm : x.trm = s.trm := by rw [hx]; rfl
  have suc : x.suc = s.suc := by rw [hx]; rfl
  have set : ∀ t : Trm, t.pos = positionOf x.deb → t.stroke = x.trm.stroke → Strokes (setTrm t x) := fun t =>
    Strokes.set (by rwa [trm, dcu]) (by rwa [trm, dcu])
  have run : exec (.limitDebouncedChange l m) s = if s.limitIgnored l.lead || s.deb.get l.lead == m then .next s
      else if x.trm.running then finish (limitActs l x) else finish { x with trm := { x.trm with pos := positionOf x.deb } } := by
    rw [hx]; rfl
  rw [run]
  refine .ite (fun _ => .next ⟨position, closing, opening, fast, slow⟩) fun _ => .ite (fun _ => .finish (Strokes.outs ?_)) fun _ =>
    .finish (Strokes.outs ?_)
  · by_cases hp : positionOf x.deb = x.trm.pos
    · have acts : limitActs l x = clearWatch _ _ _ (setTrm _ x) := if_pos hp
      rw [acts]
      exact c.clearWatch _ _ _ (set _ hp.symm rfl) rfl
    · have acts : limitActs l x = doorEvent onPosition _ := if_neg hp
      rw [acts]
      refine c.doorEvent _ (c.onPosition (c.clearWatch _ _ _ (c.clearWatch _ _ _ (c.handPosition _ (set _ ?_ ?_)) rfl) rfl))
      · simp only [arrive]
        split <;> rfl
      · simp only [arrive]
        split <;> rfl
  · have conf : x.conf = s.conf := by rw [State.conf, suc]; rfl
    refine ⟨rfl, by simpa [trm, dcu] using closing, by simpa [trm, dcu] using opening, by simpa [trm] using fast, fun hr => ?_⟩
    have afresh := slow (by rwa [State.doorRuns, State.conf, ← suc])
    simp only [trm, afresh]
    exact (vslFor_of_eq rfl rfl rfl rfl).trans (by rw [← conf]; rfl)

theorem Strokes.pulse (up : Bool) {s : State} (h : Strokes s) : Strokes (takePulse up s) := by
  have c := Strokes.walked
  have start : Strokes (setTrm (Machine.pulse s.conf up s.trm) s) := Strokes.set h.closing h.opening h.position rfl
  have k : Strokes (offerFigure (positionFigure s) (setTrm (Machine.pulse s.conf up s.trm) s)) := by
    simp only [offerFigure]
    exact Carried.ite (P := Strokes) (c.offer _ start) start
  simp only [takePulse]
  have l := Carried.ite (P := Strokes) (b := (s.trm.ref && !(Machine.pulse s.conf up s.trm).ref) = true)
    (c.alarm (.occurred .positionFault) _ rfl k) k
  exact Carried.ite (P := Strokes) (c.alarm (.occurred .handMove) _ rfl l) l

theorem Strokes.doorCommand {i : Instr} (hi : DoorCommand i) {s : State} (h : Strokes s) : Gives Strokes (exec i s) := by
  refine Strokes.walked.command (fun s l m hl h => ?_) (fun s t pos count ref stroke slow vsl h => ?_)
    (fun l m s h => h.limit l m) (fun up s h => h.pulse up) (fun v s h => ?_) (fun s _ h => ?_) (fun s h => h.outs) hi h
  · refine h.of_same rfl ?_ ⟨rfl, rfl, rfl⟩ rfl
    rcases hl with rfl | rfl | rfl | rfl <;> rfl
  · obtain ⟨h1, h2, h3, h4, h5⟩ := h
    refine ⟨by rw [pos]; exact h1, by rw [stroke]; exact h2, by rw [stroke]; exact h3, by rw [stroke, vsl]; exact h4, fun hr => ?_⟩
    rw [vsl]
    exact (h5 hr).trans (vslFor_of_eq count ref stroke slow).symm
  · have paused : Strokes { s with dcu := s.dcu.pauseEnds v } := h.of_same rfl rfl (by cases v <;> exact ⟨rfl, rfl, rfl⟩) rfl
    exact paused.driven rfl rfl (valves_dcu_eq _) (valves_trm_eq _) (by simp) (by simp)
  · have waits : Strokes { s with psu := { s.psu with phase := .waiting, claimTimer := none } } := h.of_eq rfl rfl rfl rfl
    exact waits.evaluateClaim

theorem Strokes.energyCommand {i : Instr} (hi : EnergyCommand i) {s : State} (h : Strokes s) : Gives Strokes (exec i s) := by
  have c := Strokes.walked
  have unit : ∀ (x : State) (e : Enu), Strokes x → Strokes { x with enu := e } := fun _ _ h => h.of_eq rfl rfl rfl rfl
  cases hi with
  | pfqPulse since => exact .ite (fun _ => .next (unit _ _ h)) fun _ => .next h
  | gateEnd =>
    refine .ite (fun _ => .finish (Strokes.outs ?_)) fun _ => .next h
    have k1 := c.gateAlarms s.enu (judgeGate s.conf s.enu) (s := s.gateJudged) (unit _ _ h)
    have k2 := Carried.ite (P := Strokes) (b := s.enu.permStart = (judgeGate s.conf s.enu).permStart) k1
      (c.doorEvent _ (c.evaluateStanding k1))
    have k3 := Carried.ite (P := Strokes) (b := (judgeGate s.conf s.enu).permCont = true) k2 (c.doorEvent _ (c.onStop k2))
    exact unit _ _ (Carried.ite (P := Strokes) k3 (c.offer _ k3))
  | mainsDebouncedChange made =>
    have k : Strokes (setDebounced .mains made s) := h.of_same rfl rfl ⟨rfl, rfl, rfl⟩ rfl
    refine .ite (fun _ => .next h) fun _ => .ite (fun _ => .finish (Strokes.outs ?_)) fun _ => .finish k.outs
    exact unit _ _ (Strokes.table.condition .mainsLoss (!made) rfl k)
  | pumpRunLimit =>
    refine .ite (fun _ => .finish (Strokes.outs ?_)) fun _ => .next h
    have failed : ∀ x : State, Strokes x → Strokes (alarm (.occurred .pumpFail) x) := fun x k =>
      k.of_eq (by simp) (by simp) (by simp) (by simp)
    exact (failed _ (unit s { s.enu with pumpOn := false, run := none } h)).of_eq (t := setLocked true _) rfl rfl rfl rfl
  | alarmAgeTick kind => exact .next (h.of_eq rfl rfl rfl rfl)

/-- Start-up control and the configuration tell which role runs, and no more of them is looked at while no door runs. -/
theorem Strokes.of_role {s t : State} (h : Strokes s) (deb : t.deb = s.deb) (dcu : t.dcu = s.dcu) (trm : t.trm = s.trm)
    (slow : t.doorRuns = true → s.doorRuns = true ∧ t.conf = s.conf) : Strokes t := by
  obtain ⟨h1, h2, h3, h4, h5⟩ := h
  refine ⟨by rwa [trm, deb], by rwa [trm, dcu], by rwa [trm, dcu], by rwa [trm], fun hr => ?_⟩
  obtain ⟨on, conf⟩ := slow hr
  rw [trm, conf]
  exact h5 on

theorem Strokes.startCommand {i : Instr} (hi : StartCommand i) {s : State} (h : Strokes s) : Gives Strokes (exec i s) := by
  have c := Strokes.walked
  have fault : ∀ (r : FaultReason) (x : State), x.deb = s.deb → x.dcu = s.dcu → x.trm = s.trm → Strokes (enterFault r x) :=
    fun r x deb dcu trm => h.of_role deb dcu trm fun hr => by simp [State.doorRuns, enterFault, StartUp.running] at hr
  cases hi with
  | reset leads straps =>
    exact .next ⟨rfl, by simp [Trm.reset, State.reset, Dcu.reset], by simp [Trm.reset, State.reset, Dcu.reset], fun _ => rfl, fun _ => rfl⟩
  | configAddressNotAcked =>
    exact .ite (fun _ => .ite (fun _ => .next (fault _ _ rfl rfl rfl)) fun _ => .next (h.of_role rfl rfl rfl fun hr => ⟨hr, rfl⟩)) fun _ =>
      .next h
  | configRetryWaitExpiry => exact .ite (fun _ => .next (h.of_role rfl rfl rfl fun hr => ⟨hr, rfl⟩)) fun _ => .next h
  | configReadDone image keys =>
    refine .ite (fun _ => .ite (fun _ => .next (fault _ _ rfl rfl rfl)) fun _ => .ite (fun _ => .next (fault _ _ rfl rfl rfl)) fun _ =>
      .finish (Strokes.outs ?_)) fun _ => .next h
    simp only [startBlocks]
    split
    · have monitor : ∀ x : State, x.deb = s.deb → x.dcu = s.dcu → x.trm = s.trm → Strokes (startTrm x) := fun x deb dcu trm =>
        Strokes.set (by rw [trm, dcu]; exact h.closing) (by rw [trm, dcu]; exact h.opening) (by rw [trm, deb]; exact h.position) rfl
      have started : ∀ x : State, Strokes x → Strokes (startDcu (startMains (startEnu x))) := by
        intro x k
        have mains : Strokes (startMains (startEnu x)) := k.of_eq (by simp [startEnu]) (by simp [startEnu]) (by simp [startEnu]) (by simp [startEnu])
        exact c.doorEvent _ (c.idleRules (mains.rederive.enters (toIdle_shifted _ _)))
      exact started _ (monitor _ rfl rfl rfl)
    · rename_i role
      refine h.of_role (by simp) (by simp) (by simp) fun hr => ?_
      have suc : ∀ x : State, (startMains (startPnu keys x)).doorRuns = x.doorRuns := by simp [State.doorRuns, State.conf]
      rw [suc] at hr
      have off : (configOf image).role = .panel := role
      have := (enterListen_doorRuns _ _).symm.trans hr
      simp [off] at this
  | csdLowAfterNineClocks => exact .ite (fun _ => .next (fault _ _ rfl rfl rfl)) fun _ => .next h
  | listenTimerExpiry =>
    refine .ite (fun hl => .finish (Strokes.outs (c.joinDoor ?_))) fun _ => .next h
    refine h.of_role (by simp) (by simp) (by simp) fun hr => ?_
    simpa [State.doorRuns, State.conf, hl, show StartUp.listen.running = true from rfl, show StartUp.joined.running = true from rfl] using hr
  | flashEdge => exact .finish (Strokes.outs (h.of_eq rfl rfl rfl rfl))
  | levelInputEdge lead made =>
    exact .ite (fun _ => .next (h.of_eq rfl rfl rfl rfl)) fun _ => .next (h.of_eq (by simp) (by simp) (by simp) (by simp))

theorem Strokes.toMute {s : State} (was : s.suc.startUp.running = true) (h : Strokes s) : Strokes (toMute s) := by
  refine Strokes.walked.toMute (h.of_role rfl rfl rfl fun hr => ⟨?_, rfl⟩)
  rwa [muted_doorRuns was] at hr

/-! ### Pins -/

/-- The pins are those of the state. -/
def Pinned (s : State) : Prop := s.outs = outsFor s

/-- What the pins look at. -/
theorem Pinned.of_same {s t : State} (h : Pinned s) (outs : t.outs = s.outs) (ctl : t.dcu.ctl = s.dcu.ctl) (flash : slowOn t.flash = slowOn s.flash)
    (pos : t.trm.pos = s.trm.pos) (deb : t.deb = s.deb) (pump : t.enu.pumpOn = s.enu.pumpOn) : Pinned t := by
  have same : outsFor t = outsFor s := by simp only [outsFor, requestStands, loHeld, ctl, flash, pos, deb, pump]
  rw [Pinned, outs, same]
  exact h

theorem Pinned.aside : Aside Pinned where
  offer := fun s h => h.of_same (by simp) (by simp) (by simp) (by simp) (by simp) (by simp)
  alarm := fun q s hq h => h.of_same (by simp) (by simp) (by simp) (by simp) (by simp) (by rw [alarm_enu_door q s hq])
  ack := fun s hp h => by
    have enu : (Machine.alarm .acknowledge s).enu = s.enu := alarm_enu _ _ fun hd => by simp_all [State.doorRuns, State.panelRuns]
    exact h.of_same (by simp) (by simp) (by simp) (by simp) (by simp) (by rw [enu])
  lane := fun s id l _ h => h.of_same (by simp) (by simp) (by simp) (by simp) (by simp) (by simp)
  rxq := fun _ _ _ h => h.of_same rfl rfl rfl rfl rfl rfl
  snu := fun _ _ h => h.of_same rfl rfl rfl rfl rfl rfl
  pnu := fun _ _ h => h.of_same rfl rfl rfl rfl rfl rfl
  dgp := fun _ _ h => h.of_same rfl rfl rfl rfl rfl rfl
  clear := fun _ h => h.of_same rfl rfl rfl rfl rfl rfl

/-- A door's command sets the pins, or changes nothing they look at (R29, R30). -/
theorem Pinned.doorCommand {i : Instr} (hi : DoorCommand i) {s : State} (h : Pinned s) : Gives Pinned (exec i s) := by
  have set : ∀ x : State, Gives Pinned (finish x) := fun x => .finish rfl
  have timer : ∀ t : Trm, t.pos = s.trm.pos → Pinned { s with trm := t } := fun t ht => h.of_same rfl rfl rfl ht rfl rfl
  cases hi with
  | limitDebouncedChange l made => exact .ite (fun _ => .next h) fun _ => .ite (fun _ => set _) fun _ => set _
  | lcPressed side => exact set _
  | lcReleased side => exact set _
  | loPressed side => exact set _
  | loReleased side => exact set _
  | warningTimerExpiry => exact .ite (fun _ => set _) fun _ => .next h
  | pauseTimerExpiry valve => exact set _
  | heldOpenLimit => exact .ite (fun _ => set _) fun _ => .next h
  | discordTimerExpiry => exact .ite (fun _ => set _) fun _ => .next h
  | conflictTimerExpiry => exact .ite (fun _ => set _) fun _ => .next h
  | positionPulse up since => exact .ite (fun _ => set _) fun _ => .next h
  | closeMaximumPassed => exact .ite (fun _ => set _) fun _ => .next h
  | openMaximumPassed => exact .ite (fun _ => set _) fun _ => .ite (fun _ => set _) fun _ => .next h
  | stallWindowEnd =>
    change Gives Pinned (execStallWindowEnd s)
    rw [execStallWindowEnd]
    split
    · exact set _
    · exact .ite (fun _ => set _) fun _ => .next (timer _ rfl)
    · exact .next h
  | handMoveArmingExpiry => exact .ite (fun _ => .next (timer _ rfl)) fun _ => .next h
  | handMoveWindowEnd => exact .ite (fun _ => .next (timer _ rfl)) fun _ => .next h
  | claimHoldExpiry => exact .ite (fun _ => set _) fun _ => .next h

theorem Pinned.tableCommand {i : Instr} (hi : TableCommand i) {s : State} (h : Pinned s) : Gives Pinned (exec i s) := by
  have set : ∀ x : State, Gives Pinned (finish x) := fun x => .finish rfl
  cases hi with
  | telegramTaken =>
    change Gives Pinned (execTelegramTaken s)
    rw [execTelegramTaken]
    split
    · exact set _
    · exact .next h
  | entryGoesStale station =>
    change Gives Pinned (execEntryGoesStale station s)
    rw [execEntryGoesStale]
    split
    · exact .next h
    · exact .ite (fun _ => set _) fun _ => .next h
  | laneHeardAgeLimit station lane =>
    change Gives Pinned (execLaneHeardAgeLimit station lane s)
    rw [execLaneHeardAgeLimit]
    split
    · exact .next h
    · rename_i e _
      refine .ite (fun _ => .next ?_) fun _ => .next h
      have put : Pinned (setEntry (rejudge s.staleMs e) s) := h.of_same rfl rfl rfl rfl rfl rfl
      simp only [deriveDegraded]
      refine Carried.ite (P := Pinned) put (Pinned.aside.alarm _ _ ?_ (put.of_same rfl rfl rfl rfl rfl rfl))
      cases degradedNow (setEntry (rejudge s.staleMs e) s) <;> rfl

theorem Pinned.energyCommand {i : Instr} (hi : EnergyCommand i) {s : State} (h : Pinned s) : Gives Pinned (exec i s) := by
  have set : ∀ x : State, Gives Pinned (finish x) := fun x => .finish rfl
  cases hi with
  | pfqPulse since => exact .ite (fun _ => .next (h.of_same rfl rfl rfl rfl rfl rfl)) fun _ => .next h
  | gateEnd => exact .ite (fun _ => set _) fun _ => .next h
  | mainsDebouncedChange made => exact .ite (fun _ => .next h) fun _ => .ite (fun _ => set _) fun _ => set _
  | pumpRunLimit => exact .ite (fun _ => set _) fun _ => .next h
  | alarmAgeTick kind => exact .next (h.of_same rfl rfl rfl rfl rfl rfl)

theorem Pinned.startCommand {i : Instr} (hi : StartCommand i) {s : State} (h : Pinned s) : Gives Pinned (exec i s) := by
  have set : ∀ x : State, Gives Pinned (finish x) := fun x => .finish rfl
  have same : ∀ x : State, x.outs = s.outs → x.dcu = s.dcu → x.flash = s.flash → x.trm = s.trm → x.deb = s.deb → x.enu = s.enu →
      Pinned x := fun x outs dcu flash trm deb enu =>
    h.of_same outs (by rw [dcu]) (by rw [flash]) (by rw [trm]) deb (by rw [enu])
  cases hi with
  | reset leads straps => exact .next (by simp [Pinned, outsFor, State.reset, Outs.reset, Dcu.reset, Ctl.moving, Enu.reset])
  | configAddressNotAcked =>
    exact .ite (fun _ => .ite (fun _ => .next (same _ rfl rfl rfl rfl rfl rfl)) fun _ => .next (same _ rfl rfl rfl rfl rfl rfl)) fun _ =>
      .next h
  | configRetryWaitExpiry => exact .ite (fun _ => .next (same _ rfl rfl rfl rfl rfl rfl)) fun _ => .next h
  | configReadDone image keys =>
    exact .ite (fun _ => .ite (fun _ => .next (same _ rfl rfl rfl rfl rfl rfl)) fun _ =>
      .ite (fun _ => .next (same _ rfl rfl rfl rfl rfl rfl)) fun _ => set _) fun _ => .next h
  | csdLowAfterNineClocks => exact .ite (fun _ => .next (same _ rfl rfl rfl rfl rfl rfl)) fun _ => .next h
  | listenTimerExpiry => exact .ite (fun _ => set _) fun _ => .next h
  | flashEdge => exact set _
  | levelInputEdge lead made =>
    exact .ite (fun _ => .next (same _ rfl rfl rfl rfl rfl rfl)) fun _ =>
      .next (same _ (by simp) (by simp) (by simp) (by simp) (by simp) (by simp))

/-! ### Both -/

theorem Strokes.aside : Aside Strokes where
  offer := Strokes.walked.offer
  alarm := Strokes.walked.alarm
  ack := fun s _ => Strokes.table.ack s
  lane := fun s id l _ h => h.of_eq (by simp) (by simp) (by simp) (by simp)
  rxq := fun _ _ _ h => h.of_eq rfl rfl rfl rfl
  snu := fun _ _ h => h.of_eq rfl rfl rfl rfl
  pnu := fun _ _ h => h.of_eq rfl rfl rfl rfl
  dgp := fun _ _ h => h.of_eq rfl rfl rfl rfl
  clear := fun _ h => h.of_eq rfl rfl rfl rfl

theorem Strokes.command (c : Instr) {s : State} (h : Strokes s) : Gives Strokes (exec c s) := by
  have aside := Strokes.aside
  revert c
  refine Instr.of_families ?door ?lane ?panel ?port ?snapshot ?table ?energy ?start
  case door => exact fun _ hc => h.doorCommand hc
  case lane => exact fun _ hc => aside.laneKept.command hc h
  case panel => exact fun _ hc => aside.panelCommand hc h
  case port => exact fun _ hc => aside.portCommand hc h
  case snapshot => exact fun _ hc => aside.snapshotCommand hc h
  case table =>
    refine fun _ hc => Strokes.table.tableCommand (fun _ _ h => h.of_eq rfl rfl rfl rfl) (fun s hs h => h.toMute ?_)
      (fun _ h => h.outs) hc h
    rcases hs with hs | hs <;> simp [hs, StartUp.running]
  case energy => exact fun _ hc => h.energyCommand hc
  case start => exact fun _ hc => h.startCommand hc

theorem Pinned.command (c : Instr) {s : State} (h : Pinned s) : Gives Pinned (exec c s) := by
  have aside := Pinned.aside
  revert c
  refine Instr.of_families ?door ?lane ?panel ?port ?snapshot ?table ?energy ?start
  case door => exact fun _ hc => h.doorCommand hc
  case lane => exact fun _ hc => aside.laneKept.command hc h
  case panel => exact fun _ hc => aside.panelCommand hc h
  case port => exact fun _ hc => aside.portCommand hc h
  case snapshot => exact fun _ hc => aside.snapshotCommand hc h
  case table => exact fun _ hc => h.tableCommand hc
  case energy => exact fun _ hc => h.energyCommand hc
  case start => exact fun _ hc => h.startCommand hc

/-- A millisecond leaves strokes, position and what VSL and the pins look at. -/
theorem Strokes.ticked {s : State} (h : Strokes s) : Strokes (tick s) := by
  obtain ⟨h1, h2, h3, h4, h5⟩ := h
  exact ⟨h1, h2, h3, h4, fun hr => (h5 hr).trans (vslFor_of_eq rfl rfl rfl rfl).symm⟩

/-- Settles O59: the strokes on every walk of the door, the pins at the end of every command. -/
theorem stepsKeepPositionStrokesAndPins : Obligations.StepsKeepPositionStrokesAndPins := by
  intro s t h e
  rw [pinsFollow_iff] at h ⊢
  exact ⟨step_keeps (P := Strokes) (fun _ _ h => h.of_eq rfl rfl rfl rfl) (fun c _ _ h => (h.command c).of_next) (fun _ h => h.ticked) h.1 e,
    step_keeps (P := Pinned) (fun _ _ h => h.of_same rfl rfl rfl rfl rfl rfl) (fun c _ _ h => (h.command c).of_next)
      (fun _ h => h.of_same rfl rfl rfl rfl rfl rfl) h.2 e⟩

end Sys2Proof.Machine
end

