-- ==== Sys2Proof/Proofs/Lamps.lean ====
section
/-! SUPPORT and PROOFS. What the panel's lamps, summaries and sounder look at, and that every step keeps them with it (R153, R157 to R165). -/

namespace Sys2Proof.Machine

/-! ### Alarm sets -/

theorem kindBit_ne_zero (k : AlarmKind) : kindBit k ≠ 0#24 := by cases k <;> decide

/-- A set is empty exactly where no record passes its test (R95). -/
theorem setOf_eq_zero (test : AlarmRecord → Bool) (l : List AlarmRecord) : setOf test l = 0#24 ↔ l.any test = false := by
  induction l with
  | nil => simp [setOf]
  | cons r l ih =>
    have head : setOf test (r :: l) = if test r then kindBit r.kind ||| setOf test l else setOf test l := rfl
    rw [head, List.any_cons]
    by_cases hr : test r = true
    · have bit := kindBit_ne_zero r.kind
      rw [if_pos hr, hr]
      simp only [Bool.true_or, Bool.true_eq_false, iff_false]
      intro h
      exact bit (BitVec.or_eq_zero_iff.mp h).1
    · simp [hr, ih]

/-- A kind is in a set exactly where a record of it passes the test (R95). -/
theorem mem_setOf (test : AlarmRecord → Bool) (k : AlarmKind) (l : List AlarmRecord) :
    setOf test l &&& kindBit k ≠ 0#24 ↔ ∃ r ∈ l, r.kind = k ∧ test r = true := by
  have bits : ∀ a b : AlarmKind, kindBit a &&& kindBit b ≠ 0#24 ↔ a = b := by
    intro a b
    cases a <;> cases b <;> decide
  induction l with
  | nil => simp [setOf]
  | cons r l ih =>
    have head : setOf test (r :: l) = if test r then kindBit r.kind ||| setOf test l else setOf test l := rfl
    rw [head]
    by_cases hr : test r = true
    · have split : (kindBit r.kind ||| setOf test l) &&& kindBit k ≠ 0#24 ↔
          kindBit r.kind &&& kindBit k ≠ 0#24 ∨ setOf test l &&& kindBit k ≠ 0#24 := by
        rw [show (kindBit r.kind ||| setOf test l) &&& kindBit k = (kindBit r.kind &&& kindBit k) ||| (setOf test l &&& kindBit k) from
          BitVec.and_or_distrib_right, ne_eq, BitVec.or_eq_zero_iff]
        tauto
      rw [if_pos hr, split]
      refine (or_congr (bits _ _) ih).trans ?_
      simp [hr]
    · simp [hr, ih]

/-- The sets look at kinds and states alone (R95). -/
theorem setOf_map (test : AlarmRecord → Bool) (f : AlarmRecord → AlarmRecord) (kind : ∀ r, (f r).kind = r.kind)
    (same : ∀ r, test (f r) = test r) (l : List AlarmRecord) : setOf test (l.map f) = setOf test l := by
  simp only [setOf, List.foldr_map, kind, same]

/-- A new alarm changes the active set (R96). -/
theorem newAlarm_changes {q : AlarmRequest} {l : List AlarmRecord} (h : newAlarm q l = true) :
    activeSet (applyRequest q l) ≠ activeSet l := by
  cases q with
  | becameTrue k =>
    have inactive : ¬ ∃ r ∈ l, r.kind = k ∧ r.st.active = true := by
      simpa [newAlarm] using h
    have active := becameTrue_active k l
    rw [← mem_setOf (fun r => r.st.active)] at inactive active
    intro same
    exact inactive (by rw [activeSet, activeSet] at same; rwa [same] at active)
  | becameFalse k => simp [newAlarm] at h
  | occurred k => simp [newAlarm] at h
  | acknowledge => simp [newAlarm] at h

/-! ### What the panel looks at -/

/-- What the panel shows of an entry: its kind, its liveness, its door and panel parts. Ages, serials, marking and ident part it does
not look at. -/
def Entry.seen (e : Entry) : Entry :=
  { e with age := 0, heardA := 0, heardB := 0, single := false, serD := none, serS := none, serI := none, ident := none }

/-- Two tables in which the panel sees the same. -/
structure Alike (t u : List Entry) : Prop where
  any : ∀ f : Entry → Bool, (∀ e, f e.seen = f e) → u.any f = t.any f
  find : ∀ n, (u.find? (·.num == n)).map Entry.seen = (t.find? (·.num == n)).map Entry.seen

theorem Alike.refl (t : List Entry) : Alike t t := ⟨fun _ _ => rfl, fun _ => rfl⟩

/-- Entries that change in what the panel does not see. -/
theorem Alike.map {f : Entry → Entry} (h : ∀ e, (f e).seen = e.seen) (t : List Entry) : Alike t (t.map f) := by
  have num : ∀ e, (f e).num = e.num := fun e => show (f e).seen.num = e.seen.num by rw [h]
  constructor
  · intro g hg
    rw [List.any_map]
    congr 1
    funext e
    rw [Function.comp_apply, ← hg, h, hg]
  · intro n
    induction t with
    | nil => rfl
    | cons e t ih =>
      rw [List.map_cons, List.find?_cons, List.find?_cons, num]
      split
      · simp [h]
      · exact ih

/-- An entry put in the place of the one found, changed in what the panel does not see. -/
theorem Alike.put {t : List Entry} {e e' : Entry} (found : t.find? (·.num == e.num) = some e) (h : e'.seen = e.seen) :
    Alike t (putEntry e' t) := by
  have num : e'.num = e.num := show e'.seen.num = e.seen.num by rw [h]
  constructor
  · intro f hf
    have same : f e' = f e := by rw [← hf, h, hf]
    induction t with
    | nil => simp at found
    | cons x xs ih =>
      rw [List.find?_cons] at found
      simp only [putEntry]
      by_cases hx : x.num = e.num
      · have head : x = e := by simpa [hx] using found
        rw [if_neg (by omega), if_pos (num.trans hx.symm)]
        simp [same, head]
      · have rest : xs.find? (·.num == e.num) = some e := by rwa [show (x.num == e.num) = false by simpa using hx] at found
        split
        · have mem : f e = true → xs.any f = true := fun h => List.any_eq_true.mpr ⟨e, List.mem_of_find?_eq_some rest, h⟩
          simp only [List.any_cons, same]
          cases hfe : f e <;> simp_all
        · rw [if_neg (by omega), List.any_cons, List.any_cons, ih rest]
  · intro n
    by_cases hn : n = e'.num
    · rw [hn, find_putEntry_same, num, found, Option.map_some, Option.map_some, h]
    · rw [find_putEntry_other _ _ hn]

theorem Entry.doorIs_seen (f : DoorPart → Bool) (e : Entry) : e.seen.doorIs f = e.doorIs f := rfl

/-- A summary record over the entries of a scope, flag by flag (R158). -/
theorem summaryOf_filter (p : Entry → Bool) (t : List Entry) : summaryOf (t.filter p) = {
    empty := !t.any p
    allClosed := t.any p && !t.any (fun e => p e && !(e.live &&
      e.doorIs (fun d => d.pos == .closed && d.ctl != .opening && d.ctl != .claiming)))
    anyOpen := t.any (fun e => p e && e.doorIs (fun d => d.pos != .closed))
    anyMoving := t.any (fun e => p e && (e.live && e.doorIs (fun d => d.ctl.moving)))
    anyUnacked := t.any (fun e => p e && e.doorIs (fun d => d.unacked != 0))
    anyActive := t.any (fun e => p e && e.doorIs (fun d => d.active != 0))
    anyLost := t.any (fun e => p e && !e.live) } := by
  have empty : (t.filter p).isEmpty = !t.any p := by
    rw [Bool.eq_iff_iff]
    simp [List.filter_eq_nil_iff]
  have any : ∀ f : Entry → Bool, (t.filter p).any f = t.any (fun e => p e && f e) := fun f => by rw [List.any_filter]
  have all : ∀ f : Entry → Bool, (t.filter p).all f = !t.any (fun e => p e && !f e) := fun f => by
    rw [← any, List.not_any_eq_all_not]
    simp
  simp only [summaryOf, empty, any, all, Bool.not_not]

theorem Alike.summary {t u : List Entry} (h : Alike t u) (p : Entry → Bool) (hp : ∀ e, p e.seen = p e) :
    summaryOf (u.filter p) = summaryOf (t.filter p) := by
  have live : ∀ e : Entry, e.seen.live = e.live := fun _ => rfl
  rw [summaryOf_filter, summaryOf_filter, h.any p hp]
  rw [h.any _ fun e => ?a, h.any _ fun e => ?b, h.any _ fun e => ?c, h.any _ fun e => ?d, h.any _ fun e => ?e, h.any _ fun e => ?f]
  all_goals simp only [hp, live, Entry.doorIs_seen]

theorem Alike.summaries {t u : List Entry} (h : Alike t u) : summariesOf u = summariesOf t := by
  have group : ∀ g, summaryOf (groupScope u g) = summaryOf (groupScope t g) := fun g => h.summary _ fun _ => rfl
  simp only [summariesOf, group, h.summary (·.isDoorEntry) fun _ => rfl]

/-- What the lamps look at (R160 to R162). -/
structure SameScene (s t : State) : Prop where
  conf : t.conf = s.conf
  table : Alike s.ste.table t.ste.table
  summaries : t.pnu.summaries = s.pnu.summaries
  unacked : unackedSet t.alu = unackedSet s.alu
  active : activeSet t.alu = activeSet s.alu
  mode : t.pnu.mode = s.pnu.mode
  groups : t.pnu.groups = s.pnu.groups
  silence : t.pnu.silence = s.pnu.silence
  goodA : t.laneA.good = s.laneA.good
  goodB : t.laneB.good = s.laneB.good

theorem doorLamp_seen (e : Entry) (lamp : Nat) : doorLamp e.seen lamp = doorLamp e lamp := rfl

theorem doorCell_eq (s : State) (n lamp : Nat) : doorCell s n lamp = if n == s.conf.station then .dark else
    ((entryOf s n).map Entry.seen).elim .dark (fun e => if e.kind == .door then doorLamp e lamp else .dark) := by
  rw [doorCell]
  cases entryOf s n <;> rfl

theorem SameScene.patterns {s t : State} (h : SameScene s t) : lampPatterns t = lampPatterns s := by
  obtain ⟨conf, table, summaries, unacked, active, mode, groups, silence, goodA, goodB⟩ := h
  have cell : ∀ n lamp, doorCell t n lamp = doorCell s n lamp := fun n lamp => by
    rw [doorCell_eq, doorCell_eq, entryOf, entryOf, table.find, conf]
  have closed := table.any (·.demandsClosed) fun _ => rfl
  have group : ∀ g, t.ste.table.any (Entry.demandsGroup g) = s.ste.table.any (Entry.demandsGroup g) := fun g => table.any _ fun _ => rfl
  have lamp : ∀ i, lampPattern t i = lampPattern s i := fun i => by
    simp only [lampPattern, cell, closed, group, summaries, unacked, active, mode, groups, silence, goodA, goodB]
  exact List.map_congr_left fun i _ => lamp i

/-- An unacknowledged alarm exists where the sets and the table are alike (R164). -/
theorem alarmExists_of_alike {s t : State} (table : Alike s.ste.table t.ste.table) (unacked : unackedSet t.alu = unackedSet s.alu) :
    alarmExists t = alarmExists s := by
  rw [alarmExists, alarmExists, unacked, table.any (fun e => e.unackedNow != 0) fun _ => rfl]

/-! ### Lamps and sounder under each operation -/

/-- The panel unit's part of the invariant but for the lamps. -/
structure Sounds (s : State) : Prop where
  running : s.pnu.running = s.panelRuns
  summaries : s.panelRuns = true → s.pnu.summaries = summariesOf s.ste.table
  sounder : s.panelRuns = true → s.pnu.psnd = (alarmExists s && !s.pnu.silence)
  silence : s.panelRuns = true → s.pnu.silence = true → alarmExists s = true
  off : s.panelRuns = false → s.pnu.silence = false ∧ s.pnu.psnd = false

/-- The lamps are those of what stands. -/
def Painted (s : State) : Prop := s.panelRuns = true → s.pnu.patterns = lampPatterns s

theorem panelShows_iff (s : State) : PanelShows s ↔ Sounds s ∧ Painted s :=
  ⟨fun h => ⟨⟨h.running, h.summaries, h.sounder, h.silence, h.off⟩, h.patterns⟩,
    fun ⟨h, k⟩ => ⟨h.running, h.summaries, k, h.sounder, h.silence, h.off⟩⟩

/-- Running, and silent where no panel runs: what is left between a change of the table and its notice. -/
structure Standing (s : State) : Prop where
  running : s.pnu.running = s.panelRuns
  off : s.panelRuns = false → s.pnu.silence = false ∧ s.pnu.psnd = false

theorem Sounds.standing {s : State} (h : Sounds s) : Standing s := ⟨h.running, h.off⟩

/-- Where no panel runs there is no more to show. -/
theorem Standing.elsewhere {s : State} (h : Standing s) (off : s.panelRuns = false) : PanelShows s :=
  ⟨h.running, by simp [off], by simp [off], by simp [off], by simp [off], h.off⟩

theorem SameScene.refl (s : State) : SameScene s s := ⟨rfl, .refl _, rfl, rfl, rfl, rfl, rfl, rfl, rfl, rfl⟩

/-- A state that looks the same to the panel (R157 to R165). -/
theorem Sounds.of_scene {s t : State} (h : Sounds s) (k : SameScene s t) (runs : t.panelRuns = s.panelRuns)
    (running : t.pnu.running = s.pnu.running) (psnd : t.pnu.psnd = s.pnu.psnd) : Sounds t := by
  have exists' := alarmExists_of_alike k.table k.unacked
  obtain ⟨h1, h2, h3, h4, h5⟩ := h
  refine ⟨by rw [running, runs, h1], ?_, ?_, ?_, ?_⟩
  · rw [runs, k.summaries, k.table.summaries]
    exact h2
  · rw [runs, psnd, exists', k.silence]
    exact h3
  · rw [runs, k.silence, exists']
    exact h4
  · rw [runs, k.silence, psnd]
    exact h5

theorem PanelShows.of_scene {s t : State} (h : PanelShows s) (k : SameScene s t) (runs : t.panelRuns = s.panelRuns)
    (running : t.pnu.running = s.pnu.running) (psnd : t.pnu.psnd = s.pnu.psnd) (patterns : t.pnu.patterns = s.pnu.patterns) :
    PanelShows t := by
  obtain ⟨sounds, painted⟩ := (panelShows_iff s).mp h
  refine (panelShows_iff t).mpr ⟨sounds.of_scene k runs running psnd, fun hr => ?_⟩
  rw [patterns, k.patterns]
  exact painted (runs.symm.trans hr)

/-- The panel unit, the table, the alarm list and the lanes' health as they are. -/
theorem PanelShows.of_eq {s t : State} (h : PanelShows s) (suc : t.suc = s.suc) (table : t.ste.table = s.ste.table)
    (alu : t.alu = s.alu) (pnu : t.pnu = s.pnu) (goodA : t.laneA.good = s.laneA.good) (goodB : t.laneB.good = s.laneB.good) :
    PanelShows t := by
  have conf : t.conf = s.conf := by rw [State.conf, suc]; rfl
  exact h.of_scene ⟨conf, by rw [table]; exact .refl _, by rw [pnu], by rw [alu], by rw [alu], by rw [pnu], by rw [pnu], by rw [pnu],
    goodA, goodB⟩ (by rw [State.panelRuns, suc, conf]; rfl) (by rw [pnu]) (by rw [pnu]) (by rw [pnu])

/-- The lamps painted afresh (R160 to R162). -/
theorem Sounds.repaint {s : State} (h : Sounds s) : PanelShows (repaint s) :=
  (panelShows_iff _).mpr ⟨⟨h.running, h.summaries, h.sounder, h.silence, h.off⟩,
    fun _ => (SameScene.patterns (s := s) (t := Machine.repaint s) ⟨rfl, .refl _, rfl, rfl, rfl, rfl, rfl, rfl, rfl, rfl⟩).symm⟩

/-- The sounder decided afresh (R164, R165). -/
theorem Standing.sound {s : State} (h : Standing s) (on : s.panelRuns = true) (summaries : s.pnu.summaries = summariesOf s.ste.table) :
    Sounds (sound s) := by
  refine ⟨h.running, fun _ => summaries, fun _ => rfl, fun _ hs => ?_, fun hn => ?_⟩
  · have : (s.pnu.silence && alarmExists s) = true := hs
    rw [Bool.and_eq_true] at this
    exact this.2
  · exact absurd (on.symm.trans hn) (by simp)

theorem LaneHanded.good {l m : Lane} (h : LaneHanded l m) : m.good = l.good := by
  rcases h with rfl | ⟨-, -, c, rfl⟩ <;> rfl

theorem offer_good (s : State) : (offer s).laneA.good = s.laneA.good ∧ (offer s).laneB.good = s.laneB.good :=
  ⟨(offer_hands s).laneA.good, (offer_hands s).laneB.good⟩

theorem alarm_good (q : AlarmRequest) (s : State) : (alarm q s).laneA.good = s.laneA.good ∧ (alarm q s).laneB.good = s.laneB.good :=
  ⟨(alarm_hands q s).laneA.good, (alarm_hands q s).laneB.good⟩

/-- What an alarm request leaves at a panel (R96, R97). -/
theorem alarm_panel {q : AlarmRequest} {s : State} (on : s.panelRuns = true) : alarm q s =
    if activeSet (applyRequest q s.alu) ≠ activeSet s.alu ∨ unackedSet (applyRequest q s.alu) ≠ unackedSet s.alu then
      repaint (sound (if newAlarm q s.alu then endSilence { s with alu := applyRequest q s.alu } else { s with alu := applyRequest q s.alu }))
    else { s with alu := applyRequest q s.alu } := by
  have door : s.doorRuns = false := by
    simp only [State.panelRuns, Bool.and_eq_true, beq_iff_eq] at on
    simp [State.doorRuns, on.2]
  have acts : alarm q s = if activeSet (applyRequest q s.alu) ≠ activeSet s.alu ∨ unackedSet (applyRequest q s.alu) ≠ unackedSet s.alu then
      repaint (sound (if newAlarm q s.alu then endSilence { s with alu := applyRequest q s.alu } else { s with alu := applyRequest q s.alu }))
    else if newAlarm q s.alu then endSilence { s with alu := applyRequest q s.alu } else { s with alu := applyRequest q s.alu } := by
    rw [alarm]
    simp only [door, on, Bool.false_eq_true, if_false, if_true]
  rw [acts]
  split
  · rfl
  · rename_i same
    rw [if_neg fun hn => same (.inl (newAlarm_changes hn))]

/-- Off a panel an alarm request leaves the panel unit. -/
theorem alarm_pnu_off {q : AlarmRequest} {s : State} (off : s.panelRuns = false) : (alarm q s).pnu = s.pnu := by
  cases hd : s.doorRuns with
  | true => exact (alarm_hands q s).panelOut hd
  | false => simp [alarm, hd, off]

theorem Standing.alarm {s : State} (h : Standing s) (q : AlarmRequest) : Standing (alarm q s) := by
  have runs : (Machine.alarm q s).panelRuns = s.panelRuns := by simp [State.panelRuns, State.conf]
  refine ⟨?_, fun hn => ?_⟩
  · rw [runs, (alarm_hands q s).panel]
    exact h.running
  · rw [runs] at hn
    rw [alarm_pnu_off hn]
    exact h.off hn

theorem Sounds.alarm {s : State} (h : Sounds s) (q : AlarmRequest) : Sounds (alarm q s) := by
  cases on : s.panelRuns with
  | false =>
    have stands := h.standing.alarm q
    exact ((panelShows_iff _).mp (stands.elsewhere (by simpa [State.panelRuns, State.conf] using on))).1
  | true =>
    rw [alarm_panel on]
    have stands : ∀ b : Bool, Standing (if b then endSilence { s with alu := applyRequest q s.alu } else { s with alu := applyRequest q s.alu }) := by
      intro b
      cases b <;> exact ⟨h.running, fun hn => absurd (on.symm.trans hn) (by simp)⟩
    split
    · refine ((panelShows_iff _).mp (Sounds.repaint ((stands _).sound ?_ ?_))).1
      · cases newAlarm q s.alu <;> exact on
      · cases newAlarm q s.alu <;> exact h.summaries on
    · rename_i same
      obtain ⟨active, unacked⟩ := not_or.mp same
      exact h.of_scene ⟨rfl, .refl _, rfl, not_not.mp unacked, not_not.mp active, rfl, rfl, rfl, rfl, rfl⟩ rfl rfl rfl

theorem PanelShows.alarm {s : State} (h : PanelShows s) (q : AlarmRequest) : PanelShows (alarm q s) := by
  obtain ⟨sounds, painted⟩ := (panelShows_iff s).mp h
  have sounds' := sounds.alarm q
  refine (panelShows_iff _).mpr ⟨sounds', fun hr => ?_⟩
  have on : s.panelRuns = true := by simpa [State.panelRuns, State.conf] using hr
  rw [alarm_panel on] at sounds' ⊢
  split
  · exact (SameScene.patterns ⟨rfl, .refl _, rfl, rfl, rfl, rfl, rfl, rfl, rfl, rfl⟩).symm
  · rename_i same
    obtain ⟨active, unacked⟩ := not_or.mp same
    refine (painted on).trans (SameScene.patterns (s := s) ?_).symm
    exact ⟨rfl, .refl _, rfl, not_not.mp unacked, not_not.mp active, rfl, rfl, rfl, rfl, rfl⟩

theorem PanelShows.offer {s : State} (h : PanelShows s) : PanelShows (offer s) :=
  h.of_eq (by simp) (by simp) (by simp) (by simp) (offer_good s).1 (offer_good s).2

theorem PanelShows.carried : Carried PanelShows where
  door := fun _ _ _ _ h => h.of_eq rfl rfl rfl rfl rfl rfl
  offer := fun _ h => h.offer
  alarm := fun q _ _ h => h.alarm q

theorem Standing.carried : Carried Standing where
  door := fun _ _ _ _ h => ⟨h.running, h.off⟩
  offer := fun s h => ⟨by simpa [State.panelRuns, State.conf] using h.running, by simpa [State.panelRuns, State.conf] using h.off⟩
  alarm := fun q _ _ h => h.alarm q

theorem alarm_summaries (q : AlarmRequest) (s : State) : (alarm q s).pnu.summaries = s.pnu.summaries := by
  rw [(alarm_hands q s).panel]

/-- The panel unit runs and its summaries are those of the table. -/
structure Summarised (s : State) : Prop where
  on : s.panelRuns = true
  running : s.pnu.running = true
  summaries : s.pnu.summaries = summariesOf s.ste.table

theorem Summarised.alarm {s : State} (h : Summarised s) (q : AlarmRequest) : Summarised (alarm q s) := by
  refine ⟨by simpa [State.panelRuns, State.conf] using h.on, ?_, ?_⟩
  · rw [(alarm_hands q s).panel]
    exact h.running
  · rw [alarm_summaries, (alarm_keeps q s).2.2.2.2.2.2.2.2.1]
    exact h.summaries

theorem Summarised.sound {s : State} (h : Summarised s) : Sounds (sound s) :=
  Standing.sound ⟨h.running.trans h.on.symm, fun hn => absurd (h.on.symm.trans hn) (by simp)⟩ h.on h.summaries

/-- A notice leaves the panel with what its table now shows (R157 to R167). -/
theorem Standing.panelNotice {s : State} (h : Standing s) (on : s.panelRuns = true) (n : Notice) : PanelShows (panelNotice n s) := by
  have seen : Summarised (seeAlarms n.num (summarise s)) := by
    have start : Summarised (summarise s) := ⟨on, h.running.trans on, rfl⟩
    simp only [seeAlarms]
    exact Carried.ite (P := Summarised) ⟨start.on, start.running, start.summaries⟩ ⟨start.on, start.running, start.summaries⟩
  have judged : ∀ x, Summarised x → Summarised (judgeConflict x) := by
    intro x k
    simp only [judgeConflict]
    have stopped : Summarised { x with pnu := { x.pnu with conflict := .stopped } } := ⟨k.on, k.running, k.summaries⟩
    exact Carried.ite (P := Summarised) (Carried.ite (P := Summarised) ⟨k.on, k.running, k.summaries⟩ k)
      (Carried.ite (P := Summarised) (stopped.alarm _) stopped)
  exact Sounds.repaint (Summarised.sound (Carried.ite (P := Summarised) (judged _ seen) seen))

/-! ### The table's commands -/

theorem Standing.table : TableWalked Standing where
  toWalked := Standing.carried.walked
  ste := fun _ _ h => ⟨h.running, h.off⟩
  panel := fun n _ on h => ⟨(h.panelNotice on n).running, (h.panelNotice on n).off⟩
  ack := fun _ h => h.alarm _
  rederive := fun _ _ h => Standing.carried.rederive h
  judged := fun _ _ h => Standing.carried.evaluateClaim h

/-- A notice makes the panel show its table, and at a door the panel rests. -/
theorem Standing.giveNotice {s : State} (h : Standing s) (n : Notice) : PanelShows (giveNotice n s) := by
  cases on : s.panelRuns with
  | true =>
    have door : s.doorRuns = false := by
      simp only [State.panelRuns, Bool.and_eq_true, beq_iff_eq] at on
      simp [State.doorRuns, on.2]
    rw [Machine.giveNotice, door, on, if_neg (by simp), if_pos rfl]
    exact h.panelNotice on n
  | false => exact (Standing.table.giveNotice n h).elsewhere (by simpa [State.panelRuns, State.conf] using on)

theorem PanelShows.standing {s : State} (h : PanelShows s) : Standing s := ⟨h.running, h.off⟩

theorem PanelShows.deriveDegraded {s : State} (h : PanelShows s) : PanelShows (deriveDegraded s) := by
  simp only [Machine.deriveDegraded]
  exact Carried.ite (P := PanelShows) h ((h.of_eq (t := { s with ste := { s.ste with degraded := degradedNow s } }) rfl rfl rfl rfl rfl rfl).alarm _)

/-- A heard age or a marking is nothing the panel shows (R107, R109). -/
theorem PanelShows.heard {s : State} (h : PanelShows s) {n : Nat} {e e' : Entry} (found : entryOf s n = some e) (same : e'.seen = e.seen) :
    PanelShows (Machine.deriveDegraded (setEntry e' s)) := by
  have num := entryOf_num found
  have put : Alike s.ste.table (setEntry e' s).ste.table := Alike.put (by rw [num]; exact found) same
  exact (h.of_scene (t := setEntry e' s) ⟨rfl, put, rfl, rfl, rfl, rfl, rfl, rfl, rfl, rfl⟩ rfl rfl rfl rfl).deriveDegraded

theorem PanelShows.takeOther {s : State} (h : PanelShows s) (t : Telegram) : PanelShows (takeOther t s) := by
  have counted : ∀ x : Ste, x.table = s.ste.table → PanelShows { s with ste := x } := fun x hx => h.of_eq rfl hx rfl rfl rfl rfl
  have stands := h.standing
  simp only [Machine.takeOther]
  split
  · exact counted _ rfl
  · split
    · rename_i e _ he
      exact (counted { s.ste with duplicates := bump s.ste.duplicates } rfl).heard (n := t.origin) he (by cases t.lane <;> rfl)
    · rename_i e _ he
      exact (counted { s.ste with lateCopies := bump s.ste.lateCopies } rfl).heard (n := t.origin) he (by cases t.lane <;> rfl)
    · simp only [acceptTelegram]
      have put : Standing (setEntry (acceptedEntry s.staleMs (entryOf s t.origin) t) s) := ⟨stands.running, stands.off⟩
      exact (Standing.table.derive (Carried.ite (P := Standing) (put.alarm _) put)).giveNotice _

theorem muteLane_good (n : Nat) (l : Lane) : (muteLane n l).good = l.good := by
  simp only [muteLane]
  split <;> rfl

theorem PanelShows.toMute {s : State} (h : PanelShows s) (was : s.suc.startUp.running = true) : PanelShows (toMute s) := by
  refine PanelShows.carried.walked.toMute (h.of_scene ⟨rfl, .refl _, rfl, rfl, rfl, rfl, rfl, rfl, ?_, ?_⟩ ?_ rfl rfl rfl)
  · exact muteLane_good _ _
  · exact muteLane_good _ _
  · simp only [State.muted, State.panelRuns, State.conf, was, show StartUp.mute.running = true from rfl]

theorem PanelShows.outs {s : State} (h : PanelShows s) : PanelShows (setOuts s) := h.of_eq rfl rfl rfl rfl rfl rfl

theorem PanelShows.tableCommand {i : Instr} (hi : TableCommand i) {s : State} (h : PanelShows s) : Gives PanelShows (exec i s) := by
  cases hi with
  | telegramTaken =>
    change Gives PanelShows (execTelegramTaken s)
    rw [execTelegramTaken]
    split
    · rename_i t rest hr hq
      have k : PanelShows { s with rxq := { s.rxq with queue := rest } } := h.of_eq rfl rfl rfl rfl rfl rfl
      refine .finish (PanelShows.outs (Carried.ite (P := PanelShows) ?_ (k.takeOther t)))
      rw [takeOwn]
      exact Carried.ite (P := PanelShows) (k.toMute hr) k
    · exact .next h
  | entryGoesStale station =>
    change Gives PanelShows (execEntryGoesStale station s)
    rw [execEntryGoesStale]
    split
    · exact .next h
    · rename_i e _
      have put : Standing (setEntry { e with live := false, single := false } s) := ⟨h.running, h.off⟩
      exact .ite (fun _ => .finish (PanelShows.outs ((Standing.table.derive put).giveNotice _))) fun _ => .next h
  | laneHeardAgeLimit station lane =>
    change Gives PanelShows (execLaneHeardAgeLimit station lane s)
    rw [execLaneHeardAgeLimit]
    split
    · exact .next h
    · rename_i e he
      exact .ite (fun _ => .next (h.heard he rfl)) fun _ => .next h

/-! ### The lanes', the snapshot unit's and the port's commands -/

theorem Sounds.offer {s : State} (h : Sounds s) : Sounds (offer s) := by
  have good := offer_good s
  exact h.of_scene ⟨by simp [State.conf], by simpa using Alike.refl _, by simp, by simp, by simp, by simp, by simp, by simp, good.1, good.2⟩
    (by simp [State.panelRuns, State.conf]) (by simp) (by simp)

/-- A lane's health, handed on (R151, R162). -/
theorem PanelShows.rehealth {s : State} (h : PanelShows s) (id : LaneId) : PanelShows (rehealth id s) := by
  simp only [Machine.rehealth]
  obtain ⟨x, hx⟩ : ∃ x, x = s.setLane id { s.lane id with health := healthOf (s.lane id) } := ⟨_, rfl⟩
  rw [← hx]
  have sounds : Sounds x := ⟨by rw [hx]; simpa [State.panelRuns, State.conf] using h.running,
    by rw [hx]; simpa [State.panelRuns, State.conf] using h.summaries,
    by rw [hx]; simpa [State.panelRuns, State.conf, alarmExists] using h.sounder,
    by rw [hx]; simpa [State.panelRuns, State.conf, alarmExists] using h.silence,
    by rw [hx]; simpa [State.panelRuns, State.conf] using h.off⟩
  have runs : x.panelRuns = s.panelRuns := by rw [hx]; simp [State.panelRuns, State.conf]
  refine Carried.ite (P := PanelShows) h ?_
  split
  · rename_i same
    have good : (s.lane id).good = ({ s.lane id with health := healthOf (s.lane id) } : Lane).good := by
      simpa [Lane.good] using same.symm
    have lanes : x.laneA.good = s.laneA.good ∧ x.laneB.good = s.laneB.good := by
      rw [hx]
      cases id
      · exact ⟨good.symm, rfl⟩
      · exact ⟨rfl, good.symm⟩
    exact h.of_eq (by simp [hx]) (by simp [hx]) (by simp [hx]) (by simp [hx]) lanes.1 lanes.2
  · have alarmed : Sounds (if (s.lane id.other).good then Machine.alarm (condition .laneFault (healthOf (s.lane id) != .good)) x else x) :=
      Carried.ite (P := Sounds) (sounds.alarm _) sounds
    have offered := alarmed.offer
    split
    · exact offered.repaint
    · rename_i off
      refine offered.standing.elsewhere ?_
      have kept : ∀ y : State, (Machine.offer y).panelRuns = y.panelRuns := fun y => by simp [State.panelRuns, State.conf]
      have kept' : ∀ (q : AlarmRequest) (y : State), (Machine.alarm q y).panelRuns = y.panelRuns := fun q y => by simp [State.panelRuns, State.conf]
      rw [kept]
      split
      · rw [kept', runs]
        exact eq_false_of_ne_true off
      · rw [runs]
        exact eq_false_of_ne_true off

theorem PanelShows.laneKept : LaneKept PanelShows where
  lane := fun s id l _ health h => by
    have good : l.good = (s.lane id).good := by rw [Lane.good, health]; rfl
    refine h.of_eq (by simp) (by simp) (by simp) (by simp) ?_ ?_ <;> cases id
    · exact good
    · rfl
    · rfl
    · exact good
  rehealth := fun id _ h => h.rehealth id
  rxq := fun _ _ _ h => h.of_eq rfl rfl rfl rfl rfl rfl
  dgp := fun _ _ h => h.of_eq rfl rfl rfl rfl rfl rfl

/-- Snapshots made, with the lanes that look for work (R134). -/
theorem PanelShows.tryBegins {s : State} (h : PanelShows s) (n : Snu) : PanelShows (tryBegins { s with snu := n }) := by
  have k := PanelShows.laneKept
  exact k.tryBegin .b (k.tryBegin .a (h.of_eq rfl rfl rfl rfl rfl rfl))

theorem PanelShows.makeOwn {s : State} (h : PanelShows s) : PanelShows (makeOwn s) := by
  simp only [Machine.makeOwn]
  split
  · exact h.tryBegins _
  · exact h.tryBegins _

theorem PanelShows.snapshotCommand {i : Instr} (hi : SnapshotCommand i) {s : State} (h : PanelShows s) : Gives PanelShows (exec i s) := by
  cases hi with
  | spacingTimerEnd =>
    have rest : PanelShows (restOwn s) := by
      rw [restOwn]
      split
      · exact h.of_eq rfl rfl rfl rfl rfl rfl
      · exact h.of_eq rfl rfl rfl rfl rfl rfl
    exact .ite (fun _ => .ite (fun _ => .next h.makeOwn) fun _ => .next rest) fun _ => .next h
  | refreshTimerExpiry => exact .ite (fun _ => .next h.makeOwn) fun _ => .next h
  | identTimerExpiry => exact .ite (fun _ => .next (h.tryBegins _)) fun _ => .next h

theorem PanelShows.portCommand {i : Instr} (hi : PortCommand i) {s : State} (h : PanelShows s) : Gives PanelShows (exec i s) := by
  have port : ∀ d : Dgp, PanelShows { s with dgp := d } := fun _ => h.of_eq rfl rfl rfl rfl rfl rfl
  cases hi with
  | diagAddress byte => exact .next (port _)
  | diagStop => exact .next (port _)
  | diagOutOfSequence => exact .next (port _)
  | diagSubaddress byte => exact .ite (fun _ => .next (port _)) fun _ => .next h
  | pageSelect byte => exact .ite (fun _ => .next (port _)) fun _ => .next h
  | counterClear byte => exact .ite (fun _ => .next (h.of_eq rfl rfl rfl rfl rfl rfl)) fun _ => .next h
  | diagWriteRefused byte => exact .ite (fun _ => .next (port _)) fun _ => .next h
  | diagReadCopy => exact .ite (fun _ => .next (port _)) fun _ => .next h
  | diagReadByte acked =>
    change Gives PanelShows (execDiagReadByte acked s)
    unfold execDiagReadByte
    split
    · exact .next (port _)
    · exact .next h
  | captureAgeTick => exact .next (port _)

/-! ### The panel's own commands -/

/-- The items of the panel unit that nothing shown follows: keys, scans, timers, frames, counters, sets last seen. -/
theorem PanelShows.keys {s : State} (h : PanelShows s) (p : Pnu) (running : p.running = s.pnu.running)
    (summaries : p.summaries = s.pnu.summaries) (mode : p.mode = s.pnu.mode) (groups : p.groups = s.pnu.groups)
    (silence : p.silence = s.pnu.silence) (psnd : p.psnd = s.pnu.psnd) (patterns : p.patterns = s.pnu.patterns) :
    PanelShows { s with pnu := p } :=
  h.of_scene ⟨rfl, .refl _, summaries, rfl, rfl, mode, groups, silence, rfl, rfl⟩ rfl running psnd patterns

theorem PanelShows.changed {s : State} (h : PanelShows s) (key : Nat) (made : Bool) : PanelShows { s with pnu := s.pnu.change key made } :=
  h.keys _ rfl rfl rfl rfl rfl rfl rfl

/-- A change of the own demand record leaves the lamps behind until they are painted (R160, R162). -/
theorem Sounds.demand {s : State} (h : Sounds s) (m : Mode) (g : BitVec 16) (w : Watch) :
    Sounds { s with pnu := { s.pnu with mode := m, groups := g, conflict := w } } :=
  ⟨h.running, h.summaries, h.sounder, h.silence, h.off⟩

theorem PanelShows.releaseKey {s : State} (h : PanelShows s) (key : Nat) : PanelShows (releaseKey key s) := by
  simp only [Machine.releaseKey]
  exact Carried.ite (P := PanelShows) ((h.changed key false).alarm _) (h.changed key false)

theorem PanelShows.panelCommand {i : Instr} (hi : PanelCommand i) {s : State} (h : PanelShows s) : Gives PanelShows (exec i s) := by
  have sounds : ∀ x, PanelShows x → Sounds x := fun x k => ((panelShows_iff x).mp k).1
  cases hi with
  | keyScan keys => exact .ite (fun _ => .next (h.keys _ rfl rfl rfl rfl rfl rfl rfl)) fun _ => .next h
  | groupClosePress group =>
    unfold exec execGroupClosePress
    refine .ite (fun _ => .press h fun _ => PanelShows.offer ?_) fun _ => .next h
    exact Sounds.repaint ((sounds _ (h.changed (group - 1) true)).demand _ _ _)
  | modeSelectorChange made =>
    refine .ite (fun _ => .next (PanelShows.offer (Sounds.repaint ?_))) fun _ => .next h
    have start := (sounds _ (h.changed selectorKey made)).demand (modeOf made) s.pnu.groups s.pnu.conflict
    simp only [judgeConflict]
    have set : ∀ w : Watch, Sounds { s with pnu := { s.pnu.change selectorKey made with mode := modeOf made, conflict := w } } := fun w =>
      ⟨start.running, start.summaries, start.sounder, start.silence, start.off⟩
    exact Carried.ite (P := Sounds) (Carried.ite (P := Sounds) (set _) start) (Carried.ite (P := Sounds) (Sounds.alarm (set _) _) (set _))
  | ackPress =>
    unfold exec execAckPress
    refine .press h fun _ => PanelShows.offer ?_
    exact ((h.changed ackKey true).alarm .acknowledge).keys _ rfl rfl rfl rfl rfl rfl rfl
  | silencePress =>
    unfold exec execSilencePress
    refine .press h fun on => ?_
    have start := h.changed silenceKey true
    simp only [silenceNow]
    refine Carried.ite (P := PanelShows) (Sounds.repaint ?_) start
    obtain ⟨runs, -⟩ : s.panelRuns = true ∧ s.pnu.running = true := by simpa [State.panelOn] using on
    exact Standing.sound ⟨start.running, fun hn => absurd (runs.symm.trans hn) (by simp)⟩ runs (start.summaries runs)
  | lampTestPress =>
    unfold exec execLampTestPress
    refine .press h fun _ => Carried.ite (P := PanelShows) (h.changed lampTestKey true) ?_
    exact (h.changed lampTestKey true).keys _ rfl rfl rfl rfl rfl rfl rfl
  | lampTestRelease =>
    have ends : PanelShows { s with pnu := { s.pnu with lampTest := none, lockout := false } } := h.keys _ rfl rfl rfl rfl rfl rfl rfl
    exact .ite (fun _ => .next (ends.releaseKey _)) fun _ => .next h
  | keyRelease position => exact .ite (fun _ => .next (h.releaseKey _)) fun _ => .next h
  | lampTestTimeout => exact .ite (fun _ => .next (h.keys _ rfl rfl rfl rfl rfl rfl rfl)) fun _ => .next h
  | keyHeldLimit position =>
    have held : ∀ l : List Watch, PanelShows { s with pnu := { s.pnu with heldKeys := l } } := fun _ => h.keys _ rfl rfl rfl rfl rfl rfl rfl
    exact .ite (fun _ => .next (Carried.ite (P := PanelShows) (held _) ((held _).alarm _))) fun _ => .next h
  | modeConflictTimerExpiry =>
    have timed : ∀ w : Watch, PanelShows { s with pnu := { s.pnu with conflict := w } } := fun _ => h.keys _ rfl rfl rfl rfl rfl rfl rfl
    exact .ite (fun _ => .next ((timed _).alarm _)) fun _ => .next h
  | lampFrame => exact .ite (fun _ => .next h) fun _ => .next (h.keys _ rfl rfl rfl rfl rfl rfl rfl)

/-! ### Start-up -/

/-- The panel unit starts with lamps and sounder from what stands (R153). -/
theorem startPnu_shows {s : State} (keys : BitVec 32) (on : s.panelRuns = true) (silence : s.pnu.silence = false) :
    PanelShows (startPnu keys s) := by
  obtain ⟨x, hx⟩ : ∃ x, x = summarise { s with pnu := { s.pnu with
      running := true, keys := keys.setWidth 20, scans := List.replicate 20 0, contacts := keys, scanTimer := 0
      heldKeys := (List.range 20).map (fun p => if momentary p && keys.getLsbD p then .running 0 else .stopped)
      mode := modeOf (keys.getLsbD 16) } } := ⟨_, rfl⟩
  have starts : startPnu keys s = sound (repaint x) := by rw [hx]; rfl
  have still : x.pnu.silence = false := by rw [hx]; exact silence
  have runs : x.panelRuns = true := by rw [hx]; exact on
  have summarised : Summarised (repaint x) := ⟨runs, by rw [hx]; rfl, by rw [hx]; rfl⟩
  rw [starts]
  refine (panelShows_iff _).mpr ⟨summarised.sound, fun _ => ?_⟩
  have same : SameScene x (sound (repaint x)) := by
    refine ⟨rfl, .refl _, rfl, rfl, rfl, rfl, rfl, ?_, rfl, rfl⟩
    have : (sound (repaint x)).pnu.silence = (x.pnu.silence && alarmExists (repaint x)) := rfl
    rw [this, still]
    rfl
  exact same.patterns.symm

theorem PanelShows.startCommand {i : Instr} (hi : StartCommand i) {s : State} (h : PanelShows s) : Gives PanelShows (exec i s) := by
  have c := PanelShows.carried
  have reading : s.reads = true → s.panelRuns = false := by
    intro hr
    obtain ⟨hl, -⟩ : s.suc.startUp = .loading ∧ s.suc.retryWait.isNone = true := by simpa [State.reads] using hr
    simp [State.panelRuns, hl, StartUp.running]
  have rests : ∀ x : State, s.panelRuns = false → x.pnu = s.pnu → x.panelRuns = false → PanelShows x := fun x off pnu off' =>
    Standing.elsewhere ⟨by rw [pnu, off', h.running, off], fun _ => by rw [pnu]; exact h.off off⟩ off'
  have fault : ∀ (r : FaultReason) (x : State), s.reads = true → x.pnu = s.pnu → PanelShows (enterFault r x) := fun r x hr pnu =>
    rests _ (reading hr) pnu (by simp [State.panelRuns, enterFault, StartUp.running])
  cases hi with
  | reset leads straps =>
    exact .next (Standing.elsewhere ⟨rfl, fun _ => ⟨rfl, rfl⟩⟩ rfl)
  | configAddressNotAcked =>
    exact .ite (fun hr => .ite (fun _ => .next (fault _ _ hr rfl)) fun _ => .next (rests _ (reading hr) rfl (reading hr))) fun _ => .next h
  | configRetryWaitExpiry =>
    exact .ite (fun _ => .next (h.of_scene ⟨rfl, .refl _, rfl, rfl, rfl, rfl, rfl, rfl, rfl, rfl⟩ rfl rfl rfl rfl)) fun _ => .next h
  | configReadDone image keys =>
    refine .ite (fun hr => ?_) fun _ => .next h
    have reads : s.reads = true := by simp only [Bool.and_eq_true] at hr; exact hr.1
    have off := reading reads
    refine .ite (fun _ => .next (fault _ _ reads rfl)) fun _ => .ite (fun _ => .next (fault _ _ reads rfl)) fun _ =>
      .finish (PanelShows.outs ?_)
    simp only [startBlocks]
    split
    · rename_i role
      have rests : ∀ x : State, x.conf.role = .door → PanelShows (startTrm { x with pnu := Pnu.reset }) := fun x hx => by
        have off : x.panelRuns = false := by simp [State.panelRuns, hx]
        exact Standing.elsewhere ⟨off.symm, fun _ => ⟨rfl, rfl⟩⟩ off
      exact c.startDcu (c.startMains ((rests _ role).of_eq rfl rfl rfl rfl rfl rfl))
    · rename_i role
      have runs : ∀ (cfg : Cfg) (x : State), cfg.role = .panel → (enterListen cfg x).panelRuns = true := fun cfg x hc => by
        simp [State.panelRuns, State.conf, enterListen, StartUp.running, hc]
      refine c.startMains (startPnu_shows keys ?_ (h.off off).1)
      exact runs _ _ role
  | csdLowAfterNineClocks => exact .ite (fun hr => .next (fault _ _ hr rfl)) fun _ => .next h
  | listenTimerExpiry =>
    refine .ite (fun hl => .finish (PanelShows.outs (c.joinDoor ?_))) fun _ => .next h
    have entered : PanelShows { s with suc := { s.suc with startUp := .joined, listenTimer := none } } :=
      h.of_scene ⟨rfl, .refl _, rfl, rfl, rfl, rfl, rfl, rfl, rfl, rfl⟩
        (by simp only [State.panelRuns, State.conf, hl, show StartUp.listen.running = true from rfl, show StartUp.joined.running = true from rfl])
        rfl rfl rfl
    exact entered.makeOwn.tryBegins _
  | flashEdge => exact .finish (PanelShows.outs (h.of_eq rfl rfl rfl rfl rfl rfl))
  | levelInputEdge lead made =>
    exact .ite (fun _ => .next (h.of_eq rfl rfl rfl rfl rfl rfl)) fun _ =>
      .next (h.of_eq (by simp) (by simp) (by simp) (by simp) (by simp) (by simp))

/-! ### Every step -/

theorem PanelShows.command (c : Instr) {s : State} (h : PanelShows s) : Gives PanelShows (exec c s) := by
  have door := PanelShows.carried
  revert c
  refine Instr.of_families ?door ?lane ?panel ?port ?snapshot ?table ?energy ?start
  case door => exact fun _ hc => door.command (fun _ _ _ _ h => h.of_eq rfl rfl rfl rfl rfl rfl) (fun _ h => h.outs) hc h
  case lane => exact fun _ hc => PanelShows.laneKept.command hc h
  case panel => exact fun _ hc => h.panelCommand hc
  case port => exact fun _ hc => h.portCommand hc
  case snapshot => exact fun _ hc => h.snapshotCommand hc
  case table => exact fun _ hc => h.tableCommand hc
  case energy =>
    refine fun _ hc => door.energyCommand (fun _ _ h => h.of_eq rfl rfl rfl rfl rfl rfl) (fun _ _ h => h.of_eq rfl rfl rfl rfl rfl rfl)
      (fun _ h => h.alarm _) (fun s k h => ?_) (fun _ h => h.outs) hc h
    have sets : ∀ test : AlarmState → Bool, setOf (fun r => test r.st) (s.alu.map fun r => if r.kind = k then r.older else r) =
        setOf (fun r => test r.st) s.alu := fun test =>
      setOf_map _ _ (fun r => by split <;> rfl) (fun r => by split <;> rfl) _
    exact h.of_scene ⟨rfl, .refl _, rfl, sets _, sets _, rfl, rfl, rfl, rfl, rfl⟩ rfl rfl rfl rfl
  case start => exact fun _ hc => h.startCommand hc

/-- A millisecond changes ages and timers, and nothing shown follows them. -/
theorem PanelShows.ticked {s : State} (h : PanelShows s) : PanelShows (tick s) :=
  h.of_scene ⟨rfl, Alike.map (f := Entry.later) (fun _ => rfl) _, rfl, setOf_map _ AlarmRecord.later (fun _ => rfl) (fun _ => rfl) _,
    setOf_map _ AlarmRecord.later (fun _ => rfl) (fun _ => rfl) _,
    rfl, rfl, rfl, rfl, rfl⟩ rfl rfl rfl rfl

end Sys2Proof.Machine
end

