-- ==== Sys2Proof/Proofs/Shown.lean ====
section
/-! SUPPORT and PROOFS. Summary flags and lamps spelled out from the table, the alarm list and the own demand record (R157 to R162). -/

namespace Sys2Proof.Machine

/-! ### Summary records -/

/-- An entry in the scope of a record: of a group, or of the ship for record 16 (R157). -/
def inScope (i : Nat) (e : Entry) : Bool := e.isDoorEntry && (i == 16 || e.groupOf == some (i + 1))

/-- A door entry with its part, in the scope of a record (R157). -/
def Scoped (t : List Entry) (i : Nat) (e : Entry) (p : DoorPart) : Prop :=
  e ∈ t ∧ e.kind = .door ∧ e.door = some p ∧ (i = 16 ∨ p.group = i + 1)

theorem scoped_iff (t : List Entry) (i : Nat) (e : Entry) : (e ∈ t ∧ inScope i e = true) ↔ ∃ p, Scoped t i e p := by
  cases hd : e.door with
  | none => simp [inScope, Entry.isDoorEntry, Scoped, hd]
  | some p => simp [inScope, Entry.isDoorEntry, Entry.groupOf, Scoped, hd]

theorem summariesOf_length (t : List Entry) : (summariesOf t).length = 17 := by simp [summariesOf]

theorem summariesOf_record (t : List Entry) {i : Nat} (hi : i < 17) :
    (summariesOf t).getD i Summary.reset = summaryOf (t.filter (inScope i)) := by
  by_cases h : i = 16
  · subst h
    have ship : t.filter (inScope 16) = t.filter (·.isDoorEntry) := by
      congr 1
      funext e
      simp [inScope]
    rw [ship]
    simp [summariesOf]
  · have group : t.filter (inScope i) = groupScope t (i + 1) := by
      have : (i == 16) = false := by simpa using h
      rw [groupScope]
      congr 1
      funext e
      rw [inScope, this, Bool.false_or]
    rw [group, summariesOf, List.getD_append _ _ _ _ (by simp; omega), List.getD_eq_getElem _ _ (by simp; omega)]
    simp

/-- A flag that asks for one door entry in scope. -/
theorem any_scoped (t : List Entry) (i : Nat) (f : Entry → Bool) :
    t.any (fun e => inScope i e && f e) = true ↔ ∃ e p, Scoped t i e p ∧ f e = true := by
  rw [List.any_eq_true]
  constructor
  · rintro ⟨e, he, h⟩
    rw [Bool.and_eq_true] at h
    obtain ⟨p, hp⟩ := (scoped_iff t i e).mp ⟨he, h.1⟩
    exact ⟨e, p, hp, h.2⟩
  · rintro ⟨e, p, hp, h⟩
    obtain ⟨he, hs⟩ := (scoped_iff t i e).mpr ⟨p, hp⟩
    exact ⟨e, he, by rw [hs, h]; rfl⟩

theorem Scoped.doorIs {t : List Entry} {i : Nat} {e : Entry} {p : DoorPart} (h : Scoped t i e p) (f : DoorPart → Bool) :
    e.doorIs f = f p := by
  obtain ⟨-, kind, door, -⟩ := h
  simp [Entry.doorIs, kind, door]

theorem any_door (t : List Entry) (i : Nat) (f : DoorPart → Bool) :
    t.any (fun e => inScope i e && e.doorIs f) = true ↔ ∃ e p, Scoped t i e p ∧ f p = true := by
  rw [any_scoped]
  exact exists_congr fun e => exists_congr fun p => and_congr_right fun h => by rw [h.doorIs]

theorem moving_iff (c : Ctl) : c.moving = true ↔ c = .warning ∨ c = .closing ∨ c = .opening := by cases c <;> simp [Ctl.moving]

/-- The seven flags of a record (R158). -/
theorem summary_flags (t : List Entry) (i : Nat) :
    ((summaryOf (t.filter (inScope i))).empty = true ↔ ¬ ∃ e p, Scoped t i e p) ∧
    ((summaryOf (t.filter (inScope i))).allClosed = true ↔ (∃ e p, Scoped t i e p) ∧ ∀ e p, Scoped t i e p →
      e.live = true ∧ p.pos = .closed ∧ p.ctl ≠ .opening ∧ p.ctl ≠ .claiming) ∧
    ((summaryOf (t.filter (inScope i))).anyOpen = true ↔ ∃ e p, Scoped t i e p ∧ p.pos ≠ .closed) ∧
    ((summaryOf (t.filter (inScope i))).anyMoving = true ↔ ∃ e p, Scoped t i e p ∧ e.live = true ∧
      (p.ctl = .warning ∨ p.ctl = .closing ∨ p.ctl = .opening)) ∧
    ((summaryOf (t.filter (inScope i))).anyUnacked = true ↔ ∃ e p, Scoped t i e p ∧ p.unacked ≠ 0) ∧
    ((summaryOf (t.filter (inScope i))).anyActive = true ↔ ∃ e p, Scoped t i e p ∧ p.active ≠ 0) ∧
    ((summaryOf (t.filter (inScope i))).anyLost = true ↔ ∃ e p, Scoped t i e p ∧ e.live = false) := by
  have inhabited : t.any (inScope i) = true ↔ ∃ e p, Scoped t i e p := by
    have := any_scoped t i fun _ => true
    simpa using this
  rw [summaryOf_filter]
  refine ⟨?_, ?_, ?_, ?_, ?_, ?_, ?_⟩
  · rw [← inhabited]
    simp
  · dsimp only
    rw [Bool.and_eq_true, inhabited, Bool.not_eq_true', ← Bool.not_eq_true, any_scoped]
    refine and_congr_right fun _ => ?_
    constructor
    · intro none e p h
      by_contra hn
      refine none ⟨e, p, h, ?_⟩
      rw [h.doorIs]
      simp only [ne_eq, Bool.not_and, Bool.or_eq_true, Bool.not_eq_true', bne_eq_false_iff_eq, beq_eq_false_iff_ne]
      by_contra hm
      simp only [not_or] at hm
      obtain ⟨live, ⟨pos, opening⟩, claiming⟩ := hm
      exact hn ⟨by simpa using live, not_not.mp pos, opening, claiming⟩
    · rintro all ⟨e, p, h, hn⟩
      obtain ⟨live, pos, opening, claiming⟩ := all e p h
      rw [h.doorIs] at hn
      simp [live, pos, opening, claiming] at hn
  · simp only [any_door, bne_iff_ne]
  · rw [any_scoped]
    refine exists_congr fun e => exists_congr fun p => and_congr_right fun h => ?_
    rw [h.doorIs, Bool.and_eq_true, moving_iff]
  · simp only [any_door, bne_iff_ne]
  · simp only [any_door, bne_iff_ne]
  · rw [any_scoped]
    simp

/-! ### Lamps -/

theorem lampPatterns_at (s : State) {i : Nat} (hi : i < 272) : (lampPatterns s)[i]? = some (lampPattern s i) := by
  simp [lampPatterns, hi]

/-- A lamp of a door cell (R160). -/
theorem lampPattern_door (s : State) {n k : Nat} (hn : 1 ≤ n) (hm : n ≤ 63) (hk : k < 3) :
    lampPattern s (3 * (n - 1) + k) = doorCell s n k := by
  have cell : (3 * (n - 1) + k) / 3 + 1 = n := by omega
  have lamp : (3 * (n - 1) + k) % 3 = k := by omega
  rw [lampPattern, if_pos (by omega), cell, lamp]

/-- A lamp of a group cell (R161). -/
theorem lampPattern_group (s : State) {i k : Nat} (hi : i < 16) (hk : k < 3) :
    lampPattern s (189 + 3 * i + k) = summaryLamp (s.pnu.summaries.getD i Summary.reset) 0 0 k := by
  have cell : (189 + 3 * i + k - 189) / 3 = i := by omega
  have lamp : (189 + 3 * i + k - 189) % 3 = k := by omega
  rw [lampPattern, if_neg (by omega), if_pos (by omega), cell, lamp]

/-- A lamp of the ship cell (R161). -/
theorem lampPattern_ship (s : State) {k : Nat} (hk : k < 3) :
    lampPattern s (237 + k) = summaryLamp (s.pnu.summaries.getD 16 Summary.reset) (unackedSet s.alu) (activeSet s.alu) k := by
  rw [lampPattern, if_neg (by omega), if_neg (by omega), if_pos (by omega), Nat.add_sub_cancel_left]

/-- A lamp of a group's demand (R162). -/
theorem lampPattern_demand (s : State) {g : Nat} (hg : g < 16) : lampPattern s (243 + g) =
    if s.pnu.groups.getLsbD g = true then .steady else if s.ste.table.any (Entry.demandsGroup (g + 1)) = true then .slow else .dark := by
  have group : 243 + g - 242 = g + 1 := by omega
  rw [lampPattern, if_neg (by omega), if_neg (by omega), if_neg (by omega), if_neg (by omega), if_neg (by omega), if_neg (by omega),
    if_pos (by omega), group]
  simp [inGroups]

/-- Positions 262 to 271 (R159). -/
theorem lampPattern_spare (s : State) {i : Nat} (hi : 262 ≤ i) : lampPattern s i = .dark := by
  simp only [lampPattern]
  (repeat' rw [if_neg (by omega)])

/-- The three lamps of the door cell of an entry (R160). -/
theorem doorCell_found {s : State} {n : Nat} {e : Entry} (hn : n ≠ s.conf.station) (he : entryOf s n = some e) (hk : e.kind = .door) (k : Nat) :
    doorCell s n k = doorLamp e k := by
  simp [doorCell, hn, he, hk]

theorem doorCell_dark {s : State} {n : Nat} (h : n = s.conf.station ∨ ∀ e, entryOf s n = some e → e.kind = .panel) (k : Nat) :
    doorCell s n k = .dark := by
  by_cases hn : n = s.conf.station
  · simp [doorCell, hn]
  · have panel := h.resolve_left hn
    rw [doorCell, if_neg (by simpa using hn)]
    cases he : entryOf s n with
    | none => rfl
    | some e => simp [panel e he]

/-- The own list is empty where neither set has a member (R95). -/
theorem own_sets (l : List AlarmRecord) :
    ((unackedSet l == 0) = !l.any (fun a => a.st != .activeAcked)) ∧ ((activeSet l == 0) = !l.any (fun a => a.st != .clearedUnacked)) := by
  have unacked : (fun a : AlarmRecord => a.st.unacked) = fun a => a.st != .activeAcked := by
    funext a
    cases a.st <;> rfl
  have active : (fun a : AlarmRecord => a.st.active) = fun a => a.st != .clearedUnacked := by
    funext a
    cases a.st <;> rfl
  constructor
  · rw [unackedSet, unacked, Bool.eq_iff_iff, beq_iff_eq]
    exact (setOf_eq_zero _ _).trans (by simp)
  · rw [activeSet, active, Bool.eq_iff_iff, beq_iff_eq]
    exact (setOf_eq_zero _ _).trans (by simp)

theorem own_empty (l : List AlarmRecord) :
    (!l.any (fun a => a.st != .activeAcked) && !l.any (fun a => a.st != .clearedUnacked)) = l.isEmpty := by
  cases l with
  | nil => rfl
  | cons a l => cases h : a.st <;> simp [h]

/-- The lamps of a summary cell without own sets (R161). -/
theorem summaryLamp_flags (r : Summary) (u a : BitVec 24) :
    summaryLamp r u a 0 = (if r.empty = false ∧ r.allClosed = true then .steady else .dark) ∧
    summaryLamp r u a 1 = (if r.empty = true then .dark else if r.anyMoving = true then .slow else if r.anyOpen = true then .steady else .dark) ∧
    summaryLamp r 0 0 2 = (if r.empty = true then .dark else if r.anyUnacked = true then .fast else if r.anyLost = true then .slow
      else if r.anyActive = true then .steady else .dark) := by
  refine ⟨?_, rfl, ?_⟩
  · cases he : r.empty <;> simp [summaryLamp, he]
  · simp [summaryLamp]

/-- The ship's amber with the own list (R161). -/
theorem summaryLamp_own (r : Summary) (l : List AlarmRecord) : summaryLamp r (unackedSet l) (activeSet l) 2 =
    if r.empty = true ∧ l = [] then .dark
    else if r.anyUnacked = true ∨ l.any (fun a => a.st != .activeAcked) = true then .fast
    else if r.anyLost = true then .slow
    else if r.anyActive = true ∨ l.any (fun a => a.st != .clearedUnacked) = true then .steady
    else .dark := by
  obtain ⟨unacked, active⟩ := own_sets l
  have empty := own_empty l
  have lamp : summaryLamp r (unackedSet l) (activeSet l) 2 =
      if r.empty && (unackedSet l == 0) && (activeSet l == 0) then .dark
      else if r.anyUnacked || !(unackedSet l == 0) then .fast
      else if r.anyLost then .slow
      else if r.anyActive || !(activeSet l == 0) then .steady
      else .dark := rfl
  rw [lamp, unacked, active, Bool.and_assoc, empty]
  simp only [Bool.and_eq_true, List.isEmpty_iff, Bool.or_eq_true, Bool.not_not]

/-- Settles O60: what every command keeps, and what it says flag by flag and lamp by lamp. -/
theorem stepsKeepThePanelsLampsAndSounder : Obligations.StepsKeepThePanelsLampsAndSounder := by
  refine ⟨fun s t h => ?_, fun s h on => ?_⟩
  · exact step_keeps (P := PanelShows) (fun _ _ h => h.of_eq rfl rfl rfl rfl rfl rfl) (fun c _ _ h => (h.command c).of_next)
      (fun _ h => h.ticked) h
  · have summaries := h.summaries on
    have patterns := h.patterns on
    have lit : ∀ (i : Nat) (p : Pattern), i < 272 → lampPattern s i = p → s.pnu.patterns[i]? = some p := fun i p hi hp => by
      rw [patterns, lampPatterns_at s hi, hp]
    have door : ∀ (n k : Nat) (p : Pattern), 1 ≤ n → n ≤ 63 → k < 3 → doorCell s n k = p → s.pnu.patterns[3 * (n - 1) + k]? = some p :=
      fun n k p h1 h2 hk hp => lit _ _ (by omega) ((lampPattern_door s h1 h2 hk).trans hp)
    refine ⟨by rw [summaries, summariesOf_length], by rw [patterns]; simp [lampPatterns], fun i hi => ?_, fun n h1 h2 => ⟨fun dark => ?_, fun e hn he hk => ?_⟩,
      fun i hi => ?_, ?_, ?_, ?_, fun g hg => ?_, ?_, ?_, ?_, fun i h1 h2 => lit _ _ h2 (lampPattern_spare s h1)⟩
    · have flags := summary_flags s.ste.table i
      rw [← summariesOf_record s.ste.table hi, ← summaries] at flags
      exact flags
    · exact ⟨door n 0 _ h1 h2 (by omega) (doorCell_dark dark 0), door n 1 _ h1 h2 (by omega) (doorCell_dark dark 1),
        door n 2 _ h1 h2 (by omega) (doorCell_dark dark 2)⟩
    · have cell : ∀ (k : Nat) (p : Pattern), k < 3 → doorLamp e k = p → s.pnu.patterns[3 * (n - 1) + k]? = some p := fun k p hk3 hp =>
        door n k _ h1 h2 hk3 ((doorCell_found hn he hk k).trans hp)
      refine ⟨fun none => ⟨cell 0 _ (by omega) ?_, cell 1 _ (by omega) ?_, cell 2 _ (by omega) ?_⟩,
        fun p hp => ⟨cell 0 _ (by omega) ?_, cell 1 _ (by omega) ?_, cell 2 _ (by omega) ?_⟩⟩
      · simp [doorLamp, none]
      · simp [doorLamp, none]
      · simp [doorLamp, none]
      · simp [doorLamp, hp, moving_iff]
      · simp [doorLamp, hp, moving_iff]
      · simp [doorLamp, hp]
    · have group : ∀ (k : Nat) (p : Pattern), k < 3 → i < 16 → summaryLamp (s.pnu.summaries.getD i Summary.reset) 0 0 k = p →
          s.pnu.patterns[189 + 3 * i + k]? = some p := fun k p hk hi' hp => lit _ _ (by omega) ((lampPattern_group s hi' hk).trans hp)
      have ship : ∀ (k : Nat) (p : Pattern), k < 3 →
          summaryLamp (s.pnu.summaries.getD 16 Summary.reset) (unackedSet s.alu) (activeSet s.alu) k = p →
          s.pnu.patterns[237 + k]? = some p := fun k p hk hp => lit _ _ (by omega) ((lampPattern_ship s hk).trans hp)
      obtain ⟨green, red, amber⟩ := summaryLamp_flags (s.pnu.summaries.getD i Summary.reset) 0 0
      obtain ⟨green', red', -⟩ := summaryLamp_flags (s.pnu.summaries.getD 16 Summary.reset) (unackedSet s.alu) (activeSet s.alu)
      by_cases hs : i = 16
      · subst hs
        exact ⟨ship 0 _ (by omega) green', ship 1 _ (by omega) red', fun h16 => absurd h16 (by omega),
          fun _ => ship 2 _ (by omega) (summaryLamp_own _ _)⟩
      · exact ⟨group 0 _ (by omega) (by omega) green, group 1 _ (by omega) (by omega) red, fun h16 => group 2 _ (by omega) h16 amber,
          fun h16 => absurd h16 hs⟩
    · refine lit _ _ (by omega) ?_
      simp [lampPattern]
    · refine lit _ _ (by omega) ?_
      simp [lampPattern]
    · refine lit _ _ (by omega) ?_
      simp [lampPattern, Entry.demandsClosed, Entry.livePanel]
    · refine lit _ _ (by omega) ((lampPattern_demand s hg).trans ?_)
      simp [Entry.demandsGroup, Entry.livePanel, inGroups]
    · refine lit _ _ (by omega) ?_
      simp [lampPattern]
    · refine lit _ _ (by omega) ?_
      simp [lampPattern, Lane.good]
    · refine lit _ _ (by omega) ?_
      simp [lampPattern, Lane.good]

end Sys2Proof.Machine
end

