-- ==== Sys2Proof/Proofs/Keys.lean ====
section
/-! SUPPORT and PROOFS. The panel's keys, scans and frames (R154 to R156, R159, R163 to R167). -/

namespace Sys2Proof.Machine

/-! ### A request under a condition -/

/-- What an alarm request that is made under a condition leaves and hands on. -/
theorem alarm_asked (b : Bool) (q : AlarmRequest) (x : State) :
    (if b then alarm q x else x).alu = applyRequests (asked b q) x.alu ∧ DoorKept x (if b then alarm q x else x) ∧
      (if b then alarm q x else x).outs = x.outs ∧ HandsOn x (if b then alarm q x else x) := by
  cases b with
  | true => exact ⟨by simp [applyRequests, asked], ⟨by simp, by simp, by simp⟩, by simp, alarm_hands q x⟩
  | false => exact ⟨rfl, ⟨rfl, rfl, rfl⟩, rfl, .same x⟩

/-- The release of a momentary key that is made (R166). -/
theorem releaseKey_eq {k : Nat} (hm : momentary k = true) (s : State) : releaseKey k s =
    (if s.pnu.heldKeys.any (·.isPast) && !(s.pnu.heldKeys.set k .stopped).any (·.isPast) then
      alarm (.becameFalse .keyStuck) { s with pnu := { s.pnu with
        keys := s.pnu.keys &&& ~~~(1#20 <<< k), scans := s.pnu.scans.set k 0, heldKeys := s.pnu.heldKeys.set k .stopped } }
    else { s with pnu := { s.pnu with
        keys := s.pnu.keys &&& ~~~(1#20 <<< k), scans := s.pnu.scans.set k 0, heldKeys := s.pnu.heldKeys.set k .stopped } }) := by
  simp [releaseKey, Pnu.change, setKey, someStuck, hm]

/-- Settles O44: a key's release is its change with what follows from the last stuck key. -/
theorem keyReleaseAndHeldLimit : Obligations.KeyReleaseAndHeldLimit := by
  intro k s on running
  have hon : s.panelOn = true := by simp [State.panelOn, on, running]
  refine ⟨fun hk h16 h19 made => ⟨releaseKey k s, ?_, ?_⟩, fun ms hw => ?_, fun hno => ?_⟩
  · have : (s.panelOn && momentary k && k != lampTestKey && s.pnu.made k) = true := by
      simp [hon, momentary, hk, h16, h19, lampTestKey, Pnu.made, made]
    simp only [exec, execKeyRelease, this, if_true]
  · rw [releaseKey_eq (by simp [momentary, hk, h16])]
    obtain ⟨alu, door, outs, hands⟩ := alarm_asked (s.pnu.heldKeys.any (·.isPast) && !(s.pnu.heldKeys.set k .stopped).any (·.isPast))
      (.becameFalse .keyStuck) { s with pnu := { s.pnu with
        keys := s.pnu.keys &&& ~~~(1#20 <<< k), scans := s.pnu.scans.set k 0, heldKeys := s.pnu.heldKeys.set k .stopped } }
    exact ⟨alu, ⟨door.dcu, door.trm, door.psu⟩, outs, hands⟩
  · obtain ⟨alu, door, outs, hands⟩ := alarm_asked (!s.pnu.heldKeys.any (·.isPast)) (.becameTrue .keyStuck)
      { s with pnu := { s.pnu with heldKeys := s.pnu.heldKeys.set k (.past (max ms 60000)) } }
    refine ⟨_, ?_, alu, ⟨door.dcu, door.trm, door.psu⟩, outs, hands⟩
    have watch : s.pnu.heldKeys.getD k .stopped = .running ms := by simp [hw]
    simp only [exec, execKeyHeldLimit, watch, Watch.isRunning, Watch.expire, Config.keyHeldMs, if_true, someStuck]
    cases s.pnu.heldKeys.any (·.isPast) <;> rfl
  · have : (s.panelOn && momentary k && k != lampTestKey && s.pnu.made k) = false := by
      rcases hno with h | rfl | rfl
      · simp [Pnu.made, h]
      · simp [momentary]
      · simp [lampTestKey]
    simp [exec, execKeyRelease, this]

/-! ### Scans and frames -/

/-- The state after a frame has gone out (R159). -/
def State.framed (frame : List Bool) (s : State) : State :=
  { s with pnu := { s.pnu with
    frame := frame, shifted := ldaOrder frame, strobed := chainAfter s.pnu.strobed (ldaOrder frame), frameTimer := 0 } }

theorem exec_lampFrame {s : State} (door : s.doorRuns = false) : exec .lampFrame s = .next (s.framed (frameNow s)) := by
  simp [exec, execLampFrame, door, State.framed]

/-- A whole frame stands in the chain: position 271 went first, and position p is in the stage p from the part (R159). -/
theorem framed_stages {frame : List Bool} (whole : frame.length = 272) (s : State) :
    (s.framed frame).pnu.shifted.length = 272 ∧ (s.framed frame).pnu.strobed.length = 272 ∧
      ∀ p, p < 272 → (s.framed frame).pnu.shifted[271 - p]? = frame[p]? ∧ (s.framed frame).pnu.strobed[p]? = frame[p]? := by
  have strobed : (s.framed frame).pnu.strobed = frame := chainAfter_frame _ _ whole
  refine ⟨by simpa [State.framed, ldaOrder] using whole, by rw [strobed, whole], fun p hp => ⟨?_, by rw [strobed]⟩⟩
  have shifted : (s.framed frame).pnu.shifted = frame.reverse := rfl
  rw [shifted, List.getElem?_reverse (by omega), whole]
  congr 1
  omega

/-- A pattern is lit by the flash phase (R159). -/
theorem lit_eq (f : Flash) (p : Pattern) : p.lit f = match p with
    | .dark => false
    | .steady => true
    | .slow => decide (f.phase % 8 < 4)
    | .fast => decide (f.phase % 2 = 0) := by
  cases p <;> rfl

/-- Settles O41: a scan count by cases, and the frame through the chain (`framed_stages`). -/
theorem scansCountAndFramesShow : Obligations.ScansCountAndFramesShow := by
  intro s
  refine ⟨fun on running keys => ⟨{ s with pnu := s.pnu.scan keys }, ?_, rfl, by simp [Pnu.scan], fun k hk => ?_⟩, fun off keys => ?_,
    fun door => ?_, fun door => by simp [exec, execLampFrame, door]⟩
  · simp [exec, execKeyScan, State.panelOn, on, running]
  · have count : (s.pnu.scan keys).scans.getD k 0 = scanCount (s.pnu.made k) (keys.getLsbD k) (s.pnu.scans.getD k 0) := by
      simp [Pnu.scan, hk]
    exact count
  · rcases off with h | h <;> simp [exec, execKeyScan, State.panelOn, h]
  · refine ⟨s.framed (frameNow s), exec_lampFrame door, ?_⟩
    have patterns : s.pnu.patterns.map (Pattern.lit s.flash) = s.pnu.patterns.map _ :=
      List.map_congr_left fun p _ => lit_eq s.flash p
    rw [frameNow, patterns]
    exact ⟨rfl, fun whole => framed_stages whole s⟩

/-! ### The own demand record -/

theorem repaint_hands {s : State} (h : s.doorRuns = false) : HandsOn s (repaint s) :=
  { lead := rfl, deb := rfl, settle := rfl, flash := rfl, suc := rfl, ste := rfl, rxq := rfl, dgp := rfl, pending := rfl,
    laneA := .inl rfl, laneB := .inl rfl, silent := fun _ => ⟨rfl, rfl, rfl⟩, ident := rfl, demand := fun _ => rfl,
    state := fun _ => rfl, demandOnce := .inl rfl, stateOnce := .inl rfl, pump := rfl, pumpDoor := fun _ => rfl, panel := rfl,
    panelOut := fun hd => absurd hd (by simp [h]) }

/-- A counter set on both sides is handed on alike. -/
theorem HandsOn.counted {s x : State} (h : HandsOn s x) (ack : Byte) :
    HandsOn { s with pnu := { s.pnu with ack := ack } } { x with pnu := { x.pnu with ack := ack } } :=
  { h with
    panel := by
      have := h.panel
      rw [PanelHanded] at this ⊢
      rw [this]
    panelOut := fun hd => by rw [h.panelOut hd] }

theorem panelRuns_not_doorRuns {s : State} (on : s.panelRuns = true) : s.doorRuns = false := by
  simp only [State.panelRuns, Bool.and_eq_true, beq_iff_eq] at on
  simp [State.doorRuns, on.2]

theorem panelRuns_role {s : State} (on : s.panelRuns = true) : s.conf.role = .panel := by
  simp only [State.panelRuns, Bool.and_eq_true, beq_iff_eq] at on
  exact on.2

/-- An alarm request of a panel offers nothing. -/
theorem alarm_panel_snu {q : AlarmRequest} {s : State} (on : s.panelRuns = true) : (alarm q s).snu = s.snu := by
  rw [alarm_panel on]
  split
  · split <;> rfl
  · rfl

/-- The demand record is handed to the snapshot unit (R126, R128): in JOINED a DEMAND of the record as it stands, or a change
pending. -/
def DemandOffered (s t : State) : Prop :=
  s.suc.startUp = .joined →
    (s.snu.demand.ready = true → t.snu.demand = s.snu.demand.make (panelContent t)) ∧
      (s.snu.demand.ready = false → t.snu.demand = { s.snu.demand with pending := true })

theorem offer_demand {x : State} (on : x.panelRuns = true) : DemandOffered x (offer x) := by
  intro hj
  have role := panelRuns_role on
  have content : panelContent (offer x) = panelContent x := by simp [panelContent, (offer_good x)]
  rw [content, offer_eq hj]
  refine ⟨fun hr => ?_, fun hr => ?_⟩
  · rw [if_pos (by simp [State.ownReady, role, hr]), makeOwn_eq hj]
    simp [State.snuMade, role]
  · rw [if_neg (by simp [State.ownReady, role, hr])]
    simp [State.snuPending, role]

/-- Lamps painted before an offer show what stands after it. -/
theorem offer_repaint_patterns (x : State) : (offer (repaint x)).pnu.patterns = lampPatterns (offer (repaint x)) := by
  have scene : SameScene x (offer (repaint x)) := by
    refine ⟨by simp [State.conf], by simp [Alike.refl], ?_, by simp, by simp, ?_, ?_, ?_, (offer_good _).1, (offer_good _).2⟩ <;>
      simp [repaint]
  rw [scene.patterns]
  simp [repaint]

/-- What an offer of the demand record leaves, from a state that has handed on no more than it may from `y`. -/
theorem offered_after {s y x : State} (on : s.panelRuns = true) (h : HandsOn y x) (suc : x.suc = s.suc) (snu : x.snu = s.snu)
    (door : DoorKept s x) (outs : x.outs = s.outs) :
    DoorKept s (offer x) ∧ (offer x).outs = s.outs ∧ DemandOffered s (offer x) ∧ HandsOn y (offer x) := by
  have on' : x.panelRuns = true := by simpa [State.panelRuns, State.conf, suc] using on
  refine ⟨⟨by simp [door.dcu], by simp [door.trm], by simp [door.psu]⟩, by simp [outs], fun hj => ?_, h.trans (offer_hands x)⟩
  have := offer_demand on' (by rw [suc]; exact hj)
  rwa [snu] at this

theorem change_momentary {k : Nat} (hm : momentary k = true) (p : Pnu) : p.change k true = { p with
    keys := p.keys ||| (1#20 <<< k), scans := p.scans.set k 0, heldKeys := p.heldKeys.set k (.running 0) } := by
  simp [Pnu.change, setKey, hm]

theorem press_open {k : Nat} {act : State → State} {s : State} (on : s.panelOn = true) (hk : s.pnu.keys.getLsbD k = false) :
    press k act s = .next (act { s with pnu := s.pnu.change k true }) := by
  simp [press, on, Pnu.made, hk]

theorem press_made {k : Nat} {act : State → State} {s : State} (hk : s.pnu.keys.getLsbD k = true) : press k act s = .next s := by
  simp [press, Pnu.made, hk]

/-- A toggle changes its own group alone (R156). -/
theorem getLsbD_toggleGroup {g i : Nat} (hi : i < 16) (x : BitVec 16) :
    (toggleGroup g x).getLsbD i = (x.getLsbD i != decide (i = g - 1)) := by
  have : decide (i < 16) = true := by simpa
  simp only [toggleGroup, BitVec.getLsbD_xor, BitVec.getLsbD_shiftLeft, BitVec.getLsbD_one]
  by_cases h : i = g - 1
  · subst h
    simp [hi]
  · by_cases hl : i < g - 1
    · simp [h, hl]
    · have : i - (g - 1) ≠ 0 := by omega
      simp [h, hl, this]

/-- The mode-conflict timer after the disagreement has been judged (R167). -/
def judgedConflict (s : State) : Watch :=
  if disagreement s then (if s.pnu.conflict = .stopped then .running 0 else s.pnu.conflict) else .stopped

theorem judgeConflict_eq (s : State) : judgeConflict s =
    if !disagreement s && s.pnu.conflict.isPast then
      alarm (.becameFalse .modeConflict) { s with pnu := { s.pnu with conflict := judgedConflict s } }
    else { s with pnu := { s.pnu with conflict := judgedConflict s } } := by
  simp only [judgeConflict, judgedConflict]
  cases disagreement s
  · simp
  · by_cases h : s.pnu.conflict = .stopped <;> simp [h]

theorem judgeConflict_hands {s : State} : HandsOn { s with pnu := { s.pnu with conflict := judgedConflict s } } (judgeConflict s) := by
  rw [judgeConflict_eq]
  exact (alarm_asked _ _ _).2.2.2

theorem judgeConflict_alu (s : State) : (judgeConflict s).alu =
    applyRequests (asked (!disagreement s && s.pnu.conflict.isPast) (.becameFalse .modeConflict)) s.alu := by
  rw [judgeConflict_eq]
  exact (alarm_asked _ _ _).1

theorem judgeConflict_snu {s : State} (on : s.panelRuns = true) : (judgeConflict s).snu = s.snu := by
  rw [judgeConflict_eq]
  split
  · exact alarm_panel_snu (s := { s with pnu := { s.pnu with conflict := judgedConflict s } }) on
  · rfl

/-- Settles O42: each key changes its item and offers the record (`offered_after`). -/
theorem demandKeysActOnceAndAreOffered : Obligations.DemandKeysActOnceAndAreOffered := by
  intro s on running
  have hon : s.panelOn = true := by simp [State.panelOn, on, running]
  have notDoor := panelRuns_not_doorRuns on
  refine ⟨fun g h1 h16 hopen => ?_, fun made hmade => ?_, fun hopen => ?_, fun g h1 h16 hmade => ?_, ?_, fun hmade => ?_⟩
  · obtain ⟨p, hp⟩ : ∃ p : Pnu, p = { s.pnu with
        keys := s.pnu.keys ||| (1#20 <<< (g - 1)), scans := s.pnu.scans.set (g - 1) 0
        heldKeys := s.pnu.heldKeys.set (g - 1) (.running 0), groups := toggleGroup g s.pnu.groups } := ⟨_, rfl⟩
    refine ⟨offer (repaint { s with pnu := p }), toggleGroup g s.pnu.groups, ?_, by simp, fun i hi => getLsbD_toggleGroup hi _,
      offer_repaint_patterns _, ?_⟩
    · have hm : momentary (g - 1) = true := by simp [momentary]; omega
      have run : exec (.groupClosePress g) s = execGroupClosePress g s := rfl
      rw [run, execGroupClosePress, if_pos ⟨h1, h16⟩, press_open hon hopen, change_momentary hm, hp]
    · rw [← hp]
      exact offered_after on (repaint_hands (s := { s with pnu := p }) notDoor) rfl rfl ⟨rfl, rfl, rfl⟩ rfl
  · obtain ⟨x, hx⟩ : ∃ x : State, x = { s with pnu := { s.pnu with
        keys := setKey s.pnu.keys 16 made, scans := s.pnu.scans.set 16 0, mode := modeOf made } } := ⟨_, rfl⟩
    have pnu : x.pnu.conflict = s.pnu.conflict := by rw [hx]
    have onx : x.panelRuns = true := by rw [hx]; exact on
    refine ⟨offer (repaint (judgeConflict x)), ?_, ?_⟩
    · have other : (s.panelOn && s.pnu.made selectorKey != made) = true := by simpa [hon, Pnu.made, selectorKey] using hmade
      simp only [exec, execModeSelectorChange, other, if_true, hx]
      rfl
    · have differs : (s.ste.table.any fun e => e.kind == .panel && e.live && e.panel.any fun h => h.part.mode != modeOf made) =
          disagreement x := by
        rw [hx]
        rfl
      have keeps : DoorKept s (repaint (judgeConflict x)) := by rw [hx]; exact ⟨by simp, by simp, by simp⟩
      have hands : HandsOn { x with pnu := { x.pnu with conflict := judgedConflict x } } (repaint (judgeConflict x)) :=
        judgeConflict_hands.trans (repaint_hands (by simpa [State.doorRuns, State.conf] using panelRuns_not_doorRuns onx))
      have after := offered_after on hands (by rw [hx]; simp) (by rw [← show x.snu = s.snu by rw [hx]]; exact judgeConflict_snu onx)
        keeps (by rw [hx]; simp)
      have alu : (offer (repaint (judgeConflict x))).alu = applyRequests (asked (!disagreement x && x.pnu.conflict.isPast)
          (.becameFalse .modeConflict)) x.alu := by simpa using judgeConflict_alu x
      rw [judgedConflict, pnu] at after
      simp only [show (if made = true then Mode.doorsClosed else .localControl) = modeOf made from rfl, differs]
      rw [pnu] at alu
      refine ⟨by rw [alu, hx], offer_repaint_patterns _, ?_⟩
      rw [hx] at after ⊢
      exact after
  · obtain ⟨x, hx⟩ : ∃ x : State, x = { s with pnu := { s.pnu with
        keys := s.pnu.keys ||| (1#20 <<< 17), scans := s.pnu.scans.set 17 0, heldKeys := s.pnu.heldKeys.set 17 (.running 0) } } := ⟨_, rfl⟩
    have onx : x.panelRuns = true := by rw [hx]; exact on
    have ack : (alarm .acknowledge x).pnu.ack = s.pnu.ack := by
      rw [(alarm_hands .acknowledge x).panel, hx]
    refine ⟨offer { alarm .acknowledge x with pnu := { (alarm .acknowledge x).pnu with ack := s.pnu.ack + 1 } }, ?_, by simp [hx], ?_⟩
    · have run : exec .ackPress s = execAckPress s := rfl
      have pressed : { s with pnu := s.pnu.change ackKey true } = x := by
        rw [change_momentary (k := ackKey) rfl, hx]
        rfl
      rw [run, execAckPress, press_open (k := ackKey) hon hopen, pressed]
      simp only [ack]
    · have hands := (alarm_hands .acknowledge x).counted (s.pnu.ack + 1)
      have after := offered_after on hands (by rw [hx]; simp) ((alarm_panel_snu onx).trans (by rw [hx]))
        ⟨by simp [hx], by simp [hx], by simp [hx]⟩ (by simp [hx])
      rw [hx] at after ⊢
      exact after
  · have run : exec (.groupClosePress g) s = execGroupClosePress g s := rfl
    rw [run, execGroupClosePress, if_pos ⟨h1, h16⟩, press_made hmade]
  · simp [exec, execModeSelectorChange, Pnu.made, selectorKey]
  · have run : exec .ackPress s = execAckPress s := rfl
    rw [run, execAckPress, press_made (k := ackKey) hmade]

end Sys2Proof.Machine
end

