-- ==== Sys2Proof/Proofs/Notices.lean ====
section
/-! SUPPORT and PROOFS. What a change of the station table brings (R101 to R116): the alarm requests it may make, what it may hand on,
and what a panel reads from it. -/

namespace Sys2Proof.Machine

/-! ### The alarm requests of a notice -/

/-- The alarm requests that moves of the door and a look at PASSAGE_EXCESS may make (R25, R45, R80). -/
def moveRequests : List AlarmRequest :=
  [.becameFalse .closeTimeout, .becameFalse .openTooLong, .becameTrue .passageExcess, .becameFalse .passageExcess]

/-- The alarm requests that a change notice may make at its readers (R8, R25, R45, R80, R167). -/
def noticeRequests : List AlarmRequest :=
  [.becameFalse .closeTimeout, .becameFalse .openTooLong, .becameTrue .passageExcess, .becameFalse .passageExcess,
    .becameTrue .noPanel, .becameFalse .noPanel, .becameFalse .modeConflict]

/-- The alarm requests of the derivations (R112 to R114). -/
def derivedRequests : List AlarmRequest :=
  [.becameTrue .configMismatch, .becameFalse .configMismatch, .becameTrue .stationLost, .becameFalse .stationLost,
    .becameTrue .laneDegraded, .becameFalse .laneDegraded]

/-- A property of alarm lists that requests keep. -/
def Outlasts (Q : List AlarmRecord → Prop) (qs : List AlarmRequest) : Prop := ∀ q ∈ qs, ∀ l, Q l → Q (applyRequest q l)

theorem Outlasts.alarm {Q : List AlarmRecord → Prop} {qs : List AlarmRequest} (h : Outlasts Q qs) {q : AlarmRequest} (hq : q ∈ qs)
    {s : State} (k : Q s.alu) : Q (alarm q s).alu := by
  rw [alarm_alu]
  exact h q hq _ k

section
variable {Q : List AlarmRecord → Prop} (h : Outlasts Q moveRequests)
include h

theorem Outlasts.shifted {s t : State} {d : Dcu} (m : Shifted s d t) (k : Q s.alu) : Q t.alu := by
  rw [m.alu, applyRequests, List.foldl_append]
  have one : ∀ (b : Bool) (q : AlarmRequest) (l : List AlarmRecord), q ∈ moveRequests → Q l →
      Q ((asked b q).foldl (fun l q => applyRequest q l) l) := fun b q l hq hl => by
    cases b
    · exact hl
    · exact h q hq l hl
  exact one _ _ _ (by simp [moveRequests]) (one _ _ _ (by simp [moveRequests]) k)

/-- Moves and looks keep such a property. -/
theorem Outlasts.reacts : Reacts (fun x => Q x.alu) :=
  .of_shifted (fun _ k => by simpa using k) (fun b _ k => h.alarm (by cases b <;> simp [moveRequests, condition]) k)
    (fun _ _ _ k => k) (fun _ _ _ k => k) fun _ _ _ _ _ _ _ _ _ _ _ k m => h.shifted m k

theorem Outlasts.evaluateClaim {s : State} (k : Q s.alu) : Q (evaluateClaim s).alu := by
  refine Carried.ite (P := fun x => Q x.alu) (Carried.ite (P := fun x => Q x.alu) ?_ (Carried.ite (P := fun x => Q x.alu) k ?_)) k
  · exact h.shifted (toOpening_shifted _) k
  · exact h.shifted (toIdle_shifted _ _) k

end

section
variable {Q : List AlarmRecord → Prop} (h : Outlasts Q noticeRequests)
include h

/-- A property that a notice's requests keep is one that moves keep. -/
theorem Outlasts.moves : Outlasts Q moveRequests := fun q hq => h q (by
  simp only [moveRequests, noticeRequests, List.mem_cons, List.not_mem_nil, or_false] at hq ⊢
  tauto)

theorem Outlasts.rederive {s : State} (k : Q s.alu) : Q (rederive s).alu := by
  rw [rederive_eq]
  refine Carried.ite (P := fun x => Q x.alu) k (h.moves.reacts.onCdChange ?_)
  exact Carried.ite (P := fun x => Q x.alu) k (h.moves.reacts.excessLook k)

theorem Outlasts.recompute {s : State} (k : Q s.alu) : Q (recompute s).alu := by
  have r := h.moves.reacts.doorEvent Machine.rederive (h.rederive k)
  exact Carried.ite (P := fun x => Q x.alu) (h.alarm (by simp [noticeRequests]) r)
    (Carried.ite (P := fun x => Q x.alu) (h.alarm (by simp [noticeRequests]) r) r)

theorem Outlasts.panelNotice (n : Notice) {s : State} (k : Q s.alu) : Q (panelNotice n s).alu := by
  have seen : ∀ x : State, Q x.alu → Q (judgeConflict x).alu := fun x k => by
    simp only [judgeConflict]
    refine Carried.ite (P := fun x => Q x.alu) (Carried.ite (P := fun x => Q x.alu) k k) (Carried.ite (P := fun x => Q x.alu) ?_ k)
    exact h.alarm (by simp [noticeRequests]) (s := { x with pnu := { x.pnu with conflict := .stopped } }) k
  have first : Q (seeAlarms n.num (summarise s)).alu := Carried.ite (P := fun x => Q x.alu) k k
  exact Carried.ite (P := fun x => Q x.alu) (seen _ first) first

theorem Outlasts.giveNotice (n : Notice) {s : State} (k : Q s.alu) : Q (giveNotice n s).alu := by
  refine Carried.ite (P := fun x => Q x.alu) ?_ (Carried.ite (P := fun x => Q x.alu) (h.panelNotice n k) k)
  have r := Carried.ite (P := fun x => Q x.alu) (b := n.ofPanel = true) (h.recompute k) k
  exact Carried.ite (P := fun x => Q x.alu) (h.moves.reacts.peerNotice (fun _ => h.moves.evaluateClaim r) r) r

end

/-- The derivations change the table engine and make their requests. -/
theorem derive_survives {P : State → Prop} (ste : ∀ (x : State) (y : Ste), P x → P { x with ste := y })
    (request : ∀ q ∈ derivedRequests, ∀ x, P x → P (alarm q x)) {s : State} (h : P s) : P (derive s) := by
  have one : ∀ (kind : AlarmKind) (b : Bool) (x : State), kind = .configMismatch ∨ kind = .stationLost ∨ kind = .laneDegraded →
      P x → P (alarm (condition kind b) x) := fun kind b x hk hx => by
    refine request _ ?_ _ hx
    rcases hk with rfl | rfl | rfl <;> cases b <;> simp [derivedRequests, condition]
  have m : P (deriveMismatch s) := Carried.ite (P := P) h (one _ _ _ (by simp) (ste _ _ h))
  have l : P (deriveLost (deriveMismatch s)) := Carried.ite (P := P) m (one _ _ _ (by simp) (ste _ _ m))
  exact Carried.ite (P := P) l (one _ _ _ (by simp) (ste _ _ l))

theorem Outlasts.derive {Q : List AlarmRecord → Prop} (h : Outlasts Q derivedRequests) {s : State} (k : Q s.alu) : Q (derive s).alu :=
  derive_survives (P := fun x => Q x.alu) (fun _ _ k => k) (fun _ hq _ k => h.alarm hq k) k

/-- The kinds of the derivations and notices, and those that the end of a stroke or a hold clears. -/
theorem kind_of_notice {q : AlarmRequest} (h : q ∈ noticeRequests ∨ q ∈ derivedRequests) : ∃ k, q.kind = some k ∧
    k ∈ [AlarmKind.configMismatch, .stationLost, .laneDegraded, .modeConflict, .noPanel, .passageExcess, .closeTimeout, .openTooLong] := by
  simp only [noticeRequests, derivedRequests, List.mem_cons, List.not_mem_nil, or_false] at h
  rcases h with (rfl | rfl | rfl | rfl | rfl | rfl | rfl) | rfl | rfl | rfl | rfl | rfl | rfl <;> simp [AlarmRequest.kind]

/-- A record of a kind that no request names stays. -/
theorem outlasts_mem {qs : List AlarmRequest} {r : AlarmRecord} (h : ∀ q ∈ qs, ∃ k, q.kind = some k ∧ r.kind ≠ k) :
    Outlasts (r ∈ ·) qs := fun q hq l hl => by
  obtain ⟨k, hk, hr⟩ := h q hq
  exact (mem_applyRequest_other hk hr l).mpr hl

/-- A condition that stands or has ended, in the list (R83 to R87). -/
def Stands (k : AlarmKind) (b : Bool) (l : List AlarmRecord) : Prop :=
  if b = true then ∃ r ∈ l, r.kind = k ∧ r.st.active = true else ∀ r ∈ l, r.kind = k → r.st.active = false

theorem stands_condition (k : AlarmKind) (b : Bool) (l : List AlarmRecord) : Stands k b (applyRequest (condition k b) l) := by
  cases b with
  | true => exact becameTrue_active k l
  | false => exact becameFalse_inactive k l

theorem outlasts_stands {qs : List AlarmRequest} {k : AlarmKind} (b : Bool) (h : ∀ q ∈ qs, ∃ k', q.kind = some k' ∧ k ≠ k') :
    Outlasts (Stands k b) qs := fun q hq l hl => by
  obtain ⟨k', hq', hk⟩ := h q hq
  have same : ∀ r : AlarmRecord, r.kind = k → (r ∈ applyRequest q l ↔ r ∈ l) := fun r hr => mem_applyRequest_other hq' (hr ▸ hk) l
  cases b with
  | true =>
    obtain ⟨r, hr, rk, ra⟩ := hl
    exact ⟨r, (same r rk).mpr hr, rk, ra⟩
  | false => exact fun r hr rk => hl r ((same r rk).mp hr) rk

/-- The derivations' edges reach the list (R112 to R114). -/
theorem derive_edges (s : State) :
    (s.ste.mismatch ≠ mismatchNow s → Stands .configMismatch (mismatchNow s) (derive s).alu) ∧
      (s.panelRuns = true → (s.ste.lost ≠ lostNow s → Stands .stationLost (lostNow s) (derive s).alu) ∧
        (s.ste.degraded ≠ degradedNow s → Stands .laneDegraded (degradedNow s) (derive s).alu)) := by
  have request : ∀ (k k' : AlarmKind) (b b' : Bool) (l : List AlarmRecord), k ≠ k' → Stands k b l →
      Stands k b (applyRequest (condition k' b') l) := fun k k' b b' l hk h =>
    outlasts_stands b (qs := [condition k' b']) (fun q hq => ⟨k', by
      rw [List.mem_singleton.mp hq]; cases b' <;> rfl, hk⟩) _ (List.mem_singleton.mpr rfl) l h
  have lost : ∀ (k : AlarmKind) (b : Bool) (x : State), k ≠ .stationLost → Stands k b x.alu → Stands k b (deriveLost x).alu :=
    fun k b x hk h => Carried.ite (P := fun y => Stands k b y.alu) h (by rw [alarm_alu]; exact request _ _ _ _ _ hk h)
  have degraded : ∀ (k : AlarmKind) (b : Bool) (x : State), k ≠ .laneDegraded → Stands k b x.alu → Stands k b (deriveDegraded x).alu :=
    fun k b x hk h => Carried.ite (P := fun y => Stands k b y.alu) h (by rw [alarm_alu]; exact request _ _ _ _ _ hk h)
  have after : ∀ (x : State), x.suc = s.suc → x.panelRuns = s.panelRuns := fun x hx => by simp [State.panelRuns, State.conf, hx]
  have dm := derivations_of_eq (s := s) (t := deriveMismatch s) (by simp) (by rw [deriveMismatch_ste])
  have dl := derivations_of_eq (s := s) (t := deriveLost (deriveMismatch s)) (by simp) (by rw [deriveLost_ste, deriveMismatch_ste])
  refine ⟨fun hm => degraded _ _ _ (by simp) (lost _ _ _ (by simp) ?_), fun on => ⟨fun hl => degraded _ _ _ (by simp) ?_, fun hd => ?_⟩⟩
  · rw [deriveMismatch, if_neg (Ne.symm hm), alarm_alu]
    exact stands_condition _ _ _
  · have still : (deriveMismatch s).ste.lost = s.ste.lost := by rw [deriveMismatch_ste]
    have on' : (deriveMismatch s).panelRuns = true := (after _ (by simp)).trans on
    rw [deriveLost, dm.2.1, still, if_neg (by simp [on', Ne.symm hl]), alarm_alu]
    exact stands_condition _ _ _
  · have still : (deriveLost (deriveMismatch s)).ste.degraded = s.ste.degraded := by rw [deriveLost_ste, deriveMismatch_ste]
    have on' : (deriveLost (deriveMismatch s)).panelRuns = true := (after _ (by simp)).trans on
    rw [derive, deriveDegraded, dl.2.2, still, if_neg (by simp [on', Ne.symm hd]), alarm_alu]
    exact stands_condition _ _ _

/-! ### What a change of the table hands on -/

theorem TableHands.same (s : State) : TableHands s s := HandsOn.same s

/-- Handed on from a state the table's change has come to. -/
theorem TableHands.next {s x y : State} (h : TableHands s x) (k : HandsOn x y) : TableHands s y := by
  have panel := k.panel
  rw [PanelHanded] at panel
  have same : y.pnu.summaries = x.pnu.summaries ∧ y.pnu.lastSeen = x.pnu.lastSeen ∧ y.pnu.conflict = x.pnu.conflict := by
    rw [panel]
    exact ⟨rfl, rfl, rfl⟩
  rw [TableHands, k.ste, k.rxq, same.1, same.2.1, same.2.2]
  exact HandsOn.trans h k

/-- The table engine, the receive queue, the summaries, the sets last seen and the mode disagreement are its own. -/
theorem TableHands.own {s x : State} (h : TableHands s x) (ste : Ste) (rxq : Rxq) (summaries : List Summary)
    (lastSeen : List (BitVec 16)) (conflict : Watch) : TableHands s { x with
      ste := ste, rxq := rxq
      pnu := { x.pnu with summaries := summaries, lastSeen := lastSeen, conflict := conflict } } :=
  { h with
    ste := rfl
    rxq := rfl
    panel := by
      have := h.panel
      rw [PanelHanded] at this ⊢
      rw [this]
    panelOut := fun hd => by rw [h.panelOut hd] }

theorem sound_hands {s : State} (h : s.doorRuns = false) : HandsOn s (sound s) :=
  { lead := rfl, deb := rfl, settle := rfl, flash := rfl, suc := rfl, ste := rfl, rxq := rfl, dgp := rfl, pending := rfl,
    laneA := .inl rfl, laneB := .inl rfl, silent := fun _ => ⟨rfl, rfl, rfl⟩, ident := rfl, demand := fun _ => rfl,
    state := fun _ => rfl, demandOnce := .inl rfl, stateOnce := .inl rfl, pump := rfl, pumpDoor := fun _ => rfl, panel := rfl,
    panelOut := fun hd => absurd hd (by simp [h]) }

theorem endSilence_hands {s : State} (h : s.doorRuns = false) : HandsOn s (endSilence s) :=
  { lead := rfl, deb := rfl, settle := rfl, flash := rfl, suc := rfl, ste := rfl, rxq := rfl, dgp := rfl, pending := rfl,
    laneA := .inl rfl, laneB := .inl rfl, silent := fun _ => ⟨rfl, rfl, rfl⟩, ident := rfl, demand := fun _ => rfl,
    state := fun _ => rfl, demandOnce := .inl rfl, stateOnce := .inl rfl, pump := rfl, pumpDoor := fun _ => rfl, panel := rfl,
    panelOut := fun hd => absurd hd (by simp [h]) }

/-- A notice at a panel hands on no more (R157 to R167). -/
theorem TableHands.panelNotice {s x : State} (h : TableHands s x) (n : Notice) (on : x.panelRuns = true) :
    TableHands s (panelNotice n x) := by
  have off : ∀ y : State, y.suc = x.suc → y.doorRuns = false := fun y hy =>
    panelRuns_not_doorRuns (by simpa [State.panelRuns, State.conf, hy] using on)
  have seen : TableHands s (seeAlarms n.num (summarise x)) := by
    have k := h.own x.ste x.rxq (summariesOf x.ste.table)
      (x.pnu.lastSeen.set (n.num - 1) (((entryOf x n.num).map (·.unackedNow)).getD 0)) x.pnu.conflict
    exact Carried.ite (P := TableHands s) (k.next (endSilence_hands (off _ rfl))) k
  have judged : TableHands s (if n.ofPanel then judgeConflict (seeAlarms n.num (summarise x)) else seeAlarms n.num (summarise x)) := by
    refine Carried.ite (P := TableHands s) ?_ seen
    obtain ⟨y, hy⟩ : ∃ y, y = seeAlarms n.num (summarise x) := ⟨_, rfl⟩
    rw [← hy] at seen ⊢
    exact (seen.own y.ste y.rxq y.pnu.summaries y.pnu.lastSeen (judgedConflict y)).next judgeConflict_hands
  have suc : (if n.ofPanel then judgeConflict (seeAlarms n.num (summarise x)) else seeAlarms n.num (summarise x)).suc = x.suc := by
    split <;> simp
  exact (judged.next (sound_hands (off _ suc))).next (repaint_hands (off _ suc))

/-- What the table's commands hand on. -/
theorem TableHands.walked (s : State) : TableWalked (TableHands s) :=
  { (Carried.walked (P := TableHands s) ⟨fun x d t p h => h.next (HandsOn.door x d t p _ _), fun x h => h.next (offer_hands x),
      fun q x _ h => h.next (alarm_hands q x)⟩) with
    ste := fun x y h => h.own y x.rxq x.pnu.summaries x.pnu.lastSeen x.pnu.conflict
    panel := fun n _ on h => h.panelNotice n on
    ack := fun x h => h.next (alarm_hands _ x)
    rederive := fun x _ h => h.next ((HandsOn.carried x).rederive (.same x))
    judged := fun x _ h => h.next ((HandsOn.carried x).evaluateClaim (.same x)) }

/-! ### What a panel reads from a notice -/

@[simp] theorem seeAlarms_summarise_pnu (n : Nat) (s : State) :
    (seeAlarms n (summarise s)).pnu.summaries = summariesOf s.ste.table ∧
      (seeAlarms n (summarise s)).pnu.lastSeen = s.pnu.lastSeen.set (n - 1) (((entryOf s n).map (·.unackedNow)).getD 0) ∧
      (seeAlarms n (summarise s)).pnu.conflict = s.pnu.conflict ∧ (seeAlarms n (summarise s)).pnu.mode = s.pnu.mode ∧
      (seeAlarms n (summarise s)).alu = s.alu ∧ (seeAlarms n (summarise s)).ste = s.ste := by
  simp only [seeAlarms]
  split <;> exact ⟨rfl, rfl, rfl, rfl, rfl, rfl⟩

theorem judgeConflict_pnu (s : State) : (judgeConflict s).pnu.summaries = s.pnu.summaries ∧
    (judgeConflict s).pnu.lastSeen = s.pnu.lastSeen ∧ (judgeConflict s).pnu.conflict = judgedConflict s := by
  have := (judgeConflict_hands (s := s)).panel
  rw [PanelHanded] at this
  rw [this]
  exact ⟨rfl, rfl, rfl⟩

/-- The summaries, the sets last seen and the mode disagreement after a notice (R157, R164, R167). -/
theorem panelNotice_pnu (n : Notice) (s : State) : (panelNotice n s).pnu.summaries = summariesOf s.ste.table ∧
    (panelNotice n s).pnu.lastSeen = s.pnu.lastSeen.set (n.num - 1) (((entryOf s n.num).map (·.unackedNow)).getD 0) ∧
    (panelNotice n s).pnu.conflict = (if n.ofPanel then judgedConflict s else s.pnu.conflict) ∧
    (panelNotice n s).alu = (if n.ofPanel then applyRequests (asked (!disagreement s && s.pnu.conflict.isPast)
      (.becameFalse .modeConflict)) s.alu else s.alu) := by
  obtain ⟨y, hy⟩ : ∃ y, y = seeAlarms n.num (summarise s) := ⟨_, rfl⟩
  obtain ⟨summaries, lastSeen, conflict, mode, alu, ste⟩ := hy ▸ seeAlarms_summarise_pnu n.num s
  have judged : judgedConflict y = judgedConflict s ∧ disagreement y = disagreement s := by
    simp [judgedConflict, disagreement, mode, ste, conflict]
  obtain ⟨js, jl, jc⟩ := judgeConflict_pnu y
  simp only [panelNotice, ← hy]
  cases n.ofPanel with
  | false => exact ⟨summaries, lastSeen, conflict, alu⟩
  | true =>
    refine ⟨js.trans summaries, jl.trans lastSeen, jc.trans judged.1, (judgeConflict_alu y).trans ?_⟩
    simp [judged.2, conflict, alu]

end Sys2Proof.Machine
end

