-- ==== Sys2Proof/Proofs/Stations.lean ====
section
/-! SUPPORT and PROOFS. Telegrams of other stations, accepted or not, the own number, and the ages of the entries (R101 to R116). -/

namespace Sys2Proof.Machine

/-! ### A change of an entry, its derivations and its notice -/

/-- The state after the derivations and the notice of a change that `s` already holds (R111). -/
def noticed (n : Notice) (s : State) : State := setOuts (giveNotice n (derive s))

@[simp] theorem noticed_ste (n : Notice) (s : State) : (noticed n s).ste = (derive s).ste := by simp [noticed]

theorem noticed_hands {s x : State} (n : Notice) (h : TableHands s x) : TableHands s (noticed n x) :=
  ((TableHands.walked s).giveNotice n ((TableHands.walked s).derive h)).next (setOuts_hands _)

theorem derive_suc_runs (s : State) : (derive s).panelRuns = s.panelRuns ∧ (derive s).doorRuns = s.doorRuns := by
  simp [State.panelRuns, State.doorRuns, State.conf]

/-- A panel moves no door. -/
theorem noticed_door {n : Notice} {s : State} (off : s.doorRuns = false) : DoorKept s (noticed n s) := by
  have off' : (derive s).doorRuns = false := (derive_suc_runs s).2.trans off
  simp only [noticed, giveNotice, off', Bool.false_eq_true, if_false]
  split <;> exact ⟨by simp, by simp, by simp⟩

/-- An entry put is found, and every other as it was. -/
theorem entryOf_put {s t : State} {e : Entry} (h : t.ste.table = putEntry e s.ste.table) :
    entryOf t e.num = some e ∧ OthersKept e.num s t := by
  refine ⟨?_, fun m hm => ?_⟩
  · rw [entryOf, h]
    exact find_putEntry_same e _
  · rw [entryOf, h]
    exact find_putEntry_other e _ hm

theorem unackedNow_eq (e : Entry) : e.unackedNow = if e.kind = .door then (e.door.map (·.unacked)).getD 0 else 0 := by
  rw [Entry.unackedNow]
  by_cases h : e.kind = .door
  · cases hd : e.door <;> simp [h]
  · simp [h]

/-- The panel unit's own items through the derivations. -/
theorem derive_pnu (s : State) : (derive s).pnu.lastSeen = s.pnu.lastSeen ∧ (derive s).pnu.conflict = s.pnu.conflict ∧
    (derive s).pnu.mode = s.pnu.mode := by
  refine derive_survives (P := fun x => x.pnu.lastSeen = s.pnu.lastSeen ∧ x.pnu.conflict = s.pnu.conflict ∧ x.pnu.mode = s.pnu.mode)
    (fun _ _ h => h) (fun q _ x h => ?_) ⟨rfl, rfl, rfl⟩
  rw [(alarm_hands q x).panel]
  exact h

/-- The table engine after a change: the counters as they were, the derivations those of the table (R112 to R114). -/
theorem noticed_derived (n : Notice) (s : State) :
    ((noticed n s).ste.kindConflicts = s.ste.kindConflicts ∧ (noticed n s).ste.duplicates = s.ste.duplicates ∧
      (noticed n s).ste.lateCopies = s.ste.lateCopies ∧ (noticed n s).ste.mismatch = mismatchNow (noticed n s)) ∧
    (s.panelRuns = true → (noticed n s).ste.lost = lostNow (noticed n s) ∧ (noticed n s).ste.degraded = degradedNow (noticed n s)) ∧
    mismatchNow (noticed n s) = mismatchNow s ∧ lostNow (noticed n s) = lostNow s ∧ degradedNow (noticed n s) = degradedNow s := by
  have same := derivations_of_eq (s := s) (t := noticed n s) (by simp [noticed]) (by simp)
  obtain ⟨m, l, d⟩ := same
  rw [m, l, d, noticed_ste, derive_ste]
  exact ⟨⟨rfl, rfl, rfl, rfl⟩, fun on => by simp [on], rfl, rfl, rfl⟩

/-- What the panel unit holds after a change (R157, R164, R167). -/
theorem noticed_panel {n : Notice} {s : State} (on : s.panelRuns = true) :
    (noticed n s).pnu.summaries = summariesOf (noticed n s).ste.table ∧
    (noticed n s).pnu.lastSeen = s.pnu.lastSeen.set (n.num - 1) (((entryOf s n.num).map (·.unackedNow)).getD 0) ∧
    (noticed n s).pnu.conflict = (if n.ofPanel = true then
        if (noticed n s).ste.table.any (fun e => e.kind == .panel && e.live && e.panel.any (fun h => h.part.mode != s.pnu.mode)) = true
        then (if s.pnu.conflict = .stopped then .running 0 else s.pnu.conflict) else .stopped
      else s.pnu.conflict) ∧
    (s.pnu.conflict.isPast = true → (noticed n s).pnu.conflict = .stopped →
      ∀ r ∈ (noticed n s).alu, r.kind = .modeConflict → r.st.active = false) := by
  have on' : (derive s).panelRuns = true := (derive_suc_runs s).1.trans on
  have given : noticed n s = setOuts (panelNotice n (derive s)) := by
    rw [noticed, giveNotice, if_neg (by simp [panelRuns_not_doorRuns on']), if_pos on']
  obtain ⟨lastSeen, conflict, mode⟩ := derive_pnu s
  obtain ⟨ps, pl, pc, pa⟩ := panelNotice_pnu n (derive s)
  have table : (noticed n s).ste.table = s.ste.table := by simp
  have disagrees : disagreement (derive s) = s.ste.table.any (fun e => e.kind == .panel && e.live &&
      e.panel.any (fun h => h.part.mode != s.pnu.mode)) := by
    simp [disagreement, mode, Entry.livePanel]
  have found : entryOf (derive s) n.num = entryOf s n.num := by simp [entryOf]
  rw [judgedConflict, disagrees, conflict] at pc
  rw [disagrees, conflict] at pa
  rw [found, lastSeen] at pl
  rw [derive_table] at ps
  rw [table, given]
  simp only [setOuts_keeps]
  refine ⟨by simpa using ps, pl, pc, fun past stopped r hr hk => ?_⟩
  rw [pc] at stopped
  have running : s.pnu.conflict ≠ .stopped := fun h => by simp [h, Watch.isPast] at past
  have judged : n.ofPanel = true ∧ s.ste.table.any (fun e => e.kind == .panel && e.live &&
      e.panel.any (fun h => h.part.mode != s.pnu.mode)) = false := by
    split at stopped
    · refine ⟨‹_›, ?_⟩
      split at stopped
      · exact absurd stopped running
      · exact eq_false_of_ne_true ‹_›
    · exact absurd stopped running
  have alu : (panelNotice n (derive s)).alu = applyRequest (.becameFalse .modeConflict) (derive s).alu := by
    rw [pa, if_pos judged.1, judged.2, past]
    rfl
  exact becameFalse_inactive _ _ r (alu ▸ hr) hk

/-- A derivation's kind is requested by no notice. -/
theorem derived_not_noticed {k : AlarmKind} (hk : k = .configMismatch ∨ k = .stationLost ∨ k = .laneDegraded) (b : Bool) :
    Outlasts (Stands k b) noticeRequests := by
  refine outlasts_stands b fun q hq => ?_
  simp only [noticeRequests, List.mem_cons, List.not_mem_nil, or_false] at hq
  rcases hq with rfl | rfl | rfl | rfl | rfl | rfl | rfl <;> refine ⟨_, rfl, ?_⟩ <;> rcases hk with rfl | rfl | rfl <;> simp

/-- The derivations' edges stand in the list when the notice has been given (R112 to R114). -/
theorem noticed_edges (n : Notice) (s : State) :
    (s.ste.mismatch ≠ mismatchNow s → Stands .configMismatch (mismatchNow s) (noticed n s).alu) ∧
      (s.panelRuns = true → (s.ste.lost ≠ lostNow s → Stands .stationLost (lostNow s) (noticed n s).alu) ∧
        (s.ste.degraded ≠ degradedNow s → Stands .laneDegraded (degradedNow s) (noticed n s).alu)) := by
  obtain ⟨m, p⟩ := derive_edges s
  exact ⟨fun h => (derived_not_noticed (by simp) _).giveNotice n (m h), fun on =>
    ⟨fun h => (derived_not_noticed (by simp) _).giveNotice n ((p on).1 h),
      fun h => (derived_not_noticed (by simp) _).giveNotice n ((p on).2 h)⟩⟩

/-! ### Ages -/

/-- The marking of a LIVE entry (R109). -/
theorem rejudge_eq {e : Entry} {limit : Nat} (live : e.live = true) : rejudge limit e =
    { e with single := decide (e.heardA < limit) != decide (e.heardB < limit) } := by
  simp [rejudge, singleNow, live, Entry.hears]

theorem deriveDegraded_enu (s : State) : (deriveDegraded s).enu = s.enu := by
  simp only [deriveDegraded]
  split
  · rfl
  · exact alarm_condition_enu .laneDegraded _ _ rfl

/-- Settles O31: a passage to STALE is a change that is noticed; a lane-heard age judges the marking afresh. -/
theorem entryAgesMakeStaleAndSingleLane : Obligations.EntryAgesMakeStaleAndSingleLane := by
  intro n s
  refine ⟨fun e he live => ?_, fun dead => ?_⟩
  · have num := entryOf_num he
    have stale : exec (.entryGoesStale n) s = if e.live && decide (s.staleMs ≤ e.age) then finish (goStale e s) else .next s := by
      have run : exec (.entryGoesStale n) s = execEntryGoesStale n s := rfl
      rw [run, execEntryGoesStale, he]
    have aged : ∀ lane, exec (.laneHeardAgeLimit n lane) s = if e.live && decide (s.staleMs ≤ e.heard lane) then
        .next (deriveDegraded (setEntry (rejudge s.staleMs e) s)) else .next s := fun lane => by
      have run : exec (.laneHeardAgeLimit n lane) s = execLaneHeardAgeLimit n lane s := rfl
      rw [run, execLaneHeardAgeLimit, he]
    refine ⟨fun hage => ?_, fun hage => ?_, fun lane => ⟨fun hage => ?_, fun hage => ?_⟩⟩
    · obtain ⟨e', he'⟩ : ∃ e' : Entry, e' = { e with live := false, single := false } := ⟨_, rfl⟩
      obtain ⟨y, hy⟩ : ∃ y, y = setEntry e' s := ⟨_, rfl⟩
      have num' : e'.num = n := by rw [he']; exact num
      have on : y.panelRuns = s.panelRuns := by rw [hy]; rfl
      have off : y.doorRuns = s.doorRuns := by rw [hy]; rfl
      obtain ⟨found, others⟩ := entryOf_put (s := s) (t := noticed (noticeOf (some e) e' none) y) (e := e') (by simp [hy])
      have foundy : entryOf y n = some e' := by rw [← num']; exact (entryOf_put (s := s) (t := y) (by rw [hy]; rfl)).1
      obtain ⟨⟨kinds, dups, lates, mismatch⟩, derived, -, lostSame, -⟩ := noticed_derived (noticeOf (some e) e' none) y
      have lost : lostNow y = true := List.any_eq_true.mpr ⟨e', entryOf_mem foundy, by simp [he']⟩
      refine ⟨noticed (noticeOf (some e) e' none) y, ?_, by rw [← he', ← num']; exact found, num' ▸ others,
        kinds.trans (by rw [hy]; rfl), dups.trans (by rw [hy]; rfl), lates.trans (by rw [hy]; rfl), mismatch, fun hp => ?_, fun hp => ?_,
        fun hd => ?_, by simp [noticed, hy, setEntry], noticed_hands _ ?_⟩
      · rw [stale, if_pos (by simp [live, hage]), hy, he']
        rfl
      · rw [← on] at hp
        obtain ⟨dl, dd⟩ := derived hp
        refine ⟨dl.trans (lostSame.trans lost), dd, (noticed_panel hp).1, fun was => ?_⟩
        have := ((noticed_edges (noticeOf (some e) e' none) y).2 hp).1 (by rw [lost, hy]; simp [was])
        rwa [lost] at this
      · rw [← on] at hp
        obtain ⟨-, seen, conflict, cleared⟩ := noticed_panel (n := noticeOf (some e) e' none) hp
        have concerns : ((noticeOf (some e) e' none).ofPanel = true) = (e.kind = .panel) := by simp [Notice.ofPanel, noticeOf, he']
        have numy : (noticeOf (some e) e' none).num = n := num'
        rw [numy, foundy] at seen
        simp only [concerns] at conflict
        have pnu : y.pnu = s.pnu := by rw [hy]; rfl
        rw [pnu] at seen conflict cleared
        refine ⟨?_, conflict, cleared⟩
        rw [seen, Option.map_some, Option.getD_some, unackedNow_eq, he']
      · have := noticed_door (n := noticeOf (some e) e' none) (off.trans hd)
        rw [hy] at this ⊢
        exact ⟨this.dcu, this.trm, this.psu⟩
      · rw [hy]
        exact (TableHands.same s).own _ s.rxq s.pnu.summaries s.pnu.lastSeen s.pnu.conflict
    · rw [stale, if_neg (by simp; omega)]
    · have below : ¬ s.staleMs ≤ e.heard lane := by cases lane <;> simpa [Entry.heard] using hage
      rw [aged, if_neg (by simp [below])]
    · have reached : s.staleMs ≤ e.heard lane := by cases lane <;> simpa [Entry.heard] using hage
      obtain ⟨found, others⟩ := entryOf_put (s := s) (t := deriveDegraded (setEntry (rejudge s.staleMs e) s)) (e := rejudge s.staleMs e) (by simp)
      have num' : (rejudge s.staleMs e).num = n := num
      refine ⟨_, by rw [aged, if_pos (by simp [live, reached])], ?_, num' ▸ others, ?_, ?_, by simp, ⟨by simp [setEntry], by simp [setEntry], by simp [setEntry]⟩,
        by simp [setEntry], ?_⟩
      · rw [← num', found, rejudge_eq live]
      · have same := derivations_of_eq (s := setEntry (rejudge s.staleMs e) s) (t := deriveDegraded (setEntry (rejudge s.staleMs e) s))
          (by simp) (by simp)
        rw [same.2.2, deriveDegraded_ste]
        rfl
      · exact deriveDegraded_enu _
      · exact (TableHands.walked s).deriveDegraded ((TableHands.same s).own _ s.rxq s.pnu.summaries s.pnu.lastSeen s.pnu.conflict)
  · have stale : exec (.entryGoesStale n) s = execEntryGoesStale n s := rfl
    have aged : ∀ lane, exec (.laneHeardAgeLimit n lane) s = execLaneHeardAgeLimit n lane s := fun _ => rfl
    simp only [stale, aged, execEntryGoesStale, execLaneHeardAgeLimit]
    cases he : entryOf s n with
    | none => exact ⟨rfl, fun _ => rfl⟩
    | some e =>
      have off := dead e he
      simp [off]

/-! ### Taking a telegram -/

/-- The state with the head of the receive queue removed (R101). -/
def State.dequeued (rest : List Telegram) (s : State) : State := { s with rxq := { s.rxq with queue := rest } }

theorem exec_telegramTaken {s : State} {tg : Telegram} {rest : List Telegram} (runs : s.suc.startUp.running = true)
    (hq : s.rxq.queue = tg :: rest) : exec .telegramTaken s = .next (setOuts (takeTelegram tg (s.dequeued rest))) := by
  have run : exec .telegramTaken s = execTelegramTaken s := rfl
  rw [run, execTelegramTaken, runs, hq]
  rfl

theorem takeTelegram_other {s : State} {tg : Telegram} (h : tg.origin ≠ s.conf.station) (rest : List Telegram) :
    takeTelegram tg (s.dequeued rest) = takeOther tg (s.dequeued rest) := if_neg h

theorem takeTelegram_own {s : State} {tg : Telegram} (h : tg.origin = s.conf.station) (rest : List Telegram) :
    takeTelegram tg (s.dequeued rest) = takeOwn (s.dequeued rest) := if_pos h

/-- The kind a telegram speaks of (R103). -/
theorem telegramKind_eq (tg : Telegram) : telegramKind tg = match tg.cls with
    | .demand => .panel
    | .state => .door
    | .ident => if (decodeIdent tg.payload).role = .door then .door else .panel := by
  rw [telegramKind]
  cases tg.cls with
  | demand => rfl
  | state => rfl
  | ident => cases h : (decodeIdent tg.payload).role <;> rfl

/-- A copy heard on its lane (R107, R109). -/
theorem rejudge_setHeard {e : Entry} (live : e.live = true) (limit : Nat) (lane : LaneId) :
    let a : Nat := if lane = .a then 0 else e.heardA
    let b : Nat := if lane = .b then 0 else e.heardB
    rejudge limit (e.setHeard lane 0) = { e with heardA := a, heardB := b, single := decide (a < limit) != decide (b < limit) } := by
  cases lane <;> exact rejudge_eq live

/-- What a copy that is not accepted leaves, once it has been counted (R107). -/
theorem hearCopy_leaves {s : State} {e : Entry} {n : Nat} (he : entryOf s n = some e) (lane : LaneId) (c : Ste) (hc : c.table = s.ste.table) (rest : List Telegram)
    {t : State} (ht : t = setOuts (hearCopy e lane { s.dequeued rest with ste := c })) :
    entryOf t n = some (rejudge s.staleMs (e.setHeard lane 0)) ∧ OthersKept n s t ∧ t.rxq = { s.rxq with queue := rest } ∧
      t.ste = { c with table := t.ste.table, degraded := if s.panelRuns = true then degradedNow t else c.degraded } ∧
      DoorKept s t ∧ t.enu = s.enu ∧ t.outs = outsFor t ∧ TableHands s t := by
  obtain ⟨y, hy⟩ : ∃ y, y = setEntry (rejudge s.staleMs (e.setHeard lane 0)) { s.dequeued rest with ste := c } := ⟨_, rfl⟩
  have state : t = setOuts (deriveDegraded y) := by rw [ht, hy]; rfl
  have num : (rejudge s.staleMs (e.setHeard lane 0)).num = n := by rw [rejudge_setHeard_num, entryOf_num he]
  have table : t.ste.table = putEntry (rejudge s.staleMs (e.setHeard lane 0)) s.ste.table := by rw [state, ← hc]; simp [hy]
  obtain ⟨found, others⟩ := entryOf_put table
  rw [num] at found others
  refine ⟨found, others, by rw [state]; simp [hy, setEntry, State.dequeued], ?_, ?_, ?_, by rw [state]; rfl, ?_⟩
  · have same := derivations_of_eq (s := y) (t := t) (by simp [state]) (by simp [state])
    have ste : t.ste = (deriveDegraded y).ste := by rw [state]; rfl
    rw [same.2.2, ste, deriveDegraded_ste, hy]
    rfl
  · rw [state, hy]
    exact ⟨by simp [setEntry, State.dequeued], by simp [setEntry, State.dequeued], by simp [setEntry, State.dequeued]⟩
  · have enu : (setOuts (deriveDegraded y)).enu = y.enu := deriveDegraded_enu y
    rw [state, enu, hy]
    rfl
  · rw [state]
    refine ((TableHands.walked s).deriveDegraded ?_).next (setOuts_hands _)
    rw [hy]
    exact (TableHands.same s).own _ _ s.pnu.summaries s.pnu.lastSeen s.pnu.conflict

/-- Settles O29: a conflict of kinds is counted before anything else; a copy is counted and heard (`hearCopy_leaves`). -/
theorem telegramIsNotAccepted : Obligations.TelegramIsNotAccepted := by
  intro s tg rest e runs hq other he live
  have taken := exec_telegramTaken runs hq
  rw [takeTelegram_other other] at taken
  have he' : entryOf (s.dequeued rest) tg.origin = some e := he
  refine ⟨fun hk => ?_, fun hk last hl hd => ?_⟩
  · have kinds : e.kind ≠ telegramKind tg := by rw [telegramKind_eq]; exact hk
    rw [taken, takeOther, he', if_pos (by simp [kindConflict, live, kinds])]
    rfl
  · have kinds : e.kind = telegramKind tg := by rw [telegramKind_eq]; exact hk
    have agree : kindConflict (some e) tg = false := by simp [kindConflict, kinds]
    have judged : takeOther tg (s.dequeued rest) = hearCopy e tg.lane { s.dequeued rest with ste :=
        if tg.serial = last then { s.ste with duplicates := bump s.ste.duplicates }
        else { s.ste with lateCopies := bump s.ste.lateCopies } } := by
      by_cases same : tg.serial = last
      · have verdict : verdictOf (some e) tg = .duplicate := by simp [verdictOf, live, hl, same]
        simp only [takeOther, he', agree, verdict, if_pos same]
        rfl
      · have zero : (tg.serial - last).toNat ≠ 0 := fun h => same (by
          have := BitVec.eq_of_toNat_eq (x := tg.serial - last) (y := 0) h
          bv_omega)
        have late : ¬ (tg.serial - last).toNat ≤ 127 := by omega
        have verdict : verdictOf (some e) tg = .lateCopy := by
          simp only [verdictOf, live, hl, Bool.not_true, Bool.false_eq_true, if_false, if_neg zero, if_neg late]
        simp only [takeOther, he', agree, verdict, if_neg same]
        rfl
    obtain ⟨t, ht⟩ : ∃ t, t = setOuts (takeOther tg (s.dequeued rest)) := ⟨_, rfl⟩
    obtain ⟨found, others, rxq, ste, door, enu, outs, hands⟩ := hearCopy_leaves he tg.lane
      (if tg.serial = last then { s.ste with duplicates := bump s.ste.duplicates }
        else { s.ste with lateCopies := bump s.ste.lateCopies }) (by split <;> rfl) rest (ht.trans (congrArg setOuts judged))
    refine ⟨t, by rw [taken, ht], by rw [found, rejudge_setHeard live], others, rxq, ?_, ?_, ?_, ?_, ?_, ?_, door, enu, outs, hands⟩
    · rw [ste]; split <;> rfl
    · rw [ste]; split <;> rfl
    · rw [ste]; split <;> rfl
    · rw [ste]; split <;> rfl
    · rw [ste]; split <;> rfl
    · refine (congrArg Ste.degraded ste).trans ?_
      split <;> [rfl; (split <;> rfl)]

/-! ### The own number -/

/-- A claim judged outside JOINED ends: the door opens, or rests in the matching idle state (R9, R13). -/
theorem evaluate_ends_claim {s : State} (claiming : s.dcu.ctl = .claiming) (outside : s.suc.startUp ≠ .joined) :
    ∃ d : Dcu, d.ctl ≠ .claiming ∧ Shifted s d (evaluate s) := by
  by_cases ho : s.enu.permStart = true ∧ s.psu.inForce = false
  · rw [evaluate_opens ho.1 ho.2]
    exact ⟨_, by simp [Dcu.enter], toOpening_shifted s⟩
  · rw [evaluate_refuses (refused_of ho (by simp [outside])), refuse_busy (by simp [claiming, Ctl.isIdle])]
    exact ⟨_, by cases s.trm.pos <;> simp [Dcu.enter, idleFor], toIdle_shifted _ s⟩

theorem noPanelCheck_keeps_door (s : State) : DoorKept s (noPanelCheck s) := by
  simp only [noPanelCheck]
  exact ⟨by split <;> [simp; (split <;> simp)], by split <;> [simp; (split <;> simp)], by split <;> [simp; (split <;> simp)]⟩

theorem DoorKept.trans {s x t : State} (h : DoorKept s x) (k : DoorKept x t) : DoorKept s t :=
  ⟨k.dcu.trans h.dcu, k.trm.trans h.trm, k.psu.trans h.psu⟩

/-- What the passage to MUTE leaves (R102, R124, R142, R174). -/
theorem toMute_leaves (s : State) : HandsOn s.muted (toMute s) ∧ (toMute s).enu = s.enu ∧ (toMute s).pnu = s.pnu ∧
    (s.dcu.ctl ≠ .claiming → DoorKept s (toMute s)) ∧
    (s.muted.doorRuns = true → s.dcu.ctl = .claiming → (toMute s).psu.phase = .noClaim ∧ (toMute s).dcu.ctl ≠ .claiming) := by
  have hands : HandsOn s.muted (toMute s) := (HandsOn.carried s.muted).walked.toMute (.same _)
  have enu : (toMute s).enu = s.enu := (Carried.walked (P := fun x => x.enu = s.enu) ⟨fun _ _ _ _ h => h, fun _ h => by simpa using h,
    fun q x hq h => (alarm_enu_door q x hq).trans h⟩).toMute rfl
  refine ⟨hands, enu, ?_, fun other => ?_, fun runs claiming => ?_⟩
  · cases hd : s.muted.doorRuns with
    | true => exact hands.panelOut hd
    | false => rw [toMute_eq, if_neg (by simp [hd])]; rfl
  · rw [toMute_eq]
    split
    · have rests : (fun x : State => if x.dcu.ctl = .claiming then evaluate x else x) s.muted = s.muted := if_neg other
      rw [doorEvent_same (f := fun x : State => if x.dcu.ctl = .claiming then evaluate x else x) rests]
      have := noPanelCheck_keeps_door s.muted
      exact ⟨this.dcu, this.trm, this.psu⟩
    · exact ⟨rfl, rfl, rfl⟩
  · obtain ⟨d, hd, shifted⟩ := evaluate_ends_claim (s := s.muted) claiming (by simp [State.muted])
    have was : s.muted.dcu.ctl = .claiming := claiming
    have moved : Moved s.muted d (setOuts (doorEvent (fun x => if x.dcu.ctl = .claiming then evaluate x else x) s.muted)) :=
      Shifted.doorEvent (by rw [if_pos was]; exact shifted) (by rw [was]; exact hd) rfl rfl rfl rfl rfl (.same _)
    obtain ⟨m, hm⟩ : ∃ m, m = doorEvent (fun x => if x.dcu.ctl = .claiming then evaluate x else x) s.muted := ⟨_, rfl⟩
    have kept := noPanelCheck_keeps_door m
    rw [toMute_eq, if_pos runs, ← hm, kept.dcu, kept.psu]
    rw [← hm] at moved
    have psu := moved.psu
    have dcu := moved.dcu
    simp only [setOuts_keeps] at psu dcu
    rw [psu, dcu]
    exact ⟨by simp [claimFor, hd, was], by simpa [Dcu.driven] using hd⟩

/-- A lane that contends or sends gives its telegram up uncounted (R142). -/
theorem muteLane_ends (n : Nat) {l : Lane} (h : l.activity = .contending ∨ (l.activity = .sending ∧ l.copy.isSome = true)) :
    (muteLane n l).activity = .receiving ∧ (muteLane n l).copy = none ∧ (muteLane n l).ctr = l.ctr := by
  rcases h with h | ⟨h, hc⟩
  · simp [muteLane, h]
  · obtain ⟨c, hc⟩ := Option.isSome_iff_exists.mp hc
    simp [muteLane, h, hc]

/-- Settles O30: a telegram of the own number is dropped, and brings MUTE (`toMute_leaves`). -/
theorem ownNumberMutesThePart : Obligations.OwnNumberMutesThePart := by
  intro s tg rest hq own
  refine ⟨fun muted => ?_, fun awake => ?_⟩
  · rw [exec_telegramTaken (by rw [muted]; rfl) hq, takeTelegram_own own]
    rw [takeOwn, if_neg (by simp [State.dequeued, muted])]
    rfl
  · have runs : s.suc.startUp.running = true := by rcases awake with h | h <;> rw [h] <;> rfl
    obtain ⟨x, hx⟩ : ∃ x, x = s.dequeued rest := ⟨_, rfl⟩
    obtain ⟨hands, enu, pnu, keeps, ends⟩ := toMute_leaves x
    have silent := hands.silent (by simp [State.muted])
    have doorRuns : x.muted.doorRuns = s.doorRuns := (muted_doorRuns (by rw [hx]; exact runs)).trans (by rw [hx]; rfl)
    refine ⟨setOuts (toMute x), ?_, hands.suc.trans (by rw [hx]; rfl), hands.rxq.trans (by rw [hx]; rfl), hands.ste.trans (by rw [hx]; rfl), fun id busy => ?_,
      silent.1.trans (by rw [hx]; rfl), fun hd hc => ends (doorRuns.trans hd) (by rw [hx]; exact hc), fun hc => ?_,
      hands.lead.trans (by rw [hx]; rfl), hands.deb.trans (by rw [hx]; rfl), hands.settle.trans (by rw [hx]; rfl), hands.flash.trans (by rw [hx]; rfl),
      enu.trans (by rw [hx]; rfl), pnu.trans (by rw [hx]; rfl), hands.dgp.trans (by rw [hx]; rfl), hands.pending.trans (by rw [hx]; rfl), rfl⟩
    · rw [exec_telegramTaken runs hq, takeTelegram_own own, takeOwn, ← hx, if_pos (by rw [hx]; exact awake)]
    · have lanes : (toMute x).lane id = muteLane s.conf.station (s.lane id) := by
        cases id
        · exact silent.2.1.trans (by rw [hx]; rfl)
        · exact silent.2.2.trans (by rw [hx]; rfl)
      have : (setOuts (toMute x)).lane id = (toMute x).lane id := by cases id <;> rfl
      rw [this, lanes]
      exact muteLane_ends _ busy
    · have := keeps (by rw [hx]; exact hc)
      rw [hx] at this ⊢
      exact ⟨this.dcu, this.trm, this.psu⟩

/-! ### Acceptance -/

/-- The entry an accepted telegram starts from, by the entry that stood, where a LIVE one is of its kind (R103, R105). -/
theorem baseEntry_items {old : Option Entry} {tg : Telegram} (hk : ∀ e, old.filter (·.live) = some e → e.kind = telegramKind tg) :
    let alive : Option Entry := old.filter (·.live)
    let known : Option Entry := old.filter (fun e => e.kind = telegramKind tg)
    let b := baseEntry old tg
    b.kind = telegramKind tg ∧ b.heardA = (alive.map (·.heardA)).getD 0 ∧ b.heardB = (alive.map (·.heardB)).getD 0 ∧
      b.serD = alive.bind (·.serD) ∧ b.serS = alive.bind (·.serS) ∧ b.serI = alive.bind (·.serI) ∧
      b.panel = known.bind (·.panel) ∧ b.door = known.bind (·.door) ∧ b.ident = known.bind (·.ident) := by
  cases old with
  | none => exact ⟨rfl, rfl, rfl, rfl, rfl, rfl, rfl, rfl, rfl⟩
  | some e =>
    by_cases live : e.live = true
    · have kind := hk e (by simp [live])
      simp [baseEntry, live, kind, Option.filter]
    · by_cases kind : e.kind = telegramKind tg <;> simp [baseEntry, live, kind, Entry.blank, Option.filter]

/-- The accepted entry, from the one it starts from (R105, R108 to R110). -/
theorem acceptedEntry_items (limit : Nat) (old : Option Entry) (tg : Telegram) :
    let b := baseEntry old tg
    let e := acceptedEntry limit old tg
    e.kind = b.kind ∧ e.live = true ∧ e.age = 0 ∧
      e.heardA = (if tg.lane = .a then 0 else b.heardA) ∧ e.heardB = (if tg.lane = .b then 0 else b.heardB) ∧
      e.serD = (if tg.cls = .demand then some tg.serial else b.serD) ∧
      e.serS = (if tg.cls = .state then some tg.serial else b.serS) ∧
      e.serI = (if tg.cls = .ident then some tg.serial else b.serI) ∧
      e.panel = (if tg.cls = .demand then some ⟨decodeDemand tg.payload, (decodeDemand tg.payload).ack⟩ else b.panel) ∧
      e.door = (if tg.cls = .state then some (decodeState tg.payload) else b.door) ∧
      e.ident = (if tg.cls = .ident then some (decodeIdent tg.payload) else b.ident) ∧
      e.single = (decide (e.heardA < limit) != decide (e.heardB < limit)) := by
  obtain ⟨lane, cls, origin, serial, payload⟩ := tg
  cases lane <;> cases cls <;> exact ⟨rfl, rfl, rfl, rfl, rfl, rfl, rfl, rfl, rfl, rfl, rfl, rfl⟩

/-- A telegram that is newer, or finds no live entry or no serial of its class, is accepted (R103, R104). -/
theorem takeOther_accepts {s : State} {tg : Telegram} (h : ∀ e, (entryOf s tg.origin).filter (·.live) = some e →
      e.kind = telegramKind tg ∧ ∀ last, e.serial tg.cls = some last →
        1 ≤ (tg.serial - last).toNat ∧ (tg.serial - last).toNat ≤ 127) :
    takeOther tg s = acceptTelegram (entryOf s tg.origin) tg s := by
  have agree : kindConflict (entryOf s tg.origin) tg = false ∧ verdictOf (entryOf s tg.origin) tg = .accepted := by
    cases ho : entryOf s tg.origin with
    | none => exact ⟨rfl, rfl⟩
    | some e =>
      by_cases live : e.live = true
      · obtain ⟨kind, newer⟩ := h e (by simp [ho, live])
        refine ⟨by simp [kindConflict, kind], ?_⟩
        cases hs : e.serial tg.cls with
        | none => simp [verdictOf, hs]
        | some last =>
          obtain ⟨low, high⟩ := newer last hs
          simp only [verdictOf, live, hs, Bool.not_true, Bool.false_eq_true, if_false, if_neg (Nat.ne_of_gt low), if_pos high]
      · exact ⟨by simp [kindConflict, live], by simp [verdictOf, live]⟩
  simp only [takeOther, agree.1, agree.2]
  rfl

/-- The state with the accepted entry in the table and the acknowledge request made (R105, R110). -/
def State.entered (tg : Telegram) (s : State) : State :=
  if asksAck (entryOf s tg.origin) tg && s.doorRuns then
    alarm .acknowledge (setEntry (acceptedEntry s.staleMs (entryOf s tg.origin) tg) s)
  else setEntry (acceptedEntry s.staleMs (entryOf s tg.origin) tg) s

theorem acceptTelegram_noticed (tg : Telegram) (s : State) : setOuts (acceptTelegram (entryOf s tg.origin) tg s) =
    noticed (noticeOf (entryOf s tg.origin) (acceptedEntry s.staleMs (entryOf s tg.origin) tg) (some tg.cls)) (s.entered tg) := by
  rw [acceptTelegram, noticed, State.entered]

/-- The change notice of an accepted telegram (R111). -/
def acceptedNotice (s : State) (tg : Telegram) : Notice :=
  noticeOf (entryOf s tg.origin) (acceptedEntry s.staleMs (entryOf s tg.origin) tg) (some tg.cls)

/-- The state in which an accepted telegram is derived and noticed. -/
theorem exec_accepts {s : State} {tg : Telegram} {rest : List Telegram} (runs : s.suc.startUp.running = true) (hq : s.rxq.queue = tg :: rest)
    (other : tg.origin ≠ s.conf.station) (h : ∀ e, (entryOf s tg.origin).filter (·.live) = some e →
      e.kind = telegramKind tg ∧ ∀ last, e.serial tg.cls = some last →
        1 ≤ (tg.serial - last).toNat ∧ (tg.serial - last).toNat ≤ 127) :
    exec .telegramTaken s = .next (noticed (acceptedNotice s tg) ((s.dequeued rest).entered tg)) := by
  have accepted : takeOther tg (s.dequeued rest) = acceptTelegram (entryOf (s.dequeued rest) tg.origin) tg (s.dequeued rest) :=
    takeOther_accepts h
  rw [exec_telegramTaken runs hq, takeTelegram_other other, accepted, acceptTelegram_noticed]
  rfl

theorem entered_keeps (tg : Telegram) (s : State) : (s.entered tg).suc = s.suc ∧ (s.entered tg).rxq = s.rxq ∧
    (s.entered tg).dcu = s.dcu ∧ (s.entered tg).trm = s.trm ∧ (s.entered tg).psu = s.psu ∧
    (s.entered tg).ste = { s.ste with table := putEntry (acceptedEntry s.staleMs (entryOf s tg.origin) tg) s.ste.table } ∧
    (s.entered tg).alu = (if asksAck (entryOf s tg.origin) tg && s.doorRuns then applyRequest .acknowledge s.alu else s.alu) ∧
    (s.doorRuns = false → (s.entered tg).pnu = s.pnu) := by
  rw [State.entered]
  split
  · rename_i h
    exact ⟨by simp [setEntry], by simp [setEntry], by simp [setEntry], by simp [setEntry], by simp [setEntry], by simp, by simp [setEntry],
      fun off => by simp [off] at h⟩
  · exact ⟨rfl, rfl, rfl, rfl, rfl, rfl, rfl, fun _ => rfl⟩

/-- A raised condition changes or enters records of its kind alone. -/
theorem mem_becameTrue {k : AlarmKind} {l : List AlarmRecord} {r : AlarmRecord} (h : r ∈ applyRequest (.becameTrue k) l) :
    r ∈ l ∨ r.kind = k := by
  by_contra hn
  rw [not_or] at hn
  exact hn.1 ((mem_applyRequest_other rfl hn.2 l).mp h)

/-- A cleared condition leaves records as they were, or changes unacknowledged ones. -/
theorem mem_becameFalse {k : AlarmKind} {l : List AlarmRecord} {r : AlarmRecord} (h : r ∈ applyRequest (.becameFalse k) l) :
    r ∈ l ∨ ∃ x ∈ l, x.kind = r.kind ∧ x.st = .activeUnacked := by
  obtain ⟨x, hx, rfl⟩ := List.mem_map.mp h
  have mem := (List.mem_filter.mp hx).1
  by_cases changed : x.kind = k ∧ x.st = .activeUnacked
  · rw [if_pos changed]
    exact .inr ⟨x, mem, rfl, changed.2⟩
  · rw [if_neg changed]
    exact .inl mem

/-- The alarms of an acceptance: those of its derivations and notice, and an acknowledged list before them (R87, R93, R110). -/
theorem noticed_alarms (n : Notice) (s x : State) (asks : Bool) (alu : s.alu = if asks then applyRequest .acknowledge x.alu else x.alu) :
    let derived : List AlarmKind := [.configMismatch, .stationLost, .laneDegraded, .modeConflict, .noPanel, .passageExcess]
    let ended : List AlarmKind := [.closeTimeout, .openTooLong]
    (asks = true → (∀ r ∈ (noticed n s).alu, r.st = .activeAcked ∨ r.kind ∈ derived) ∧
      ∀ r ∈ x.alu, r.st ≠ .clearedUnacked → r.kind ∉ derived ++ ended → { r with st := .activeAcked } ∈ (noticed n s).alu) ∧
    (asks = false → ∀ r ∈ x.alu, r.kind ∉ derived ++ ended → r ∈ (noticed n s).alu) := by
  intro derived ended
  have others : ∀ r : AlarmRecord, r.kind ∉ derived ++ ended → r ∈ s.alu → r ∈ (noticed n s).alu := by
    intro r hr hs
    have names : ∀ q, q ∈ noticeRequests ∨ q ∈ derivedRequests → ∃ k, q.kind = some k ∧ r.kind ≠ k := fun q hq => by
      obtain ⟨k, hk, mem⟩ := kind_of_notice hq
      exact ⟨k, hk, fun h => hr (h ▸ mem)⟩
    exact (outlasts_mem fun q hq => names q (.inl hq)).giveNotice n ((outlasts_mem fun q hq => names q (.inr hq)).derive hs)
  refine ⟨fun ha => ⟨?_, fun r hr hst hk => others _ hk ?_⟩, fun ha r hr hk => others r hk ?_⟩
  · have start : ∀ r ∈ s.alu, r.st = .activeAcked ∨ r.kind ∈ derived := fun r hr => by
      rw [alu, if_pos ha, applyRequest_acknowledge] at hr
      obtain ⟨y, -, rfl⟩ := List.mem_map.mp hr
      exact .inl rfl
    have keeps : ∀ q, q ∈ noticeRequests ∨ q ∈ derivedRequests → ∀ l : List AlarmRecord,
        (∀ r ∈ l, r.st = .activeAcked ∨ r.kind ∈ derived) → ∀ r ∈ applyRequest q l, r.st = .activeAcked ∨ r.kind ∈ derived := by
      intro q hq l hl r hr
      have conditions : (∃ k ∈ derived, q = .becameTrue k) ∨ ∃ k, q = .becameFalse k := by
        simp only [noticeRequests, derivedRequests, List.mem_cons, List.not_mem_nil, or_false] at hq
        rcases hq with (rfl | rfl | rfl | rfl | rfl | rfl | rfl) | rfl | rfl | rfl | rfl | rfl | rfl <;> simp [derived]
      rcases conditions with ⟨k, hk, rfl⟩ | ⟨k, rfl⟩
      · exact (mem_becameTrue hr).elim (hl r) fun h => .inr (h ▸ hk)
      · rcases mem_becameFalse hr with h | ⟨y, hy, kind, st⟩
        · exact hl r h
        · exact (hl y hy).elim (fun h => absurd (st.symm.trans h) (by simp)) fun h => .inr (kind ▸ h)
    exact Outlasts.giveNotice (fun q hq => keeps q (.inl hq)) n (Outlasts.derive (fun q hq => keeps q (.inr hq)) start)
  · rw [alu, if_pos ha, applyRequest_acknowledge]
    exact List.mem_map.mpr ⟨r, List.mem_filter.mpr ⟨hr, by simpa using hst⟩, rfl⟩
  · rw [alu, if_neg (by simp [ha])]
    exact hr

theorem asksAck_eq (old : Option Entry) (tg : Telegram) : asksAck old tg = (tg.cls == .demand &&
    (old.filter (·.live)).any (fun e => e.panel.any (fun h => h.base != (decodeDemand tg.payload).ack))) := by
  cases old with
  | none => rfl
  | some e => cases live : e.live <;> simp [asksAck, Option.filter, live]

/-- An edge of a derivation, in the list (R112 to R114). -/
theorem edge_of_stands {k : AlarmKind} {before after : Bool} {l : List AlarmRecord} (h : before ≠ after → Stands k after l) :
    (before = false → after = true → ∃ r ∈ l, r.kind = k ∧ r.st.active = true) ∧
      (before = true → after = false → ∀ r ∈ l, r.kind = k → r.st.active = false) := by
  refine ⟨fun b a => ?_, fun b a => ?_⟩
  · subst b a
    exact h (by simp)
  · subst b a
    exact h (by simp)

/-- Settles O28: the accepted entry (`acceptedEntry_items`) enters the table, is derived and noticed. -/
theorem telegramIsAccepted : Obligations.TelegramIsAccepted := by
  intro s tg rest runs hq other
  have kindEq := telegramKind_eq tg
  refine fun newer => ?_
  obtain ⟨x, hx⟩ : ∃ x, x = s.dequeued rest := ⟨_, rfl⟩
  have stands : entryOf x tg.origin = entryOf s tg.origin := by rw [hx]; rfl
  have newer' : ∀ e, (entryOf x tg.origin).filter (·.live) = some e → e.kind = telegramKind tg ∧ ∀ last, e.serial tg.cls = some last →
      1 ≤ (tg.serial - last).toNat ∧ (tg.serial - last).toNat ≤ 127 := by
    rw [kindEq, stands]
    exact newer
  have taken := exec_accepts runs hq other (stands ▸ newer')
  obtain ⟨bk, bA, bB, bD, bS, bI, bp, bd, bi⟩ := baseEntry_items fun e he => (newer' e he).1
  obtain ⟨ek, el, ea, eA, eB, eD, eS, eI, ep, ed, ei, es⟩ := acceptedEntry_items x.staleMs (entryOf x tg.origin) tg
  have num := acceptedEntry_num (s := x) x.staleMs tg
  obtain ⟨suc, rxq, dcu, trm, psu, ste, alu, pnu⟩ := entered_keeps tg x
  obtain ⟨e, he⟩ : ∃ e, e = acceptedEntry x.staleMs (entryOf x tg.origin) tg := ⟨_, rfl⟩
  obtain ⟨y, hy⟩ : ∃ y, y = x.entered tg := ⟨_, rfl⟩
  obtain ⟨n, hn⟩ : ∃ n, n = noticeOf (entryOf x tg.origin) e (some tg.cls) := ⟨_, rfl⟩
  have state : exec .telegramTaken s = .next (noticed n y) := by
    rw [taken, hy, hn, he, hx]
    rfl
  rw [← he] at ek el ea eA eB eD eS eI ep ed ei es num ste
  rw [bk] at ek
  rw [bA] at eA
  rw [bB] at eB
  rw [bD] at eD
  rw [bS] at eS
  rw [bI] at eI
  rw [bp] at ep
  rw [bd] at ed
  rw [bi] at ei
  rw [stands] at eA eB eD eS eI ep ed ei hn alu
  rw [← hy] at suc rxq dcu trm psu ste alu pnu
  have runsy : y.doorRuns = s.doorRuns ∧ y.panelRuns = s.panelRuns := by simp [State.doorRuns, State.panelRuns, State.conf, suc, hx, State.dequeued]
  obtain ⟨found, others⟩ := entryOf_put (s := s) (t := noticed n y) (e := e) (by rw [noticed_ste, derive_table, ste, hx]; rfl)
  have foundy : entryOf y tg.origin = some e := by
    rw [← num]
    exact (entryOf_put (s := x) (t := y) (by rw [ste])).1
  obtain ⟨⟨kinds, dups, lates, mismatch⟩, derived, same⟩ := noticed_derived n y
  obtain ⟨em, ep'⟩ := noticed_edges n y
  have steSame : y.ste.mismatch = s.ste.mismatch ∧ y.ste.lost = s.ste.lost ∧ y.ste.degraded = s.ste.degraded := by
    rw [ste, hx]
    exact ⟨rfl, rfl, rfl⟩
  refine ⟨noticed n y, e, state, num ▸ found, num, ek.trans kindEq, el, ea, eA, eB, eD, eS, eI, ?_, ?_, ?_, ?_, num ▸ others, ?_,
    kinds.trans (by rw [ste, hx]; rfl), dups.trans (by rw [ste, hx]; rfl), lates.trans (by rw [ste, hx]; rfl), mismatch, fun hp => ?_, fun hp => ?_, ?_,
    fun hd => ?_, noticed_hands n ?_⟩
  · rw [kindEq] at ep
    exact ep
  · rw [kindEq] at ed
    exact ed
  · rw [kindEq] at ei
    exact ei
  · rw [es, hx]
    rfl
  · have : (noticed n y).rxq = y.rxq := by simp [noticed]
    rw [this, rxq, hx]
    rfl
  · rw [← runsy.2] at hp
    exact ⟨(derived hp).1, (derived hp).2, (noticed_panel hp).1⟩
  · have off := panelRuns_not_doorRuns hp
    rw [← runsy.2] at hp
    obtain ⟨-, seen, conflict, cleared⟩ := noticed_panel (n := n) hp
    have numn : n.num = tg.origin := by rw [hn]; exact num
    have pnuy : y.pnu = s.pnu := (pnu (by rw [hx]; exact off)).trans (by rw [hx]; rfl)
    have concerns : (n.ofPanel = true) = (e.kind = .panel ∨ ∃ o, entryOf s tg.origin = some o ∧ o.kind = .panel) := by
      rw [hn]
      cases entryOf s tg.origin <;> simp [Notice.ofPanel, noticeOf, or_comm]
    rw [numn, foundy, Option.map_some, Option.getD_some, unackedNow_eq] at seen
    simp only [concerns] at conflict
    rw [pnuy] at seen conflict cleared
    exact ⟨seen, conflict, cleared⟩
  · have asks : (asksAck (entryOf s tg.origin) tg && x.doorRuns) = (s.doorRuns && (tg.cls == .demand &&
        ((entryOf s tg.origin).filter (·.live)).any (fun e => e.panel.any (fun h => h.base != (decodeDemand tg.payload).ack)))) := by
      rw [asksAck_eq, Bool.and_comm, hx]
      rfl
    rw [asks] at alu
    obtain ⟨acked, kept⟩ := noticed_alarms n y s _ (alu.trans (by rw [hx]; rfl))
    refine ⟨acked, kept, edge_of_stands fun h => ?_, fun hp => ⟨edge_of_stands fun h => ?_, edge_of_stands fun h => ?_⟩⟩
    · rw [mismatch, same.1] at h ⊢
      exact em (by rw [steSame.1]; exact h)
    · rw [← runsy.2] at hp
      rw [(derived hp).1, same.2.1] at h ⊢
      exact (ep' hp).1 (by rw [steSame.2.1]; exact h)
    · rw [← runsy.2] at hp
      rw [(derived hp).2, same.2.2] at h ⊢
      exact (ep' hp).2 (by rw [steSame.2.2]; exact h)
  · have := noticed_door (n := n) (runsy.1.trans hd)
    exact ⟨this.dcu.trans (dcu.trans (by rw [hx]; rfl)), this.trm.trans (trm.trans (by rw [hx]; rfl)), this.psu.trans (psu.trans (by rw [hx]; rfl))⟩
  · have put : TableHands s (setEntry e x) := by
      rw [hx]
      exact (TableHands.same s).own _ _ s.pnu.summaries s.pnu.lastSeen s.pnu.conflict
    rw [hy, State.entered, ← he]
    exact Carried.ite (P := TableHands s) (put.next (alarm_hands _ _)) put

end Sys2Proof.Machine
end

