-- ==== Sys2Proof/Proofs/Silence.lean ====
section
/-! SUPPORT and PROOFS. SILENCE and LAMP_TEST, and the alarms that end a silence (R163 to R165). -/

namespace Sys2Proof.Machine

/-! ### New alarms -/

/-- A condition that becomes true without an active record of its kind leaves an unacknowledged one (R83, R85). -/
theorem becameTrue_unacked {k : AlarmKind} {l : List AlarmRecord} (h : ∀ r ∈ l, r.kind = k → r.st.active = false) :
    unackedSet (applyRequest (.becameTrue k) l) ≠ 0 := by
  have stands : ∃ r ∈ applyRequest (.becameTrue k) l, r.kind = k ∧ r.st = .activeUnacked := by
    by_cases present : hasKind k l = true
    · obtain ⟨r, hr, hk⟩ : ∃ r ∈ l, r.kind = k := by simpa [hasKind] using present
      have st : r.st = .clearedUnacked := by
        have := h r hr hk
        cases hs : r.st <;> simp_all [AlarmState.active]
      rw [applyRequest, if_pos present]
      exact ⟨_, List.mem_map_of_mem hr, by simp [hk, st], by simp [hk, st]⟩
    · rw [applyRequest, if_neg present]
      exact ⟨⟨k, .activeUnacked, 1, 0, 0⟩, by simp, rfl, rfl⟩
  obtain ⟨r, hr, -, st⟩ := stands
  intro none
  have empty := List.any_eq_false.mp ((setOf_eq_zero (fun r => r.st.unacked) _).mp none) r hr
  simp [st, AlarmState.unacked] at empty

/-- PSND sounds while an unacknowledged alarm exists and no silence lasts (R164, R165). -/
theorem sounds_aloud {x : State} (alarmed : alarmExists x = true) (silence : x.pnu.silence = false) :
    (repaint (sound x)).pnu.silence = false ∧ (repaint (sound x)).pnu.psnd = true := by
  simp [repaint, sound, alarmed, silence]

theorem newAlarm_sounds {k : AlarmKind} {s : State} (on : s.panelRuns = true) (h : ∀ r ∈ s.alu, r.kind = k → r.st.active = false) :
    (alarm (.becameTrue k) s).pnu.silence = false ∧ (alarm (.becameTrue k) s).pnu.psnd = true := by
  have new : newAlarm (.becameTrue k) s.alu = true := by
    simp only [newAlarm, Bool.not_eq_true', List.any_eq_false, Bool.and_eq_true, beq_iff_eq, not_and]
    exact fun r hr hk => by simp [h r hr hk]
  rw [alarm_panel on, if_pos (.inl (newAlarm_changes new)), if_pos new]
  refine sounds_aloud ?_ rfl
  have own : unackedSet (endSilence { s with alu := applyRequest (.becameTrue k) s.alu }).alu ≠ 0 := becameTrue_unacked h
  rw [alarmExists, Bool.or_eq_true]
  exact .inl (by simpa using own)

/-- An alarm request ends a silence or leaves it (R165). -/
theorem alarm_loud {q : AlarmRequest} {s : State} (on : s.panelRuns = true) (h : s.pnu.silence = false) :
    (alarm q s).pnu.silence = false := by
  rw [alarm_panel on]
  split
  · split <;> simp [repaint, sound, endSilence, h]
  · exact h

/-- A kind that the set last seen from a door did not hold ends a silence and sounds PSND (R164, R165). -/
theorem panelNotice_sounds {n : Notice} {s : State} {e : Entry} (on : s.panelRuns = true) (he : entryOf s n.num = some e)
    (new : gains e.unackedNow (s.pnu.lastSeen.getD (n.num - 1) 0) = true) :
    (panelNotice n s).pnu.silence = false ∧ (panelNotice n s).pnu.psnd = true := by
  obtain ⟨y, hy⟩ : ∃ y, y = seeAlarms n.num (summarise s) := ⟨_, rfl⟩
  have quiet : y.pnu.silence = false := by
    have stands : entryOf (summarise s) n.num = some e := he
    rw [hy, seeAlarms, stands]
    simp only [Option.map_some, Option.getD_some]
    rw [if_pos (show gains e.unackedNow ((summarise s).pnu.lastSeen.getD (n.num - 1) 0) = true from new)]
    rfl
  have keeps : y.suc = s.suc ∧ y.ste = s.ste := by rw [hy]; simp
  have ony : y.panelRuns = true := by simpa [State.panelRuns, State.conf, keeps.1] using on
  have loud : ∀ x : State, x = (if n.ofPanel then judgeConflict y else y) → x.pnu.silence = false ∧ x.ste = s.ste := by
    rintro x rfl
    split
    · refine ⟨?_, by simp [keeps.2]⟩
      rw [judgeConflict_eq]
      split
      · exact alarm_loud (s := { y with pnu := { y.pnu with conflict := judgedConflict y } }) ony quiet
      · exact quiet
    · exact ⟨quiet, keeps.2⟩
  obtain ⟨silence, ste⟩ := loud _ rfl
  simp only [panelNotice, ← hy]
  refine sounds_aloud ?_ silence
  have some : e.unackedNow ≠ 0 := fun h => by simp [gains, h] at new
  rw [alarmExists, ste, Bool.or_eq_true]
  exact .inr (List.any_eq_true.mpr ⟨e, entryOf_mem he, by simpa using some⟩)

theorem noticed_sounds {n : Notice} {s : State} {e : Entry} (on : s.panelRuns = true) (he : entryOf s n.num = some e)
    (new : gains e.unackedNow (s.pnu.lastSeen.getD (n.num - 1) 0) = true) :
    (noticed n s).pnu.silence = false ∧ (noticed n s).pnu.psnd = true := by
  have on' : (derive s).panelRuns = true := (derive_suc_runs s).1.trans on
  have given : noticed n s = setOuts (panelNotice n (derive s)) := by
    rw [noticed, giveNotice, if_neg (by simp [panelRuns_not_doorRuns on']), if_pos on']
  rw [given]
  exact panelNotice_sounds on' (by simpa [entryOf] using he) (by rw [(derive_pnu s).1]; exact new)

theorem gains_of_bit {new old : BitVec 16} {i : Nat} (hi : i < 16) (h : new.getLsbD i = true) (k : old.getLsbD i = false) :
    gains new old = true := by
  have bit : (new &&& ~~~old).getLsbD i = true := by
    rw [BitVec.getLsbD_and, BitVec.getLsbD_not, h, k]
    simp [hi]
  simp only [gains, bne_iff_ne, ne_eq]
  intro none
  simp [none] at bit

/-! ### The keys -/

/-- Settles O43: SILENCE needs PSND on; LAMP_TEST is judged by the lockout; new alarms sound (`newAlarm_sounds`,
`panelNotice_sounds`). -/
theorem silenceAndLampTestKeys : Obligations.SilenceAndLampTestKeys := by
  intro s on running
  have hon : s.panelOn = true := by simp [State.panelOn, on, running]
  refine ⟨fun hopen => ⟨fun psnd alarmed => ?_, fun psnd => ?_⟩, fun hopen => ?_, fun hmade => ?_, fun test => ?_, fun test => ?_,
    fun mains off => ?_, fun tg rest i hq cls other newer hi new old => ?_⟩
  · obtain ⟨p, hp⟩ : ∃ p : Pnu, p = { s.pnu with
        keys := s.pnu.keys ||| (1#20 <<< 18), scans := s.pnu.scans.set 18 0, heldKeys := s.pnu.heldKeys.set 18 (.running 0) } := ⟨_, rfl⟩
    obtain ⟨z, hz⟩ : ∃ z, z = sound { s with pnu := { p with silence := true } } := ⟨_, rfl⟩
    have sounded : z = { s with pnu := { p with silence := true, psnd := false } } := by
      have alarmed' : alarmExists { s with pnu := { p with silence := true } } = true := alarmed
      rw [hz, sound, alarmed']
      rfl
    have patterns : lampPatterns (repaint z) = lampPatterns z := rfl
    refine ⟨repaint z, ?_, ?_, ?_⟩
    · have run : exec .silencePress s = press silenceKey silenceNow s := rfl
      have still : p.psnd = true := by rw [hp]; exact psnd
      rw [run, press_open (k := silenceKey) hon hopen, change_momentary (k := silenceKey) rfl, show silenceKey = 18 from rfl, ← hp, silenceNow, if_pos still, hz]
    · rw [patterns, repaint, sounded, hp]
    · have lamp := lampPatterns_at z (i := 259) (by decide)
      have lit : lampPattern z 259 = .steady := by simp [lampPattern, sounded]
      rw [show (repaint z).pnu.patterns = lampPatterns z from rfl, List.getD_eq_getElem?_getD, lamp, lit]
      rfl
  · have run : exec .silencePress s = press silenceKey silenceNow s := rfl
    rw [run, press_open (k := silenceKey) hon hopen, change_momentary (k := silenceKey) rfl, silenceNow, if_neg (by simp [psnd])]
    rfl
  · have run : exec .lampTestPress s = execLampTestPress s := rfl
    rw [run, execLampTestPress, press_open (k := lampTestKey) hon hopen, change_momentary (k := lampTestKey) rfl]
    rfl
  · have run : exec .lampTestRelease s = execLampTestRelease s := rfl
    rw [run, execLampTestRelease, if_pos (by simp [hon, Pnu.made, lampTestKey, hmade]), releaseKey_eq rfl]
    obtain ⟨alu, door, outs, hands⟩ := alarm_asked (s.pnu.heldKeys.any (·.isPast) && !(s.pnu.heldKeys.set 19 .stopped).any (·.isPast))
      (.becameFalse .keyStuck) { s with pnu := { s.pnu with
        keys := s.pnu.keys &&& ~~~(1#20 <<< 19), scans := s.pnu.scans.set 19 0, heldKeys := s.pnu.heldKeys.set 19 .stopped,
        lampTest := none, lockout := false } }
    exact ⟨_, rfl, alu, ⟨door.dcu, door.trm, door.psu⟩, outs, hands⟩
  · simp [exec, execLampTestTimeout, test]
  · simp [exec, execLampTestTimeout, test]
  · obtain ⟨runs, -⟩ : s.suc.startUp.running = true ∧ s.conf.role = .panel := by simpa [State.panelRuns] using on
    have on' : (setDebounced .mains false s).panelRuns = true := by simpa [State.panelRuns, State.conf] using on
    have sounds := newAlarm_sounds (k := .mainsLoss) on' (by simpa using off)
    refine ⟨setOuts (pumpActs (alarm (.becameTrue .mainsLoss) (setDebounced .mains false s))), ?_, sounds⟩
    have run : exec (.mainsDebouncedChange false) s = execMainsDebouncedChange false s := rfl
    rw [run, execMainsDebouncedChange, if_neg (by simp [mains])]
    simp only [runs, if_true]
    rfl
  · obtain ⟨runs, -⟩ : s.suc.startUp.running = true ∧ s.conf.role = .panel := by simpa [State.panelRuns] using on
    have off := panelRuns_not_doorRuns on
    have kind : telegramKind tg = .door := by rw [telegramKind, cls]
    refine ⟨_, exec_accepts runs hq other (fun e he => ?_), ?_⟩
    · obtain ⟨found, live⟩ := Option.filter_eq_some_iff.mp he
      rw [kind, cls]
      exact newer e found live
    · obtain ⟨x, hx⟩ : ∃ x, x = s.dequeued rest := ⟨_, rfl⟩
      have num := acceptedEntry_num (s := x) x.staleMs tg
      obtain ⟨suc, -, -, -, -, ste, -, pnu⟩ := entered_keeps tg x
      have base := baseEntry_items (old := entryOf x tg.origin) (tg := tg) fun e he => by
        obtain ⟨found, live⟩ := Option.filter_eq_some_iff.mp he
        rw [hx] at found
        exact (newer e found live).1.trans kind.symm
      obtain ⟨ek, -, -, -, -, -, -, -, -, ed, -, -⟩ := acceptedEntry_items x.staleMs (entryOf x tg.origin) tg
      have found : entryOf (x.entered tg) tg.origin = some (acceptedEntry x.staleMs (entryOf x tg.origin) tg) := by
        have := (entryOf_put (s := x) (t := x.entered tg) (by rw [ste])).1
        rwa [num] at this
      have unacked : (acceptedEntry x.staleMs (entryOf x tg.origin) tg).unackedNow = (decodeState tg.payload).unacked := by
        rw [unackedNow_eq, ek, base.1, kind, ed, cls]
        rfl
      have seen : (x.entered tg).pnu = s.pnu := (pnu (by rw [hx]; exact off)).trans (by rw [hx]; rfl)
      have numx : (acceptedNotice s tg).num = tg.origin := by rw [hx] at num; exact num
      rw [← hx]
      refine noticed_sounds (e := acceptedEntry x.staleMs (entryOf x tg.origin) tg) ?_ (by rw [numx]; exact found) ?_
      · rw [State.panelRuns, State.conf, suc, hx]
        exact on
      · rw [numx, unacked, seen]
        exact gains_of_bit hi new old

end Sys2Proof.Machine
end

