-- ==== Sys2Proof/Proofs/Starting.lean ====
section
/-! SUPPORT and PROOFS. The passages to LISTEN and JOINED (R153, R154, R173). -/

namespace Sys2Proof.Machine

/-! ### The accepted image -/

/-- The part in LISTEN with an accepted image, before the blocks of its role start (R171, R173). -/
def State.configured (image : List Byte) (n : Nat) (s : State) : State :=
  enterListen (configOf image) { s with suc := { s.suc with image := image, bus := wholeRead image, clamps := n, refused := none } }

theorem exec_configured {image : List Byte} {keys : BitVec 32} {n : Nat} {s : State} (whole : image.length = 128)
    (check : imageCheck image = wordOf (byteAt image 126) (byteAt image 127)) (judged : judgeFields image = (n, none))
    (loading : s.suc.startUp = .loading) (wait : s.suc.retryWait = none) :
    exec (.configReadDone image keys) s = .next (setOuts (startBlocks keys (s.configured image n))) := by
  have reads : s.reads = true := by simp [State.reads, loading, wait]
  have stored : imageCheck image = storedCheck image := check
  have run : exec (.configReadDone image keys) s = execConfigReadDone image keys s := rfl
  rw [run, execConfigReadDone, if_pos (by simp [reads, whole])]
  simp only [stored, ne_eq, not_true_eq_false, if_false, judged]
  rfl

@[simp] theorem configured_conf (image : List Byte) (n : Nat) (s : State) : (s.configured image n).conf = configOf image := rfl

/-! ### The panel -/

/-- The panel unit with the key levels loaded and nothing yet in the table (R153, R154, R157). -/
def Pnu.loaded (keys : BitVec 32) (p : Pnu) : Pnu :=
  { p with
    running := true
    keys := keys.setWidth 20
    scans := List.replicate 20 0
    contacts := keys
    scanTimer := 0
    heldKeys := (List.range 20).map (fun p => if p ≠ 16 ∧ keys.getLsbD p = true then .running 0 else .stopped)
    mode := if keys.getLsbD 16 then .doorsClosed else .localControl
    summaries := List.replicate 17 ⟨true, false, false, false, false, false, false⟩ }

/-- A panel that starts with an empty table and no alarm is silent (R153, R157, R164). -/
theorem startPnu_eq {keys : BitVec 32} {s : State} (alu : s.alu = []) (table : s.ste.table = []) (silence : s.pnu.silence = false) :
    startPnu keys s = { s with pnu := { s.pnu.loaded keys with patterns := (startPnu keys s).pnu.patterns, psnd := false } } := by
  have keysHeld : (List.range 20).map (fun p => if momentary p && keys.getLsbD p then Watch.running 0 else .stopped) =
      (List.range 20).map (fun p => if p ≠ 16 ∧ keys.getLsbD p = true then .running 0 else .stopped) := by
    refine List.map_congr_left fun p hp => ?_
    have : p < 20 := List.mem_range.mp hp
    simp [momentary, this]
  have summaries : summariesOf s.ste.table = List.replicate 17 ⟨true, false, false, false, false, false, false⟩ := by
    rw [table]
    decide
  obtain ⟨x, hx⟩ : ∃ x, x = { s with pnu := s.pnu.loaded keys } := ⟨_, rfl⟩
  have starts : startPnu keys s = sound (repaint x) := by
    rw [startPnu, summarise, hx, Pnu.loaded, keysHeld, ← summaries]
    rfl
  have quiet : alarmExists (repaint x) = false := by
    rw [hx]
    simp [alarmExists, repaint, alu, table, unackedSet, setOf]
  have silent : s.pnu.loaded keys = { s.pnu.loaded keys with silence := false } := by simp only [Pnu.loaded, silence]
  rw [starts, sound, quiet, Bool.and_false, hx, silent]
  rfl

/-- An open mains raises the panel's first alarm, which sounds (R63, R164). -/
theorem startMains_panel {s : State} (on : s.panelRuns = true) (alu : s.alu = []) (silence : s.pnu.silence = false)
    (psnd : s.pnu.psnd = false) : startMains s = { s with
      alu := if s.deb.mains then [] else [⟨.mainsLoss, .activeUnacked, 1, 0, 0⟩]
      pnu := { s.pnu with patterns := (startMains s).pnu.patterns, psnd := !s.deb.mains } } := by
  cases mains : s.deb.mains with
  | true =>
    have rests : startMains s = s := by simp [startMains, mains]
    rw [rests]
    simp only [if_true, Bool.not_true, ← alu, ← psnd]
  | false =>
    have acts : startMains s = alarm (.becameTrue .mainsLoss) s := by simp [startMains, mains]
    have new : newAlarm (.becameTrue .mainsLoss) s.alu = true := by rw [alu]; rfl
    have list : applyRequest (.becameTrue .mainsLoss) s.alu = [⟨.mainsLoss, .activeUnacked, 1, 0, 0⟩] := by rw [alu]; rfl
    have loud := newAlarm_sounds on (k := .mainsLoss) (by simp [alu])
    rw [acts]
    have eq := alarm_panel (q := .becameTrue .mainsLoss) on
    rw [if_pos (.inl (newAlarm_changes new)), if_pos new, list] at eq
    rw [eq] at loud ⊢
    obtain ⟨y, hy⟩ : ∃ y, y = repaint (sound (endSilence { s with alu := [⟨.mainsLoss, .activeUnacked, 1, 0, 0⟩] })) := ⟨_, rfl⟩
    have sounded : y = { s with
        alu := [⟨.mainsLoss, .activeUnacked, 1, 0, 0⟩]
        pnu := { s.pnu with silence := y.pnu.silence, psnd := y.pnu.psnd, patterns := y.pnu.patterns } } := by
      rw [hy]
      rfl
    rw [← hy] at loud ⊢
    rw [loud.1, loud.2, ← silence] at sounded
    exact sounded

/-- Settles O5: a panel starts silent (`startPnu_eq`), and an open mains sounds (`startMains_panel`). -/
theorem acceptedPanelImageStartsThePanel : Obligations.AcceptedPanelImageStartsThePanel := by
  intro image keys n s whole check judged role loading wait alu ste silence
  obtain ⟨x, hx⟩ : ∃ x : State, x = { s.configured image n with
    settle := { s.settle with cla := none, clb := none, olm := none } } := ⟨_, rfl⟩
  have on : x.panelRuns = true := by
    rw [hx]
    simp [State.panelRuns, State.configured, enterListen, State.conf, StartUp.running, role]
  have starts : startBlocks keys (s.configured image n) = startMains (startPnu keys x) := by
    simp only [startBlocks, configured_conf, role, hx]
    rfl
  have pnu : x.pnu = s.pnu := by rw [hx]; rfl
  have mains : x.deb.mains = s.deb.mains := by rw [hx]; rfl
  have loaded := startPnu_eq (keys := keys) (s := x) (by rw [hx]; exact alu) (by rw [hx]; exact congrArg Ste.table ste) (by rw [pnu]; exact silence)
  have shows : PanelShows (startMains (startPnu keys x)) := PanelShows.carried.startMains (startPnu_shows keys on (by rw [pnu]; exact silence))
  obtain ⟨z, hz⟩ : ∃ z, z = startPnu keys x := ⟨_, rfl⟩
  rw [← hz] at loaded shows starts
  have onz : z.panelRuns = true := by rw [loaded]; exact on
  have begun := startMains_panel onz (by rw [loaded, hx]; exact alu) (by rw [loaded, pnu]; exact silence) (by rw [loaded])
  obtain ⟨t, ht⟩ : ∃ t, t = startMains z := ⟨_, rfl⟩
  rw [← ht] at begun shows starts
  have painted := ((panelShows_iff _).mp shows).2 (by rw [begun]; exact onz)
  have zmains : z.deb.mains = s.deb.mains := by rw [loaded, mains]
  have state : t = { x with
      alu := if s.deb.mains then [] else [⟨.mainsLoss, .activeUnacked, 1, 0, 0⟩]
      pnu := { s.pnu.loaded keys with patterns := t.pnu.patterns, psnd := !s.deb.mains } } := by
    rw [begun, zmains, loaded, pnu]
  refine ⟨setOuts t, by rw [exec_configured whole check judged loading wait, starts], ?_⟩
  rw [painted] at state
  obtain ⟨p, hp⟩ : ∃ p, p = lampPatterns t := ⟨_, rfl⟩
  rw [← hp] at state
  have patterns : lampPatterns (setOuts t) = p := by rw [hp]; rfl
  refine ⟨?_, fun id => ?_, ?_, ?_, ?_, ?_, ?_, ?_, ?_, rfl, ?_, ?_, ?_, ?_, ?_, ?_, ?_, ?_⟩
  case refine_3 =>
    rw [patterns, show (setOuts t).pnu = t.pnu from rfl, state]
    rfl
  case refine_2 =>
    cases id <;> (rw [state, hx]; rfl)
  all_goals (rw [state, hx]; rfl)

/-! ### The door -/

/-- What is handed on after a change of control state does not ask what else had changed before (R31, R80). -/
theorem report_of_moved {b b' s : State} (ctl : b'.dcu.ctl = b.dcu.ctl) (phase : b'.psu.phase = b.psu.phase)
    (ne : s.dcu.ctl ≠ b.dcu.ctl) : report b' s = report b s := by
  have differs : reportDiffers b.dcu s.dcu = true ∧ reportDiffers b'.dcu s.dcu = true := by
    simp [reportDiffers, ctl, Ne.symm ne]
  simp only [report, differs.1, differs.2, phase, ctl]

/-- The matching idle state with everything that stands there: a close lever first (R3, R10). -/
theorem toMatching_shifted {s : State} (vcl : s.dcu.vcl = false) (vop : s.dcu.vop = false) (nc : s.dcu.ctl ≠ .closing)
    (ne : s.rest.ctl ≠ s.dcu.ctl) : Shifted s (if lcHeld s = true ∧ s.trm.pos ≠ .closed then
      s.dcu.enter .closing .lever s.dcu.wcause none .stopped else s.rest) (toMatching s) := by
  split
  · rename_i h
    have rule : toMatching s = toClosing .lever (toIdle (idleFor s.trm.pos) s) := by
      rw [toMatching, idleRules_closes (by simp [isIdle_idleFor]) (by simpa using h.1) (by simpa using h.2)]
    rw [rule]
    have moved := toClosing_shifted .lever (toIdle (idleFor s.trm.pos) s)
    rw [toIdle_wcause] at moved
    exact (toIdle_shifted _ s).over_idle moved (isIdle_idleFor _) nc.symm (by simp [vcl]) (by simp)
  · rename_i h
    exact (toMatching_settles (by by_cases lc : lcHeld s = true <;> simp_all)).shifted ne vop

/-- A door before its control unit starts: the monitor and the energy unit run, MAINS_LOSS is raised where the mains is open (R32, R52, R63). -/
def State.doorReady (s : State) : State := startMains (startEnu (startTrm { s with pnu := Pnu.reset }))

theorem startDoor_eq {keys : BitVec 32} {s : State} (role : s.conf.role = .door) : startBlocks keys s = startDcu s.doorReady := by
  simp only [startBlocks, role]
  rfl

/-- The door's blocks as they start, from their values after reset. -/
theorem doorReady_blocks {s : State} (runs : s.doorRuns = true) (outside : s.suc.startUp ≠ .joined) (trm : s.trm = { Trm.reset with pos := positionOf s.deb })
    (enu : s.enu = Enu.reset) (alu : s.alu = []) :
    s.doorReady.suc = s.suc ∧ s.doorReady.dcu = s.dcu ∧ s.doorReady.psu = s.psu ∧ s.doorReady.enu = { Enu.reset with running := true, gate := some 0 } ∧
    s.doorReady.trm = ({ s.trm with
      running := true
      count := if positionOf s.deb = .opened then (s.conf.travelCount : Int) else 0
      ref := positionOf s.deb == .closed || positionOf s.deb == .opened
      discord := if s.deb.cla = s.deb.clb then .stopped else .running 0
      conflict := if positionOf s.deb = .unknown then .running 0 else .stopped
      arming := some 0 } : Trm).slowed s.conf ∧
    s.doorReady.alu = (if s.deb.mains then [] else [⟨.mainsLoss, .activeUnacked, 1, 0, 0⟩]) ∧
    s.doorReady.pnu = Pnu.reset ∧ s.doorReady.snu = s.snu ∧ s.doorReady.laneA = s.laneA ∧ s.doorReady.laneB = s.laneB ∧
    s.doorReady.lead = s.lead ∧ s.doorReady.deb = s.deb ∧ s.doorReady.settle = s.settle ∧ s.doorReady.flash = s.flash ∧
    s.doorReady.ste = s.ste ∧ s.doorReady.rxq = s.rxq ∧ s.doorReady.dgp = s.dgp ∧ s.doorReady.pending = s.pending := by
  obtain ⟨y, hy⟩ : ∃ y, y = startEnu (startTrm { s with pnu := Pnu.reset }) := ⟨_, rfl⟩
  have ready : s.doorReady = startMains y := by rw [hy]; rfl
  have state : y = { s with
      pnu := Pnu.reset
      enu := { Enu.reset with running := true, gate := some 0 }
      trm := ({ s.trm with
        running := true
        count := if positionOf s.deb = .opened then (s.conf.travelCount : Int) else 0
        ref := positionOf s.deb == .closed || positionOf s.deb == .opened
        discord := if s.deb.cla = s.deb.clb then .stopped else .running 0
        conflict := if positionOf s.deb = .unknown then .running 0 else .stopped
        arming := some 0 } : Trm).slowed s.conf } := by
    have count : ∀ p : Position, (if p = .opened then (s.conf.travelCount : Int) else if p = .closed then 0 else 0) =
        if p = .opened then (s.conf.travelCount : Int) else 0 := fun p => by split <;> [rfl; exact ite_self 0]
    rw [hy, ← count, trm]
    simp only [startEnu, startTrm, enu]
    rfl
  have hands : HandsOn y (startMains y) := by
    rw [startMains]
    exact HandsOn.ite (.same y) (alarm_hands _ y)
  have silent := hands.silent (by rw [state]; exact outside)
  have runsy : y.doorRuns = true := by rw [state]; exact runs
  have list : (startMains y).alu = if y.deb.mains then [] else [⟨.mainsLoss, .activeUnacked, 1, 0, 0⟩] := by
    have none : y.alu = [] := by rw [state]; exact alu
    rw [startMains]
    split
    · exact none
    · rw [alarm_alu, none]
      rfl
  rw [ready]
  refine ⟨hands.suc.trans ?_, (startMains_keeps y).2.2.2.2.2.1.trans ?_, (startMains_keeps y).2.2.2.2.2.2.2.1.trans ?_, (startMains_enu y).trans ?_,
    (startMains_keeps y).2.2.2.2.2.2.1.trans ?_, list.trans ?_, (hands.panelOut runsy).trans ?_, silent.1.trans ?_, silent.2.1.trans ?_,
    silent.2.2.trans ?_, hands.lead.trans ?_, hands.deb.trans ?_, hands.settle.trans ?_, hands.flash.trans ?_, hands.ste.trans ?_,
    hands.rxq.trans ?_, hands.dgp.trans ?_, hands.pending.trans ?_⟩ <;> rw [state]

/-- The limit flag alone, where PASSAGE_EXCESS neither stands nor stood (R69, R80). -/
theorem setLimit_quiet {s : State} (was : s.psu.excess = false)
    (now : excessNow { s with psu := { s.psu with inForce := limitFor s.conf s.dcu.cd } } = false) :
    setLimit s = { s with psu := { s.psu with inForce := limitFor s.conf s.dcu.cd } } := by
  simp only [setLimit]
  split
  · rename_i h
    rw [h]
  · exact if_pos (now.trans was.symm)

/-- The first recomputation: the default mode, no demand, the limit flag of that CD, and no move of an INACTIVE door (R6, R69). -/
theorem rederive_starting {s : State} (table : s.ste.table = []) (dcu : s.dcu = { Dcu.reset with vclPause := s.dcu.vclPause, vopPause := s.dcu.vopPause })
    (psu : s.psu = Psu.reset) : rederive s = { s with
      dcu := { s.dcu with mode := s.conf.defaultMode, cd := s.conf.defaultMode == .doorsClosed }
      psu := { Psu.reset with inForce := limitFor s.conf (s.conf.defaultMode == .doorsClosed) } } := by
  have silent : somePanelLive s = false := by simp [somePanelLive, table]
  have unheard : s.dcu.panelHeard = false := by rw [dcu]; rfl
  have mode : modeNow s = s.conf.defaultMode := by simp [modeNow, silent, unheard]
  have demand : demandNow s = false := by simp [demandNow, silent, unheard]
  have cd : s.cdNow = (s.conf.defaultMode == .doorsClosed) := by rw [State.cdNow, mode, demand, Bool.or_false]
  have group : s.dcu.groupDemand = false := by rw [dcu]; rfl
  have ctl : s.dcu.ctl = .inactive := by rw [dcu]; rfl
  have before : s.dcu.cd = false := by rw [dcu]; rfl
  obtain ⟨x, hx⟩ : ∃ x : State, x = { s with dcu := { s.dcu with mode := s.conf.defaultMode, cd := s.conf.defaultMode == .doorsClosed } } := ⟨_, rfl⟩
  have read : s.readDemand = x := by
    have heard : s.dcu = { s.dcu with groupDemand := s.dcu.groupDemand, panelHeard := s.dcu.panelHeard } := rfl
    rw [group, unheard] at heard
    rw [State.readDemand, mode, demand, silent, cd, unheard, hx]
    exact congrArg (fun d : Dcu => { s with dcu := { d with mode := s.conf.defaultMode, cd := s.conf.defaultMode == Mode.doorsClosed } }) heard.symm
  have limited : setLimit x = { x with psu := { Psu.reset with inForce := limitFor s.conf (s.conf.defaultMode == .doorsClosed) } } := by
    have still : excessNow { x with psu := { x.psu with inForce := limitFor x.conf x.dcu.cd } } = false := by
      simp [excessNow, hx, ctl]
    rw [setLimit_quiet (by rw [hx]; exact congrArg Psu.excess psu) still, hx, psu]
    rfl
  rw [rederive_eq, cd, before, read]
  by_cases closed : s.conf.defaultMode = .doorsClosed
  · have on : x.dcu.cd = true := by rw [hx]; simp [closed]
    have busy : ∀ p : Psu, onCdChange { x with psu := p } = { x with psu := p } := fun p => by
      rw [onCdChange, if_pos on, idleRules_busy (by simp [hx, ctl, Ctl.isIdle])]
    rw [if_neg (by simp [closed]), limited, busy, hx]
  · have off : (s.conf.defaultMode == .doorsClosed) = false := by simpa using closed
    rw [if_pos off, hx, off]
    simp [limitFor, psu, Psu.reset]

/-- Where a door that starts comes to rest: with no permission yet, a standing request is refused in the matching idle state (R2, R12, R17, R24). -/
theorem starting_rest {s : State} {p q : Option Nat} {mode : Mode} {cd : Bool}
    (dcu : s.dcu = { Dcu.reset with vclPause := p, vopPause := q, mode := mode, cd := cd }) (enu : s.enu.permStart = false) :
    s.rest.ctl ≠ s.dcu.ctl ∧ (if lcHeld s = true ∧ s.trm.pos ≠ .closed then
      s.dcu.enter .closing .lever s.dcu.wcause none .stopped else s.rest) =
      if lcHeld s = true ∧ s.trm.pos ≠ .closed then { s.dcu with ctl := .closing, cause := .lever }
      else if loHeld s = true ∧ s.trm.pos ≠ .opened then { s.dcu with ctl := idleFor s.trm.pos }
      else if cd = true ∧ loHeld s = true then { s.dcu with ctl := .heldOpen, held := .running 0 }
      else if cd = true ∧ s.trm.pos ≠ .closed then { s.dcu with ctl := .warning, warnTimer := some s.conf.warningTime }
      else { s.dcu with ctl := idleFor s.trm.pos } := by
  have judged : s.judged = s.dcu.enter (idleFor s.trm.pos) .noCause s.dcu.wcause none .stopped := if_pos enu
  have lockout : s.dcu.lockout = false := by rw [dcu]; rfl
  have demanded : s.dcu.cd = cd := by rw [dcu]
  have enters : ∀ ctl, s.dcu.enter ctl .noCause s.dcu.wcause none .stopped = { s.dcu with ctl := ctl } := fun ctl => by
    rw [dcu]
    rfl
  have rest : s.rest = if loHeld s = true ∧ s.trm.pos ≠ .opened then { s.dcu with ctl := idleFor s.trm.pos }
      else if cd = true ∧ loHeld s = true then { s.dcu with ctl := .heldOpen, held := .running 0 }
      else if cd = true ∧ s.trm.pos ≠ .closed then { s.dcu with ctl := .warning, warnTimer := some s.conf.warningTime }
      else { s.dcu with ctl := idleFor s.trm.pos } := by
    rw [State.rest, judged, enters, demanded, lockout]
    by_cases asked : loHeld s = true ∧ s.trm.pos ≠ .opened
    · rw [if_pos ⟨asked.1, asked.2, rfl⟩, if_pos asked]
    · rw [if_neg (fun h => asked ⟨h.1, h.2.1⟩), if_neg asked]
      cases cd with
      | false => simp
      | true =>
        by_cases lo : loHeld s = true
        · have opened : s.trm.pos = .opened := by simpa [lo] using asked
          rw [if_neg (by simp [opened]), if_pos ⟨opened, lo⟩, if_pos ⟨rfl, lo⟩, dcu]
          rfl
        · by_cases closed : s.trm.pos = .closed
          · simp [lo, closed]
          · rw [if_neg (by simp [closed]), if_neg (fun h => lo h.2), if_neg (fun h => lo h.2), if_pos ⟨rfl, closed⟩, dcu]
            rfl
  have idle : idleFor s.trm.pos ≠ .inactive := by cases s.trm.pos <;> simp [idleFor]
  refine ⟨?_, ?_⟩
  · have inactive : s.dcu.ctl = .inactive := by rw [dcu]; rfl
    rw [rest, inactive]
    (repeat' split) <;> simp [idle]
  · rw [rest]
    refine if_congr Iff.rfl ?_ rfl
    rw [dcu]
    rfl

/-- Settles O4: the first recomputation and one move from INACTIVE (`toMatching_shifted`), handed on outside JOINED. -/
theorem acceptedDoorImageStartsTheDoor : Obligations.AcceptedDoorImageStartsTheDoor := by
  intro image keys n s whole check judged role loading wait dcu trm enu psu alu ste
  obtain ⟨x, hx⟩ : ∃ x, x = s.configured image n := ⟨_, rfl⟩
  have runsx : x.doorRuns = true := by
    rw [hx]
    simp [State.doorRuns, State.configured, enterListen, State.conf, StartUp.running, role]
  have listen : x.suc.startUp = .listen := by rw [hx]; rfl
  obtain ⟨ysuc, ydcu, ypsu, yenu, ytrm, yalu, ypnu, ysnu, yA, yB, ylead, ydeb, ysettle, yflash, yste, yrxq, ydgp, ypending⟩ :=
    doorReady_blocks (s := x) runsx (by rw [listen]; simp) (by rw [hx]; exact trm) (by rw [hx]; exact enu) (by rw [hx]; exact alu)
  obtain ⟨y, hy⟩ : ∃ y, y = x.doorReady := ⟨_, rfl⟩
  rw [← hy] at ysuc ydcu ypsu yenu ytrm yalu ypnu ysnu yA yB ylead ydeb ysettle yflash yste yrxq ydgp ypending
  have conf : y.conf = configOf image := by rw [State.conf, ysuc, hx]; rfl
  have first := rederive_starting (s := y) (by rw [yste, hx]; exact congrArg Ste.table ste) (by rw [ydcu, hx]; exact dcu) (by rw [ypsu, hx]; exact psu)
  obtain ⟨z, hz⟩ : ∃ z, z = rederive y := ⟨_, rfl⟩
  rw [← hz, conf] at first
  obtain ⟨p, q, start⟩ : ∃ p q, s.dcu = { Dcu.reset with vclPause := p, vopPause := q } := ⟨_, _, dcu⟩
  have zdcu : z.dcu = { s.dcu with mode := (configOf image).defaultMode, cd := (configOf image).defaultMode == .doorsClosed } := by
    rw [first, ydcu, hx]
    rfl
  have zpos : z.trm.pos = positionOf s.deb := by
    rw [first]
    exact (congrArg Trm.pos ytrm).trans (by rw [hx]; exact congrArg Trm.pos trm)
  have zdeb : z.deb = s.deb := by rw [first]; exact ydeb.trans (by rw [hx]; rfl)
  have zconf : z.conf = configOf image := by rw [first]; exact conf
  have zenu : z.enu = { Enu.reset with running := true, gate := some 0 } := (congrArg State.enu first).trans yenu
  have zpsu : z.psu = { Psu.reset with inForce := limitFor (configOf image) ((configOf image).defaultMode == .doorsClosed) } :=
    congrArg State.psu first
  have zalu : z.alu = _ := (congrArg State.alu first).trans yalu
  have ztrm : z.trm = _ := (congrArg State.trm first).trans ytrm
  have zste : z.ste = s.ste := (congrArg State.ste first).trans (yste.trans (by rw [hx]; rfl))
  have zsuc : z.suc = x.suc := (congrArg State.suc first).trans ysuc
  have ctl : z.dcu.ctl = .inactive ∧ z.dcu.vcl = false ∧ z.dcu.vop = false := by
    rw [zdcu, start]
    exact ⟨rfl, rfl, rfl⟩
  have shifted := toMatching_shifted ctl.2.1 ctl.2.2 (by simp [ctl.1]) (starting_rest (by rw [zdcu, start]) (by rw [zenu]; rfl)).1
  rw [(starting_rest (by rw [zdcu, start]) (by rw [zenu]; rfl)).2] at shifted
  obtain ⟨m, hm⟩ : ∃ m, m = toMatching z := ⟨_, rfl⟩
  obtain ⟨e, he⟩ : ∃ e : Dcu, e = if lcHeld z = true ∧ z.trm.pos ≠ .closed then { z.dcu with ctl := .closing, cause := .lever }
      else if loHeld z = true ∧ z.trm.pos ≠ .opened then { z.dcu with ctl := idleFor z.trm.pos }
      else if ((configOf image).defaultMode == .doorsClosed) = true ∧ loHeld z = true then { z.dcu with ctl := .heldOpen, held := .running 0 }
      else if ((configOf image).defaultMode == .doorsClosed) = true ∧ z.trm.pos ≠ .closed then
        { z.dcu with ctl := .warning, warnTimer := some z.conf.warningTime }
      else { z.dcu with ctl := idleFor z.trm.pos } := ⟨_, rfl⟩
  rw [← he, ← hm] at shifted
  have off : e.ctl ≠ .inactive ∧ e.vcl = false ∧ e.vop = false ∧ e.ctl ≠ .claiming := by
    have matching : idleFor z.trm.pos ≠ .inactive ∧ idleFor z.trm.pos ≠ .claiming := by cases z.trm.pos <;> simp [idleFor]
    rw [he]
    (repeat' split) <;> simp [ctl, matching]
  have moved := shifted.handed (by rw [ctl.1]; exact off.1)
  have acts : startDcu y = report z m := by
    have run : startDcu y = report y m := by rw [hm, hz]; rfl
    rw [run]
    exact report_of_moved (by rw [first]) (by rw [zpsu, ypsu, hx]; exact (congrArg Psu.phase psu).trans rfl)
      (by rw [shifted.dcu, ctl.1]; exact off.1)
  obtain ⟨t, ht⟩ : ∃ t, t = setOuts (report z m) := ⟨_, rfl⟩
  rw [← ht] at moved
  have excess : excessNow t = false := by
    have table : t.ste.table = [] := by rw [moved.hands.ste, zste]; exact congrArg Ste.table ste
    have limit : t.psu.inForce = true → 0 < t.conf.passageLimit := by
      have conft : t.conf = configOf image := by rw [State.conf, moved.hands.suc]; exact zconf
      rw [moved.psu, conft, zpsu]
      simp only [claimFor_inForce, limitFor, Bool.and_eq_true, decide_eq_true_eq]
      exact fun h => h.2.1
    cases hf : t.psu.inForce with
    | false => simp [excessNow, hf]
    | true =>
      have := limit hf
      simp [excessNow, hf, lowerOccupants, table]
      omega
  have silent := moved.hands.silent (by rw [zsuc, listen]; simp)
  have stayed : switchedOff e t.dcu = false := by simp [switchedOff, off.2.1, off.2.2.1]
  have runsz : z.doorRuns = true := by
    rw [State.doorRuns, State.conf, zsuc]
    exact runsx
  refine ⟨t, by rw [exec_configured whole check judged loading wait, startDoor_eq (s := s.configured image n) role, ← hx, ← hy, acts, ht],
    moved.hands.suc.trans (zsuc.trans ?_), fun id => ?_, moved.enu.trans zenu, moved.dcu.trans ?_, ?_, ?_, ?_,
    (moved.hands.panelOut runsz).trans ((congrArg State.pnu first).trans ypnu), moved.outs, ?_, ?_, ?_, ?_, moved.hands.ste.trans zste, ?_, ?_, ?_, ?_⟩
  · have bus : t.suc = x.suc := moved.hands.suc.trans zsuc
    rw [bus, hx]
    rfl
  · cases id
    · exact silent.2.1.trans ((congrArg State.laneA first).trans (yA.trans (by rw [hx]; rfl)))
    · exact silent.2.2.trans ((congrArg State.laneB first).trans (yB.trans (by rw [hx]; rfl)))
  · rw [he, zdcu, zpos, zconf, zenu]
    simp only [lcHeld, loHeld, zdeb]
    rfl
  · have valves : e.vcl = s.dcu.vcl ∧ e.vop = s.dcu.vop := by rw [off.2.1, off.2.2.1, start]; exact ⟨rfl, rfl⟩
    rw [moved.trm, ztrm, zconf, hx, Trm.driven, Trm.driven, switchedOff, switchedOff, valves.1, valves.2]
    rfl
  · rw [moved.psu, excess, ctl.1, zpsu]
    simp [claimFor, off.2.2.2, Psu.reset]
  · have none : (z.psu.excess = false) := by rw [zpsu]; rfl
    rw [moved.alu, stayed, excess, ctl.1, none, zalu, hx]
    rfl
  · exact moved.hands.lead.trans ((congrArg State.lead first).trans (ylead.trans (by rw [hx]; rfl)))
  · exact moved.hands.deb.trans zdeb
  · exact moved.hands.settle.trans ((congrArg State.settle first).trans (ysettle.trans (by rw [hx]; rfl)))
  · exact moved.hands.flash.trans ((congrArg State.flash first).trans (yflash.trans (by rw [hx]; rfl)))
  · exact silent.1.trans ((congrArg State.snu first).trans (ysnu.trans (by rw [hx]; rfl)))
  · exact moved.hands.rxq.trans ((congrArg State.rxq first).trans (yrxq.trans (by rw [hx]; rfl)))
  · exact moved.hands.dgp.trans ((congrArg State.dgp first).trans (ydgp.trans (by rw [hx]; rfl)))
  · exact moved.hands.pending.trans ((congrArg State.pending first).trans (ypending.trans (by rw [hx]; rfl)))

end Sys2Proof.Machine
end

