-- ==== Sys2Proof/Proofs/Joining.lean ====
section
/-! SUPPORT and PROOFS. The passage to JOINED with the first snapshots (R8, R9, R130, R131, R134, R173). -/

namespace Sys2Proof.Machine

/-- The part in JOINED before its first snapshots (R173). -/
def State.joins (s : State) : State := { s with suc := { s.suc with startUp := .joined, listenTimer := none } }

/-- The snapshot unit after a making of IDENT (R125, R131). -/
def identMade (s : State) (n : Snu) : Snu :=
  { n with ident :=
      { newest := some (identContent s)
        serial := if n.ident.newest.isNone then 0 else n.ident.serial + 1
        timer := some 0 } }

theorem makeIdent_eq {s : State} (hj : s.suc.startUp = .joined) : makeIdent s =
    { s with snu := identMade s s.snu, laneA := s.laneA.offered (identMade s s.snu), laneB := s.laneB.offered (identMade s s.snu) } :=
  tryBegins_eq (s := { s with snu := identMade s s.snu }) hj

/-- The part with its first snapshots made (R130, R131). -/
def State.joinedMade (s : State) : State := makeIdent (makeOwn s.joins)

theorem exec_listenTimerExpiry {s : State} (h : s.suc.startUp = .listen) :
    exec .listenTimerExpiry s = .next (setOuts (joinDoor s.joinedMade)) := by
  have run : exec .listenTimerExpiry s = execListenTimerExpiry s := rfl
  rw [run, execListenTimerExpiry, if_pos h]
  rfl

theorem joinedMade_eq (s : State) : s.joinedMade = { s.joins with
    snu := identMade s s.joins.snuMade
    laneA := (s.laneA.offered s.joins.snuMade).offered (identMade s s.joins.snuMade)
    laneB := (s.laneB.offered s.joins.snuMade).offered (identMade s s.joins.snuMade) } := by
  rw [State.joinedMade, makeOwn_eq (by rfl), makeIdent_eq (by rfl)]
  rfl

theorem Lane.offered_handed (n : Snu) (l : Lane) : LaneHanded l (l.offered n) := by
  rw [Lane.offered]
  split
  · rename_i h
    split
    · exact .inr ⟨h.1, h.2, _, rfl⟩
    · exact .inl rfl
  · exact .inl rfl

/-- A lane that has begun looks for no more work. -/
theorem begun_offered (n : Snu) (l : Lane) (c : SendCopy) : (beginTelegram l c).offered n = beginTelegram l c := by
  simp [Lane.offered, beginTelegram]

/-- The lanes at their first work: idle and quiet, with none of the own class sent, they begin it (R132, R138). -/
theorem first_work {n m : Snu} {l : Lane} {c : SendCopy} (idle : l.activity = .idle) (quiet : l.quiet = true) (work : laneWork n l = some c) :
    (l.offered n).offered m = beginTelegram l c := by
  have begun : l.offered n = beginTelegram l c := by simp [Lane.offered, idle, quiet, work]
  rw [begun, begun_offered]

/-- The first snapshots of a snapshot unit that holds none (R130, R131). -/
theorem joinedMade_snu {s : State} (reset : s.snu = Snu.reset) :
    s.joinedMade.snu.ident = ⟨some (identContent s), 0, some 0⟩ ∧
    (s.conf.role = .door → s.joinedMade.snu.state = ⟨some (doorContent s), 0, false, some 0, some 0⟩ ∧ s.joinedMade.snu.demand = s.snu.demand ∧
      ∀ id, (s.lane id).activity = .idle → (s.lane id).quiet = true → (s.lane id).sentS = none →
        s.joinedMade.lane id = beginTelegram (s.lane id) ⟨.state (doorContent s), 0⟩) ∧
    (s.conf.role = .panel → s.joinedMade.snu.demand = ⟨some (panelContent s), 0, false, some 0, some 0⟩ ∧ s.joinedMade.snu.state = s.snu.state ∧
      ∀ id, (s.lane id).activity = .idle → (s.lane id).quiet = true → (s.lane id).sentD = none →
        s.joinedMade.lane id = beginTelegram (s.lane id) ⟨.demand (panelContent s), 0⟩) := by
  have made : s.joins.snuMade = match s.conf.role with
      | .door => { Snu.reset with state := ⟨some (doorContent s), 0, false, some 0, some 0⟩ }
      | .panel => { Snu.reset with demand := ⟨some (panelContent s), 0, false, some 0, some 0⟩ } := by
    have conf : s.joins.conf = s.conf := rfl
    have snu : s.joins.snu = Snu.reset := reset
    rw [State.snuMade, conf, snu]
    cases s.conf.role <;> rfl
  have lanes : ∀ id, s.joinedMade.lane id = ((s.lane id).offered s.joins.snuMade).offered (identMade s s.joins.snuMade) := fun id => by
    rw [joinedMade_eq]
    cases id <;> rfl
  have snu : s.joinedMade.snu = identMade s s.joins.snuMade := by rw [joinedMade_eq]
  rw [snu, made, reset]
  refine ⟨?_, fun role => ⟨?_, ?_, fun id idle quiet sent => ?_⟩, fun role => ⟨?_, ?_, fun id idle quiet sent => ?_⟩⟩
  · cases s.conf.role <;> rfl
  · rw [role]; rfl
  · rw [role]; rfl
  · rw [lanes, made, role]
    exact first_work idle quiet (by simp [laneWork, workOf, sent, Snu.reset, Keeper.reset])
  · rw [role]; rfl
  · rw [role]; rfl
  · rw [lanes, made, role]
    exact first_work idle quiet (by simp [laneWork, workOf, sent])

theorem joinedMade_handed (s : State) (id : LaneId) : LaneHanded (s.lane id) (s.joinedMade.lane id) := by
  have lanes : s.joinedMade.lane id = ((s.lane id).offered s.joins.snuMade).offered (identMade s s.joins.snuMade) := by
    rw [joinedMade_eq]
    cases id <;> rfl
  rw [lanes]
  exact (Lane.offered_handed _ _).trans' (Lane.offered_handed _ _)

/-- NO_PANEL as the passage to JOINED finds it (R8). -/
theorem noPanelCheck_joined {s : State} (hj : s.suc.startUp = .joined) :
    noPanelCheck s = alarm (condition .noPanel (!somePanelLive s)) s := by
  cases h : somePanelLive s <;> simp [noPanelCheck, h, hj, condition]

/-- Settles O6: the first snapshots (`joinedMade_snu`), then the door, which hands on at most a pending change. -/
theorem listenTimerEndsInJoinedWithFirstSnapshots : Obligations.ListenTimerEndsInJoinedWithFirstSnapshots := by
  intro s listen reset
  obtain ⟨ident, door, panel⟩ := joinedMade_snu reset
  obtain ⟨y, hy⟩ : ∃ y, y = s.joinedMade := ⟨_, rfl⟩
  obtain ⟨t, ht⟩ : ∃ t, t = setOuts (joinDoor y) := ⟨_, rfl⟩
  have hands : HandsOn y t := by
    rw [ht]
    exact ((HandsOn.carried y).walked.joinDoor (.same y)).trans (setOuts_hands _)
  have enu : t.enu = y.enu := by
    rw [ht]
    exact (Carried.walked (P := fun x => x.enu = y.enu) ⟨fun _ _ _ _ h => h, fun _ h => by simpa using h,
      fun q x hq h => (alarm_enu_door q x hq).trans h⟩).joinDoor rfl
  have runs : y.doorRuns = (s.conf.role == .door) := by rw [hy, joinedMade_eq]; rfl
  have same : y.suc = s.joins.suc ∧ y.enu = s.enu ∧ y.pnu = s.pnu ∧ y.lead = s.lead ∧ y.deb = s.deb ∧ y.settle = s.settle ∧ y.flash = s.flash ∧
      y.ste = s.ste ∧ y.rxq = s.rxq ∧ y.dgp = s.dgp ∧ y.pending = s.pending ∧ y.dcu = s.dcu ∧ y.trm = s.trm ∧ y.psu = s.psu ∧ y.alu = s.alu := by
    rw [hy, joinedMade_eq]
    exact ⟨rfl, rfl, rfl, rfl, rfl, rfl, rfl, rfl, rfl, rfl, rfl, rfl, rfl, rfl, rfl⟩
  obtain ⟨suc, yenu, pnu, lead, deb, settle, flash, ste, rxq, dgp, pending, dcu, trm, psu, alu⟩ := same
  have lanes : ∀ id, LaneHanded (y.lane id) (t.lane id) := fun id => by cases id <;> [exact hands.laneA; exact hands.laneB]
  rw [← hy] at ident door panel
  have begun : ∀ id c, y.lane id = beginTelegram (s.lane id) c → t.lane id = beginTelegram (s.lane id) c := fun id c h => by
    rcases lanes id with e | ⟨idle, -⟩
    · rw [e, h]
    · simp [h, beginTelegram] at idle
  refine ⟨t, by rw [exec_listenTimerExpiry listen, ht, hy], hands.suc.trans (suc.trans rfl), hands.ident.trans ident,
    fun id => (joinedMade_handed s id).trans' (hy ▸ lanes id), fun role => ?_, fun role => ?_, enu.trans yenu, ?_, by rw [ht]; rfl,
    hands.lead.trans lead, hands.deb.trans deb, hands.settle.trans settle, hands.flash.trans flash, hands.ste.trans ste, hands.rxq.trans rxq,
    hands.dgp.trans dgp, hands.pending.trans pending⟩
  · obtain ⟨state, demand, first⟩ := door role
    have on : y.doorRuns = true := by rw [runs, role]; rfl
    have joined : y.suc.startUp = .joined := by rw [suc]; rfl
    obtain ⟨m, hm⟩ : ∃ m, m = alarm (condition .noPanel (!somePanelLive s)) y := ⟨_, rfl⟩
    have live : somePanelLive y = somePanelLive s := by simp [somePanelLive, ste]
    have acts : t = setOuts (doorEvent evaluateStanding m) := by
      rw [ht, joinDoor, if_pos on, noPanelCheck_joined joined, live, hm]
    have kept : m.dcu = s.dcu ∧ m.trm = s.trm ∧ m.psu = s.psu ∧ m.deb = s.deb ∧ m.enu = s.enu ∧ m.suc = y.suc := by
      rw [hm]
      exact ⟨by simp [dcu], by simp [trm], by simp [psu], by simp [deb], (alarm_condition_enu .noPanel _ y rfl).trans yenu, by simp⟩
    have stands : requestStands m = requestStands s := by simp [requestStands, loHeld, kept]
    refine ⟨?_, (hands.demand (by rw [State.conf, suc]; exact role)).trans demand, fun id idle quiet sent => begun id _ (first id idle quiet sent),
      fun none => ?_, fun req lock idle force perm => ?_⟩
    · rcases hands.stateOnce with e | ⟨-, e⟩ | ⟨ready, -⟩
      · exact ⟨false, by rw [e, state]⟩
      · exact ⟨true, by rw [e, state]⟩
      · rw [state] at ready
        exact absurd ready (by simp [Keeper.ready, Config.spacingMs])
    · have rests : evaluateStanding m = m := by simp [evaluateStanding, stands, none]
      rw [acts, doorEvent_same rests]
      refine ⟨kept.1, kept.2.1, kept.2.2.1, ?_⟩
      have list : m.alu = applyRequest (condition .noPanel (!somePanelLive s)) y.alu := by rw [hm, alarm_alu]
      exact list.trans (by rw [alu])
    · have out : m.dcu.ctl ≠ .claiming ∧ m.dcu.ctl ≠ .opening ∧ m.dcu.ctl ≠ .inactive := by
        rw [kept.1]
        refine ⟨?_, ?_, ?_⟩ <;> rintro h <;> simp [h, Ctl.isIdle] at idle
      have claims : evaluateStanding m = toClaiming m := by
        have asks : (requestStands m && !m.dcu.lockout && m.dcu.ctl != .opening && m.dcu.ctl != .inactive) = true := by
          have unlocked : m.dcu.lockout = false := by rw [kept.1]; exact lock
          simp [stands, req, unlocked, out]
        rw [evaluateStanding, if_pos asks, evaluate_claims (by rw [kept.2.2.2.2.1]; exact perm) (by rw [kept.2.2.1]; exact force)
          (kept.2.2.2.2.2 ▸ joined) out.1]
      have moved : Moved m (m.dcu.enter .claiming .noCause m.dcu.wcause none .stopped) t := by
        rw [acts, doorEvent, claims]
        exact (toClaiming_shifted m).handed out.1.symm
      have conf : m.conf = s.conf := by rw [State.conf, kept.2.2.2.2.2, suc]; rfl
      rw [moved.dcu, moved.psu, conf]
      exact ⟨rfl, by simp [claimFor, out.1], by simp [claimFor, out.1]⟩
  · obtain ⟨demand, state, first⟩ := panel role
    have rests : t = setOuts y := by rw [ht, joinDoor, if_neg (by rw [runs, role]; simp)]
    rw [rests]
    refine ⟨demand, state, fun id idle quiet sent => ?_, dcu, trm, psu, alu⟩
    have := first id idle quiet sent
    cases id <;> exact this
  · cases on : y.doorRuns with
    | true => exact (hands.panelOut on).trans pnu
    | false =>
      have rests : t = setOuts y := by rw [ht, joinDoor, if_neg (by simp [on])]
      rw [rests]
      exact pnu

end Sys2Proof.Machine
end

