-- ==== Sys2Proof/Proofs/Fields.lean ====
section
/-! SUPPORT and PROOFS. The judgement of an image's fields (R171): what each pass gives, and the accepted values in their ranges. -/

namespace Sys2Proof.Machine

/-! ### One field -/

/-- The field as read is out of its range. -/
def Field.out (img : List Byte) (f : Field) : Bool := !f.inRange (f.raw img)

/-- The field refuses the image. -/
def Field.refuses (img : List Byte) (f : Field) : Bool := !f.clamps && f.out img

/-- The value as read, or the nearer bound (10.4). -/
def Field.nearest (img : List Byte) (f : Field) : Nat :=
  if f.raw img < f.lo then f.lo else if f.hi < f.raw img then f.hi else f.raw img

/-- The fields an image's role judges. -/
def judgedRows (img : List Byte) : List Field := if byteAt img 0 = 1 then commonFields else commonFields ++ doorFields

theorem raw_spelled (f : Field) (bytes : List Byte) :
    (if f.wide = true then 256 * (byteAt bytes f.off).toNat + (byteAt bytes (f.off + 1)).toNat else (byteAt bytes f.off).toNat) =
      f.raw bytes := by
  rw [Field.raw, wordOf_toNat]

theorem out_spelled (f : Field) (img : List Byte) : decide (f.raw img < f.lo ∨ f.hi < f.raw img) = f.out img := by
  rw [Bool.eq_iff_iff]
  simp [Field.out, Field.inRange]

theorem nearest_spelled (f : Field) (img : List Byte) :
    (if f.raw img < f.lo then f.lo else if f.hi < f.raw img then f.hi else f.raw img) = f.nearest img := rfl

/-- A field that does not refuse gives the nearer bound (10.4). -/
theorem taken_eq_nearest {f : Field} {img : List Byte} (ordered : f.lo ≤ f.hi) (passes : f.refuses img = false) :
    f.taken img = f.nearest img := by
  simp only [Field.refuses, Field.out, Field.inRange, Bool.and_eq_false_iff, Bool.not_eq_false', Bool.and_eq_true,
    decide_eq_true_eq] at passes
  rw [Field.taken, Field.nearest]
  split <;> split_ifs <;> simp_all <;> omega

theorem nearest_bounds (f : Field) (img : List Byte) (ordered : f.lo ≤ f.hi) : f.lo ≤ f.nearest img ∧ f.nearest img ≤ f.hi := by
  rw [Field.nearest]
  split_ifs <;> omega

/-! ### The two passes -/

/-- The first field that refuses ends the pass, with the clamps before it (R171). -/
theorem firstPass_refused {img : List Byte} {f : Field} :
    ∀ {fs : List Field} (n : Nat), fs.Pairwise (·.off < ·.off) → fs.find? (·.refuses img) = some f →
      firstPass img fs n = (n + fs.countP (fun g => decide (g.off < f.off) && g.out img), some f.off)
  | g :: gs, n, rising, found => by
    obtain ⟨first, rest⟩ := List.pairwise_cons.mp rising
    rw [firstPass]
    by_cases refuses : g.refuses img = true
    · obtain rfl : g = f := Option.some.inj (List.find?_cons_of_pos refuses ▸ found)
      obtain ⟨sharp, out⟩ : g.clamps = false ∧ g.inRange (g.raw img) = false := by
        simpa [Field.refuses, Field.out] using refuses
      have none : (g :: gs).countP (fun h => decide (h.off < g.off) && h.out img) = 0 :=
        List.countP_eq_zero.mpr fun h hh => by
          rcases List.mem_cons.mp hh with rfl | hh
          · simp
          · simp [(first h hh).le]
      simp [out, sharp, none]
    · have later : gs.find? (·.refuses img) = some f := List.find?_cons_of_neg refuses ▸ found
      have before := first f (List.mem_of_find?_eq_some later)
      rw [firstPass_refused n rest later, firstPass_refused (n + 1) rest later, List.countP_cons]
      cases hr : g.inRange (g.raw img)
      · simp_all [Field.refuses, Field.out]
        omega
      · simp_all [Field.out]

/-- Without one every field out of range is clamped (R171). -/
theorem firstPass_passed {img : List Byte} :
    ∀ {fs : List Field} (n : Nat), fs.find? (·.refuses img) = none → firstPass img fs n = (n + fs.countP (·.out img), none)
  | [], n, _ => rfl
  | g :: gs, n, passed => by
    have refuses : ¬ g.refuses img = true := List.find?_eq_none.mp passed g List.mem_cons_self
    have later : gs.find? (·.refuses img) = none := List.find?_cons_of_neg refuses ▸ passed
    rw [firstPass, firstPass_passed n later, firstPass_passed (n + 1) later, List.countP_cons]
    cases hr : g.inRange (g.raw img)
    · simp_all [Field.refuses, Field.out]
      omega
    · simp_all [Field.out]

theorem rows_rising (img : List Byte) : (judgedRows img).Pairwise (·.off < ·.off) := by
  rw [judgedRows]
  split <;> decide

theorem rows_ordered {img : List Byte} : ∀ f ∈ judgedRows img, f.lo ≤ f.hi := by
  rw [judgedRows]
  split <;> decide

theorem imageRole_eq (img : List Byte) : imageRole img = if byteAt img 0 = 1 then .panel else .door := by
  by_cases h : byteAt img 0 = 1#8 <;> simp [imageRole, roleOf, h]

theorem judgeFields_refused {img : List Byte} {f : Field} (found : (judgedRows img).find? (·.refuses img) = some f) :
    judgeFields img = ((judgedRows img).countP (fun g => decide (g.off < f.off) && g.out img), some f.off) := by
  have pass := firstPass_refused 0 (rows_rising img) found
  rw [Nat.zero_add] at pass
  rw [judgeFields, imageRole_eq]
  by_cases panel : byteAt img 0 = 1
  · rw [if_pos panel]
    simp only [judgedRows, if_pos panel] at pass ⊢
    exact pass
  · rw [if_neg panel]
    simp only [judgedRows, if_neg panel] at pass ⊢
    rw [pass]

theorem judgeFields_passed {img : List Byte} (passed : (judgedRows img).find? (·.refuses img) = none) :
    judgeFields img = ((judgedRows img).countP (·.out img), if byteAt img 0 = 1 then none else secondPass img) := by
  have pass := firstPass_passed 0 passed
  rw [Nat.zero_add] at pass
  rw [judgeFields, imageRole_eq]
  by_cases panel : byteAt img 0 = 1
  · rw [if_pos panel, if_pos panel]
    simp only [judgedRows, if_pos panel] at pass ⊢
    exact pass
  · rw [if_neg panel, if_neg panel]
    simp only [judgedRows, if_neg panel] at pass ⊢
    rw [pass]

/-- A judgement without a refusal has passed every field (R171). -/
theorem passed_of_accepted {img : List Byte} (accepted : (judgeFields img).2 = none) :
    (judgedRows img).find? (·.refuses img) = none := by
  cases found : (judgedRows img).find? (·.refuses img) with
  | none => rfl
  | some f => rw [judgeFields_refused found] at accepted; nomatch accepted

theorem taken_of_passed {img : List Byte} (passed : (judgedRows img).find? (·.refuses img) = none) {f : Field}
    (hf : f ∈ judgedRows img) : f.taken img = f.nearest img :=
  taken_eq_nearest (rows_ordered f hf) (by simpa using List.find?_eq_none.mp passed f hf)

/-- The value of the field at an offset, as R171 takes it. -/
def nearestAt (img : List Byte) (off : Nat) : Nat := (((judgedRows img).find? (fun f => f.off == off)).map (Field.nearest img)).getD 0

theorem takenAt_of_passed {img : List Byte} (passed : (judgedRows img).find? (·.refuses img) = none) {off : Nat}
    (hf : (judgedRows img).find? (fun f => f.off == off) = some (fieldAt off)) : takenAt img off = nearestAt img off := by
  rw [takenAt, nearestAt, hf, taken_of_passed passed (List.mem_of_find?_eq_some hf)]
  rfl

/-- The relational tests are made on the values after clamps (R171). -/
theorem secondPass_of_passed {img : List Byte} (door : byteAt img 0 ≠ 1) (passed : (judgedRows img).find? (·.refuses img) = none) :
    secondPass img =
      (if nearestAt img 36 ≤ nearestAt img 30 then some 30
      else if nearestAt img 36 ≤ nearestAt img 34 then some 34
      else if nearestAt img 40 ≤ nearestAt img 38 then some 38
      else if nearestAt img 50 ≤ nearestAt img 48 then some 48
      else none) := by
  have rows : judgedRows img = commonFields ++ doorFields := if_neg door
  have here : ∀ off, (commonFields ++ doorFields).find? (fun f => f.off == off) = some (fieldAt off) →
      takenAt img off = nearestAt img off := fun off h => takenAt_of_passed passed (rows ▸ h)
  simp only [secondPass, not_lt, here 30 rfl, here 34 rfl, here 36 rfl, here 38 rfl, here 40 rfl, here 48 rfl, here 50 rfl]

/-! ### The configuration in the image coding -/

/-- The value of the field at an offset of a configuration (10.4). -/
def cfgItem (c : Cfg) : Nat → Nat
  | 0 => if c.role = .panel then 1 else 0
  | 1 => c.station
  | 2 => rateCode c.rate
  | 3 => c.refresh
  | 4 => if c.defaultMode = .doorsClosed then 1 else 0
  | 5 => if c.captureMode = .latest then 1 else 0
  | 6 => c.group
  | 7 => c.passageLimit
  | 8 => c.warningTime
  | 10 => c.recloseDelay
  | 12 => c.claimHold
  | 14 => c.passageMax
  | 16 => c.reversalPause
  | 18 => c.travelCount
  | 20 => c.slowZone
  | 22 => c.overrunSlack
  | 24 => c.closeMax
  | 25 => c.openMax
  | 26 => c.stallMin
  | 27 => c.reserve
  | 28 => c.discordTime
  | 30 => c.n0
  | 32 => c.kP
  | 34 => c.nmin
  | 36 => c.nmax
  | 38 => c.p0
  | 40 => c.pmin
  | 42 => c.v0
  | 44 => c.vc
  | 46 => c.vo
  | 48 => c.pOn
  | 50 => c.pOff
  | 52 => c.pumpMax
  | _ => 0

/-- The bytes of a field that holds a value. -/
def fieldBytes (v : Nat → Nat) (f : Field) : List Byte := if f.wide = true then natBytes (v f.off) else [byteOf (v f.off)]

/-- The fields lie one behind the other from an offset on. -/
def stacked : Nat → List Field → Bool
  | _, [] => true
  | n, f :: fs => f.off == n && stacked (n + if f.wide = true then 2 else 1) fs

theorem cfgBytes_eq (c : Cfg) : cfgBytes c = (commonFields ++ doorFields).flatMap (fieldBytes (cfgItem c)) := by
  delta cfgBytes
  simp only [commonFields, doorFields, List.append_assoc, List.cons_append, List.nil_append, List.flatMap_cons,
    List.flatMap_nil, fieldBytes, reduceIte, Bool.false_eq_true, List.append_nil]
  rfl

theorem byteAt_behind (pre bs : List Byte) (i : Nat) : byteAt (pre ++ bs) (pre.length + i) = byteAt bs i := by
  simp [byteAt, List.getD_eq_getElem?_getD, List.getElem?_append_right]

/-- Fields that lie one behind the other read as they were written. -/
theorem raw_stacked (v : Nat → Nat) :
    ∀ (fs : List Field) (pre : List Byte), stacked pre.length fs = true →
      ∀ f ∈ fs, f.raw (pre ++ fs.flatMap (fieldBytes v)) = v f.off % (if f.wide = true then 65536 else 256)
  | [], _, _ => nofun
  | g :: gs, pre, lie => by
    obtain ⟨start, rest⟩ : g.off = pre.length ∧ stacked (pre.length + if g.wide = true then 2 else 1) gs = true := by
      simpa [stacked] using lie
    intro f hf
    rcases List.mem_cons.mp hf with rfl | hf
    · have first := byteAt_behind pre ((f :: gs).flatMap (fieldBytes v)) 0
      have second := byteAt_behind pre ((f :: gs).flatMap (fieldBytes v)) 1
      rw [Nat.add_zero] at first
      rw [Field.raw, start, first, second]
      cases wide : f.wide
      · simp [fieldBytes, wide, byteAt, start]
      · simp [fieldBytes, wide, byteAt, start, natBytes, wordBytes]
    · have length : (pre ++ fieldBytes v g).length = pre.length + if g.wide = true then 2 else 1 := by
        rw [List.length_append, fieldBytes]
        split <;> simp [natBytes]
      rw [List.flatMap_cons, ← List.append_assoc]
      exact raw_stacked v gs (pre ++ fieldBytes v g) (length ▸ rest) f hf

/-- Every field of a configuration stands at its offset (R178). -/
theorem cfgBytes_read (c : Cfg) :
    ∀ f ∈ commonFields ++ doorFields, f.raw (cfgBytes c) = cfgItem c f.off % (if f.wide = true then 65536 else 256) := by
  rw [cfgBytes_eq]
  exact raw_stacked (cfgItem c) _ [] (by decide)

theorem rows_fit : ∀ f ∈ commonFields ++ doorFields, f.hi < if f.wide = true then 65536 else 256 := by decide

theorem judgedRows_sub {img : List Byte} : ∀ f ∈ judgedRows img, f ∈ commonFields ++ doorFields := fun f hf => by
  rw [judgedRows] at hf
  split at hf
  · exact List.mem_append_left _ hf
  · exact hf

/-- An item in its field's range is read as it stands. -/
theorem cfgBytes_read_fit {c : Cfg} {f : Field} (hf : f ∈ commonFields ++ doorFields) (fits : cfgItem c f.off ≤ f.hi) :
    f.raw (cfgBytes c) = cfgItem c f.off := by
  rw [cfgBytes_read c f hf, Nat.mod_eq_of_lt (fits.trans_lt (rows_fit f hf))]

theorem rateCode_rateOf {n : Nat} (h : n ≤ 2) : rateCode (rateOf n) = n := by
  obtain rfl | rfl | rfl : n = 0 ∨ n = 1 ∨ n = 2 := by omega
  all_goals rfl

/-- The fields of both roles, as accepted (10.4). -/
theorem item_common {img : List Byte} (bounds : ∀ f ∈ commonFields, f.taken img ≤ f.hi) :
    ∀ f ∈ commonFields, cfgItem (configOf img) f.off = f.taken img := by
  simp only [commonFields, List.forall_mem_cons, List.not_mem_nil, false_imp_iff, implies_true, and_true] at bounds ⊢
  obtain ⟨role, -, rate, -, mode, capture⟩ := bounds
  refine ⟨?_, rfl, rateCode_rateOf rate, rfl, ?_, ?_⟩
  · have small : (byteAt img 0).toNat ≤ 1 := role
    have all : ∀ b : Byte, b.toNat ≤ 1 → (if roleOf (b == 1#8) = .panel then 1 else 0) = b.toNat := by decide
    exact all _ small
  · have small : (byteAt img 4).toNat ≤ 1 := mode
    have all : ∀ n ≤ 1, (if modeOf (n == 1) = .doorsClosed then 1 else 0) = n := by decide
    exact all _ small
  · have small : (byteAt img 5).toNat ≤ 1 := capture
    have all : ∀ n ≤ 1, (if (if n == 1 then CaptureMode.latest else .first) = .latest then 1 else 0) = n := by decide
    exact all _ small

/-- A door's own fields, as accepted (10.4). -/
theorem item_door {img : List Byte} (door : byteAt img 0 ≠ 1) : ∀ f ∈ doorFields, cfgItem (configOf img) f.off = f.taken img := by
  have role : imageRole img = .door := (imageRole_eq img).trans (if_neg door)
  simp only [doorFields, List.forall_mem_cons, List.not_mem_nil, false_imp_iff, implies_true, and_true]
  exact ⟨if_pos role, if_pos role, if_pos role, if_pos role, if_pos role, if_pos role, if_pos role, if_pos role, if_pos role, if_pos role, if_pos role, if_pos role, if_pos role, if_pos role, if_pos role, if_pos role, if_pos role, if_pos role, if_pos role, if_pos role, if_pos role, if_pos role, if_pos role, if_pos role, if_pos role, if_pos role, if_pos role⟩

/-- An accepted image's configuration holds the values taken (R171). -/
theorem item_taken {img : List Byte} (passed : (judgedRows img).find? (·.refuses img) = none) :
    ∀ f ∈ judgedRows img, cfgItem (configOf img) f.off = f.nearest img := fun f hf => by
  rw [← taken_of_passed passed hf]
  have common : ∀ f ∈ commonFields, f ∈ judgedRows img := fun f hf => by
    rw [judgedRows]
    split
    · exact hf
    · exact List.mem_append_left _ hf
  have inBounds : ∀ f ∈ commonFields, f.taken img ≤ f.hi := fun f hf =>
    taken_of_passed passed (common f hf) ▸ (nearest_bounds f img (rows_ordered f (common f hf))).2
  have split := hf
  rw [judgedRows] at split
  split_ifs at split with panel
  · exact item_common inBounds f split
  · exact (List.mem_append.mp split).elim (item_common inBounds f) (item_door panel f)

/-- An accepted configuration reads back as taken (R178). -/
theorem cfgBytes_taken {img : List Byte} (passed : (judgedRows img).find? (·.refuses img) = none) :
    ∀ f ∈ judgedRows img, f.raw (cfgBytes (configOf img)) = f.nearest img := fun f hf => by
  have item := item_taken passed f hf
  rw [cfgBytes_read_fit (judgedRows_sub f hf) (item ▸ (nearest_bounds f img (rows_ordered f hf)).2), item]

/-- A panel's door fields are 0 (10.4). -/
theorem item_panel {img : List Byte} (panel : byteAt img 0 = 1) : ∀ f ∈ doorFields, cfgItem (configOf img) f.off = 0 := by
  have role : imageRole img ≠ .door := by rw [imageRole_eq, if_pos panel]; nofun
  simp only [doorFields, List.forall_mem_cons, List.not_mem_nil, false_imp_iff, implies_true, and_true]
  exact ⟨if_neg role, if_neg role, if_neg role, if_neg role, if_neg role, if_neg role, if_neg role, if_neg role, if_neg role, if_neg role, if_neg role, if_neg role, if_neg role, if_neg role, if_neg role, if_neg role, if_neg role, if_neg role, if_neg role, if_neg role, if_neg role, if_neg role, if_neg role, if_neg role, if_neg role, if_neg role, if_neg role⟩

theorem cfgBytes_panel {img : List Byte} (panel : byteAt img 0 = 1) :
    (cfgBytes (configOf img)).drop 6 = List.replicate 48 0 := by
  have zero : doorFields.map (fieldBytes (cfgItem (configOf img))) = doorFields.map (fieldBytes fun _ => 0) :=
    List.map_congr_left fun f hf => by rw [fieldBytes, fieldBytes, item_panel panel f hf]
  rw [cfgBytes_eq, List.flatMap_append, List.flatMap_def (l := doorFields), zero]
  rfl

/-- Clamps are counted at clamp fields alone (R171). -/
theorem clamps_bounded {img : List Byte} (passed : (judgedRows img).find? (·.refuses img) = none) :
    (judgedRows img).countP (·.out img) ≤ (judgedRows img).countP (·.clamps) :=
  List.countP_mono_left fun f hf out => by
    have passes := List.find?_eq_none.mp passed f hf
    by_contra sharp
    simp [Field.refuses, out, sharp] at passes

/-- The value of an accepted field lies in its range (R171). -/
theorem item_bounds {img : List Byte} (passed : (judgedRows img).find? (·.refuses img) = none) :
    ∀ f ∈ judgedRows img, f.lo ≤ cfgItem (configOf img) f.off ∧ cfgItem (configOf img) f.off ≤ f.hi := fun f hf => by
  rw [item_taken passed f hf]
  exact nearest_bounds f img (rows_ordered f hf)

/-- The relational tests hold of an accepted door's values (R171). -/
theorem tests_of_passed {img : List Byte} (door : byteAt img 0 ≠ 1) (accepted : secondPass img = none) :
    (configOf img).n0 < (configOf img).nmax ∧ (configOf img).nmin < (configOf img).nmax ∧
      (configOf img).p0 < (configOf img).pmin ∧ (configOf img).pOn < (configOf img).pOff := by
  have item : ∀ i {f : Field}, doorFields[i]? = some f → cfgItem (configOf img) f.off = f.taken img :=
    fun i f h => item_door door f (List.mem_of_getElem? h)
  rw [secondPass] at accepted
  split_ifs at accepted with n0 nmin pressures pump
  exact ⟨(item 15 rfl).trans_lt (n0.trans_eq (item 18 rfl).symm), (item 17 rfl).trans_lt (nmin.trans_eq (item 18 rfl).symm),
    (item 19 rfl).trans_lt (pressures.trans_eq (item 20 rfl).symm), (item 24 rfl).trans_lt (pump.trans_eq (item 25 rfl).symm)⟩

/-- The judgement of an image's fields, in whole (R171). -/
theorem judgeFields_eq (img : List Byte) :
    judgeFields img = match (judgedRows img).find? (·.refuses img) with
      | some f => ((judgedRows img).countP (fun g => decide (g.off < f.off) && g.out img), some f.off)
      | none => ((judgedRows img).countP (·.out img),
        if byteAt img 0 = 1 then none
        else if nearestAt img 36 ≤ nearestAt img 30 then some 30
        else if nearestAt img 36 ≤ nearestAt img 34 then some 34
        else if nearestAt img 40 ≤ nearestAt img 38 then some 38
        else if nearestAt img 50 ≤ nearestAt img 48 then some 48
        else none) := by
  cases found : (judgedRows img).find? (·.refuses img) with
  | some f => exact judgeFields_refused found
  | none =>
    rw [judgeFields_passed found]
    by_cases panel : byteAt img 0 = 1
    · simp only [if_pos panel]
    · rw [secondPass_of_passed panel found]

/-- Settles O3: pass by pass, and the accepted values through their reading in the image coding. -/
theorem acceptedConfigurationLiesInItsRanges : Obligations.AcceptedConfigurationLiesInItsRanges := by
  refine ⟨fun img => ?_, fun img n judged => ?_⟩
  · simp only [raw_spelled, out_spelled, nearest_spelled]
    exact ⟨judgeFields_eq img, fun accepted => ⟨cfgBytes_taken (passed_of_accepted accepted), cfgBytes_panel⟩⟩
  · have passed := passed_of_accepted (congrArg Prod.snd judged)
    have whole := (judgeFields_passed passed).symm.trans judged
    have count : n ≤ (judgedRows img).countP (·.clamps) := (congrArg Prod.fst whole).ge.trans (clamps_bounded passed)
    have second : (if byteAt img 0 = 1 then none else secondPass img) = none := congrArg Prod.snd whole
    have bounds := item_bounds passed
    have role : (configOf img).role = if byteAt img 0 = 1 then .panel else .door := imageRole_eq img
    rw [role]
    by_cases panel : byteAt img 0 = 1
    · rw [if_pos panel]
      simp only [judgedRows, if_pos panel] at bounds count
      have door := item_panel panel
      refine ⟨bounds _ (List.mem_of_getElem? (i := 1) rfl), bounds _ (List.mem_of_getElem? (i := 3) rfl), fun _ =>
        ⟨count, door _ (List.mem_of_getElem? (i := 0) rfl), door _ (List.mem_of_getElem? (i := 1) rfl)⟩, nofun⟩
    · rw [if_neg panel]
      simp only [judgedRows, if_neg panel] at bounds count
      rw [if_neg panel] at second
      obtain ⟨n0, nmin, pressures, pump⟩ := tests_of_passed panel second
      have row : ∀ i {f : Field}, (commonFields ++ doorFields)[i]? = some f → f.lo ≤ cfgItem (configOf img) f.off ∧
          cfgItem (configOf img) f.off ≤ f.hi := fun i f h => bounds f (List.mem_of_getElem? h)
      exact ⟨row 1 rfl, row 3 rfl, nofun, fun _ => ⟨count, row 6 rfl, (row 7 rfl).2, row 8 rfl, row 9 rfl, row 10 rfl, row 11 rfl,
        row 12 rfl, row 13 rfl, (row 14 rfl).2, row 15 rfl, row 16 rfl, row 17 rfl, row 18 rfl, row 19 rfl, row 20 rfl,
        n0, nmin, (row 24 rfl).2, row 22 rfl, ⟨(row 25 rfl).1, pressures, (row 26 rfl).2⟩, row 27 rfl, row 28 rfl, row 29 rfl,
        ⟨(row 30 rfl).1, pump, (row 31 rfl).2⟩, row 32 rfl⟩⟩

end Sys2Proof.Machine
end

