-- ==== Sys2Proof/Proofs/Pages.lean ====
section
/-! SUPPORT and PROOFS. The diagnostic pages (R178): a part of a page is read where it lies, byte by byte, in the order its definition gives. -/

namespace Sys2Proof.Machine

/-! ### Where bytes lie in a page -/

/-- The number of two bytes of a page. -/
def wordAt (page : List Byte) (i : Nat) : Nat := 256 * (byteAt page i).toNat + (byteAt page (i + 1)).toNat

/-- Bytes stand in a page from an offset on. -/
def Lies (bytes : List Byte) (off : Nat) (page : List Byte) : Prop := ∃ pre post, page = pre ++ (bytes ++ post) ∧ pre.length = off

theorem Lies.whole (page : List Byte) : Lies page 0 page := ⟨[], [], by simp, rfl⟩

/-- A part of a part. -/
theorem Lies.within {a b page : List Byte} {i off : Nat} (inner : Lies a i b) (outer : Lies b off page) : Lies a (off + i) page := by
  obtain ⟨pre, post, rfl, rfl⟩ := inner
  obtain ⟨pre', post', rfl, rfl⟩ := outer
  exact ⟨pre' ++ pre, post ++ post', by simp, by simp⟩

/-- One of the blocks that a page puts one behind the other. -/
theorem lies_flatten {blocks : List (List Byte)} {b : List Byte} (k : Nat) {off : Nat} (block : blocks[k]? = some b)
    (place : ((blocks.take k).map List.length).sum = off) : Lies b off blocks.flatten := by
  obtain ⟨inside, rfl⟩ := List.getElem?_eq_some_iff.mp block
  refine ⟨(blocks.take k).flatten, (blocks.drop (k + 1)).flatten, ?_, by rw [List.length_flatten, place]⟩
  rw [← List.flatten_cons, ← List.flatten_append, List.getElem_cons_drop, List.take_append_drop]

/-- One of the rows of equal length that a page puts one behind the other. -/
theorem lies_rows {f : Nat → List Byte} {m n k : Nat} (width : ∀ i, (f i).length = m) (inside : k < n) :
    Lies (f k) (m * k) ((List.range n).map f).flatten :=
  lies_flatten k (by simp [inside]) (by
    simp only [← List.map_take, List.map_map, Function.comp_def, width, List.map_const', List.sum_replicate, List.length_take,
      List.length_range, Nat.min_eq_left inside.le, smul_eq_mul, Nat.mul_comm])

/-- One of the blocks that a page puts one behind the other, by their lengths. -/
theorem lies_block {blocks : List (List Byte)} {b : List Byte} {lengths : List Nat} (sizes : blocks.map List.length = lengths) (k : Nat)
    (block : blocks[k]? = some b) : Lies b (lengths.take k).sum blocks.flatten :=
  lies_flatten k block (by rw [List.map_take, sizes])

theorem rows_length {f : Nat → List Byte} {m : Nat} (width : ∀ i, (f i).length = m) (n : Nat) :
    ((List.range n).map f).flatten.length = n * m := by
  simp [List.length_flatten, Function.comp_def, width]

section Reads
variable {bytes page : List Byte} {off : Nat}

/-- A byte of a part (R178). -/
theorem Lies.byte (lies : Lies bytes off page) (i : Nat) {b : Byte} (h : bytes[i]? = some b) : byteAt page (off + i) = b := by
  obtain ⟨pre, post, rfl, rfl⟩ := lies
  obtain ⟨inside, rfl⟩ := List.getElem?_eq_some_iff.mp h
  rw [byteAt_behind, byteAt, List.getD_eq_getElem?_getD, List.getElem?_append_left inside, List.getElem?_eq_getElem inside,
    Option.getD_some]

theorem Lies.value (lies : Lies bytes off page) (i : Nat) {b : Byte} (h : bytes[i]? = some b) :
    (byteAt page (off + i)).toNat = b.toNat := by
  rw [lies.byte i h]

/-- Two bytes of a part, most significant byte first (1.7). -/
theorem Lies.word (lies : Lies bytes off page) (i : Nat) {w : BitVec 16} (h : bytes[i]? = some (w.extractLsb' 8 8))
    (h' : bytes[i + 1]? = some (w.extractLsb' 0 8)) : wordAt page (off + i) = w.toNat := by
  rw [wordAt, lies.byte i h, Nat.add_assoc, lies.byte (i + 1) h', ← wordOf_toNat, wordOf_wordBytes]

/-- The part as a stretch of the page. -/
theorem Lies.part (lies : Lies bytes off page) {n : Nat} (length : bytes.length = n) : (page.drop off).take n = bytes := by
  obtain ⟨pre, post, rfl, rfl⟩ := lies
  simp [← length]

end Reads

/-! ### Values in bytes and words -/

theorem flagByte_toNat (b : Bool) : (flagByte b).toNat = b.toNat := by cases b <;> rfl

theorem codeByte_toNat {w : Nat} (fits : w ≤ 8) (c : BitVec w) : (codeByte c).toNat = c.toNat :=
  BitVec.toNat_setWidth_of_le fits

theorem sentByte_toNat (v : Option Byte) : (sentByte v).toNat = (v.map (·.toNat)).getD 255 := by cases v <;> rfl

theorem suppliedByte_toNat (v : Option Byte) : (suppliedByte v).toNat = (v.map (·.toNat)).getD 0 := by cases v <;> rfl

theorem figure8_toNat (v : Option Nat) : (figure8 v).toNat = (v.map (· % 256)).getD 255 := by
  cases v with
  | none => rfl
  | some n => exact byteOf_toNat n

theorem timer8_toNat (unit : Nat) (t : Option Nat) : (timer8 unit t).toNat = (t.map (fun ms => min (ms / unit) 255)).getD 255 := by
  cases t with
  | none => rfl
  | some ms => exact (byteOf_toNat _).trans (Nat.mod_eq_of_lt (by omega))

theorem byteOf_small {n : Nat} (small : n ≤ 255) : (byteOf n).toNat = n := (byteOf_toNat n).trans (Nat.mod_eq_of_lt (by omega))

/-- A timer as two bytes read it (R178). -/
def timerValue (t : Option Nat) : Nat := (t.map (fun ms => min ms 65535)).getD 65535

/-- A figure as two bytes read it (R178). -/
def figureValue (v : Option Nat) : Nat := (v.map (· % 65536)).getD 65535

theorem natWord_toNat (n : Nat) : (BitVec.ofNat 16 n).toNat = n % 65536 := BitVec.toNat_ofNat n 16

theorem timer16_eq (t : Option Nat) : timer16 t = natBytes (timerValue t) := by cases t <;> rfl

theorem figure16_eq (v : Option Nat) : figure16 v = natBytes (figureValue v) := by
  cases v with
  | none => rfl
  | some n => exact congrArg wordBytes (BitVec.eq_of_toNat_eq (by simp [figureValue]))

theorem timerValue_word (t : Option Nat) : (BitVec.ofNat 16 (timerValue t)).toNat = timerValue t := by
  refine (natWord_toNat _).trans (Nat.mod_eq_of_lt ?_)
  cases t with
  | none => simp [timerValue]
  | some ms => exact Nat.lt_succ_of_le (Nat.min_le_right ms 65535)

theorem figureValue_word (v : Option Nat) : (BitVec.ofNat 16 (figureValue v)).toNat = figureValue v := by
  refine (natWord_toNat _).trans (Nat.mod_eq_of_lt ?_)
  cases v with
  | none => simp [figureValue]
  | some n => exact Nat.mod_lt n (by decide)

theorem tallyByte_toNat (t : Option Nat) : (timer8 1 t).toNat = t.elim 255 (min · 255) := by
  rw [timer8_toNat]
  cases t <;> simp

theorem ctlByte_toNat {c : Ctl} (runs : c ≠ .inactive) : c.byte.toNat = c.code.toNat := by
  cases c with
  | inactive => exact absurd rfl runs
  | _ => rfl

theorem openBytes_one (site : Config.Site) (values : List Int) : openBytes site 1 values = [Config.layout site values 0] := rfl

/-! ### The parts of page 0 -/

section Parts
variable {page : List Byte} {off : Nat}

/-- A lane unit's places (R178). -/
theorem lane_reads {l : Lane} (lies : Lies (laneBytes l) off page) :
    wordAt page (off + 2) = timerValue l.silence ∧ (l.unheard ≤ 255 → (byteAt page (off + 4)).toNat = l.unheard) ∧
      (l.bitErr ≤ 255 → (byteAt page (off + 5)).toNat = l.bitErr) ∧ wordAt page (off + 6) = timerValue l.withdraw ∧
      (byteAt page (off + 9)).toNat = (l.sentD.map (·.toNat)).getD 255 ∧
      (byteAt page (off + 10)).toNat = (l.sentS.map (·.toNat)).getD 255 ∧
      (byteAt page (off + 11)).toNat = (l.sentI.map (·.toNat)).getD 255 ∧
      wordAt page (off + 12) = l.ctr.accepted % 65536 ∧ wordAt page (off + 14) = l.ctr.checkErrors % 65536 ∧
      wordAt page (off + 16) = l.ctr.formatErrors % 65536 ∧ wordAt page (off + 18) = l.ctr.rateErrors % 65536 ∧
      wordAt page (off + 20) = l.ctr.losses % 65536 ∧ wordAt page (off + 22) = l.ctr.bitErrors % 65536 ∧
      wordAt page (off + 24) = l.ctr.unheard % 65536 := by
  simp only [laneBytes, LaneCounters.bytes, timer16_eq, natBytes, wordBytes, openBytes_one, List.cons_append, List.nil_append] at lies
  exact ⟨(lies.word 2 rfl rfl).trans (timerValue_word _), fun small => (lies.value 4 rfl).trans (byteOf_small small),
    fun small => (lies.value 5 rfl).trans (byteOf_small small), (lies.word 6 rfl rfl).trans (timerValue_word _),
    (lies.value 9 rfl).trans (sentByte_toNat _), (lies.value 10 rfl).trans (sentByte_toNat _),
    (lies.value 11 rfl).trans (sentByte_toNat _), (lies.word 12 rfl rfl).trans (natWord_toNat _),
    (lies.word 14 rfl rfl).trans (natWord_toNat _), (lies.word 16 rfl rfl).trans (natWord_toNat _),
    (lies.word 18 rfl rfl).trans (natWord_toNat _), (lies.word 20 rfl rfl).trans (natWord_toNat _),
    (lies.word 22 rfl rfl).trans (natWord_toNat _), (lies.word 24 rfl rfl).trans (natWord_toNat _)⟩

/-- The door control unit's places (R31, R178). -/
theorem door_reads {d : Dcu} (lies : Lies (doorBytes d) off page) :
    (d.ctl ≠ .inactive → (byteAt page off).toNat = d.ctl.code.toNat) ∧ (byteAt page (off + 2)).toNat = d.wcause.bit.toNat ∧
      wordAt page (off + 3) = timerValue d.warnTimer ∧ wordAt page (off + 5) = timerValue d.vclPause ∧
      wordAt page (off + 7) = timerValue d.vopPause ∧ wordAt page (off + 9) = timerValue d.held.ms ∧
      (byteAt page (off + 11)).toNat = (modeBit d.mode).toNat ∧ (byteAt page (off + 12)).toNat = d.groupDemand.toNat ∧
      (byteAt page (off + 13)).toNat = d.panelHeard.toNat ∧ (byteAt page (off + 14)).toNat = d.cd.toNat ∧
      (byteAt page (off + 15)).toNat = d.lockout.toNat := by
  simp only [doorBytes, timer16_eq, natBytes, wordBytes, List.cons_append, List.nil_append] at lies
  exact ⟨fun runs => (lies.value 0 rfl).trans (ctlByte_toNat runs), (lies.value 2 rfl).trans (flagByte_toNat _),
    (lies.word 3 rfl rfl).trans (timerValue_word _), (lies.word 5 rfl rfl).trans (timerValue_word _),
    (lies.word 7 rfl rfl).trans (timerValue_word _), (lies.word 9 rfl rfl).trans (timerValue_word _),
    (lies.value 11 rfl).trans (flagByte_toNat _), (lies.value 12 rfl).trans (flagByte_toNat _),
    (lies.value 13 rfl).trans (flagByte_toNat _), (lies.value 14 rfl).trans (flagByte_toNat _),
    (lies.value 15 rfl).trans (flagByte_toNat _)⟩

/-- The travel unit's places (R51, R178). -/
theorem travel_reads {s : State} (lies : Lies (travelBytes s) off page) :
    (byteAt page (off + 1)).toNat = s.trm.pos.code.toNat ∧ (byteAt page (off + 2)).toNat = s.trm.running.toNat ∧
      wordAt page (off + 3) = timerValue s.trm.discord.ms ∧ wordAt page (off + 5) = timerValue s.trm.conflict.ms ∧
      wordAt page (off + 7) = (BitVec.ofInt 16 s.trm.count).toNat ∧ (byteAt page (off + 9)).toNat = s.trm.ref.toNat ∧
      wordAt page (off + 10) = s.trm.overrun % 65536 ∧ wordAt page (off + 12) = figureValue (positionFigure s) ∧
      wordAt page (off + 15) = timerValue s.trm.strokeTimer.ms ∧ (byteAt page (off + 17)).toNat = s.trm.slow.toNat ∧
      (byteAt page (off + 18)).toNat = (s.trm.stall.map (·.tally)).elim 255 (min · 255) ∧
      (byteAt page (off + 19)).toNat = (s.trm.stall.map (·.number)).elim 255 (min · 255) ∧
      wordAt page (off + 20) = timerValue s.trm.arming ∧
      (byteAt page (off + 22)).toNat = (s.trm.hand.map (·.tally)).elim 255 (min · 255) ∧
      (byteAt page (off + 23)).toNat = s.trm.vsl.toNat := by
  delta travelBytes at lies
  simp only [limitsByte, timer16_eq, figure16_eq, natBytes, wordBytes, openBytes_one, List.cons_append, List.nil_append] at lies
  exact ⟨(lies.value 1 rfl).trans (codeByte_toNat (by decide) _), (lies.value 2 rfl).trans (flagByte_toNat _),
    (lies.word 3 rfl rfl).trans (timerValue_word _), (lies.word 5 rfl rfl).trans (timerValue_word _), lies.word 7 rfl rfl,
    (lies.value 9 rfl).trans (flagByte_toNat _), (lies.word 10 rfl rfl).trans (natWord_toNat _),
    (lies.word 12 rfl rfl).trans (figureValue_word _), (lies.word 15 rfl rfl).trans (timerValue_word _),
    (lies.value 17 rfl).trans (flagByte_toNat _), (lies.value 18 rfl).trans (tallyByte_toNat _),
    (lies.value 19 rfl).trans (tallyByte_toNat _), (lies.word 20 rfl rfl).trans (timerValue_word _),
    (lies.value 22 rfl).trans (tallyByte_toNat _), (lies.value 23 rfl).trans (flagByte_toNat _)⟩

/-- The energy unit's places (R62, R178). -/
theorem energy_reads {mains : Bool} {e : Enu} (lies : Lies (energyItems mains e) off page) :
    (byteAt page off).toNat = e.running.toNat ∧ wordAt page (off + 1) = timerValue e.gate ∧
      wordAt page (off + 3) = e.tally % 65536 ∧ wordAt page (off + 5) = figureValue e.lastN ∧
      (byteAt page (off + 7)).toNat = e.oob % 256 ∧ (byteAt page (off + 8)).toNat = e.inb % 256 ∧
      wordAt page (off + 9) = figureValue e.p ∧ wordAt page (off + 11) = figureValue e.u ∧
      (byteAt page (off + 13)).toNat = (e.closes.map (· % 256)).getD 255 ∧ (byteAt page (off + 14)).toNat = e.permStart.toNat ∧
      (byteAt page (off + 15)).toNat = e.permCont.toNat ∧ (byteAt page (off + 16)).toNat = mains.toNat ∧
      (byteAt page (off + 17)).toNat = e.pumpOn.toNat ∧ wordAt page (off + 18) = timerValue e.run ∧
      (byteAt page (off + 20)).toNat = e.locked.toNat := by
  simp only [energyItems, timer16_eq, figure16_eq, natBytes, wordBytes, List.cons_append, List.nil_append] at lies
  exact ⟨(lies.value 0 rfl).trans (flagByte_toNat _), (lies.word 1 rfl rfl).trans (timerValue_word _),
    (lies.word 3 rfl rfl).trans (natWord_toNat _), (lies.word 5 rfl rfl).trans (figureValue_word _),
    (lies.value 7 rfl).trans (byteOf_toNat _), (lies.value 8 rfl).trans (byteOf_toNat _),
    (lies.word 9 rfl rfl).trans (figureValue_word _), (lies.word 11 rfl rfl).trans (figureValue_word _),
    (lies.value 13 rfl).trans (figure8_toNat _), (lies.value 14 rfl).trans (flagByte_toNat _),
    (lies.value 15 rfl).trans (flagByte_toNat _), (lies.value 16 rfl).trans (flagByte_toNat _),
    (lies.value 17 rfl).trans (flagByte_toNat _), (lies.word 18 rfl rfl).trans (timerValue_word _),
    (lies.value 20 rfl).trans (flagByte_toNat _)⟩

/-- The passage unit's places (R81, R178). -/
theorem passage_reads {p : Psu} (lies : Lies (passageItems p) off page) :
    (byteAt page off).toNat = p.inForce.toNat ∧ (byteAt page (off + 1)).toNat = p.phase.code.toNat ∧
      wordAt page (off + 2) = timerValue p.claimTimer ∧ (byteAt page (off + 4)).toNat = p.occupants % 256 ∧
      (byteAt page (off + 5)).toNat = p.ahead % 256 ∧ (byteAt page (off + 6)).toNat = p.excess.toNat := by
  simp only [passageItems, timer16_eq, natBytes, wordBytes, List.cons_append, List.nil_append] at lies
  exact ⟨(lies.value 0 rfl).trans (flagByte_toNat _), (lies.value 1 rfl).trans (codeByte_toNat (by decide) _),
    (lies.word 2 rfl rfl).trans (timerValue_word _), (lies.value 4 rfl).trans (byteOf_toNat _),
    (lies.value 5 rfl).trans (byteOf_toNat _), (lies.value 6 rfl).trans (flagByte_toNat _)⟩

/-- The snapshot unit's serials, flags and timers (7.3). -/
def snapshotItems (n : Snu) : List Byte :=
  [n.demand.serial, n.state.serial, n.ident.serial] ++ openBytes .snapshotRegion 1 (snapshotFlags n) ++ timer16 n.demand.spacing ++
    timer16 n.state.spacing ++ timer16 n.demand.refresh ++ timer16 n.state.refresh ++ timer16 n.ident.timer ++ [0#8]

/-- The snapshot unit's places behind the payloads (R134, R178). -/
theorem snapshot_reads {n : Snu} (lies : Lies (snapshotItems n) off page) :
    (byteAt page off).toNat = n.demand.serial.toNat ∧ (byteAt page (off + 1)).toNat = n.state.serial.toNat ∧
      (byteAt page (off + 2)).toNat = n.ident.serial.toNat ∧ wordAt page (off + 4) = timerValue n.demand.spacing ∧
      wordAt page (off + 6) = timerValue n.state.spacing ∧ wordAt page (off + 8) = timerValue n.demand.refresh ∧
      wordAt page (off + 10) = timerValue n.state.refresh ∧ wordAt page (off + 12) = timerValue n.ident.timer ∧
      (byteAt page (off + 14)).toNat = 0 := by
  simp only [snapshotItems, timer16_eq, natBytes, wordBytes, openBytes_one, List.cons_append, List.nil_append] at lies
  exact ⟨lies.value 0 rfl, lies.value 1 rfl, lies.value 2 rfl, (lies.word 4 rfl rfl).trans (timerValue_word _),
    (lies.word 6 rfl rfl).trans (timerValue_word _), (lies.word 8 rfl rfl).trans (timerValue_word _),
    (lies.word 10 rfl rfl).trans (timerValue_word _), (lies.word 12 rfl rfl).trans (timerValue_word _), lies.value 14 rfl⟩

/-- The receive queue's and the table's counters (R117, R178). -/
def counterItems (s : State) : List Byte :=
  [byteOf s.rxq.queue.length] ++ natBytes s.rxq.overflow ++ natBytes s.ste.kindConflicts ++ natBytes s.ste.duplicates ++
    natBytes s.ste.lateCopies

theorem counter_reads {s : State} (lies : Lies (counterItems s) off page) :
    (s.rxq.queue.length ≤ 255 → (byteAt page off).toNat = s.rxq.queue.length) ∧ wordAt page (off + 1) = s.rxq.overflow % 65536 ∧
      wordAt page (off + 3) = s.ste.kindConflicts % 65536 ∧ wordAt page (off + 5) = s.ste.duplicates % 65536 ∧
      wordAt page (off + 7) = s.ste.lateCopies % 65536 := by
  simp only [counterItems, natBytes, wordBytes, List.cons_append, List.nil_append] at lies
  exact ⟨fun small => (lies.value 0 rfl).trans (byteOf_small small), (lies.word 1 rfl rfl).trans (natWord_toNat _),
    (lies.word 3 rfl rfl).trans (natWord_toNat _), (lies.word 5 rfl rfl).trans (natWord_toNat _),
    (lies.word 7 rfl rfl).trans (natWord_toNat _)⟩

end Parts

/-! ### Page 0 -/

/-- The blocks of page 0 that both roles have (R178). -/
def headBlocks (s : State) : List (List Byte) :=
  [[byteOf s.suc.startUp.code, BitVec.ofBool (roleBit s.conf.role) ++ BitVec.ofNat 7 s.conf.station],
    openBytes .summaryFlags 1 [flag s.suc.flt, flag s.dgp.latch, flag s.dgp.capture.isSome], laneBytes s.laneA, laneBytes s.laneB,
    counterItems s, ownPayload s.conf.role s.snu, identPayload s.snu, snapshotItems s.snu]

/-- A door's blocks behind them. -/
def doorBlocks (s : State) : List (List Byte) :=
  [doorBytes s.dcu, travelBytes s, energyItems s.deb.mains s.enu,
    (List.range (28 - (energyItems s.deb.mains s.enu).length)).map (Config.filler .energyRegion), passageItems s.psu,
    (List.range (8 - (passageItems s.psu).length)).map (Config.filler .passageRegion)]

/-- A panel's blocks behind them. -/
def panelBlocks (s : State) : List (List Byte) :=
  [openBytes .keyLevels 3 ((List.range 20).map (fun k => flag (s.pnu.keys.getLsbD k))),
    momentaryKeys.map (fun k => timer8 1000 (s.pnu.heldKeys.getD k .stopped).ms), (encodeDemand (panelContent s)).take 4,
    ((List.range 17).map (fun i => openBytes .summaryRecord 1 (s.pnu.summaries.getD i Summary.reset).values)).flatten,
    ((List.range 63).map (fun i => wordBytes (s.pnu.lastSeen.getD i 0))).flatten,
    openBytes .panelFlags 1 [flag s.pnu.silence, flag s.pnu.lampTest.isSome, flag s.pnu.lockout, flag s.pnu.psnd],
    [timer8 1000 s.pnu.lampTest, timer8 100 s.pnu.conflict.ms], (List.range 34).map (levelByte s.pnu.frame)]

theorem page0_door {s : State} (door : s.conf.role = .door) : pageBytes s 0 = (headBlocks s ++ doorBlocks s).flatten := by
  simp [pageBytes, page0, door, headBlocks, doorBlocks, snapshotBytes, snapshotItems, counterItems, energyBytes, passageBytes, region]

theorem page0_panel {s : State} (panel : s.conf.role = .panel) : pageBytes s 0 = (headBlocks s ++ panelBlocks s).flatten := by
  simp [pageBytes, page0, panel, headBlocks, panelBlocks, snapshotBytes, snapshotItems, counterItems, panelBytes]

theorem ownPayload_length (role : Role) (n : Snu) : (ownPayload role n).length = 11 := by
  cases role
  · cases h : n.state.newest <;> rw [ownPayload, h] <;> rfl
  · cases h : n.demand.newest <;> rw [ownPayload, h] <;> rfl

theorem identPayload_length (n : Snu) : (identPayload n).length = 6 := by
  cases h : n.ident.newest <;> rw [identPayload, h] <;> rfl

theorem head_sizes (s : State) : (headBlocks s).map List.length = [2, 1, 26, 26, 9, 11, 6, 15] := by
  simp [headBlocks, ownPayload_length, identPayload_length, snapshotItems, counterItems, laneBytes, LaneCounters.bytes, timer16_eq,
    natBytes, openBytes_one]

theorem door_sizes (s : State) : (doorBlocks s).map List.length = [16, 24, 21, 7, 7, 1] := by
  simp [doorBlocks, doorBytes, travelBytes, limitsByte, energyItems, passageItems, timer16_eq, figure16_eq, natBytes, openBytes_one]

theorem momentaryKeys_eq : momentaryKeys = [0, 1, 2, 3, 4, 5, 6, 7, 8, 9, 10, 11, 12, 13, 14, 15, 17, 18, 19] := by decide

theorem panel_sizes (s : State) : (panelBlocks s).map List.length = [3, 19, 4, 17, 126, 1, 2, 34] := by
  have flags := rows_length (f := fun i => openBytes .summaryRecord 1 (s.pnu.summaries.getD i Summary.reset).values) (m := 1)
    (fun _ => rfl) 17
  have sets := rows_length (f := fun i => wordBytes (s.pnu.lastSeen.getD i 0)) (m := 2) (fun _ => rfl) 63
  simp only [panelBlocks, List.map_cons, List.map_nil, flags, sets, List.length_map, List.length_range, momentaryKeys_eq]
  rfl

theorem page0_door_sizes (s : State) :
    (headBlocks s ++ doorBlocks s).map List.length = [2, 1, 26, 26, 9, 11, 6, 15, 16, 24, 21, 7, 7, 1] := by
  rw [List.map_append, head_sizes, door_sizes]
  rfl

theorem page0_panel_sizes (s : State) :
    (headBlocks s ++ panelBlocks s).map List.length = [2, 1, 26, 26, 9, 11, 6, 15, 3, 19, 4, 17, 126, 1, 2, 34] := by
  rw [List.map_append, head_sizes, panel_sizes]
  rfl

/-- What both roles have of page 0. -/
theorem head_lies (s : State) (k : Nat) {b : List Byte} (block : (headBlocks s)[k]? = some b) :
    Lies b (([2, 1, 26, 26, 9, 11, 6, 15] : List Nat).take k).sum (pageBytes s 0) := by
  have inside : k < (headBlocks s).length := (List.getElem?_eq_some_iff.mp block).1
  have first : ∀ tail, Lies b (([2, 1, 26, 26, 9, 11, 6, 15] : List Nat).take k).sum (headBlocks s ++ tail).flatten := fun tail =>
    lies_flatten k ((List.getElem?_append_left inside).trans block)
      (by rw [List.take_append_of_le_length inside.le, List.map_take, head_sizes])
  cases role : s.conf.role with
  | door => exact page0_door role ▸ first _
  | panel => exact page0_panel role ▸ first _

theorem door_lies {s : State} (door : s.conf.role = .door) (k : Nat) {b : List Byte} (block : (headBlocks s ++ doorBlocks s)[k]? = some b) :
    Lies b (([2, 1, 26, 26, 9, 11, 6, 15, 16, 24, 21, 7, 7, 1] : List Nat).take k).sum (pageBytes s 0) :=
  page0_door door ▸ lies_block (page0_door_sizes s) k block

theorem panel_lies {s : State} (panel : s.conf.role = .panel) (k : Nat) {b : List Byte}
    (block : (headBlocks s ++ panelBlocks s)[k]? = some b) :
    Lies b (([2, 1, 26, 26, 9, 11, 6, 15, 3, 19, 4, 17, 126, 1, 2, 34] : List Nat).take k).sum (pageBytes s 0) :=
  page0_panel panel ▸ lies_block (page0_panel_sizes s) k block

/-! ### A panel's places -/

theorem bits8_bits : ∀ b7 b6 b5 b4 b3 b2 b1 b0 : Bool, ∀ k < 8,
    (bits8 b7 b6 b5 b4 b3 b2 b1 b0).getLsbD (7 - k) = [b7, b6, b5, b4, b3, b2, b1, b0].getD k false := by decide

/-- The first level of a byte is its bit 7 (R178). -/
theorem levelByte_bit (levels : List Bool) (p : Nat) :
    (levelByte levels (p / 8)).getLsbD (7 - p % 8) = levels.getD p false := by
  have place : 8 * (p / 8) + p % 8 = p := Nat.div_add_mod p 8
  have small : p % 8 < 8 := Nat.mod_lt p (by decide)
  rw [levelByte, bits8_bits _ _ _ _ _ _ _ _ _ small]
  conv_rhs => rw [← place]
  generalize p % 8 = k at small
  interval_cases k <;> rfl

theorem momentaryKeys_at : ∀ i < 19, momentaryKeys[i]? = some (if i < 16 then i else i + 1) := by
  rw [momentaryKeys_eq]
  decide

/-- A key's timer on page 0 (R166, R178). -/
theorem heldKey_reads {s : State} (panel : s.conf.role = .panel) {i : Nat} (inside : i < 19) :
    (byteAt (pageBytes s 0) (99 + i)).toNat =
      ((s.pnu.heldKeys.getD (if i < 16 then i else i + 1) .stopped).ms.map (fun ms => min (ms / 1000) 255)).getD 255 :=
  ((panel_lies panel 9 rfl).value i (by rw [List.getElem?_map, momentaryKeys_at i inside]; rfl)).trans (timer8_toNat _ _)

/-- The set last seen from a station on page 0 (R164, R178). -/
theorem lastSeen_reads {s : State} (panel : s.conf.role = .panel) {n : Nat} (first : 1 ≤ n) (last : n ≤ 63) :
    wordAt (pageBytes s 0) (137 + 2 * n) = (s.pnu.lastSeen.getD (n - 1) 0).toNat := by
  have row : Lies (wordBytes (s.pnu.lastSeen.getD (n - 1) 0)) (2 * (n - 1)) _ :=
    lies_rows (f := fun i => wordBytes (s.pnu.lastSeen.getD i 0)) (fun _ => rfl) (by omega : n - 1 < 63)
  have place : 139 + 2 * (n - 1) + 0 = 137 + 2 * n := by omega
  exact place ▸ (row.within (panel_lies panel 12 rfl)).word 0 rfl rfl

/-- A lamp's level on page 0 (R178). -/
theorem frame_reads {s : State} (panel : s.conf.role = .panel) {p : Nat} (inside : p < 272) :
    (byteAt (pageBytes s 0) (268 + p / 8)).getLsbD (7 - p % 8) = s.pnu.frame.getD p false := by
  have row : ((List.range 34).map (levelByte s.pnu.frame))[p / 8]? = some (levelByte s.pnu.frame (p / 8)) := by
    rw [List.getElem?_map, List.getElem?_range (by omega)]
    rfl
  have read : byteAt (pageBytes s 0) (268 + p / 8) = levelByte s.pnu.frame (p / 8) := (panel_lies panel 15 rfl).byte (p / 8) row
  rw [read, levelByte_bit]

/-! ### Page 1 -/

/-- A record's place, empty past the end of the list. -/
def recordBytes (l : List AlarmRecord) (i : Nat) : List Byte := ((l[i]?).map (·.bytes)).getD (List.replicate 5 0#8)

theorem recordBytes_length (l : List AlarmRecord) (i : Nat) : (recordBytes l i).length = 5 := by
  rw [recordBytes]
  cases l[i]? <;> rfl

/-- The blocks of page 1 (R98, R178). -/
def listBlocks (l : List AlarmRecord) : List (List Byte) :=
  [[byteOf l.length], ((List.range 16).map (recordBytes l)).flatten, setBytes (activeSet l), setBytes (unackedSet l)]

theorem page1_eq (s : State) : pageBytes s 1 = (listBlocks s.alu).flatten := by
  simp only [pageBytes, page1, listBlocks, List.flatten_cons, List.flatten_nil, List.append_assoc, List.append_nil]
  rfl

theorem list_sizes (l : List AlarmRecord) : (listBlocks l).map List.length = [1, 80, 3, 3] := by
  simp only [listBlocks, List.map_cons, List.map_nil, rows_length (recordBytes_length l)]
  rfl

theorem list_lies (s : State) (k : Nat) {b : List Byte} (block : (listBlocks s.alu)[k]? = some b) :
    Lies b (([1, 80, 3, 3] : List Nat).take k).sum (pageBytes s 1) :=
  page1_eq s ▸ lies_block (list_sizes s.alu) k block

theorem record_lies (s : State) {i : Nat} (inside : i < 16) : Lies (recordBytes s.alu i) (1 + 5 * i) (pageBytes s 1) :=
  (lies_rows (recordBytes_length s.alu) inside).within (list_lies s 1 rfl)

theorem kindNumber_small (k : AlarmKind) : kindNumber k ≤ 255 := by cases k <;> decide

theorem stateCode_small (c : AlarmState) : c.code ≤ 255 := by cases c <;> decide

/-- A record on page 1 (R98, R178). -/
theorem record_reads {s : State} {i : Nat} {r : AlarmRecord} (inside : i < 16) (held : s.alu[i]? = some r) :
    (byteAt (pageBytes s 1) (1 + 5 * i)).toNat = kindNumber r.kind ∧ (byteAt (pageBytes s 1) (2 + 5 * i)).toNat = r.st.code ∧
      (r.count ≤ 255 → (byteAt (pageBytes s 1) (3 + 5 * i)).toNat = r.count) ∧
      wordAt (pageBytes s 1) (4 + 5 * i) = r.age % 65536 := by
  have lies := record_lies s inside
  rw [recordBytes, held] at lies
  have place : ∀ k, 1 + 5 * i + k = 1 + k + 5 * i := fun k => by omega
  exact ⟨(lies.value 0 rfl).trans (byteOf_small (kindNumber_small _)), place 1 ▸ (lies.value 1 rfl).trans (byteOf_small (stateCode_small _)),
    fun small => place 2 ▸ (lies.value 2 rfl).trans (byteOf_small small), place 3 ▸ (lies.word 3 rfl rfl).trans (natWord_toNat _)⟩

/-- A set on page 1, members 24 to 1 (R178). -/
theorem set_reads {x : BitVec 24} {off : Nat} {page : List Byte} (lies : Lies (setBytes x) off page) :
    65536 * (byteAt page off).toNat + wordAt page (off + 1) = x.toNat := by
  have top : (byteAt page off).toNat = (x.extractLsb' 16 8).toNat := lies.value 0 rfl
  have middle : (byteAt page (off + 1)).toNat = (x.extractLsb' 8 8).toNat := lies.value 1 rfl
  have bottom : (byteAt page (off + 2)).toNat = (x.extractLsb' 0 8).toNat := lies.value 2 rfl
  rw [wordAt, top, middle, bottom]
  simp only [BitVec.extractLsb'_toNat, Nat.shiftRight_eq_div_pow]
  omega

/-! ### Page 2 -/

theorem cfgBytes_length (c : Cfg) : (cfgBytes c).length = 54 := by
  have width : ∀ f, (fieldBytes (cfgItem c) f).length = if f.wide = true then 2 else 1 := fun f => by
    rw [fieldBytes]
    split <;> rfl
  rw [cfgBytes_eq, List.length_flatMap, List.map_congr_left fun f _ => width f]
  rfl

/-- The blocks of page 2 (R178). -/
def configBlocks (s : State) : List (List Byte) :=
  [(List.range 128).map (byteAt s.suc.image),
    [byteOf s.suc.reason.code, (s.suc.refused.map byteOf).getD 0xFF#8, byteOf s.suc.clamps],
    byteOf (if s.suc.accepted.isSome then 1 else 0) :: (s.suc.accepted.map cfgBytes).getD (List.replicate 54 0#8)]

theorem page2_eq (s : State) : pageBytes s 2 = (configBlocks s).flatten := by
  simp [pageBytes, page2, configBlocks]

theorem config_sizes (s : State) : (configBlocks s).map List.length = [128, 3, 55] := by
  cases held : s.suc.accepted <;>
    simp [configBlocks, held, cfgBytes_length]

theorem config_lies (s : State) (k : Nat) {b : List Byte} (block : (configBlocks s)[k]? = some b) :
    Lies b (([128, 3, 55] : List Nat).take k).sum (pageBytes s 2) :=
  page2_eq s ▸ lies_block (config_sizes s) k block

theorem bytes_of_list {bs : List Byte} {n : Nat} (h : bs.length = n) : (List.range n).map (byteAt bs) = bs := by
  subst h
  exact List.ext_getElem (by simp) fun i _ inside => by simp [byteAt, inside]

theorem reasonCode_small (r : FaultReason) : r.code ≤ 255 := by cases r <;> decide

/-! ### Page 3 and an entry's page -/

/-- The capture on page 3 (R179). -/
theorem capture_reads {s : State} {c : Capture} (held : s.dgp.capture = some c) :
    (byteAt (pageBytes s 3) 0).toNat = 1 ∧ (byteAt (pageBytes s 3) 1).toNat = (if c.lane = .a then 0 else 1) ∧
      (byteAt (pageBytes s 3) 2).toNat = c.reason.code ∧ (byteAt (pageBytes s 3) 3).toNat = (c.arb.map (·.toNat)).getD 0 ∧
      (byteAt (pageBytes s 3) 4).toNat = (c.serial.map (·.toNat)).getD 0 ∧
      (byteAt (pageBytes s 3) 5).toNat = (c.length.map (·.toNat)).getD 0 ∧
      wordAt (pageBytes s 3) 7 = (c.received.map (·.toNat)).getD 0 ∧ wordAt (pageBytes s 3) 9 = (c.computed.map (·.toNat)).getD 0 ∧
      wordAt (pageBytes s 3) 11 = c.age % 65536 := by
  have lies := Lies.whole (pageBytes s 3)
  have page : pageBytes s 3 = page3 s := rfl
  rw [page, page3, held] at lies
  simp only [suppliedWord, natBytes, wordBytes, openBytes_one, List.cons_append, List.nil_append] at lies
  rw [page, page3, held]
  have word : ∀ w : Option (BitVec 16), (w.getD 0#16).toNat = (w.map (·.toNat)).getD 0 := fun w => by cases w <;> rfl
  refine ⟨lies.value 0 rfl, (lies.value 1 rfl).trans ?_, (lies.value 2 rfl).trans ?_, (lies.value 3 rfl).trans (suppliedByte_toNat _),
    (lies.value 4 rfl).trans (suppliedByte_toNat _), (lies.value 5 rfl).trans (suppliedByte_toNat _),
    (lies.word 7 rfl rfl).trans (word _), (lies.word 9 rfl rfl).trans (word _), (lies.word 11 rfl rfl).trans (natWord_toNat _)⟩
  · cases c.lane <;> rfl
  · cases c.reason <;> rfl

/-- The blocks of an entry's page (R117, R178). -/
def entryBlocks (e : Entry) : List (List Byte) :=
  [openBytes .entryFlags 1 [1, flag (e.kind == .panel), flag (!e.live), flag e.single, flag e.serD.isSome, flag e.serS.isSome,
      flag e.serI.isSome] ++
    openBytes .partFlags 1 [flag e.door.isSome, flag e.panel.isSome, flag e.ident.isSome],
    natBytes e.age ++ natBytes e.heardA ++ natBytes e.heardB ++ [sentByte e.serD, sentByte e.serS, sentByte e.serI],
    (e.door.map encodeState).getD (List.replicate 11 0#8),
    (e.panel.map (fun h => encodeDemand h.part ++ [h.base])).getD (List.replicate 6 0#8),
    (e.ident.map encodeIdent).getD (List.replicate 6 0#8)]

theorem entryBytes_eq (e : Entry) : e.bytes = (entryBlocks e).flatten := by
  simp [Entry.bytes, entryBlocks]

theorem entry_sizes (e : Entry) : (entryBlocks e).map List.length = [2, 9, 11, 6, 6] := by
  simp only [entryBlocks, List.map_cons, List.map_nil]
  cases e.door <;> cases e.panel <;> cases e.ident <;> rfl

theorem entryPage_eq (s : State) {n : Nat} (first : 1 ≤ n) : pageBytes s (n + 15) = entryPage s n := by
  rw [pageBytes, if_neg (by omega), if_neg (by omega), if_neg (by omega), if_neg (by omega), Nat.add_sub_cancel]

theorem entryPage_length (s : State) (n : Nat) : (entryPage s n).length = 34 := by
  rw [entryPage]
  cases entryOf s n with
  | none => rfl
  | some e =>
    rw [Option.map_some, Option.getD_some, entryBytes_eq, List.length_flatten, entry_sizes]
    rfl

theorem entry_lies {s : State} {n : Nat} {e : Entry} (first : 1 ≤ n) (held : entryOf s n = some e) (k : Nat) {b : List Byte}
    (block : (entryBlocks e)[k]? = some b) : Lies b (([2, 9, 11, 6, 6] : List Nat).take k).sum (pageBytes s (n + 15)) := by
  rw [entryPage_eq s first, entryPage, held, Option.map_some, Option.getD_some, entryBytes_eq]
  exact lies_block (entry_sizes e) k block

/-! ### The statement -/

theorem flatten_length {blocks : List (List Byte)} {sizes : List Nat} (h : blocks.map List.length = sizes) :
    blocks.flatten.length = sizes.sum := by
  rw [List.length_flatten, h]

theorem startUpCode_toNat (c : StartUp) : (byteOf c.code).toNat = c.code := by cases c <;> rfl

/-- Role and station in one byte (R178). -/
theorem roleByte_toNat (role : Role) {station : Nat} (fits : station < 128) :
    (BitVec.ofBool (roleBit role) ++ BitVec.ofNat 7 station : BitVec 8).toNat = (if role = .panel then 128 else 0) + station := by
  rw [BitVec.toNat_append, BitVec.toNat_ofNat, Nat.mod_eq_of_lt fits]
  cases role
  · simp [roleBit]
  · have := Nat.two_pow_add_eq_or_of_lt (i := 7) fits 1
    simpa [roleBit, Nat.shiftLeft_eq] using this.symm

/-- The travel unit's windows on page 0 (R178). -/
theorem windows_read (w : Option StallWindow) {n m : Nat} (tally : n = (w.map (·.tally)).elim 255 (min · 255))
    (number : m = (w.map (·.number)).elim 255 (min · 255)) :
    (w = none → n = 255 ∧ m = 255) ∧ ∀ v, w = some v → n = min v.tally 255 ∧ m = min v.number 255 := by
  subst tally number
  exact ⟨fun h => by simp [h], fun v h => by simp [h]⟩

theorem stopped_reads (t : Option Nat) : t.elim 255 (min · 255) = min (t.getD 255) 255 := by cases t <;> rfl

theorem door_page_length {s : State} (door : s.conf.role = .door) : (pageBytes s 0).length = 172 := by
  rw [page0_door door, flatten_length (page0_door_sizes s)]
  rfl

theorem panel_page_length {s : State} (panel : s.conf.role = .panel) : (pageBytes s 0).length = 302 := by
  rw [page0_panel panel, flatten_length (page0_panel_sizes s)]
  rfl

theorem page3_length (s : State) : (pageBytes s 3).length = 13 := by
  have page : pageBytes s 3 = page3 s := rfl
  rw [page, page3]
  cases s.dgp.capture <;> rfl

/-- The newest payloads on page 0, whole (R134, R178). -/
theorem payload_reads (s : State) :
    (∀ p, s.conf.role = .door → s.snu.state.newest = some p → ((pageBytes s 0).drop 64).take 11 = encodeState p) ∧
      (∀ p, s.conf.role = .panel → s.snu.demand.newest = some p →
        ((pageBytes s 0).drop 64).take 11 = encodeDemand p ++ List.replicate 6 0) ∧
      ∀ p, s.snu.ident.newest = some p → ((pageBytes s 0).drop 75).take 6 = encodeIdent p := by
  have own : Lies (ownPayload s.conf.role s.snu) 64 (pageBytes s 0) := head_lies s 5 rfl
  have ident : Lies (identPayload s.snu) 75 (pageBytes s 0) := head_lies s 6 rfl
  have ownPart := own.part (ownPayload_length _ _)
  have identPart := ident.part (identPayload_length _)
  refine ⟨fun p role newest => ownPart.trans ?_, fun p role newest => ownPart.trans ?_, fun p newest => identPart.trans ?_⟩
  · rw [role, ownPayload, newest]
    rfl
  · rw [role, ownPayload, newest]
    rfl
  · rw [identPayload, newest]
    rfl

/-- The accepted configuration on page 2 (R178). -/
theorem accepted_reads (s : State) :
    (∀ c, s.suc.accepted = some c →
      (byteAt (pageBytes s 2) 131).toNat = 1 ∧ ((pageBytes s 2).drop 132).take 54 = cfgBytes c) ∧
      (s.suc.accepted = none → ((pageBytes s 2).drop 131).take 55 = List.replicate 55 0) := by
  have lies : Lies _ 131 (pageBytes s 2) := config_lies s 2 rfl
  refine ⟨fun c held => ?_, fun held => ?_⟩
  · rw [held] at lies
    have bytes : Lies (cfgBytes c) 1 (1#8 :: cfgBytes c) := ⟨[1#8], [], by simp, rfl⟩
    exact ⟨lies.value 0 rfl, (bytes.within lies).part (cfgBytes_length c)⟩
  · rw [held] at lies
    exact lies.part rfl

/-- The places of a station's page (R117, R178). -/
theorem entry_reads {s : State} {n : Nat} {e : Entry} (first : 1 ≤ n) (held : entryOf s n = some e) :
    wordAt (pageBytes s (n + 15)) 2 = e.age % 65536 ∧ wordAt (pageBytes s (n + 15)) 4 = e.heardA % 65536 ∧
      wordAt (pageBytes s (n + 15)) 6 = e.heardB % 65536 ∧
      (byteAt (pageBytes s (n + 15)) 8).toNat = (e.serD.map (·.toNat)).getD 255 ∧
      (byteAt (pageBytes s (n + 15)) 9).toNat = (e.serS.map (·.toNat)).getD 255 ∧
      (byteAt (pageBytes s (n + 15)) 10).toNat = (e.serI.map (·.toNat)).getD 255 ∧
      ((pageBytes s (n + 15)).drop 11).take 11 = (e.door.map encodeState).getD (List.replicate 11 0) ∧
      ((pageBytes s (n + 15)).drop 22).take 6 = (e.panel.map (fun h => encodeDemand h.part ++ [h.base])).getD (List.replicate 6 0) ∧
      ((pageBytes s (n + 15)).drop 28).take 6 = (e.ident.map encodeIdent).getD (List.replicate 6 0) := by
  have ages : Lies _ 2 (pageBytes s (n + 15)) := entry_lies first held 1 rfl
  have door : Lies _ 11 (pageBytes s (n + 15)) := entry_lies first held 2 rfl
  have panel : Lies _ 22 (pageBytes s (n + 15)) := entry_lies first held 3 rfl
  have ident : Lies _ 28 (pageBytes s (n + 15)) := entry_lies first held 4 rfl
  simp only [natBytes, wordBytes, List.cons_append, List.nil_append] at ages
  have length : ((entryBlocks e).map List.length) = [2, 9, 11, 6, 6] := entry_sizes e
  simp only [entryBlocks, List.map_cons, List.map_nil, List.cons.injEq, and_true] at length
  obtain ⟨-, -, doorLength, panelLength, identLength⟩ := length
  refine ⟨(ages.word 0 rfl rfl).trans (natWord_toNat _), (ages.word 2 rfl rfl).trans (natWord_toNat _),
    (ages.word 4 rfl rfl).trans (natWord_toNat _), (ages.value 6 rfl).trans (sentByte_toNat _),
    (ages.value 7 rfl).trans (sentByte_toNat _), (ages.value 8 rfl).trans (sentByte_toNat _),
    door.part doorLength, panel.part panelLength, ident.part identLength⟩

/-- Settles O48: each place is read in the block it lies in. -/
theorem pagesHaveTheirSizes : Obligations.PagesHaveTheirSizes := by
  intro s
  have head : Lies [byteOf s.suc.startUp.code, BitVec.ofBool (roleBit s.conf.role) ++ BitVec.ofNat 7 s.conf.station] 0
      (pageBytes s 0) := head_lies s 0 rfl
  have config : Lies [byteOf s.suc.reason.code, (s.suc.refused.map byteOf).getD 0xFF#8, byteOf s.suc.clamps] 128 (pageBytes s 2) :=
    config_lies s 1 rfl
  obtain ⟨queue, overflow, conflicts, duplicates, late⟩ := counter_reads (head_lies s 4 rfl)
  obtain ⟨serD, serS, serI, spacingD, spacingS, refreshD, refreshS, timerI, zero⟩ := snapshot_reads (head_lies s 7 rfl)
  obtain ⟨state, demand, ident⟩ := payload_reads s
  obtain ⟨accepted, unaccepted⟩ := accepted_reads s
  refine ⟨door_page_length, panel_page_length, ?page1, ?page2, page3_length s, fun n low high => ?pages, ?startUp,
    fun fits => (head.value 1 rfl).trans (roleByte_toNat _ fits), fun id => ?lane, queue, overflow, conflicts, duplicates, late,
    state, demand, ident, serD, serS, serI, spacingD, spacingS, refreshD, refreshS, timerI, zero,
    fun door => ⟨door_reads (door_lies door 8 rfl), ?travel, energy_reads (door_lies door 10 rfl),
      passage_reads (door_lies door 12 rfl)⟩,
    fun panel => ⟨(panel_lies panel 10 rfl).part rfl, ⟨fun i inside => heldKey_reads panel inside,
      ((panel_lies panel 14 rfl).value 0 rfl).trans (timer8_toNat _ _),
      ((panel_lies panel 14 rfl).value 1 rfl).trans (timer8_toNat _ _)⟩, fun n first last => lastSeen_reads panel first last,
      fun p inside => frame_reads panel inside⟩,
    fun small => ((list_lies s 0 rfl).value 0 rfl).trans (byteOf_small small), fun i r inside held => record_reads inside held,
    fun i inside past => ?records, set_reads (list_lies s 2 rfl), set_reads (list_lies s 3 rfl), fun whole => ?image,
    (config.value 0 rfl).trans (byteOf_small (reasonCode_small _)), fun off held small => ?refused, fun held => ?notRefused,
    fun small => (config.value 2 rfl).trans (byteOf_small (by omega)), accepted, unaccepted, fun held => ?noCapture,
    fun c held => capture_reads held, fun n first last => ⟨fun held => ?noEntry, fun e held => entry_reads first held⟩⟩
  case page1 =>
    rw [page1_eq, flatten_length (list_sizes s.alu)]
    rfl
  case page2 =>
    rw [page2_eq, flatten_length (config_sizes s)]
    rfl
  case pages =>
    obtain ⟨m, rfl⟩ : ∃ m, n = m + 15 := ⟨n - 15, by omega⟩
    rw [entryPage_eq s (by omega), entryPage_length]
  case startUp =>
    refine ((head.value 0 rfl).trans (startUpCode_toNat _)).trans ?_
    cases s.suc.startUp <;> rfl
  case lane =>
    cases id with
    | a => exact lane_reads (head_lies s 2 rfl)
    | b => exact lane_reads (head_lies s 3 rfl)
  case travel =>
    obtain ⟨pos, running, discord, conflict, count, ref, overrun, figure, stroke, slow, tally, number, arming, hand, vsl⟩ :=
      travel_reads (door_lies door 9 rfl)
    obtain ⟨stopped, runs⟩ := windows_read s.trm.stall tally number
    exact ⟨pos, running, discord, conflict, count, ref, overrun, figure, stroke, slow, stopped, runs, arming,
      hand.trans (stopped_reads _), vsl⟩
  case records =>
    have part := (record_lies s inside).part (recordBytes_length s.alu i)
    rw [recordBytes, List.getElem?_eq_none past] at part
    exact part
  case image =>
    have lies : Lies _ 0 (pageBytes s 2) := config_lies s 0 rfl
    rw [bytes_of_list whole] at lies
    exact lies.part whole
  case refused =>
    refine (config.value 1 rfl).trans ?_
    rw [held]
    exact byteOf_small (by omega)
  case notRefused =>
    refine (config.value 1 rfl).trans ?_
    rw [held]
    rfl
  case noCapture =>
    have page : pageBytes s 3 = page3 s := rfl
    rw [page, page3, held]
    rfl
  case noEntry =>
    rw [entryPage_eq s first, entryPage, held]
    rfl

end Sys2Proof.Machine
end

