-- ==== Sys2Proof/Proofs/Clock.lean ====
section
/-! SUPPORT and PROOFS. The part's own clock (log 2): which commands are due, unit by unit, and what one millisecond does. -/

namespace Sys2Proof.Machine

/-! ### Timers at their limits -/

/-- A timer has reached a limit. -/
def TimerAt (t : Option Nat) (limit : Nat) : Prop := ∃ n, t = some n ∧ limit ≤ n

/-- A watch that still runs has reached a limit. -/
def WatchAt (w : Watch) (limit : Nat) : Prop := ∃ n, w = .running n ∧ limit ≤ n

theorem reached_iff {t : Option Nat} {limit : Nat} : reached t limit = true ↔ TimerAt t limit := by
  cases t <;> simp [reached, TimerAt]

theorem watchReached_iff {w : Watch} {limit : Nat} : w.reached limit = true ↔ WatchAt w limit := by
  cases w <;> simp [Watch.reached, WatchAt]

/-- A window, or nothing where none is timed, has reached a limit. -/
theorem msReached_iff {α : Type} {w : Option α} {ms : α → Nat} {limit : Nat} :
    reached (w.map ms) limit = true ↔ ∃ v, w = some v ∧ limit ≤ ms v := by
  cases w <;> simp [reached]

theorem findingEnds_iff {f : Option Finding} : findingEnds f = true ↔ ∃ w, f = some (.timeout w) ∧ 1000 ≤ w.ms := by
  rcases f with _ | v | _
  · simp [findingEnds]
  · simp only [findingEnds, decide_eq_true_eq, Option.some.injEq, Finding.timeout.injEq, exists_eq_left']
    exact Iff.rfl
  · simp [findingEnds]

/-- A lead has stood at a new level for 40 ms (1.7). -/
def LeadSettles (s : State) (l : Lead) (made : Bool) : Prop :=
  TimerAt (s.settle.get l) 40 ∧ s.lead.get l = made ∧ s.deb.get l ≠ made ∧
    ¬ (s.panelRuns = true ∧ (l = .cla ∨ l = .clb ∨ l = .olm))

/-- A key has differed for eight scans (R154). -/
def KeySettles (s : State) (k : Nat) (made : Bool) : Prop :=
  (s.panelRuns = true ∧ s.pnu.running = true) ∧ 8 ≤ s.pnu.scans.getD k 0 ∧ s.pnu.keys.getLsbD k ≠ made

/-- When each expiry is due. -/
def FallsDue (s : State) (c : Instr) : Prop :=
  match c with
  | .configRetryWaitExpiry => TimerAt s.suc.retryWait 5
  | .listenTimerExpiry => s.suc.startUp = .listen ∧ TimerAt s.suc.listenTimer (400 * s.conf.refresh)
  | .flashEdge => 125 ≤ s.flash.ms
  | .limitDebouncedChange l made => LeadSettles s l.lead made
  | .lcPressed side => LeadSettles s side.closeLead true
  | .lcReleased side => LeadSettles s side.closeLead false
  | .loPressed side => LeadSettles s side.openLead true
  | .loReleased side => LeadSettles s side.openLead false
  | .mainsDebouncedChange made => LeadSettles s .mains made
  | .warningTimerExpiry => s.dcu.ctl = .warning ∧ s.dcu.warnTimer = some 0
  | .pauseTimerExpiry valve => TimerAt (if valve = .vcl then s.dcu.vclPause else s.dcu.vopPause)
      (if s.suc.accepted = none then 1000 else s.conf.reversalPause)
  | .heldOpenLimit => WatchAt s.dcu.held (1000 * s.conf.passageMax + 1)
  | .discordTimerExpiry => WatchAt s.trm.discord s.conf.discordTime
  | .conflictTimerExpiry => WatchAt s.trm.conflict s.conf.discordTime
  | .closeMaximumPassed => s.trm.stroke = some .closing ∧ WatchAt s.trm.strokeTimer (1000 * s.conf.closeMax)
  | .openMaximumPassed => s.trm.stroke = some .opening ∧ WatchAt s.trm.strokeTimer (1000 * s.conf.openMax)
  | .stallWindowEnd => (∃ w, s.trm.stall = some w ∧ 1000 ≤ w.ms) ∨
      (s.trm.stall = none ∧ ∃ w, s.trm.finding = some (.timeout w) ∧ 1000 ≤ w.ms)
  | .handMoveArmingExpiry => TimerAt s.trm.arming 2000
  | .handMoveWindowEnd => ∃ w, s.trm.hand = some w ∧ 1000 ≤ w.ms
  | .gateEnd => s.enu.running = true ∧ TimerAt s.enu.gate 100
  | .pumpRunLimit => s.enu.pumpOn = true ∧ TimerAt s.enu.run (1000 * s.conf.pumpMax)
  | .claimHoldExpiry => s.psu.phase = .fresh ∧ s.psu.claimTimer = some 0
  | .alarmAgeTick k => ∃ r ∈ s.alu, r.kind = k ∧ 1000 ≤ r.ms
  | .telegramTaken => s.suc.startUp.running = true ∧ s.rxq.queue ≠ []
  | .entryGoesStale n => s.suc.startUp.running = true ∧ ∃ e ∈ s.ste.table, e.num = n ∧ e.live = true ∧ 300 * s.conf.refresh ≤ e.age
  | .laneHeardAgeLimit n lane => s.suc.startUp.running = true ∧ ∃ e ∈ s.ste.table, e.num = n ∧ e.live = true ∧
      300 * s.conf.refresh ≤ (if lane = .a then e.heardA else e.heardB) ∧
      (decide (e.heardA < 300 * s.conf.refresh) != decide (e.heardB < 300 * s.conf.refresh)) ≠ e.single
  | .spacingTimerEnd => s.suc.startUp = .joined ∧
      TimerAt (if s.conf.role = .door then s.snu.state.spacing else s.snu.demand.spacing) 50
  | .refreshTimerExpiry => s.suc.startUp = .joined ∧
      TimerAt (if s.conf.role = .door then s.snu.state.refresh else s.snu.demand.refresh) (100 * s.conf.refresh)
  | .identTimerExpiry => s.suc.startUp = .joined ∧ TimerAt s.snu.ident.timer (1000 * s.conf.refresh)
  | .withdrawalEnd id => s.suc.startUp.running = true ∧ (s.lane id).activity = .withdrawn ∧ TimerAt (s.lane id).withdraw 1000
  | .silenceTimerExpiry id => s.suc.startUp.running = true ∧ TimerAt (s.lane id).silence (300 * s.conf.refresh)
  | .keyScan keys => (s.panelRuns = true ∧ s.pnu.running = true) ∧ 5 ≤ s.pnu.scanTimer ∧ keys = s.pnu.contacts
  | .groupClosePress g => 1 ≤ g ∧ g ≤ 16 ∧ KeySettles s (g - 1) true
  | .modeSelectorChange made => KeySettles s 16 made
  | .ackPress => KeySettles s 17 true
  | .silencePress => KeySettles s 18 true
  | .lampTestPress => KeySettles s 19 true
  | .lampTestRelease => KeySettles s 19 false
  | .keyRelease k => (k < 16 ∨ k = 17 ∨ k = 18) ∧ KeySettles s k false
  | .lampTestTimeout => (s.panelRuns = true ∧ s.pnu.running = true) ∧ TimerAt s.pnu.lampTest 30000
  | .keyHeldLimit k => (s.panelRuns = true ∧ s.pnu.running = true) ∧ k < 20 ∧ WatchAt (s.pnu.heldKeys.getD k .stopped) 60000
  | .modeConflictTimerExpiry => (s.panelRuns = true ∧ s.pnu.running = true) ∧ WatchAt s.pnu.conflict 10000
  | .lampFrame => s.doorRuns = false ∧ 10 ≤ s.pnu.frameTimer
  | .diagReadCopy => s.dgp.port = .addressedRead ∧ s.dgp.copy = none
  | .captureAgeTick => ∃ c, s.dgp.capture = some c ∧ 1000 ≤ c.ms
  | _ => False

theorem mem_dueIf {b : Bool} {c d : Instr} : c ∈ dueIf b d ↔ b = true ∧ c = d := by
  cases b <;> simp [dueIf]

/-! ### What is due, unit by unit -/

/-- A list holds just those commands of a kind that fall due. -/
def DueExactly (s : State) (l : List Instr) (kind : Instr → Prop) : Prop := ∀ c, c ∈ l ↔ FallsDue s c ∧ kind c

theorem DueExactly.append {s : State} {l m : List Instr} {K L : Instr → Prop} (h : DueExactly s l K) (g : DueExactly s m L) :
    DueExactly s (l ++ m) (fun c => K c ∨ L c) := fun c => by
  rw [List.mem_append, h c, g c, and_or_left]

/-- One command, due by its condition. -/
theorem DueExactly.one {s : State} {b : Bool} {d : Instr} (h : b = true ↔ FallsDue s d) : DueExactly s (dueIf b d) (· = d) :=
  fun c => by
    rw [mem_dueIf, h]
    exact ⟨fun ⟨due, e⟩ => ⟨e ▸ due, e⟩, fun ⟨due, e⟩ => ⟨e ▸ due, e⟩⟩

/-- A list by its places. -/
theorem DueExactly.flatMap {s : State} {α : Type} {xs : List α} {f : α → List Instr} {K : α → Instr → Prop}
    (h : ∀ x ∈ xs, DueExactly s (f x) (K x)) : DueExactly s (xs.flatMap f) (fun c => ∃ x ∈ xs, K x c) := fun c => by
  simp only [List.mem_flatMap]
  constructor
  · rintro ⟨x, hx, m⟩
    exact ⟨((h x hx c).mp m).1, x, hx, ((h x hx c).mp m).2⟩
  · rintro ⟨due, x, hx, kind⟩
    exact ⟨x, hx, (h x hx c).mpr ⟨due, kind⟩⟩

theorem DueExactly.of_mem {s : State} {l : List Instr} {K : Instr → Prop} (h : DueExactly s l K) {c : Instr} (m : c ∈ l) :
    FallsDue s c := ((h c).mp m).1

theorem refreshMs_eq (s : State) : s.refreshMs = 100 * s.conf.refresh := Nat.mul_comm _ _

theorem staleMs_eq (s : State) : s.staleMs = 300 * s.conf.refresh := by
  rw [State.staleMs, refreshMs_eq]
  omega

/-- Start-up control and the flash timing (R1, R169, R173). -/
theorem due_start (s : State) :
    DueExactly s (dueStart s) (fun c => (c = .configRetryWaitExpiry ∨ c = .listenTimerExpiry) ∨ c = .flashEdge) := by
  refine ((DueExactly.one reached_iff).append (.one ?_)).append (.one (decide_eq_true_iff))
  have limit : 4 * s.refreshMs = 400 * s.conf.refresh := by rw [refreshMs_eq]; omega
  rw [Bool.and_eq_true, beq_iff_eq, limit, reached_iff]
  exact Iff.rfl

def allLeads : List Lead := [.cla, .clb, .olm, .loa, .lob, .lca, .lcb, .mains]

theorem settled_falls {s : State} (l : Lead) (made : Bool) : FallsDue s (settledCommand made l) ↔ LeadSettles s l made := by
  cases l <;> cases made <;> exact Iff.rfl

/-- A lead that has settled (1.7, R4, R33, R63). -/
theorem due_lead (s : State) (l : Lead) : DueExactly s (dueLead s l) (fun c => ∃ made, c = settledCommand made l) := fun c => by
  have settles : (reached (s.settle.get l) Config.debounceMs && s.lead.get l != s.deb.get l && !s.limitIgnored l) = true ↔
      LeadSettles s l (s.lead.get l) := by
    simp only [Bool.and_eq_true, reached_iff, bne_iff_ne, Bool.not_eq_true', ← Bool.not_eq_true, limitIgnored_iff, LeadSettles,
      true_and, and_assoc, ne_comm]
    exact Iff.rfl
  rw [dueLead, mem_dueIf, settles]
  constructor
  · rintro ⟨due, rfl⟩
    exact ⟨(settled_falls l _).mpr due, _, rfl⟩
  · rintro ⟨due, made, rfl⟩
    have due := (settled_falls l made).mp due
    obtain rfl : s.lead.get l = made := due.2.1
    exact ⟨due, rfl⟩

theorem due_leads (s : State) : DueExactly s (dueLeads s) (fun c => ∃ l ∈ allLeads, ∃ made, c = settledCommand made l) := by
  have each : dueLeads s = allLeads.flatMap (dueLead s) := by simp [dueLeads, allLeads]
  rw [each]
  exact .flatMap fun l _ => due_lead s l

/-- The travel monitor (R35, R36, R44 to R49). -/
theorem due_travel (s : State) : DueExactly s (dueTravel s) (fun c => (((((c = .discordTimerExpiry ∨ c = .conflictTimerExpiry) ∨
    c = .closeMaximumPassed) ∨ c = .openMaximumPassed) ∨ c = .stallWindowEnd) ∨ c = .handMoveArmingExpiry) ∨
    c = .handMoveWindowEnd) := by
  have stroke : ∀ d n, (s.trm.stroke == some d && s.trm.strokeTimer.reached (n * 1000)) = true ↔
      s.trm.stroke = some d ∧ WatchAt s.trm.strokeTimer (1000 * n) := fun d n => by
    rw [Bool.and_eq_true, beq_iff_eq, watchReached_iff, Nat.mul_comm]
  refine ((((((DueExactly.one watchReached_iff).append (.one watchReached_iff)).append (.one (stroke _ _))).append
    (.one (stroke _ _))).append (.one ?stall)).append (.one reached_iff)).append (.one ?hand)
  case stall =>
    rw [Bool.or_eq_true, Bool.and_eq_true, msReached_iff, findingEnds_iff, Option.isNone_iff_eq_none]
    exact Iff.rfl
  case hand =>
    rw [msReached_iff]
    exact Iff.rfl

/-- The door control unit and the passage unit (R18, R25, R27, R71). -/
theorem due_door (s : State) : DueExactly s (dueDoor s) (fun c => (((c = .warningTimerExpiry ∨ c = .pauseTimerExpiry .vcl) ∨
    c = .pauseTimerExpiry .vop) ∨ c = .heldOpenLimit) ∨ c = .claimHoldExpiry) := by
  have pause : pauseMs s = if s.suc.accepted = none then 1000 else s.conf.reversalPause := by
    cases h : s.suc.accepted <;> simp [pauseMs, h, Config.unconfiguredPauseMs, State.conf]
  refine ((((DueExactly.one ?_).append (.one ?_)).append (.one ?_)).append (.one ?_)).append (.one ?_)
  · rw [Bool.and_eq_true, beq_iff_eq, beq_iff_eq]
    exact Iff.rfl
  · rw [reached_iff, pause]
    exact Iff.rfl
  · rw [reached_iff, pause]
    exact Iff.rfl
  · rw [watchReached_iff, Nat.mul_comm]
    exact Iff.rfl
  · rw [Bool.and_eq_true, beq_iff_eq, beq_iff_eq]
    exact Iff.rfl

/-- The energy unit (R53, R65). -/
theorem due_energy (s : State) : DueExactly s (dueEnergy s) (fun c => c = .pumpRunLimit ∨ c = .gateEnd) := by
  refine (DueExactly.one ?_).append (.one ?_)
  · rw [Bool.and_eq_true, reached_iff, Nat.mul_comm]
    exact Iff.rfl
  · rw [Bool.and_eq_true, reached_iff]
    exact Iff.rfl

/-- The seconds of the alarm list (R90). -/
theorem due_alarms (s : State) : DueExactly s (dueAlarms s) (fun c => ∃ k, c = .alarmAgeTick k) := fun c => by
  simp only [dueAlarms, List.mem_map, List.mem_filter, decide_eq_true_eq]
  constructor
  · rintro ⟨r, ⟨held, due⟩, rfl⟩
    exact ⟨⟨r, held, rfl, due⟩, _, rfl⟩
  · rintro ⟨due, k, rfl⟩
    obtain ⟨r, held, rfl, due⟩ : ∃ r ∈ s.alu, r.kind = k ∧ 1000 ≤ r.ms := due
    exact ⟨r, ⟨held, due⟩, rfl⟩

/-- The diagnostic port (R177, R179). -/
theorem due_diag (s : State) : DueExactly s (dueDiag s) (fun c => c = .diagReadCopy ∨ c = .captureAgeTick) := by
  refine (DueExactly.one ?_).append (.one ?_)
  · rw [Bool.and_eq_true, beq_iff_eq, Option.isNone_iff_eq_none]
    exact Iff.rfl
  · rw [Option.any_eq_true]
    exact exists_congr fun c => and_congr_right fun _ => decide_eq_true_iff

/-- A lane (R143, R149). -/
theorem due_lane (s : State) (id : LaneId) :
    DueExactly s (dueLane s id) (fun c => c = .withdrawalEnd id ∨ c = .silenceTimerExpiry id) := by
  rw [dueLane]
  split
  · rename_i runs
    refine (DueExactly.one ?_).append (.one ?_)
    · rw [Bool.and_eq_true, beq_iff_eq, reached_iff]
      exact (and_iff_right runs).symm
    · rw [reached_iff, staleMs_eq]
      exact (and_iff_right runs).symm
  · rename_i stopped
    refine fun c => ⟨nofun, ?_⟩
    rintro ⟨due, rfl | rfl⟩ <;> exact absurd due.1 stopped

/-- The snapshot unit (R128 to R131). -/
theorem due_snapshot (s : State) : DueExactly s (dueSnapshot s)
    (fun c => (c = .refreshTimerExpiry ∨ c = .spacingTimerEnd) ∨ c = .identTimerExpiry) := by
  have spacing : (ownSpacing s).1 = if s.conf.role = .door then s.snu.state.spacing else s.snu.demand.spacing := by
    cases h : s.conf.role <;> simp [ownSpacing, h]
  have refresh : ownRefresh s = if s.conf.role = .door then s.snu.state.refresh else s.snu.demand.refresh := by
    cases h : s.conf.role <;> simp [ownRefresh, h]
  rw [dueSnapshot]
  split
  · rename_i joined
    refine ((DueExactly.one ?_).append (.one ?_)).append (.one ?_)
    · rw [reached_iff, refresh, refreshMs_eq]
      exact (and_iff_right joined).symm
    · rw [reached_iff, spacing]
      exact (and_iff_right joined).symm
    · have limit : 10 * s.refreshMs = 1000 * s.conf.refresh := by rw [refreshMs_eq]; omega
      rw [reached_iff, limit]
      exact (and_iff_right joined).symm
  · rename_i apart
    refine fun c => ⟨nofun, ?_⟩
    rintro ⟨due, (rfl | rfl) | rfl⟩ <;> exact absurd due.1 apart

/-- What is due at one entry (R108, R109). -/
theorem mem_dueEntry {limit : Nat} {e : Entry} {c : Instr} :
    c ∈ dueEntry limit e ↔ e.live = true ∧ ((limit ≤ e.age ∧ c = .entryGoesStale e.num) ∨
      ∃ lane, (limit ≤ (if lane = .a then e.heardA else e.heardB) ∧
        (decide (e.heardA < limit) != decide (e.heardB < limit)) ≠ e.single) ∧ c = .laneHeardAgeLimit e.num lane) := by
  have lanes : ∀ P : LaneId → Prop, (∃ lane, P lane) ↔ P .a ∨ P .b :=
    fun P => ⟨fun ⟨lane, h⟩ => by cases lane; exacts [.inl h, .inr h], fun h => h.elim (⟨_, ·⟩) (⟨_, ·⟩)⟩
  simp only [dueEntry, List.mem_append, mem_dueIf, Bool.and_eq_true, decide_eq_true_eq, bne_iff_ne, lanes, and_assoc]
  cases live : e.live
  · simp
  · simp [singleNow, live, Entry.hears, or_assoc]

theorem due_table (s : State) : DueExactly s (dueTable s)
    (fun c => c = .telegramTaken ∨ (∃ n, c = .entryGoesStale n) ∨ ∃ n lane, c = .laneHeardAgeLimit n lane) := fun c => by
  rw [dueTable]
  split
  · rename_i runs
    rw [List.mem_append, mem_dueIf, ← List.flatMap_def, List.mem_flatMap]
    simp only [mem_dueEntry, staleMs_eq]
    constructor
    · rintro (⟨waits, rfl⟩ | ⟨e, held, live, ⟨due, rfl⟩ | ⟨lane, due, rfl⟩⟩)
      · exact ⟨⟨runs, by simpa using waits⟩, .inl rfl⟩
      · exact ⟨⟨runs, e, held, rfl, live, due⟩, .inr (.inl ⟨_, rfl⟩)⟩
      · exact ⟨⟨runs, e, held, rfl, live, due⟩, .inr (.inr ⟨_, _, rfl⟩)⟩
    · rintro ⟨due, rfl | ⟨n, rfl⟩ | ⟨n, lane, rfl⟩⟩
      · exact .inl ⟨by simpa using due.2, rfl⟩
      · obtain ⟨-, e, held, rfl, live, due⟩ := due
        exact .inr ⟨e, held, live, .inl ⟨due, rfl⟩⟩
      · obtain ⟨-, e, held, rfl, live, due⟩ := due
        exact .inr ⟨e, held, live, .inr ⟨lane, due, rfl⟩⟩
  · rename_i stopped
    refine ⟨nofun, ?_⟩
    rintro ⟨due, rfl | ⟨n, rfl⟩ | ⟨n, lane, rfl⟩⟩ <;> exact absurd due.1 stopped

/-- A key's command falls due when the key has settled (R154). -/
theorem keyCommand_falls {s : State} {k : Nat} (key : k < 20) (made : Bool) :
    FallsDue s (keyCommand k made) ↔ KeySettles s k made := by
  obtain group | rfl | rfl | rfl | rfl : k < 16 ∨ k = 16 ∨ k = 17 ∨ k = 18 ∨ k = 19 := by omega
  · cases made
    · rw [keyCommand, if_pos group]
      exact and_iff_right (.inl group)
    · rw [keyCommand, if_pos group]
      exact ⟨fun ⟨_, _, due⟩ => due, fun due => ⟨Nat.succ_pos k, group, due⟩⟩
  · exact Iff.rfl
  · cases made
    · exact and_iff_right (.inr (.inl rfl))
    · exact Iff.rfl
  · cases made
    · exact and_iff_right (.inr (.inr rfl))
    · exact Iff.rfl
  · cases made <;> exact Iff.rfl

/-- What is due at one key (R154, R166). -/
theorem due_key {s : State} (panel : s.panelRuns = true ∧ s.pnu.running = true) {k : Nat} (key : k < 20) :
    DueExactly s (dueKey s.pnu k) (fun c => (∃ made, c = keyCommand k made) ∨ c = .keyHeldLimit k) := by
  refine DueExactly.append (fun c => ?_) (.one ?_)
  · rw [mem_dueIf, decide_eq_true_iff]
    constructor
    · rintro ⟨scans, rfl⟩
      exact ⟨(keyCommand_falls key _).mpr ⟨panel, scans, by simp [Pnu.made]⟩, _, rfl⟩
    · rintro ⟨due, made, rfl⟩
      obtain ⟨-, scans, apart⟩ := (keyCommand_falls key made).mp due
      exact ⟨scans, by rw [Pnu.made, Bool.eq_not_of_ne apart, Bool.not_not]⟩
  · rw [watchReached_iff]
    exact ⟨fun due => ⟨panel, key, due⟩, fun ⟨_, _, due⟩ => due⟩

/-- The panel unit (R154, R159, R166, R167). -/
theorem due_panel (s : State) : DueExactly s (duePanel s) (fun c =>
    ((((∃ k ∈ List.range 20, (∃ made, c = keyCommand k made) ∨ c = .keyHeldLimit k) ∨ ∃ keys, c = .keyScan keys) ∨
      c = .lampTestTimeout) ∨ c = .modeConflictTimerExpiry) ∨ c = .lampFrame) := by
  refine DueExactly.append ?_ (.one ?_)
  · split
    · rename_i on
      have panel : s.panelRuns = true ∧ s.pnu.running = true := Bool.and_eq_true_iff.mp on
      rw [← List.flatMap_def]
      refine (((DueExactly.flatMap fun k key => due_key panel (List.mem_range.mp key)).append fun c => ?_).append (.one ?_)).append
        (.one ?_)
      · rw [mem_dueIf, decide_eq_true_iff]
        constructor
        · rintro ⟨due, rfl⟩
          exact ⟨⟨panel, due, rfl⟩, _, rfl⟩
        · rintro ⟨due, keys, rfl⟩
          obtain ⟨-, due, rfl⟩ := due
          exact ⟨due, rfl⟩
      · rw [reached_iff]
        exact (and_iff_right panel).symm
      · rw [watchReached_iff]
        exact (and_iff_right panel).symm
    · rename_i off
      have panel : ¬ (s.panelRuns = true ∧ s.pnu.running = true) := fun on => off (Bool.and_eq_true_iff.mpr on)
      refine fun c => ⟨nofun, ?_⟩
      rintro ⟨due, ((⟨k, key, ⟨made, rfl⟩ | rfl⟩ | ⟨keys, rfl⟩) | rfl) | rfl⟩
      · exact absurd ((keyCommand_falls (List.mem_range.mp key) made).mp due).1 panel
      all_goals exact absurd due.1 panel
  · rw [Bool.and_eq_true, Bool.not_eq_true', decide_eq_true_iff]
    exact Iff.rfl

/-! ### The clock as a whole -/

/-- Every due list is part of what is due. -/
theorem dueAll_parts {s : State} {c : Instr} :
    c ∈ dueAll s ↔ c ∈ dueStart s ∨ c ∈ dueLeads s ∨ c ∈ dueTable s ∨ c ∈ dueTravel s ∨ c ∈ dueDoor s ∨ c ∈ dueEnergy s ∨
      c ∈ dueSnapshot s ∨ (∃ id, c ∈ dueLane s id) ∨ c ∈ duePanel s ∨ c ∈ dueAlarms s ∨ c ∈ dueDiag s := by
  have lanes : (∃ id, c ∈ dueLane s id) ↔ c ∈ dueLane s .a ∨ c ∈ dueLane s .b :=
    ⟨fun ⟨id, h⟩ => by cases id; exacts [.inl h, .inr h], fun h => h.elim (⟨_, ·⟩) (⟨_, ·⟩)⟩
  simp only [dueAll, List.mem_append, lanes, or_assoc]

/-- A command that falls due is in its unit's list. -/
theorem mem_dueAll_of_falls {s : State} {c : Instr} (due : FallsDue s c) : c ∈ dueAll s := by
  have start := fun kind => dueAll_parts.mpr (.inl ((due_start s c).mpr ⟨due, kind⟩))
  have leads : ∀ l made, c = settledCommand made l → c ∈ dueAll s := fun l made e =>
    dueAll_parts.mpr (.inr (.inl ((due_leads s c).mpr ⟨due, l, by cases l <;> simp [allLeads], made, e⟩)))
  have table := fun kind => dueAll_parts.mpr (.inr (.inr (.inl ((due_table s c).mpr ⟨due, kind⟩))))
  have travel := fun kind => dueAll_parts.mpr (.inr (.inr (.inr (.inl ((due_travel s c).mpr ⟨due, kind⟩)))))
  have door := fun kind => dueAll_parts.mpr (.inr (.inr (.inr (.inr (.inl ((due_door s c).mpr ⟨due, kind⟩))))))
  have energy := fun kind => dueAll_parts.mpr (.inr (.inr (.inr (.inr (.inr (.inl ((due_energy s c).mpr ⟨due, kind⟩)))))))
  have snapshot := fun kind =>
    dueAll_parts.mpr (.inr (.inr (.inr (.inr (.inr (.inr (.inl ((due_snapshot s c).mpr ⟨due, kind⟩))))))))
  have lane := fun id kind =>
    dueAll_parts.mpr (.inr (.inr (.inr (.inr (.inr (.inr (.inr (.inl ⟨id, (due_lane s id c).mpr ⟨due, kind⟩⟩))))))))
  have panel := fun kind =>
    dueAll_parts.mpr (.inr (.inr (.inr (.inr (.inr (.inr (.inr (.inr (.inl ((due_panel s c).mpr ⟨due, kind⟩))))))))))
  have alarms := fun kind =>
    dueAll_parts.mpr (.inr (.inr (.inr (.inr (.inr (.inr (.inr (.inr (.inr (.inl ((due_alarms s c).mpr ⟨due, kind⟩)))))))))))
  have diag := fun kind =>
    dueAll_parts.mpr (.inr (.inr (.inr (.inr (.inr (.inr (.inr (.inr (.inr (.inr ((due_diag s c).mpr ⟨due, kind⟩)))))))))))
  have key : ∀ k, k < 20 → ((∃ made, c = keyCommand k made) ∨ c = .keyHeldLimit k) → c ∈ dueAll s :=
    fun k inside kind => panel (.inl (.inl (.inl (.inl ⟨k, List.mem_range.mpr inside, kind⟩))))
  cases c with
  | configRetryWaitExpiry => exact start (by simp)
  | listenTimerExpiry => exact start (by simp)
  | flashEdge => exact start (by simp)
  | discordTimerExpiry => exact travel (by simp)
  | conflictTimerExpiry => exact travel (by simp)
  | closeMaximumPassed => exact travel (by simp)
  | openMaximumPassed => exact travel (by simp)
  | stallWindowEnd => exact travel (by simp)
  | handMoveArmingExpiry => exact travel (by simp)
  | handMoveWindowEnd => exact travel (by simp)
  | gateEnd => exact energy (by simp)
  | pumpRunLimit => exact energy (by simp)
  | spacingTimerEnd => exact snapshot (by simp)
  | refreshTimerExpiry => exact snapshot (by simp)
  | identTimerExpiry => exact snapshot (by simp)
  | diagReadCopy => exact diag (by simp)
  | captureAgeTick => exact diag (by simp)
  | limitDebouncedChange l made => exact leads l.lead made (by cases l <;> rfl)
  | lcPressed side => exact leads side.closeLead true (by cases side <;> rfl)
  | lcReleased side => exact leads side.closeLead false (by cases side <;> rfl)
  | loPressed side => exact leads side.openLead true (by cases side <;> rfl)
  | loReleased side => exact leads side.openLead false (by cases side <;> rfl)
  | mainsDebouncedChange made => exact leads .mains made rfl
  | warningTimerExpiry => exact door (by simp)
  | pauseTimerExpiry valve => cases valve <;> exact door (by simp)
  | heldOpenLimit => exact door (by simp)
  | claimHoldExpiry => exact door (by simp)
  | alarmAgeTick k => exact alarms ⟨k, rfl⟩
  | telegramTaken => exact table (.inl rfl)
  | entryGoesStale n => exact table (.inr (.inl ⟨n, rfl⟩))
  | laneHeardAgeLimit n id => exact table (.inr (.inr ⟨n, id, rfl⟩))
  | withdrawalEnd id => exact lane id (.inl rfl)
  | silenceTimerExpiry id => exact lane id (.inr rfl)
  | keyScan keys => exact panel (.inl (.inl (.inl (.inr ⟨keys, rfl⟩))))
  | lampTestTimeout => exact panel (.inl (.inl (.inr rfl)))
  | modeConflictTimerExpiry => exact panel (.inl (.inr rfl))
  | lampFrame => exact panel (.inr rfl)
  | groupClosePress g =>
    obtain ⟨first, last, -⟩ := due
    exact key (g - 1) (by omega) (.inl ⟨true, by rw [keyCommand, if_pos (by omega), if_pos rfl, Nat.sub_add_cancel first]⟩)
  | modeSelectorChange made => exact key 16 (by omega) (.inl ⟨made, rfl⟩)
  | ackPress => exact key 17 (by omega) (.inl ⟨true, rfl⟩)
  | silencePress => exact key 18 (by omega) (.inl ⟨true, rfl⟩)
  | lampTestPress => exact key 19 (by omega) (.inl ⟨true, rfl⟩)
  | lampTestRelease => exact key 19 (by omega) (.inl ⟨false, rfl⟩)
  | keyRelease k =>
    obtain ⟨group | rfl | rfl, -⟩ := due
    · exact key k (by omega) (.inl ⟨false, by rw [keyCommand, if_pos group]; rfl⟩)
    · exact key 17 (by omega) (.inl ⟨false, rfl⟩)
    · exact key 18 (by omega) (.inl ⟨false, rfl⟩)
  | keyHeldLimit k => exact key k due.2.1 (.inr rfl)
  | _ => exact False.elim due

theorem falls_of_mem_dueAll {s : State} {c : Instr} (h : c ∈ dueAll s) : FallsDue s c := by
  rcases dueAll_parts.mp h with h | h | h | h | h | h | h | ⟨id, h⟩ | h | h | h
  · exact (due_start s).of_mem h
  · exact (due_leads s).of_mem h
  · exact (due_table s).of_mem h
  · exact (due_travel s).of_mem h
  · exact (due_door s).of_mem h
  · exact (due_energy s).of_mem h
  · exact (due_snapshot s).of_mem h
  · exact (due_lane s id).of_mem h
  · exact (due_panel s).of_mem h
  · exact (due_alarms s).of_mem h
  · exact (due_diag s).of_mem h

/-- On an empty queue a command that has fallen due is taken (log 2). -/
theorem step_due {s : State} (idle : s.pending = []) {c : Instr} (due : FallsDue s c) : ∃ d, FallsDue s d ∧ step s = exec d s := by
  cases all : dueAll s with
  | nil => exact absurd (mem_dueAll_of_falls due) (all ▸ List.not_mem_nil)
  | cons d rest =>
    refine ⟨d, falls_of_mem_dueAll (all ▸ List.mem_cons_self), ?_⟩
    simp only [step, idle, Machine.due, all, List.head?_cons]

/-- With nothing due a millisecond passes (log 2). -/
theorem step_tick {s : State} (idle : s.pending = []) (quiet : ∀ c, ¬ FallsDue s c) : step s = .next (tick s) := by
  have none : dueAll s = [] := List.eq_nil_iff_forall_not_mem.mpr fun c h => quiet c (falls_of_mem_dueAll h)
  simp only [step, idle, due, none, List.head?_nil]

/-- A watch counts while it runs. -/
theorem later_eq : Watch.later = fun w => match w with
    | .running n => .running (n + 1)
    | w => w := by
  funext w
  cases w <;> rfl

/-- Settles O50: what is due is what falls due, and a tick moves every timer. -/
theorem emptyQueueLetsTimePass : Obligations.EmptyQueueLetsTimePass := by
  intro s idle
  refine ⟨fun ⟨c, due⟩ => step_due idle (c := c) due, fun quiet => ⟨tick s, step_tick idle quiet, fun l => ?settle, rfl, rfl, rfl,
    rfl, rfl, ?door, rfl, rfl, rfl, rfl, rfl, rfl, rfl, ?travel, ?panel, rfl, rfl, idle⟩⟩
  case settle => cases l <;> rfl
  case door =>
    simp only [tick, Dcu.later, later_eq]
    rfl
  case travel =>
    simp only [tick, Trm.later, later_eq]
    rfl
  case panel =>
    simp only [tick, Pnu.later, later_eq]
    cases s.doorRuns <;> rfl

end Sys2Proof.Machine
end

