-- ==== Sys2Proof/Proofs/Judging.lean ====
section
/-! SUPPORT and PROOFS. A claim judged at the end of its hold and at a notice of a group peer, and the look at PASSAGE_EXCESS there
(R71 to R80). -/

namespace Sys2Proof.Machine

/-! ### The figures -/

/-- The figures spelled out over a table (R72 to R74, R80). -/
theorem figures_eq (s : State) :
    let peer (test : Entry → DoorPart → Bool) (e : Entry) : Bool :=
      e.kind == .door && e.door.any (fun p => p.group == s.conf.group && test e p)
    let occupied (p : DoorPart) : Bool := p.ctl == .opening || p.ctl == .heldOpen || p.pos != .closed
    occupantsOf s = s.ste.table.countP (peer (fun _ p => occupied p)) ∧
      aheadOf s = s.ste.table.countP (peer (fun e p => e.live && p.phase == .waiting && e.num < s.conf.station)) ∧
      lowerOccupants s = s.ste.table.countP (peer (fun e p => occupied p && e.num < s.conf.station)) := by
  have same : ∀ {f g : Entry → Bool}, (∀ e, f e = g e) → s.ste.table.countP f = s.ste.table.countP g :=
    fun h => List.countP_congr fun e _ => by rw [h e]
  refine ⟨same fun e => ?_, same fun e => ?_, same fun e => ?_⟩
  · cases hd : e.door <;> simp [occupies, isPeer, Entry.groupOf, occupying, hd, Bool.and_assoc]
  · cases hd : e.door <;> simp [isAhead, isPeer, Entry.groupOf, hd, Bool.and_assoc, Bool.and_left_comm]
  · cases hd : e.door <;> simp [occupies, isPeer, Entry.groupOf, occupying, hd, Bool.and_assoc]

/-- The condition of PASSAGE_EXCESS (R80). -/
theorem excessNow_iff (s : State) : excessNow s = true ↔ (s.dcu.ctl = .opening ∨ s.dcu.ctl = .heldOpen) ∧ s.psu.inForce = true ∧
    s.conf.passageLimit ≤ lowerOccupants s := by
  simp [excessNow, and_assoc]

/-! ### PASSAGE_EXCESS and its alarm -/

/-- The flag and its alarm after looks at PASSAGE_EXCESS that began with a flag `was` (R80). -/
def ExcessListed (was : Bool) (s : State) : Prop := s.psu.excess ≠ was → Stands .passageExcess s.psu.excess s.alu

theorem ExcessListed.of_look {was : Bool} {s t : State} (h : ExcessListed was s) (psu : t.psu = { s.psu with excess := excessNow s })
    (alu : t.alu = applyRequests (asked (excessNow s != s.psu.excess) (condition .passageExcess (excessNow s))) s.alu) :
    ExcessListed was t := fun edge => by
  rw [psu] at edge ⊢
  rw [alu]
  by_cases same : excessNow s = s.psu.excess
  · rw [same] at edge ⊢
    simpa [asked, applyRequests] using h edge
  · have new : (excessNow s != s.psu.excess) = true := bne_iff_ne.mpr same
    rw [new]
    exact stands_condition .passageExcess (excessNow s) s.alu

theorem ExcessListed.excessLook {was : Bool} {s : State} (h : ExcessListed was s) : ExcessListed was (excessLook s) :=
  h.of_look (excessLook_psu s).1 (excessLook_psu s).2.1

/-! ### The judgement -/

/-- The state with the figures a claim is judged by (R75). -/
def State.counted (s : State) : State := { s with psu := { s.psu with occupants := occupantsOf s, ahead := aheadOf s } }

theorem evaluateClaim_eq (s : State) :
    evaluateClaim s = if occupantsOf s + aheadOf s < s.conf.passageLimit then onGrant s.counted else s.counted := rfl

/-- A grant in CLAIMING opens, or is refused (R26, R75). -/
theorem onGrant_shifted {s : State} (claiming : s.dcu.ctl = .claiming) :
    Shifted s (s.dcu.enter (if s.enu.permStart = true then .opening else idleFor s.trm.pos) .noCause s.dcu.wcause none .stopped)
      (onGrant s) := by
  rw [onGrant]
  split
  · exact toOpening_shifted s
  · rw [refuse_busy (by rw [claiming]; rfl)]
    exact toIdle_shifted _ s

/-- Neither outcome of a grant is CLAIMING. -/
theorem granted_ne_claiming (s : State) : (if s.enu.permStart = true then Ctl.opening else idleFor s.trm.pos) ≠ .claiming := by
  split
  · nofun
  · cases s.trm.pos <;> nofun

/-- A waiting claim judged, and handed on (R75 to R77). -/
theorem evaluateClaim_judges {s : State} (waiting : s.psu.phase = .waiting) (claiming : s.dcu.ctl = .claiming) :
    let t := doorEvent evaluateClaim s
    t.psu.occupants = occupantsOf s ∧ t.psu.ahead = aheadOf s ∧
      (occupantsOf s + aheadOf s < s.conf.passageLimit → t.psu.phase = .noClaim ∧
        t.dcu.ctl = if s.enu.permStart = true then .opening else idleFor s.trm.pos) ∧
      (s.conf.passageLimit ≤ occupantsOf s + aheadOf s → t.psu.phase = .waiting ∧ t.dcu = s.dcu) ∧
      ExcessListed s.psu.excess t := by
  intro t
  by_cases granted : occupantsOf s + aheadOf s < s.conf.passageLimit
  · obtain ⟨ctl, hctl⟩ : ∃ ctl, ctl = if s.enu.permStart = true then Ctl.opening else idleFor s.trm.pos := ⟨_, rfl⟩
    have out : ctl ≠ .claiming := hctl ▸ granted_ne_claiming s
    have shifted : Shifted s.counted (s.dcu.enter ctl .noCause s.dcu.wcause none .stopped) (evaluateClaim s) := by
      rw [evaluateClaim_eq, if_pos granted, hctl]
      exact onGrant_shifted (s := s.counted) claiming
    have now : (evaluateClaim s).dcu.ctl = ctl := by rw [shifted.dcu]; rfl
    obtain ⟨psu, alu, -⟩ := report_moved s (evaluateClaim s) (by rw [now, claiming]; exact out.symm)
    have claim : (evaluateClaim s).psu = { s.counted.psu with phase := .noClaim, claimTimer := none } := by
      rw [shifted.psu]
      exact (if_neg out).trans (if_pos claiming)
    have dcu : t.dcu = (evaluateClaim s).dcu := (report_keeps s _).2.2.2.2.2.1
    have tpsu : t.psu = { s.counted.psu with phase := .noClaim, claimTimer := none, excess := excessNow (evaluateClaim s) } := by
      rw [show t.psu = _ from psu, claim]
    rw [dcu, now, tpsu]
    refine ⟨rfl, rfl, fun _ => ⟨rfl, hctl⟩, fun full => absurd granted (not_lt.mpr full), ?_⟩
    refine ExcessListed.of_look (s := evaluateClaim s) (fun edge => absurd ?_ edge) psu alu
    rw [claim]
    rfl
  · have waits : evaluateClaim s = s.counted := by rw [evaluateClaim_eq, if_neg granted]
    have quiet : t = s.counted := (doorEvent_quiet (by simp [waits, State.counted, reportDiffers]) (by rw [waits]; rfl)).trans waits
    rw [quiet]
    exact ⟨rfl, rfl, fun less => absurd less granted, fun _ => ⟨waiting, rfl⟩, fun edge => absurd rfl edge⟩

/-- A notice of a group peer at the passage unit (R76, R80). -/
theorem peerNotice_judges {s : State} (claims : s.psu.phase ≠ .noClaim ↔ s.dcu.ctl = .claiming) :
    let t := peerNotice s
    (s.psu.phase ≠ .waiting → t.dcu = s.dcu ∧ t.trm = s.trm ∧ t.psu = { s.psu with excess := t.psu.excess }) ∧
      (s.psu.phase = .waiting → t.psu.occupants = occupantsOf s ∧ t.psu.ahead = aheadOf s ∧
        (occupantsOf s + aheadOf s < s.conf.passageLimit → t.psu.phase = .noClaim ∧
          t.dcu.ctl = if s.enu.permStart = true then .opening else idleFor s.trm.pos) ∧
        (s.conf.passageLimit ≤ occupantsOf s + aheadOf s → t.psu.phase = .waiting ∧ t.dcu = s.dcu)) ∧
      t.psu.excess = excessNow t ∧ ExcessListed s.psu.excess t := by
  intro t
  obtain ⟨u, hu⟩ : ∃ u, u = if s.psu.phase = .waiting then doorEvent evaluateClaim s else s := ⟨_, rfl⟩
  have state : t = excessLook u := by rw [hu]; rfl
  obtain ⟨psu, -, -⟩ := excessLook_psu u
  obtain ⟨-, -, -, -, suc, dcu, trm, ste, -⟩ := excessLook_keeps u
  rw [← state] at psu suc dcu trm ste
  have excess : t.psu.excess = excessNow t := by
    rw [excessNow_of_eq (s := u) (by rw [dcu]) (by rw [psu]) suc ste, psu]
  by_cases waiting : s.psu.phase = .waiting
  · rw [if_pos waiting] at hu
    obtain ⟨occupants, ahead, grants, waits, listed⟩ := evaluateClaim_judges waiting (claims.mp (by rw [waiting]; nofun))
    rw [← hu] at occupants ahead grants waits listed
    refine ⟨fun n => absurd waiting n, fun _ => ?_, excess, state ▸ listed.excessLook⟩
    rw [psu, dcu]
    exact ⟨occupants, ahead, grants, waits⟩
  · rw [if_neg waiting] at hu
    have listed : ExcessListed s.psu.excess u := fun edge => absurd (by rw [hu]) edge
    refine ⟨fun _ => ?_, fun w => absurd w waiting, excess, state ▸ listed.excessLook⟩
    rw [psu, dcu, trm, hu]
    exact ⟨rfl, rfl, rfl⟩

/-! ### Notices of group peers -/

theorem derive_enu (s : State) : (derive s).enu = s.enu :=
  derive_survives (P := fun x => x.enu = s.enu) (fun _ _ h => h)
    (fun q hq x h => (alarm_enu_door q x (by
      simp only [derivedRequests, List.mem_cons, List.not_mem_nil, or_false] at hq
      rcases hq with rfl | rfl | rfl | rfl | rfl | rfl <;> rfl)).trans h) rfl

/-- A change of a group peer's entry is noticed by the passage unit alone (R76, R111). -/
theorem noticed_peer {n : Notice} {s : State} (on : s.doorRuns = true) (door : n.ofPanel = false) (peer : n.ofPeer s.conf.group = true) :
    noticed n s = setOuts (peerNotice (derive s)) := by
  have on' : (derive s).doorRuns = true := (derive_suc_runs s).2.trans on
  have conf : (derive s).conf = s.conf := by simp [State.conf]
  rw [noticed, giveNotice, if_pos on', door, conf, peer]
  rfl

/-- Two group doors' changes that are noticed: a STATE accepted, and an entry that goes STALE (R76, R108, R111). -/
theorem peer_changes {s : State} {c : Instr} (on : s.doorRuns = true) :
    (c = .telegramTaken ∧ ∃ tg rest, s.rxq.queue = tg :: rest ∧ tg.cls = .state ∧ tg.origin ≠ s.conf.station ∧
        (∀ e, entryOf s tg.origin = some e → e.kind = .door ∧ (e.live = true → ∀ last, e.serS = some last →
          1 ≤ (tg.serial - last).toNat ∧ (tg.serial - last).toNat ≤ 127)) ∧
        ((decodeState tg.payload).group = s.conf.group ∨
          ∃ e p, entryOf s tg.origin = some e ∧ e.door = some p ∧ p.group = s.conf.group)) ∨
      (∃ n e p, c = .entryGoesStale n ∧ entryOf s n = some e ∧ e.kind = .door ∧ e.live = true ∧ s.staleMs ≤ e.age ∧
        e.door = some p ∧ p.group = s.conf.group) →
    ∃ n y, exec c s = .next (noticed n y) ∧ n.ofPanel = false ∧ n.ofPeer s.conf.group = true ∧
      y.suc = s.suc ∧ y.dcu = s.dcu ∧ y.trm = s.trm ∧ y.psu = s.psu ∧ y.enu = s.enu := by
  have runs : s.suc.startUp.running = true := by simp_all [State.doorRuns]
  rintro (⟨rfl, tg, rest, hq, cls, other, entries, group⟩ | ⟨n, e, p, rfl, found, kind, live, aged, part, group⟩)
  · have ofDoor : telegramKind tg = .door := by rw [telegramKind, cls]
    have newer : ∀ e, (entryOf s tg.origin).filter (·.live) = some e → e.kind = telegramKind tg ∧ ∀ last, e.serial tg.cls = some last →
        1 ≤ (tg.serial - last).toNat ∧ (tg.serial - last).toNat ≤ 127 := fun e he => by
      obtain ⟨held, live⟩ := Option.filter_eq_some_iff.mp he
      obtain ⟨kind, serials⟩ := entries e held
      exact ⟨kind.trans ofDoor.symm, fun last hl => serials live last (by rwa [cls] at hl)⟩
    have silent : asksAck (entryOf s tg.origin) tg = false := by simp [asksAck, cls]
    have entered : (s.dequeued rest).entered tg =
        setEntry (acceptedEntry s.staleMs (entryOf s tg.origin) tg) (s.dequeued rest) := by
      refine if_neg ?_
      rw [show asksAck (entryOf (s.dequeued rest) tg.origin) tg = false from silent]
      simp
    obtain ⟨kind, -, -, -, -, -, -, -, -, door, -⟩ := acceptedEntry_items s.staleMs (entryOf s tg.origin) tg
    obtain ⟨base, -⟩ := baseEntry_items fun e he => (newer e he).1
    rw [base, ofDoor] at kind
    rw [if_pos cls] at door
    refine ⟨_, _, exec_accepts runs hq other newer, ?_, ?_, ?_⟩
    · have before : (entryOf s tg.origin).map (·.kind) ≠ some .panel := fun h => by
        obtain ⟨e, held, panel⟩ := Option.map_eq_some_iff.mp h
        rw [(entries e held).1] at panel
        nomatch panel
      simpa [Notice.ofPanel, acceptedNotice, noticeOf, kind] using before
    · have after : (acceptedEntry s.staleMs (entryOf s tg.origin) tg).groupOf = some (decodeState tg.payload).group := by
        rw [Entry.groupOf, door]
        rfl
      rcases group with group | ⟨e, p, held, part, group⟩
      · simp [Notice.ofPeer, acceptedNotice, noticeOf, kind, after, group]
      · simp [Notice.ofPeer, acceptedNotice, noticeOf, held, (entries e held).1, Entry.groupOf, part, group]
    · rw [entered]
      exact ⟨rfl, rfl, rfl, rfl, rfl⟩
  · have run : exec (.entryGoesStale n) s = .next (noticed (noticeOf (some e) { e with live := false, single := false } none)
        (setEntry { e with live := false, single := false } s)) := by
      have run : exec (.entryGoesStale n) s = execEntryGoesStale n s := rfl
      rw [run, execEntryGoesStale, found]
      exact if_pos (by simp [live, aged])
    refine ⟨_, _, run, ?_, ?_, rfl, rfl, rfl, rfl, rfl⟩
    · simp [Notice.ofPanel, noticeOf, kind]
    · simp [Notice.ofPeer, noticeOf, kind, Entry.groupOf, part, group]

/-- The end of a claim hold, with the figures it counts (R71, R75). -/
theorem holdEnd_judges {s : State} (fresh : s.psu.phase = .fresh) (claiming : s.dcu.ctl = .claiming) (occupants ahead : Nat)
    (ho : occupants = occupantsOf s) (ha : ahead = aheadOf s) :
    let b : State := { s with psu := { s.psu with
      phase := .waiting, claimTimer := none, occupants := occupants, ahead := ahead } }
    let d : Dcu := { s.dcu with cause := .noCause, warnTimer := none, held := .stopped }
    (occupants + ahead < s.conf.passageLimit → s.enu.permStart = true →
      ∃ t, exec .claimHoldExpiry s = .next t ∧ t.psu.phase = .noClaim ∧ Moved b { d with ctl := .opening } t) ∧
    (occupants + ahead < s.conf.passageLimit → s.enu.permStart = false →
      ∃ t, exec .claimHoldExpiry s = .next t ∧ t.psu.phase = .noClaim ∧ Moved b { d with ctl := idleFor s.trm.pos } t) ∧
    (s.conf.passageLimit ≤ occupants + ahead → ∃ t, exec .claimHoldExpiry s = .next t ∧ t.psu = b.psu ∧ t.dcu = s.dcu ∧
      t.trm = s.trm ∧ t.alu = s.alu ∧ t.enu = s.enu ∧ t.outs = outsFor t ∧ HandsOn s t) := by
  intro b d
  have run : exec .claimHoldExpiry s = .next (setOuts (doorEvent onHoldExpiry s)) := if_pos fresh
  have judged : onHoldExpiry s = if occupants + ahead < s.conf.passageLimit then onGrant b else b := by
    simp only [b]
    subst ho ha
    rfl
  have moved : occupants + ahead < s.conf.passageLimit → Shifted b (b.dcu.enter
      (if s.enu.permStart = true then .opening else idleFor s.trm.pos) .noCause s.dcu.wcause none .stopped) (onHoldExpiry s) :=
    fun granted => by
      rw [judged, if_pos granted]
      exact onGrant_shifted (s := b) claiming
  have handed : ∀ ctl, ctl ≠ .claiming → Shifted b (b.dcu.enter ctl .noCause s.dcu.wcause none .stopped) (onHoldExpiry s) →
      (setOuts (doorEvent onHoldExpiry s)).psu.phase = .noClaim ∧ Moved b { d with ctl := ctl } (setOuts (doorEvent onHoldExpiry s)) := by
    intro ctl out shifted
    have phase : (onHoldExpiry s).psu.phase = .noClaim := by
      rw [shifted.psu]
      exact congrArg Psu.phase ((if_neg out).trans (if_pos claiming))
    have same : doorEvent onHoldExpiry s = report b (onHoldExpiry s) := by
      simp [doorEvent, report, phase, fresh, b]
    have moved : Moved b { d with ctl := ctl } (setOuts (doorEvent onHoldExpiry s)) := by
      rw [same]
      exact shifted.handed (by rw [show b.dcu.ctl = .claiming from claiming]; exact out)
    exact ⟨by rw [moved.psu]; exact congrArg Psu.phase ((if_neg out).trans (if_pos claiming)), moved⟩
  refine ⟨fun granted held => ⟨_, run, handed _ nofun ?_⟩, fun granted none => ⟨_, run, handed _ ?_ ?_⟩, fun full => ?_⟩
  · have := moved granted
    rwa [if_pos held] at this
  · cases s.trm.pos <;> nofun
  · have := moved granted
    rwa [if_neg (by simp [none])] at this
  · rw [if_neg (not_lt.mpr full)] at judged
    obtain ⟨psu, alu, enu⟩ := report_still (b := s) (s := onHoldExpiry s) (by rw [judged])
    obtain ⟨-, -, -, -, -, dcu, trm, -⟩ := report_keeps s (onHoldExpiry s)
    refine ⟨_, run, psu.trans (by rw [judged]), dcu.trans (by rw [judged]), trm.trans (by rw [judged]), alu.trans (by rw [judged]),
      enu.trans (by rw [judged]), rfl, ?_⟩
    have hands : HandsOn s (onHoldExpiry s) := by
      rw [judged]
      exact HandsOn.door s s.dcu s.trm b.psu s.alu s.outs
    exact ((HandsOn.carried s).report _ hands).trans (setOuts_hands _)

/-- Settles O25: the judgement (`peerNotice_judges`) on the table as it stands. -/
theorem claimHoldEndIsJudged : Obligations.ClaimHoldEndIsJudged := by
  refine ⟨fun s c on claims change => ?_, fun s on fresh claiming => ?_⟩
  · obtain ⟨n, y, run, door, peer, suc, dcu, trm, psu, enu⟩ := peer_changes on change
    have conf : y.conf = s.conf := by simp [State.conf, suc]
    have given := noticed_peer (n := n) (s := y) (by simpa [State.doorRuns, conf, suc] using on) door (by rw [conf]; exact peer)
    obtain ⟨z, hz⟩ : ∃ z, z = derive y := ⟨_, rfl⟩
    obtain ⟨-, -, -, -, zsuc, zdcu, ztrm, zpsu, -⟩ := derive_keeps y
    rw [← hz, suc] at zsuc
    rw [← hz, dcu] at zdcu
    rw [← hz, trm] at ztrm
    rw [← hz, psu] at zpsu
    have zenu : z.enu = s.enu := (hz ▸ derive_enu y).trans enu
    have zconf : z.conf = s.conf := by simp [State.conf, zsuc]
    obtain ⟨t, ht⟩ : ∃ t, t = noticed n y := ⟨_, rfl⟩
    have state : t = setOuts (peerNotice z) := by rw [ht, given, hz]
    obtain ⟨other, judged, excess, listed⟩ := peerNotice_judges (s := z) (by rw [zpsu, zdcu]; exact claims.claim)
    have ste : t.ste = z.ste := by simp [state]
    have tconf : t.conf = s.conf := by simp [State.conf, state, zsuc]
    obtain ⟨occupants, ahead, -⟩ := figures_eq z
    rw [zconf, ← ste] at occupants ahead
    rw [zpsu, zdcu, ztrm] at other
    rw [zpsu, zdcu, ztrm, zenu, zconf, occupants, ahead] at judged
    rw [zpsu] at listed
    have excess : t.psu.excess = excessNow t := by
      rw [state]
      exact excess
    have limit := excessNow_iff t
    rw [← excess, tconf, (figures_eq t).2.2, tconf] at limit
    have edge := edge_of_stands (k := .passageExcess) (before := s.psu.excess) (after := t.psu.excess) (l := t.alu)
      fun h => by
        rw [state] at h ⊢
        exact listed h.symm
    refine ⟨t, ht ▸ run, ?_, ?_, limit, edge⟩
    · rw [state]
      exact other
    · rw [state] at judged ⊢
      exact judged
  · obtain ⟨occupants, ahead, -⟩ := figures_eq s
    exact holdEnd_judges fresh claiming _ _ occupants.symm ahead.symm

end Sys2Proof.Machine
end

