-- ==== Sys2Proof/Proofs/Demanded.lean ====
section
/-! SUPPORT and PROOFS. Closure demanded at every change of a panel's entry (R5 to R8, R17, R19, R24, R26, R69, R105). -/

namespace Sys2Proof.Machine

/-! ### The panels heard -/

/-- Mode and group demand spelled out over the LIVE panels of the table (R6). -/
theorem panels_heard (s : State) :
    let panels : List Entry := s.ste.table.filter (fun e => e.kind == .panel && e.live)
    let heard (test : PanelPart → Bool) : Bool := panels.any (fun e => e.panel.any (fun h => test h.part))
    somePanelLive s = !panels.isEmpty ∧
      modeNow s = (if panels ≠ [] then (if heard (fun p => p.mode == .doorsClosed) = true then .doorsClosed else .localControl)
        else if s.dcu.panelHeard = true then s.dcu.mode else s.conf.defaultMode) ∧
      demandNow s = (if panels ≠ [] then heard (fun p => inGroups p.groups s.conf.group)
        else s.dcu.panelHeard && s.dcu.groupDemand) := by
  intro panels heard
  have some_iff : somePanelLive s = !panels.isEmpty := by
    rw [Bool.eq_iff_iff]
    simp [somePanelLive, Entry.livePanel, panels, List.filter_eq_nil_iff]
  have closed : s.ste.table.any (·.demandsClosed) = heard (fun p => p.mode == .doorsClosed) := List.any_filter.symm
  have group : s.ste.table.any (Entry.demandsGroup s.conf.group) = heard (fun p => inGroups p.groups s.conf.group) :=
    List.any_filter.symm
  refine ⟨some_iff, ?_, ?_⟩
  · rw [modeNow, some_iff, closed]
    cases panels <;> rfl
  · rw [demandNow, some_iff, group]
    cases panels
    · cases s.dcu.panelHeard <;> rfl
    · rfl

/-! ### What is kept of them through the door's reactions -/

/-- Mode, group demand and CD as read from the panels, and the limit flag of CD. -/
def DemandRead (d : Bool × Mode × Bool × Bool) (f : Bool) (s : State) : Prop := s.dcu.demand = d ∧ s.psu.inForce = f

theorem DemandRead.shifted {d : Bool × Mode × Bool × Bool} {f : Bool} {s t : State} {ctl : Ctl} {cause : Cause} {w : WarningCause}
    {timer : Option Nat} {held : Watch} (h : DemandRead d f s) (k : Shifted s (s.dcu.enter ctl cause w timer held) t) :
    DemandRead d f t := ⟨by rw [k.dcu]; exact h.1, by rw [k.psu, claimFor_inForce]; exact h.2⟩

theorem DemandRead.reacts (d : Bool × Mode × Bool × Bool) (f : Bool) : Reacts (DemandRead d f) :=
  .of_shifted (fun s h => by simpa [DemandRead] using h) (fun b s h => by simpa [DemandRead] using h)
    (fun _ _ same h => ⟨same.2.2.2.trans h.1, h.2⟩) (fun _ _ same h => ⟨h.1, same.2.2.trans h.2⟩)
    fun _ _ _ _ _ _ _ _ _ _ _ h k => h.shifted k

theorem DemandRead.evaluateClaim {d : Bool × Mode × Bool × Bool} {f : Bool} {s : State} (h : DemandRead d f s) :
    DemandRead d f (evaluateClaim s) := by
  have counted : DemandRead d f s.counted := h
  refine Carried.ite (P := DemandRead d f) (Carried.ite (P := DemandRead d f) ?_ (Carried.ite (P := DemandRead d f) counted ?_)) counted
  · exact counted.shifted (toOpening_shifted _)
  · exact counted.shifted (toIdle_shifted _ _)

theorem DemandRead.items {cd heard f : Bool} {m : Mode} {g : Bool} {s : State} (h : DemandRead (cd, m, g, heard) f s) :
    s.dcu.cd = cd ∧ s.dcu.mode = m ∧ s.dcu.groupDemand = g ∧ s.dcu.panelHeard = heard ∧ s.psu.inForce = f := by
  obtain ⟨demand, force⟩ := h
  simp only [Dcu.demand, Prod.mk.injEq] at demand
  exact ⟨demand.1, demand.2.1, demand.2.2.1, demand.2.2.2, force⟩

/-- What a recomputation reads (R5, R6, R69). -/
theorem rederive_reads {s : State} (limit : s.psu.inForce = limitFor s.conf s.dcu.cd ∨ s.cdNow ≠ s.dcu.cd) :
    DemandRead (s.cdNow, modeNow s, demandNow s, s.dcu.panelHeard || somePanelLive s) (limitFor s.conf s.cdNow) (rederive s) := by
  rw [rederive_eq]
  split
  · rename_i same
    refine ⟨rfl, ?_⟩
    rw [same]
    exact limit.resolve_right (not_not.mpr same)
  · refine (DemandRead.reacts _ _).onCdChange ⟨by rw [(setLimit_keeps _).2.2.2.2.2.1]; rfl, ?_⟩
    rw [(setLimit_psu _).1]
    rfl

/-! ### A notice of a panel at the door -/

/-- A change of a panel's entry is noticed by the door control unit, and by the passage unit where it also concerns a peer (R111). -/
theorem noticed_recomputes {n : Notice} {s : State} (on : s.doorRuns = true) (panel : n.ofPanel = true) :
    noticed n s = setOuts (if n.ofPeer s.conf.group then peerNotice (recompute (derive s)) else recompute (derive s)) := by
  have on' : (derive s).doorRuns = true := (derive_suc_runs s).2.trans on
  have conf : (derive s).conf = s.conf := by simp [State.conf]
  rw [noticed, giveNotice, if_pos on', panel, conf]
  rfl

/-- NO_PANEL after the check (R8). -/
theorem noPanelCheck_stands {s : State} (h : s.suc.startUp = .joined ∨ s.suc.startUp = .mute ∨ somePanelLive s = true) :
    Stands .noPanel (!somePanelLive s) (noPanelCheck s).alu := by
  rw [noPanelCheck]
  split
  · rename_i live
    rw [live, alarm_alu]
    exact stands_condition .noPanel false s.alu
  · rename_i silent
    rw [if_pos (by tauto), eq_false_of_ne_true silent, alarm_alu]
    exact stands_condition .noPanel true s.alu

theorem report_claim (b s : State) : s.psu.sameClaim (report b s).psu := by
  simp only [report]
  have one : ∀ x : State, s.psu.sameClaim x.psu → s.psu.sameClaim (offer x).psu := fun x h => by simpa using h
  have k := Carried.ite (P := fun x => s.psu.sameClaim x.psu) (b := reportDiffers b.dcu s.dcu) (one s ⟨rfl, rfl, rfl⟩) ⟨rfl, rfl, rfl⟩
  have l := Carried.ite (P := fun x => s.psu.sameClaim x.psu) (b := b.psu.phase ≠ s.psu.phase) (one _ k) k
  refine Carried.ite (P := fun x => s.psu.sameClaim x.psu) ?_ l
  rw [(excessLook_psu _).1]
  exact l

/-- What the door reads at a notice of a panel, and NO_PANEL there (R5 to R8, R69). -/
theorem noticed_reads {n : Notice} {s : State} (on : s.doorRuns = true) (panel : n.ofPanel = true) :
    (s.psu.inForce = limitFor s.conf s.dcu.cd ∨ (derive s).cdNow ≠ s.dcu.cd →
      DemandRead ((derive s).cdNow, modeNow (derive s), demandNow (derive s), s.dcu.panelHeard || somePanelLive (derive s))
        (limitFor s.conf (derive s).cdNow) (noticed n s)) ∧
    (s.suc.startUp = .joined ∨ s.suc.startUp = .mute ∨ somePanelLive (derive s) = true →
      Stands .noPanel (!somePanelLive (derive s)) (noticed n s).alu) := by
  obtain ⟨z, hz⟩ : ∃ z, z = derive s := ⟨_, rfl⟩
  obtain ⟨-, -, -, -, suc, dcu, -, psu, -⟩ := derive_keeps s
  rw [← hz] at suc dcu psu
  have conf : z.conf = s.conf := by simp [State.conf, suc]
  rw [noticed_recomputes on panel, ← hz, ← conf, ← psu, ← dcu, ← suc]
  refine ⟨fun limit => ?_, fun checked => ?_⟩
  · have c := DemandRead.reacts (z.cdNow, modeNow z, demandNow z, z.dcu.panelHeard || somePanelLive z) (limitFor z.conf z.cdNow)
    have k := c.doorEvent rederive (rederive_reads limit)
    have r : DemandRead (z.cdNow, modeNow z, demandNow z, z.dcu.panelHeard || somePanelLive z) (limitFor z.conf z.cdNow)
        (recompute z) := by
      rw [recompute, DemandRead, (noPanelCheck_keeps _).2.2.2.2.2.1, (noPanelCheck_keeps _).2.2.2.2.2.2.2.1]
      exact k
    exact Carried.ite (P := DemandRead _ _) (c.peerNotice (fun _ => r.evaluateClaim) r) r
  · have live : somePanelLive (doorEvent rederive z) = somePanelLive z := by simp [somePanelLive, doorEvent]
    have same : (doorEvent rederive z).suc = z.suc := by simp [doorEvent]
    have out : Outlasts (Stands .noPanel (!somePanelLive z)) moveRequests := outlasts_stands _ fun q hq => by
      simp only [moveRequests, List.mem_cons, List.not_mem_nil, or_false] at hq
      rcases hq with rfl | rfl | rfl | rfl <;> exact ⟨_, rfl, nofun⟩
    have r : Stands .noPanel (!somePanelLive z) (recompute z).alu := by
      have := noPanelCheck_stands (s := doorEvent rederive z) (by rw [live, same]; exact checked)
      rwa [live] at this
    exact Carried.ite (P := fun x => Stands .noPanel (!somePanelLive z) x.alu)
      (out.reacts.peerNotice (fun _ => out.evaluateClaim r) r) r

/-- A recomputation does at the door what CD says (R5 to R8). -/
theorem recompute_follows (s : State) : (recompute s).dcu = (rederive s).dcu ∧ (recompute s).trm = (rederive s).trm ∧
    (rederive s).psu.sameClaim (recompute s).psu := by
  refine ⟨by simp [recompute, doorEvent], by simp [recompute, doorEvent], ?_⟩
  rw [recompute, (noPanelCheck_keeps _).2.2.2.2.2.2.2.1]
  exact report_claim s (rederive s)

/-- Without a waiting claim the door does at a notice of a panel what the recomputation says. -/
theorem noticed_follows {n : Notice} {s : State} (on : s.doorRuns = true) (panel : n.ofPanel = true)
    (judged : (rederive (derive s)).psu.phase ≠ .waiting) :
    (noticed n s).dcu = (rederive (derive s)).dcu ∧ (noticed n s).trm = (rederive (derive s)).trm ∧
      (rederive (derive s)).psu.sameClaim (noticed n s).psu := by
  obtain ⟨z, hz⟩ : ∃ z, z = derive s := ⟨_, rfl⟩
  rw [noticed_recomputes on panel, ← hz]
  rw [← hz] at judged
  obtain ⟨dcu, trm, claim⟩ := recompute_follows z
  refine Carried.ite (P := fun x : State => (setOuts x).dcu = _ ∧ (setOuts x).trm = _ ∧ Psu.sameClaim _ (setOuts x).psu) ?_ ⟨dcu, trm, claim⟩
  rw [peerNotice, if_neg (by rw [claim.1]; exact judged)]
  refine ⟨by simpa using dcu, by simpa using trm, ?_⟩
  rw [show (setOuts (excessLook (recompute z))).psu = _ from (excessLook_psu (recompute z)).1]
  exact claim

/-! ### What the door does when closure demanded changes -/

/-- The state in which the door reacts to CD, its limit flag set (R7, R69). -/
theorem rederive_edge {s : State} (edge : s.cdNow ≠ s.dcu.cd) : ∃ w, rederive s = onCdChange w ∧ w.dcu = s.readDemand.dcu ∧
    w.trm = s.trm ∧ w.deb = s.deb ∧ w.suc = s.suc ∧ w.enu = s.enu ∧ w.psu.inForce = limitFor s.conf s.cdNow ∧
    w.psu.phase = s.psu.phase ∧ w.psu.claimTimer = s.psu.claimTimer := by
  obtain ⟨-, deb, -, -, suc, dcu, trm, -⟩ := setLimit_keeps s.readDemand
  obtain ⟨force, phase, timer⟩ := setLimit_psu s.readDemand
  refine ⟨setLimit s.readDemand, ?_, dcu, trm, deb, suc, ?_, force, phase, timer⟩
  · rw [rederive_eq, if_neg edge]
  · exact Carried.ite (P := fun x : State => x.enu = s.enu) rfl (excessLook_psu _).2.2

/-- What a lever says does not depend on the panels. -/
theorem request_of_eq {s w : State} (deb : w.deb = s.deb) (trm : w.trm = s.trm) :
    lcHeld w = lcHeld s ∧ loHeld w = loHeld s ∧ requestStands w = requestStands s := by
  simp [lcHeld, loHeld, requestStands, deb, trm]

/-- CLOSING and OPENING go on, and so does the door at CLOSED without a request to judge (R19, R20, R22). -/
theorem rederive_goes_on {s : State} (h : s.dcu.ctl = .closing ∨ s.dcu.ctl = .opening ∨
      (s.dcu.ctl = .idleClosed ∧ s.trm.pos = .closed ∧ (loHeld s = false ∨ s.dcu.lockout = true))) :
    (rederive s).dcu = s.readDemand.dcu ∧ (rederive s).trm = s.trm ∧ (rederive s).psu.phase = s.psu.phase := by
  by_cases same : s.cdNow = s.dcu.cd
  · rw [rederive_eq, if_pos same]
    exact ⟨rfl, rfl, rfl⟩
  · obtain ⟨w, acts, dcu, trm, deb, -, -, -, phase, -⟩ := rederive_edge same
    obtain ⟨-, lo, -⟩ := request_of_eq deb trm
    have ctl : w.dcu.ctl = s.dcu.ctl := by rw [dcu]; rfl
    have lockout : w.dcu.lockout = s.dcu.lockout := by rw [dcu]; rfl
    have stays : idleRules w = w := by
      rcases h with h | h | ⟨hc, pos, quiet⟩
      · exact idleRules_busy (by rw [ctl, h]; rfl)
      · exact idleRules_busy (by rw [ctl, h]; rfl)
      · refine idleRules_stays (.inr (trm ▸ pos)) (quiet.imp (fun q => ?_) fun q => lockout.trans q) (.inr (ctl.trans hc))
        rw [requestStands_eq, lo, q]
        rfl
    have rests : onCdChange w = w := by
      rw [onCdChange, stays]
      rcases h with h | h | h <;> simp [ctl, h]
    rw [acts, rests]
    exact ⟨dcu, trm, phase⟩

/-- A rise of CD at an open door without LC (R17, R24). -/
theorem rederive_rises {s : State} (was : s.dcu.cd = false) (now : s.cdNow = true) (lc : lcHeld s = false) :
    (loHeld s = false → s.dcu.ctl = .idleOpen ∨ s.dcu.ctl = .idlePartial →
      ∃ w, w.dcu.ctl = s.dcu.ctl ∧ w.psu.phase = s.psu.phase ∧
        Shifted w (w.dcu.enter .warning .noCause .remote (some s.conf.warningTime) .stopped) (rederive s)) ∧
    (loHeld s = true → s.dcu.ctl = .idleOpen → s.trm.pos = .opened →
      ∃ w, w.dcu.ctl = s.dcu.ctl ∧ w.psu.phase = s.psu.phase ∧
        Shifted w (w.dcu.enter .heldOpen .noCause w.dcu.wcause none (.running 0)) (rederive s)) := by
  obtain ⟨w, acts, dcu, trm, deb, suc, -, -, phase, -⟩ := rederive_edge (s := s) (by rw [was, now]; nofun)
  obtain ⟨lcw, lo, rq⟩ := request_of_eq deb trm
  have ctl : w.dcu.ctl = s.dcu.ctl := by rw [dcu]; rfl
  have cd : w.dcu.cd = true := by rw [dcu]; exact now
  have conf : w.conf = s.conf := by simp [State.conf, suc]
  rw [acts, onCdChange, if_pos cd]
  refine ⟨fun none idle => ⟨w, ctl, phase, ?_⟩, fun held idle pos => ⟨w, ctl, phase, ?_⟩⟩
  · rw [idleRules_warns ?_ cd (.inl (lcw.trans lc)), ← conf]
    · exact toWarning_remote_shifted w
    · rw [ctl, lo, none]
      exact idle.imp (⟨·, rfl⟩) (⟨·, .inl rfl⟩)
  · rw [idleRules_holds (ctl.trans idle) (lo.trans held) cd (.inl (by rw [rq, requestStands_eq, pos, Bool.and_comm]; rfl))]
    exact toHeldOpen_shifted w

/-- A fall of CD in WARNING, HELD_OPEN and CLAIMING (R17, R24, R26). -/
theorem rederive_falls {s : State} (was : s.dcu.cd = true) (now : s.cdNow = false) :
    ∃ w, w.dcu.ctl = s.dcu.ctl ∧ w.psu.phase = s.psu.phase ∧
      (s.dcu.ctl = .warning → lcHeld s = false → requestStands s = false →
        Shifted w (w.dcu.enter (idleFor s.trm.pos) .noCause w.dcu.wcause none .stopped) (rederive s)) ∧
      (s.dcu.ctl = .heldOpen → Shifted w (w.dcu.enter .idleOpen .noCause w.dcu.wcause none .stopped) (rederive s)) ∧
      (s.dcu.ctl = .claiming → Shifted w (w.dcu.enter (if s.enu.permStart = true then .opening else idleFor s.trm.pos)
        .noCause w.dcu.wcause none .stopped) (rederive s)) := by
  obtain ⟨w, acts, dcu, trm, deb, -, enu, force, phase, -⟩ := rederive_edge (s := s) (by rw [was, now]; nofun)
  obtain ⟨lcw, -, rq⟩ := request_of_eq deb trm
  have ctl : w.dcu.ctl = s.dcu.ctl := by rw [dcu]; rfl
  have cd : w.dcu.cd = false := by rw [dcu]; exact now
  rw [now, show limitFor s.conf false = false from rfl] at force
  rw [acts, onCdChange, if_neg (by simp [cd]), ← trm, ← enu]
  refine ⟨w, ctl, phase, fun warns lc none => ?_, fun holds => ?_, fun claims => ?_⟩
  · rw [ctl, warns]
    change Shifted w _ (toMatching w)
    rw [toMatching_rests (.inl (lcw.trans lc)) (.inl (rq.trans none)) (.inl cd)]
    exact toIdle_shifted _ w
  · rw [ctl, holds]
    exact toIdle_shifted _ w
  · rw [ctl, claims]
    change Shifted w _ (evaluate w)
    cases held : w.enu.permStart with
    | true =>
      rw [evaluate_opens held force]
      exact toOpening_shifted w
    | false =>
      rw [evaluate_refuses (.inl held), refuse_busy (by rw [ctl, claims]; rfl)]
      exact toIdle_shifted _ w

/-! ### Changes of a panel's entry -/

theorem entered_enu (tg : Telegram) (s : State) : (s.entered tg).enu.permStart = s.enu.permStart ∧ (s.entered tg).deb = s.deb := by
  have kept : ∀ x : State, x.enu = s.enu → (alarm .acknowledge x).enu.permStart = s.enu.permStart := fun x hx => by
    have pump := (alarm_hands .acknowledge x).pump
    rw [PumpHanded] at pump
    rw [pump, hx]
  rw [State.entered]
  split
  · exact ⟨kept _ rfl, by simp⟩
  · exact ⟨rfl, rfl⟩

/-- A DEMAND that a door accepts, and a panel's entry that goes STALE, are noticed (R105, R108, R111). -/
theorem panel_changes {s : State} {c : Instr} (on : s.doorRuns = true) :
    (c = .telegramTaken ∧ ∃ tg rest, s.rxq.queue = tg :: rest ∧ tg.cls = .demand ∧ tg.origin ≠ s.conf.station ∧
        ∀ e, entryOf s tg.origin = some e → e.live = true → e.kind = .panel ∧ ∀ last, e.serD = some last →
          1 ≤ (tg.serial - last).toNat ∧ (tg.serial - last).toNat ≤ 127) ∨
      (∃ n e, c = .entryGoesStale n ∧ entryOf s n = some e ∧ e.kind = .panel ∧ e.live = true ∧ s.staleMs ≤ e.age) →
    ∃ n y, exec c s = .next (noticed n y) ∧ n.ofPanel = true ∧ y.suc = s.suc ∧ y.dcu = s.dcu ∧ y.trm = s.trm ∧ y.psu = s.psu ∧
      y.deb = s.deb ∧ y.enu.permStart = s.enu.permStart := by
  have runs : s.suc.startUp.running = true := by simp_all [State.doorRuns]
  rintro (⟨rfl, tg, rest, hq, cls, other, entries⟩ | ⟨n, e, rfl, found, kind, live, aged⟩)
  · have ofPanel : telegramKind tg = .panel := by rw [telegramKind, cls]
    have newer : ∀ e, (entryOf s tg.origin).filter (·.live) = some e → e.kind = telegramKind tg ∧ ∀ last, e.serial tg.cls = some last →
        1 ≤ (tg.serial - last).toNat ∧ (tg.serial - last).toNat ≤ 127 := fun e he => by
      obtain ⟨held, live⟩ := Option.filter_eq_some_iff.mp he
      obtain ⟨kind, serials⟩ := entries e held live
      exact ⟨kind.trans ofPanel.symm, fun last hl => serials last (by rwa [cls] at hl)⟩
    obtain ⟨kind, -⟩ := acceptedEntry_items s.staleMs (entryOf s tg.origin) tg
    obtain ⟨base, -⟩ := baseEntry_items fun e he => (newer e he).1
    rw [base, ofPanel] at kind
    obtain ⟨suc, -, dcu, trm, psu, -⟩ := entered_keeps tg (s.dequeued rest)
    obtain ⟨enu, deb⟩ := entered_enu tg (s.dequeued rest)
    refine ⟨_, _, exec_accepts runs hq other newer, ?_, suc, dcu, trm, psu, deb, enu⟩
    simp [Notice.ofPanel, acceptedNotice, noticeOf, kind]
  · have run : exec (.entryGoesStale n) s = .next (noticed (noticeOf (some e) { e with live := false, single := false } none)
        (setEntry { e with live := false, single := false } s)) := by
      have run : exec (.entryGoesStale n) s = execEntryGoesStale n s := rfl
      rw [run, execEntryGoesStale, found]
      exact if_pos (by simp [live, aged])
    refine ⟨_, _, run, ?_, rfl, rfl, rfl, rfl, rfl, rfl⟩
    simp [Notice.ofPanel, noticeOf, kind]

/-- NO_PANEL at a notice of a panel, by the LIVE panels of the table (R8). -/
theorem noticed_noPanel {n : Notice} {s : State} (on : s.doorRuns = true) (panel : n.ofPanel = true) {panels : List Entry}
    (heard : somePanelLive (derive s) = !panels.isEmpty) :
    (panels = [] → s.suc.startUp ≠ .listen → ∃ r ∈ (noticed n s).alu, r.kind = .noPanel ∧ r.st.active = true) ∧
      (panels ≠ [] → ∀ r ∈ (noticed n s).alu, r.kind = .noPanel → r.st.active = false) := by
  obtain ⟨-, stands⟩ := noticed_reads on panel
  rw [heard] at stands
  refine ⟨fun none awake => ?_, fun some => ?_⟩
  · subst none
    refine stands ?_
    have runs : s.suc.startUp.running = true := by simp_all [State.doorRuns]
    cases hs : s.suc.startUp <;> simp_all [StartUp.running]
  · have live : (!panels.isEmpty) = true := by simpa using some
    rw [live] at stands
    exact stands (by simp)

/-- What a notice of a panel brings at the door, by what the panels then demand (R17 to R26). -/
theorem noticed_demand {n : Notice} {s : State} (on : s.doorRuns = true) (panel : n.ofPanel = true) (claims : ClaimsJoined s)
    {t : State} (ht : t = noticed n s) :
    (t.dcu.cd = s.dcu.cd → s.psu.phase ≠ .waiting → t.dcu.ctl = s.dcu.ctl) ∧
    (s.dcu.ctl = .closing ∨ s.dcu.ctl = .opening ∨
        (s.dcu.ctl = .idleClosed ∧ s.trm.pos = .closed ∧ (loHeld s = false ∨ s.dcu.lockout = true)) →
      t.dcu = { s.dcu with
        mode := t.dcu.mode, groupDemand := t.dcu.groupDemand, panelHeard := t.dcu.panelHeard, cd := t.dcu.cd } ∧
      t.trm = s.trm) ∧
    (s.dcu.cd = false → t.dcu.cd = true → lcHeld s = false →
      (loHeld s = false → s.dcu.ctl = .idleOpen ∨ s.dcu.ctl = .idlePartial →
        t.dcu.ctl = .warning ∧ t.dcu.wcause = .remote ∧ t.dcu.warnTimer = some s.conf.warningTime) ∧
      (loHeld s = true → s.dcu.ctl = .idleOpen → s.trm.pos = .opened →
        t.dcu.ctl = .heldOpen ∧ t.dcu.held = .running 0)) ∧
    (s.dcu.cd = true → t.dcu.cd = false →
      (s.dcu.ctl = .warning → lcHeld s = false → requestStands s = false →
        t.dcu.ctl = idleFor s.trm.pos ∧ t.dcu.warnTimer = none) ∧
      (s.dcu.ctl = .heldOpen → t.dcu.ctl = .idleOpen ∧ t.dcu.held = .stopped) ∧
      (s.dcu.ctl = .claiming → t.psu.phase = .noClaim ∧ t.psu.claimTimer = none ∧
        t.dcu.ctl = if s.enu.permStart = true then .opening else idleFor s.trm.pos)) := by
  obtain ⟨z, hz⟩ : ∃ z, z = derive s := ⟨_, rfl⟩
  obtain ⟨-, deb, -, -, suc, dcu, trm, psu, -⟩ := derive_keeps s
  have enu := derive_enu s
  have reads := (noticed_reads on panel).1 (.inl claims.limit)
  have follows := noticed_follows on panel
  rw [← hz] at deb suc dcu trm psu enu reads follows
  rw [← ht] at reads follows
  have conf : z.conf = s.conf := by simp [State.conf, suc]
  obtain ⟨lc, lo, rq⟩ := request_of_eq deb trm
  have cd := reads.items.1
  have unclaimed : s.dcu.ctl ≠ .claiming → s.psu.phase = .noClaim := fun out => by
    by_contra hn
    exact out (claims.claim.mp hn)
  have rests : ∀ {w : State} {ctl : Ctl} {cause : Cause} {c : WarningCause} {timer : Option Nat} {held : Watch},
      w.dcu.ctl = z.dcu.ctl → w.psu.phase = z.psu.phase →
      Shifted w (w.dcu.enter ctl cause c timer held) (rederive z) → s.dcu.ctl ≠ .claiming → ctl ≠ .claiming →
      t.dcu.ctl = ctl ∧ t.dcu.wcause = c ∧ t.dcu.warnTimer = timer ∧ t.dcu.held = held := by
    intro w ctl cause c timer held was phase moved out out'
    have same : (rederive z).psu = w.psu := by
      rw [moved.psu]
      exact claimFor_outside _ _ (by rw [was, dcu]; exact out) out'
    rw [(follows (by rw [same, phase, psu, unclaimed out]; nofun)).1, moved.dcu]
    exact ⟨rfl, rfl, rfl, rfl⟩
  refine ⟨fun same judged => ?_, fun h => ?_, fun was now lc' => ?_, fun was now => ?_⟩
  · have still : rederive z = z.readDemand := by rw [rederive_eq, if_pos (by rw [← cd, same, dcu])]
    rw [still] at follows
    rw [(follows (by rw [← psu] at judged; exact judged)).1, ← dcu]
    rfl
  · obtain ⟨d, m, phase⟩ := rederive_goes_on (s := z) (by rw [dcu, trm, lo]; exact h)
    obtain ⟨td, tm, -⟩ := follows (by
      rw [phase, psu, unclaimed (by rcases h with h | h | h <;> simp [h])]
      nofun)
    rw [td, tm, d, m, trm, ← dcu]
    exact ⟨rfl, rfl⟩
  · obtain ⟨warns, holds⟩ := rederive_rises (s := z) (by rw [dcu]; exact was) (cd.symm.trans now) (lc.trans lc')
    rw [lo, conf] at warns
    rw [lo, trm] at holds
    refine ⟨fun none idle => ?_, fun held idle pos => ?_⟩
    · obtain ⟨w, same, phase, moved⟩ := warns none (by rw [dcu]; exact idle)
      obtain ⟨ctl, cause, timer, -⟩ := rests same phase moved (by rcases idle with h | h <;> simp [h]) nofun
      exact ⟨ctl, cause, timer⟩
    · obtain ⟨w, same, phase, moved⟩ := holds held (by rw [dcu]; exact idle) pos
      obtain ⟨ctl, -, -, held⟩ := rests same phase moved (by simp [idle]) nofun
      exact ⟨ctl, held⟩
  · obtain ⟨w, same, phase, warns, holds, ends⟩ := rederive_falls (s := z) (by rw [dcu]; exact was) (cd.symm.trans now)
    rw [dcu] at warns holds ends
    rw [lc, rq, trm] at warns
    rw [trm, enu] at ends
    refine ⟨fun ctl lc none => ?_, fun ctl => ?_, fun ctl => ?_⟩
    · obtain ⟨idle, -, timer, -⟩ := rests same phase (warns ctl lc none) (by simp [ctl]) (by cases s.trm.pos <;> nofun)
      exact ⟨idle, timer⟩
    · obtain ⟨idle, -, -, held⟩ := rests same phase (holds ctl) (by simp [ctl]) nofun
      exact ⟨idle, held⟩
    · have moved := ends ctl
      have claim : (rederive z).psu = { w.psu with phase := .noClaim, claimTimer := none } := by
        rw [moved.psu]
        exact (if_neg (granted_ne_claiming s)).trans (if_pos (same.trans (dcu ▸ ctl)))
      obtain ⟨td, -, phase', timer', -⟩ := follows (by rw [claim]; nofun)
      rw [td, phase', timer', claim, moved.dcu]
      exact ⟨rfl, rfl, rfl⟩

/-- A LIVE panel's demand for this door (R6). -/
theorem cdNow_of_demand {s : State} {e : Entry} {p : HeldDemand} (stands : e ∈ s.ste.table) (kind : e.kind = .panel)
    (live : e.live = true) (part : e.panel = some p)
    (demand : p.part.mode = .doorsClosed ∨ inGroups p.part.groups s.conf.group = true) : s.cdNow = true := by
  have ofPanel : e.livePanel = true := by simp [Entry.livePanel, kind, live]
  have heard : somePanelLive s = true := List.any_eq_true.mpr ⟨e, stands, ofPanel⟩
  rw [State.cdNow, modeNow, demandNow, heard]
  rcases demand with mode | group
  · have closed : s.ste.table.any (·.demandsClosed) = true :=
      List.any_eq_true.mpr ⟨e, stands, by simp [Entry.demandsClosed, ofPanel, part, mode]⟩
    rw [closed]
    rfl
  · have closed : s.ste.table.any (Entry.demandsGroup s.conf.group) = true :=
      List.any_eq_true.mpr ⟨e, stands, by simp [Entry.demandsGroup, ofPanel, part, group]⟩
    simp [closed]

/-- A demand that starts, noticed at an open door without a lever (R17, R69). -/
theorem noticed_warns {n : Notice} {s : State} (on : s.doorRuns = true) (panel : n.ofPanel = true)
    (noPeer : n.ofPeer s.conf.group = false) (demanded : (derive s).cdNow = true) (cd : s.dcu.cd = false)
    (idle : s.dcu.ctl = .idleOpen ∨ s.dcu.ctl = .idlePartial) (lc : lcHeld s = false) (lo : loHeld s = false) :
    let t := noticed n s
    t.dcu.cd = true ∧ t.dcu.ctl = .warning ∧ t.dcu.wcause = .remote ∧ t.dcu.warnTimer = some s.conf.warningTime ∧
      t.psu.inForce = limitFor s.conf true ∧ t.outs.sndr = true := by
  intro t
  obtain ⟨z, hz⟩ : ∃ z, z = derive s := ⟨_, rfl⟩
  obtain ⟨-, deb, -, -, suc, dcu, trm, -⟩ := derive_keeps s
  have reads := (noticed_reads on panel).1 (.inr (by rw [demanded, cd]; nofun))
  have state := noticed_recomputes on panel
  rw [noPeer, ← hz] at state
  rw [← hz] at deb suc dcu trm demanded reads
  rw [demanded] at reads
  have conf : z.conf = s.conf := by simp [State.conf, suc]
  obtain ⟨lcz, loz, -⟩ := request_of_eq deb trm
  obtain ⟨w, -, -, moved⟩ := (rederive_rises (dcu ▸ cd) demanded (lcz.trans lc)).1 (loz.trans lo) (by rw [dcu]; exact idle)
  have entered : t.dcu = (rederive z).dcu := (congrArg State.dcu state).trans (recompute_follows z).1
  obtain ⟨tcd, -, -, -, limit⟩ := reads.items
  rw [moved.dcu, conf] at entered
  have ctl : t.dcu.ctl = .warning := by rw [entered]; rfl
  refine ⟨tcd, ctl, by rw [entered]; rfl, by rw [entered]; rfl, limit, ?_⟩
  have pins : t.outs = outsFor t := by
    rw [show t = _ from state]
    rfl
  simp [pins, outsFor, ctl]

/-- A DEMAND accepted from a LIVE panel: its part in the table, and the notice of it (R105, R111). -/
theorem demand_entered {s : State} {tg : Telegram} {rest : List Telegram} {e : Entry} (cls : tg.cls = .demand)
    (held : entryOf s tg.origin = some e) (kind : e.kind = .panel) (live : e.live = true) :
    let y := (s.dequeued rest).entered tg
    (acceptedNotice s tg).ofPanel = true ∧ (∀ g, (acceptedNotice s tg).ofPeer g = false) ∧
      ∃ x ∈ (derive y).ste.table, x.kind = .panel ∧ x.live = true ∧
        x.panel = some ⟨decodeDemand tg.payload, (decodeDemand tg.payload).ack⟩ := by
  intro y
  have ofPanel : telegramKind tg = .panel := by rw [telegramKind, cls]
  obtain ⟨x, hx⟩ : ∃ x, x = acceptedEntry s.staleMs (entryOf s tg.origin) tg := ⟨_, rfl⟩
  obtain ⟨xkind, xlive, -, -, -, -, -, -, part, -⟩ := acceptedEntry_items s.staleMs (entryOf s tg.origin) tg
  obtain ⟨base, -⟩ := baseEntry_items (old := entryOf s tg.origin) (tg := tg) fun e' he' => by
    rw [held, Option.filter_some, if_pos live, Option.some.injEq] at he'
    subst he'
    exact kind.trans ofPanel.symm
  rw [base, ofPanel, ← hx] at xkind
  rw [if_pos cls, ← hx] at part
  rw [← hx] at xlive
  have table : y.ste.table = putEntry x s.ste.table := by
    rw [show y.ste = _ from (entered_keeps tg (s.dequeued rest)).2.2.2.2.2.1, hx]
    rfl
  refine ⟨by simp [Notice.ofPanel, acceptedNotice, noticeOf, held, kind], fun g => ?_, x, ?_, xkind, xlive, part⟩
  · rw [acceptedNotice, ← hx]
    simp [Notice.ofPeer, noticeOf, held, kind, xkind]
  · rw [derive_table, table]
    exact List.mem_of_find?_eq_some (find_putEntry_same x s.ste.table)

/-- A newer DEMAND of a LIVE panel that demands this door's closure, at an open door without a lever (R6, R7, R17, R69). -/
theorem demand_warns {s : State} {tg : Telegram} {rest : List Telegram} {e : Entry} {last : Byte} (on : s.doorRuns = true)
    (hq : s.rxq.queue = tg :: rest) (cls : tg.cls = .demand) (other : tg.origin ≠ s.conf.station)
    (held : entryOf s tg.origin = some e) (kind : e.kind = .panel) (live : e.live = true) (serial : e.serD = some last)
    (newer : 1 ≤ (tg.serial - last).toNat ∧ (tg.serial - last).toNat ≤ 127)
    (demand : (decodeDemand tg.payload).mode = .doorsClosed ∨ inGroups (decodeDemand tg.payload).groups s.conf.group = true)
    (idle : s.dcu.ctl = .idleOpen ∨ s.dcu.ctl = .idlePartial) (cd : s.dcu.cd = false) (lc : lcHeld s = false)
    (lo : loHeld s = false) :
    ∃ t, exec .telegramTaken s = .next t ∧ t.dcu.cd = true ∧ t.dcu.ctl = .warning ∧ t.dcu.wcause = .remote ∧
      t.dcu.warnTimer = some s.conf.warningTime ∧ t.psu.inForce = limitFor s.conf true ∧
      t.outs.sndr = true ∧ t.rxq = { s.rxq with queue := rest } := by
  have runs : s.suc.startUp.running = true := by simp_all [State.doorRuns]
  have accepted := exec_accepts runs hq other fun x hx => by
    rw [held, Option.filter_some, if_pos live, Option.some.injEq] at hx
    subst hx
    refine ⟨by rw [kind, telegramKind, cls], fun last' hl => ?_⟩
    rw [cls] at hl
    obtain rfl : last = last' := Option.some.inj (serial.symm.trans hl)
    exact newer
  obtain ⟨panel, noPeer, x, stands, xkind, xlive, part⟩ := demand_entered (rest := rest) cls held kind live
  obtain ⟨suc, rxq, dcu, trm, -⟩ := entered_keeps tg (s.dequeued rest)
  have deb := (entered_enu tg (s.dequeued rest)).2
  obtain ⟨y, hy⟩ : ∃ y, y = (s.dequeued rest).entered tg := ⟨_, rfl⟩
  rw [← hy] at suc rxq dcu trm deb stands accepted
  have conf : y.conf = s.conf := by rw [State.conf, suc]; rfl
  have zconf : (derive y).conf = s.conf := by rw [← conf]; simp [State.conf]
  obtain ⟨lcy, loy, -⟩ := request_of_eq (s := s) deb trm
  obtain ⟨tcd, ctl, cause, timer, limit, sndr⟩ := noticed_warns (n := acceptedNotice s tg) (s := y)
    (by rw [State.doorRuns, conf, suc]; exact on) panel (noPeer _)
    (cdNow_of_demand stands xkind xlive part (by rw [zconf]; exact demand)) (by rw [dcu]; exact cd) (by rw [dcu]; exact idle)
    (lcy.trans lc) (loy.trans lo)
  rw [conf] at timer limit
  refine ⟨_, accepted, tcd, ctl, cause, timer, limit, sndr, ?_⟩
  have kept : (noticed (acceptedNotice s tg) y).rxq = y.rxq := by simp [noticed]
  rw [kept, rxq]
  rfl

/-- Settles O15: the door at each notice of a panel (`noticed_reads`, `noticed_noPanel`, `noticed_demand`). -/
theorem closureDemandStartsTheWarning : Obligations.ClosureDemandStartsTheWarning := by
  refine ⟨fun s tg rest e h last on hq cls other held kind live _ serial low high demand idle cd lc lo =>
    demand_warns on hq cls other held kind live serial ⟨low, high⟩ demand idle cd lc lo, fun s c on claims change => ?_⟩
  obtain ⟨n, y, run, panel, suc, dcu, trm, psu, deb, perm⟩ := panel_changes on change
  have conf : y.conf = s.conf := by simp [State.conf, suc]
  have ony : y.doorRuns = true := by simpa [State.doorRuns, conf, suc] using on
  obtain ⟨z, hz⟩ : ∃ z, z = derive y := ⟨_, rfl⟩
  obtain ⟨-, -, -, -, zsuc, zdcu, -⟩ := derive_keeps y
  rw [← hz, suc] at zsuc
  rw [← hz, dcu] at zdcu
  have zconf : z.conf = s.conf := by simp [State.conf, zsuc]
  obtain ⟨t, ht⟩ : ∃ t, t = noticed n y := ⟨_, rfl⟩
  have table : t.ste = z.ste := by rw [ht, noticed_ste, hz]
  obtain ⟨heard, mode, group⟩ := panels_heard z
  have noPanel := noticed_noPanel ony panel (hz ▸ heard)
  have follows := noticed_demand ony panel (claims.of_eq suc dcu psu) ht
  obtain ⟨lc, lo, rq⟩ := request_of_eq deb trm
  have reads := (noticed_reads ony panel).1 (.inl (by rw [psu, conf, dcu]; exact claims.limit))
  rw [← hz, ← ht, conf, dcu] at reads
  obtain ⟨tcd, tmode, tgroup, theard, limit⟩ := reads.items
  have cdEq : t.dcu.cd = (t.dcu.mode == .doorsClosed || t.dcu.groupDemand) := by
    rw [tcd, tmode, tgroup]
    rfl
  rw [heard] at theard
  rw [mode] at tmode
  rw [group] at tgroup
  rw [zdcu, zconf, ← table] at tmode tgroup
  rw [← table] at theard
  rw [← hz, ← table, ← ht, suc] at noPanel
  rw [dcu, trm, psu, conf, perm, lc, lo, rq] at follows
  refine ⟨t, ht ▸ run, ⟨tmode, tgroup, theard, noPanel⟩, cdEq, by rw [tcd]; exact limit, follows⟩

end Sys2Proof.Machine
end

