-- ==== Sys2Proof/Proofs/Gathered.lean ====
section
/-! SUPPORT and PROOFS. A gate judged, and its one snapshot (R53 to R64): requests that leave the list hand nothing on, so the snapshot of the door's
change or of the figure is the only one. -/

namespace Sys2Proof.Machine

/-! ### The records of one kind -/

/-- The records of a kind (at most one, R88). -/
def ofKind (k : AlarmKind) (l : List AlarmRecord) : List AlarmRecord := l.filter (·.kind = k)

/-- A change of records that keeps their kinds. -/
theorem ofKind_map {k : AlarmKind} {f : AlarmRecord → AlarmRecord} (hf : ∀ r, (f r).kind = r.kind) (l : List AlarmRecord) :
    ofKind k (l.map f) = (ofKind k l).map f := by
  simp [ofKind, List.filter_map, Function.comp_def, hf]

theorem ofKind_filter {k : AlarmKind} (p : AlarmRecord → Bool) (l : List AlarmRecord) : ofKind k (l.filter p) = (ofKind k l).filter p := by
  simp [ofKind, List.filter_filter, Bool.and_comm]

theorem mem_ofKind {k : AlarmKind} {l : List AlarmRecord} {r : AlarmRecord} : r ∈ ofKind k l ↔ r ∈ l ∧ r.kind = k := by
  simp [ofKind]

theorem map_eq_self_iff {f : AlarmRecord → AlarmRecord} {l : List AlarmRecord} : l.map f = l ↔ ∀ r ∈ l, f r = r := by
  conv_lhs => rhs; rw [← List.map_id l]
  exact List.map_inj_left

/-- Requests of other kinds leave a kind's records (R83). -/
theorem ofKind_condition_other {k k' : AlarmKind} (hk : k ≠ k') (b : Bool) (l : List AlarmRecord) :
    ofKind k (applyRequest (condition k' b) l) = ofKind k l := by
  have apart : ∀ r ∈ ofKind k l, r.kind ≠ k' := fun r hr => (mem_ofKind.mp hr).2 ▸ hk
  cases b with
  | true =>
    rw [condition, if_pos rfl, applyRequest]
    split
    · rw [ofKind_map (fun r => by split <;> rfl)]
      exact map_eq_self_iff.mpr fun r hr => by simp [apart r hr]
    · simp [ofKind, hk.symm]
  | false =>
    rw [condition, if_neg (by simp), applyRequest, ofKind_map (fun r => by split <;> rfl), ofKind_filter,
      List.filter_eq_self.mpr fun r hr => by simp [apart r hr]]
    exact map_eq_self_iff.mpr fun r hr => by simp [apart r hr]

/-- A request that leaves its kind's records leaves the list (R83). -/
theorem condition_of_ofKind {k : AlarmKind} {b : Bool} {l : List AlarmRecord}
    (h : ofKind k (applyRequest (condition k b) l) = ofKind k l) : applyRequest (condition k b) l = l := by
  cases b with
  | true =>
    rw [condition, if_pos rfl, applyRequest] at h ⊢
    split at h
    · rename_i present
      rw [if_pos present]
      rw [ofKind_map (fun r => by split <;> rfl), map_eq_self_iff] at h
      refine map_eq_self_iff.mpr fun r hr => ?_
      by_cases hk : r.kind = k
      · exact h r (mem_ofKind.mpr ⟨hr, hk⟩)
      · simp [hk]
    · simp [ofKind] at h
  | false =>
    rw [condition, if_neg (by simp), applyRequest] at h ⊢
    rw [ofKind_map (fun r => by split <;> rfl), ofKind_filter] at h
    have all : (ofKind k l).filter (fun r => !(r.kind = k ∧ r.st = .activeAcked)) = ofKind k l :=
      List.filter_sublist.eq_of_length (by simpa using congrArg List.length h)
    rw [all, map_eq_self_iff] at h
    rw [List.filter_eq_self] at all
    have kept : l.filter (fun r => !(r.kind = k ∧ r.st = .activeAcked)) = l := List.filter_eq_self.mpr fun r hr => by
      by_cases hk : r.kind = k
      · exact all r (mem_ofKind.mpr ⟨hr, hk⟩)
      · simp [hk]
    rw [kept]
    refine map_eq_self_iff.mpr fun r hr => ?_
    by_cases hk : r.kind = k
    · exact h r (mem_ofKind.mpr ⟨hr, hk⟩)
    · simp [hk]

/-- A condition's request that leaves its kind's records is no event at all (R95 to R97). -/
theorem alarm_condition_same {k : AlarmKind} {b : Bool} {s : State} (h : ofKind k (applyRequest (condition k b) s.alu) = ofKind k s.alu) :
    alarm (condition k b) s = s := by
  have same := condition_of_ofKind h
  refine alarm_same same ?_
  by_contra new
  exact newAlarm_changes (eq_true_of_ne_false new) (congrArg activeSet same)

/-! ### The gate's alarms and its one event -/

/-- Moves and looks leave the records of the gate's kinds (R25, R45, R80). -/
theorem outlasts_ofKind {k : AlarmKind} (hk : k = .pressureSensor ∨ k = .energyLow) (l : List AlarmRecord) :
    Outlasts (fun x => ofKind k x = l) moveRequests := fun q hq x hx => by
  obtain ⟨k', b, rfl, other⟩ : ∃ k' b, q = condition k' b ∧ k' ∈ [AlarmKind.closeTimeout, .openTooLong, .passageExcess] := by
    simp only [moveRequests, List.mem_cons, List.not_mem_nil, or_false] at hq
    rcases hq with rfl | rfl | rfl | rfl
    · exact ⟨.closeTimeout, false, rfl, by simp⟩
    · exact ⟨.openTooLong, false, rfl, by simp⟩
    · exact ⟨.passageExcess, true, rfl, by simp⟩
    · exact ⟨.passageExcess, false, rfl, by simp⟩
  refine (ofKind_condition_other ?_ b x).trans hx
  rintro rfl
  rcases hk with rfl | rfl <;> simp at other

/-- A condition that is asked for or not, where its kind's records stay, is no event at all. -/
theorem asked_same {k : AlarmKind} {s x : State} (h : x = s ∨ ∃ b, x = alarm (condition k b) s) (same : ofKind k x.alu = ofKind k s.alu) :
    x = s := by
  obtain rfl | ⟨b, rfl⟩ := h
  · rfl
  · rw [alarm_alu] at same
    exact alarm_condition_same same

/-- The first of a gate's alarms (R55). -/
def pressureAlarm (before after : Enu) (s : State) : State :=
  if before.oob ≠ 3 ∧ after.oob = 3 then alarm (.becameTrue .pressureSensor) s
  else if before.inb ≠ 3 ∧ after.inb = 3 then alarm (.becameFalse .pressureSensor) s
  else s

theorem gateAlarms_eq (before after : Enu) (s : State) : gateAlarms before after s =
    if energyLow before = energyLow after then pressureAlarm before after s
    else alarm (condition .energyLow (energyLow after)) (pressureAlarm before after s) := rfl

theorem pressureAlarm_asks (before after : Enu) (s : State) :
    pressureAlarm before after s = s ∨ ∃ b, pressureAlarm before after s = alarm (condition .pressureSensor b) s := by
  rw [pressureAlarm]
  split
  · exact .inr ⟨true, rfl⟩
  · split
    · exact .inr ⟨false, rfl⟩
    · exact .inl rfl

/-- A gate's alarms that leave the records of their kinds are no event at all (R55, R61). -/
theorem gateAlarms_same {before after : Enu} {s : State}
    (pressure : ofKind .pressureSensor (gateAlarms before after s).alu = ofKind .pressureSensor s.alu)
    (energy : ofKind .energyLow (gateAlarms before after s).alu = ofKind .energyLow s.alu) : gateAlarms before after s = s := by
  obtain ⟨x, hx⟩ : ∃ x, x = pressureAlarm before after s := ⟨_, rfl⟩
  have second : gateAlarms before after s = x ∨ ∃ b, gateAlarms before after s = alarm (condition .energyLow b) x := by
    rw [gateAlarms_eq, ← hx]
    split
    · exact .inl rfl
    · exact .inr ⟨_, rfl⟩
  have kept : ofKind .pressureSensor (gateAlarms before after s).alu = ofKind .pressureSensor x.alu := by
    obtain h | ⟨b, h⟩ := second
    · rw [h]
    · rw [h, alarm_alu]
      exact ofKind_condition_other (by nofun) b x.alu
  have first : x = s := asked_same (hx ▸ pressureAlarm_asks before after s) (kept.symm.trans pressure)
  rw [first] at second
  exact asked_same second energy

/-- What the door does at a gate's end: an opening is stopped, or goes on; a standing request is judged where the permission to start comes
or goes (R58, R59). -/
def gateEvent (before after : Enu) (s : State) : State :=
  if s.dcu.ctl = .opening then if after.permCont then s else onStop s
  else if before.permStart = after.permStart then s else evaluateStanding s

/-- A refused request leaves no OPENING. -/
theorem evaluateStanding_refused {s : State} (none : s.enu.permStart = false) (hc : s.dcu.ctl ≠ .opening) :
    (evaluateStanding s).dcu.ctl ≠ .opening := by
  rw [evaluateStanding]
  split
  · rw [evaluate_refuses (.inl none), refuse]
    split
    · exact hc
    · simp only [(toIdle_energy _ _).2.2.1]
      cases s.trm.pos <;> nofun
  · exact hc

/-- A gate's end is one event of the door, between its alarms and pump control (R58, R59, R62, R64). -/
theorem gateHandsOn_event {before after : Enu} {s : State} (enu : s.enu = after)
    (feeds : after.permStart = true → after.permCont = true) :
    gateHandsOn before after s = pumpActs (offerCloses before after s.dcu
      (doorEvent (gateEvent before after) (gateAlarms before after s))) := by
  obtain ⟨x, hx⟩ : ∃ x, x = gateAlarms before after s := ⟨_, rfl⟩
  have dcu : x.dcu = s.dcu := by simp [hx]
  have enu : x.enu = after := by rw [hx, (gateAlarms_leaves _ _ _).2, enu]
  have acts : (if after.permCont then if before.permStart = after.permStart then x else doorEvent evaluateStanding x
      else doorEvent onStop (if before.permStart = after.permStart then x else doorEvent evaluateStanding x)) =
      doorEvent (gateEvent before after) x := by
    by_cases hc : x.dcu.ctl = .opening
    · have waits : doorEvent evaluateStanding x = x := doorEvent_same (by simp [evaluateStanding, hc])
      have event : gateEvent before after x = if after.permCont then x else onStop x := if_pos hc
      rw [waits, ite_self, show doorEvent (gateEvent before after) x = report x (gateEvent before after x) from rfl, event]
      split
      · exact (doorEvent_same (f := id) rfl).symm
      · rfl
    · have event : gateEvent before after x = if before.permStart = after.permStart then x else evaluateStanding x := if_neg hc
      have judged : (if before.permStart = after.permStart then x else doorEvent evaluateStanding x) =
          doorEvent (gateEvent before after) x := by
        rw [show doorEvent (gateEvent before after) x = report x (gateEvent before after x) from rfl, event]
        split
        · exact (doorEvent_same (f := id) rfl).symm
        · rfl
      rw [judged]
      split
      · rfl
      · rename_i off
        refine doorEvent_same (onStop_elsewhere ?_)
        have none : x.enu.permStart = false := by
          rw [enu]
          by_contra held
          exact off (feeds (eq_true_of_ne_false held))
        rw [doorEvent, (report_keeps _ _).2.2.2.2.2.1, event]
        split
        · exact hc
        · exact evaluateStanding_refused none hc
  rw [gateHandsOn, ← hx, ← dcu]
  exact congrArg (fun y => pumpActs (offerCloses before after x.dcu y)) acts

/-! ### Moves that hand nothing on -/

/-- What a snapshot is made of and made in, outside the door's own blocks, is as it was. -/
def Unoffered (s t : State) : Prop := t.snu = s.snu ∧ t.laneA = s.laneA ∧ t.laneB = s.laneB ∧ t.alu = s.alu

/-- A condition that stood active in the list has gone. -/
def Quenched (s t : State) : Prop :=
  ∃ k, (k = .closeTimeout ∨ k = .openTooLong) ∧ Stands k true s.alu ∧ Stands k false t.alu

/-- Either nothing was handed on, or a condition that moves end has gone. -/
def Quiet (s t : State) : Prop := Unoffered s t ∨ Quenched s t

theorem Quiet.of_eq {s x y : State} (h : Quiet s x) (snu : y.snu = x.snu) (laneA : y.laneA = x.laneA) (laneB : y.laneB = x.laneB)
    (alu : y.alu = x.alu) : Quiet s y := by
  rw [Quiet, Unoffered, Quenched, snu, laneA, laneB, alu]
  exact h

/-- An ended condition is not raised by moves. -/
theorem outlasts_ended {k : AlarmKind} (hk : k = .closeTimeout ∨ k = .openTooLong) : Outlasts (Stands k false) moveRequests :=
  fun q hq l hl => by
    by_cases own : q = .becameFalse k
    · subst own
      exact becameFalse_inactive k l
    · refine outlasts_stands false (qs := [q]) (fun q' hq' => ?_) q (List.mem_singleton.mpr rfl) l hl
      rw [List.mem_singleton.mp hq']
      simp only [moveRequests, List.mem_cons, List.not_mem_nil, or_false] at hq
      rcases hq with rfl | rfl | rfl | rfl <;> refine ⟨_, rfl, ?_⟩ <;> rintro rfl <;> simp_all

/-- A condition that is not active does not end. -/
theorem becameFalse_idle {k : AlarmKind} {l : List AlarmRecord} (h : ¬ Stands k true l) : applyRequest (.becameFalse k) l = l := by
  have inactive : ∀ r ∈ l, r.kind = k → r.st.active = false := fun r hr hk => by
    by_contra active
    exact h ⟨r, hr, hk, eq_true_of_ne_false active⟩
  have unacked : ∀ r ∈ l, ¬ (r.kind = k ∧ r.st = .activeUnacked) := fun r hr ⟨hk, st⟩ => by
    have := inactive r hr hk
    rw [st] at this
    nomatch this
  have acked : ∀ r ∈ l, ¬ (r.kind = k ∧ r.st = .activeAcked) := fun r hr ⟨hk, st⟩ => by
    have := inactive r hr hk
    rw [st] at this
    nomatch this
  rw [applyRequest, List.filter_eq_self.mpr fun r hr => by simpa [imp_iff_not_or] using acked r hr]
  exact map_eq_self_iff.mpr fun r hr => if_neg (unacked r hr)

/-- The end of a condition hands nothing on, where the condition was not active. -/
theorem Quiet.ends {s x : State} (h : Quiet s x) {k : AlarmKind} (hk : k = .closeTimeout ∨ k = .openTooLong) :
    Quiet s (alarm (.becameFalse k) x) := by
  obtain ⟨snu, laneA, laneB, alu⟩ | ⟨k', hk', was, gone⟩ := h
  · by_cases active : Stands k true s.alu
    · refine .inr ⟨k, hk, active, ?_⟩
      rw [alarm_alu]
      exact becameFalse_inactive k x.alu
    · rw [alarm_same (becameFalse_idle (by rw [alu]; exact active)) rfl]
      exact .inl ⟨snu, laneA, laneB, alu⟩
  · refine .inr ⟨k', hk', was, (outlasts_ended hk').alarm ?_ gone⟩
    rcases hk with rfl | rfl <;> simp [moveRequests]

theorem Quiet.setTrm {s x : State} (h : Quiet s x) (t : Trm) : Quiet s (setTrm t x) := h.of_eq rfl rfl rfl rfl

theorem Quiet.strokeEnd {s x : State} (h : Quiet s x) : Quiet s (strokeEnd x) :=
  Carried.ite (P := Quiet s) ((h.setTrm _).ends (.inl rfl)) (h.setTrm _)

theorem Quiet.valves {s x : State} (h : Quiet s x) : Quiet s (valves x) := by
  have dcu : ∀ (y : State) (d : Dcu), Quiet s y → Quiet s { y with dcu := d } := fun y d h => h.of_eq rfl rfl rfl rfl
  obtain ⟨y, hy⟩ : ∃ y, y = if x.dcu.vcl && x.dcu.ctl != .closing then
      Machine.strokeEnd { x with dcu := { x.dcu with vcl := false, vopPause := some 0 } } else x := ⟨_, rfl⟩
  obtain ⟨z, hz⟩ : ∃ z, z = if y.dcu.vop && y.dcu.ctl != .opening then
      Machine.strokeEnd { y with dcu := { y.dcu with vop := false, vclPause := some 0 } } else y := ⟨_, rfl⟩
  have first : Quiet s y := hy ▸ Carried.ite (P := Quiet s) (dcu x _ h).strokeEnd h
  have second : Quiet s z := hz ▸ Carried.ite (P := Quiet s) (dcu y _ first).strokeEnd first
  rw [Machine.valves, ← hy, ← hz]
  exact Carried.ite (P := Quiet s) ((dcu z _ second).setTrm _) (Carried.ite (P := Quiet s) ((dcu z _ second).setTrm _) second)

theorem Quiet.moveTo {s x : State} (d : Dcu) (h : Quiet s x) : Quiet s (moveTo d x) := by
  have moved : Quiet s (Machine.valves { x with dcu := d, psu := claimFor x.conf.claimHold x.dcu.ctl d.ctl x.psu }) :=
    Quiet.valves (h.of_eq rfl rfl rfl rfl)
  exact Carried.ite (P := Quiet s) (moved.ends (.inr rfl)) moved

/-- Moves hand nothing on, unless they end a condition. -/
theorem Quiet.paced (s : State) : Paced (Quiet s) where
  items := fun _ _ _ h => h.of_eq rfl rfl rfl rfl
  figures := fun _ _ _ h => h.of_eq rfl rfl rfl rfl
  toIdle := fun _ _ _ _ h => h.moveTo _
  toClosing := fun _ _ _ h => h.moveTo _
  toOpening := fun _ _ h => h.moveTo _
  toClaiming := fun _ _ _ _ h => h.moveTo _
  toWarning := fun w _ _ _ h => by cases w <;> exact h.moveTo _
  toHeldOpen := fun _ _ _ h => h.moveTo _

/-! ### The gate's one snapshot -/

theorem Paced.gateEvent {P : State → Prop} (c : Paced P) (before after : Enu) {s : State} (h : P s) : P (gateEvent before after s) :=
  Carried.ite (P := P) (Carried.ite (P := P) h (c.onStop h)) (Carried.ite (P := P) h (c.evaluateStanding h))

/-- A look at PASSAGE_EXCESS that leaves the list leaves all but the flag (R80). -/
theorem excessLook_same {s : State} (h : (excessLook s).alu = s.alu) : ∃ b, excessLook s = { s with psu := { s.psu with excess := b } } := by
  by_cases same : excessNow s = s.psu.excess
  · exact ⟨s.psu.excess, if_pos same⟩
  · have looked : excessLook s = alarm (condition .passageExcess (excessNow s)) { s with psu := { s.psu with excess := excessNow s } } :=
      if_neg same
    rw [looked, alarm_alu] at h
    exact ⟨excessNow s, looked.trans (alarm_condition_same (congrArg (ofKind _) h))⟩

/-- What a STATE says (R31, R120). -/
theorem doorContent_of_eq {s t : State} (suc : t.suc = s.suc) (dcu : t.dcu = s.dcu) (trm : t.trm = s.trm)
    (closes : t.enu.closes = s.enu.closes) (phase : t.psu.phase = s.psu.phase) (alu : t.alu = s.alu)
    (goodA : t.laneA.good = s.laneA.good) (goodB : t.laneB.good = s.laneB.good) : doorContent t = doorContent s := by
  simp only [doorContent, positionFigure, State.conf, suc, dcu, trm, closes, phase, alu, goodA, goodB]

/-- A report that leaves list and claim offers an item of R31 that has changed, and nothing else. -/
theorem report_same {b s : State} (alu : (report b s).alu = s.alu) (phase : b.psu.phase = s.psu.phase) :
    ∃ f, report b s = { (if reportDiffers b.dcu s.dcu then offer s else s) with
      psu := { s.psu with excess := f } } := by
  have psu : (if reportDiffers b.dcu s.dcu then offer s else s).psu = s.psu := by split <;> simp
  have list : (if reportDiffers b.dcu s.dcu then offer s else s).alu = s.alu := by split <;> simp
  simp only [report, if_neg (not_not.mpr phase)] at alu ⊢
  obtain ⟨o, ho⟩ : ∃ o, o = if reportDiffers b.dcu s.dcu then offer s else s := ⟨_, rfl⟩
  rw [← ho] at alu psu list ⊢
  split at alu
  · rename_i moved
    obtain ⟨f, looked⟩ := excessLook_same (alu.trans list.symm)
    rw [if_pos moved, ← psu]
    exact ⟨f, looked⟩
  · rename_i still
    rw [if_neg still, ← psu]
    exact ⟨o.psu.excess, rfl⟩

/-- An offer of a door in JOINED whose spacing has ended makes the STATE as it stands (R128). -/
theorem offer_makes {s : State} (joined : s.suc.startUp = .joined) (door : s.conf.role = .door) (ready : s.snu.state.ready = true) :
    (offer s).snu.state = s.snu.state.make (doorContent s) := by
  have own : s.ownReady = true := by rw [State.ownReady, door]; exact ready
  rw [offer_eq joined, if_pos own, makeOwn_eq joined, State.snuMade, door]

theorem doorContent_offer (s : State) : doorContent (offer s) = doorContent s :=
  doorContent_of_eq (by simp) (by simp) (by simp) (by simp) (by simp) (by simp) (offer_good s).1 (offer_good s).2

theorem doorContent_pump (s : State) : doorContent (setOuts (pumpActs s)) = doorContent s :=
  doorContent_of_eq rfl rfl rfl (by simp [pumpActs]) rfl rfl rfl rfl

/-- The gate's event, its alarms and list as they were, hands on one offer at most (R62). -/
theorem gate_offers {before after : Enu} {s x : State} (hx : x = gateAlarms before after s)
    (alu : (doorEvent (gateEvent before after) x).alu = s.alu)
    (phase : (doorEvent (gateEvent before after) x).psu.phase = s.psu.phase) :
    ∃ m f, doorEvent (gateEvent before after) x = { (if reportDiffers s.dcu m.dcu then offer m else m) with
        psu := { m.psu with excess := f } } ∧ Unoffered s m ∧ m.suc = s.suc ∧ m.enu = s.enu := by
  obtain ⟨m, hm⟩ : ∃ m, m = gateEvent before after x := ⟨_, rfl⟩
  obtain ⟨u, hu⟩ : ∃ u, u = doorEvent (gateEvent before after) x := ⟨_, rfl⟩
  have state : u = report x m := by rw [hu, hm]; rfl
  rw [← hu] at alu phase ⊢
  have kinds : ∀ k, k = .pressureSensor ∨ k = .energyLow → ofKind k x.alu = ofKind k s.alu := fun k hk => by
    have c := (outlasts_ofKind hk (ofKind k x.alu)).reacts
    have kept := c.doorEvent _ (c.toPaced.gateEvent before after (s := x) rfl)
    rw [← hu, alu] at kept
    exact kept.symm
  obtain rfl : x = s := by
    rw [hx]
    refine gateAlarms_same ?_ ?_ <;> rw [← hx]
    · exact kinds _ (.inl rfl)
    · exact kinds _ (.inr rfl)
  have quiet : Quiet x m := hm ▸ (Quiet.paced x).gateEvent before after (.inl ⟨rfl, rfl, rfl, rfl⟩)
  have unoffered : Unoffered x m := quiet.resolve_right fun ⟨k, hk, was, gone⟩ => by
    have ended := (outlasts_ended hk).reacts.report x gone
    rw [← state, alu] at ended
    obtain ⟨r, hr, kind, active⟩ := was
    rw [ended r hr kind] at active
    nomatch active
  have phase' : x.psu.phase = m.psu.phase := by
    rw [← phase, state]
    exact (report_claim x m).1
  obtain ⟨f, same⟩ := report_same (by rw [← state, alu, unoffered.2.2.2]) phase'
  have suc : Reacts (fun y : State => y.suc = x.suc ∧ y.enu = x.enu) :=
    .of_shifted (fun _ h => by simpa using h) (fun b y h => ⟨by simpa using h.1, (alarm_condition_enu _ _ _ rfl).trans h.2⟩)
      (fun _ _ _ h => h) (fun _ _ _ h => h) fun _ _ _ _ _ _ _ _ _ _ _ h k => ⟨k.hands.suc.trans h.1, k.enu.trans h.2⟩
  obtain ⟨suc, enu⟩ := hm ▸ suc.toPaced.gateEvent before after (s := x) ⟨rfl, rfl⟩
  exact ⟨m, f, state.trans same, unoffered, suc, enu⟩

/-- One STATE for a gate: the door's change and the change of closes available are gathered (R62). -/
theorem gate_snapshot {s : State} (joined : s.suc.startUp = .joined) (on : s.doorRuns = true) (ready : s.snu.state.ready = true)
    {e : Enu} {t : State} (feeds : e.permStart = true → e.permCont = true)
    (ht : t = setOuts (gateHandsOn s.enu e { s with enu := e })) (alu : t.alu = s.alu) (phase : t.psu.phase = s.psu.phase)
    (changed : t.enu.closes ≠ s.enu.closes ∨ t.dcu.ctl ≠ s.dcu.ctl) : t.snu.state = s.snu.state.make (doorContent t) := by
  obtain ⟨j, hj⟩ : ∃ j : State, j = { s with enu := e } := ⟨_, rfl⟩
  obtain ⟨x, hx⟩ : ∃ x, x = gateAlarms s.enu e j := ⟨_, rfl⟩
  obtain ⟨u, hu⟩ : ∃ u, u = doorEvent (gateEvent s.enu e) x := ⟨_, rfl⟩
  obtain ⟨v, hv⟩ : ∃ v, v = offerCloses s.enu e j.dcu u := ⟨_, rfl⟩
  have state : t = setOuts (pumpActs v) := by
    rw [ht, ← hj, gateHandsOn_event (by rw [hj]) feeds, ← hx, ← hu, ← hv]
  have kept : v.alu = u.alu ∧ v.psu = u.psu ∧ v.dcu = u.dcu ∧ v.enu = u.enu := by
    rw [hv, offerCloses]
    split <;> simp
  have last : t.alu = u.alu ∧ t.psu = u.psu ∧ t.dcu = u.dcu ∧ t.enu.closes = u.enu.closes := by
    obtain ⟨alu, psu, dcu, enu⟩ := kept
    rw [← alu, ← psu, ← dcu, ← enu, state]
    exact ⟨rfl, rfl, rfl, by simp [pumpActs]⟩
  have content : doorContent t = doorContent v := state ▸ doorContent_pump v
  have keeper : t.snu.state = v.snu.state := by rw [state]; rfl
  rw [last.1] at alu
  rw [last.2.1] at phase
  rw [last.2.2.1, last.2.2.2] at changed
  obtain ⟨m, f, event, ⟨snu, -⟩, suc, enu⟩ := gate_offers hx (hu ▸ alu.trans (by rw [hj])) (hu ▸ phase.trans (by rw [hj]))
  rw [← hu] at event
  have conf : m.conf = s.conf := by rw [State.conf, suc, hj]; rfl
  have joined : m.suc.startUp = .joined := by rw [suc, hj]; exact joined
  have door : m.conf.role = .door := by
    rw [conf]
    simp_all [State.doorRuns]
  have ready : m.snu.state.ready = true := by rw [snu, hj]; exact ready
  have base : m.snu.state = s.snu.state := by rw [snu, hj]
  cases differs : reportDiffers j.dcu m.dcu with
  | true =>
    rw [differs] at event
    have once : v = u := by rw [hv, offerCloses, event]; simp [differs]
    have said : doorContent u = doorContent m := by
      rw [event, ← doorContent_offer m]
      exact doorContent_of_eq rfl rfl rfl rfl (by simp) rfl rfl rfl
    rw [keeper, content, once, said, ← base, ← offer_makes joined door ready, event]
    rfl
  | false =>
    rw [differs] at event
    have still : u.dcu.ctl = s.dcu.ctl := by
      rw [event]
      have same : j.dcu.ctl = m.dcu.ctl := by simp_all [reportDiffers]
      exact same.symm.trans (by rw [hj])
    have closes : u.enu.closes = e.closes := by rw [event]; exact congrArg Enu.closes (enu.trans (by rw [hj]))
    have late : v = offer u := by
      have new : s.enu.closes ≠ e.closes := fun h => (changed.resolve_right (not_not.mpr still)) (closes.trans h.symm)
      rw [hv, offerCloses, event]
      simp [differs, new]
    rw [keeper, content, late, doorContent_offer, offer_makes (s := u) (by rw [event]; exact joined) (by rw [event]; exact door)
      (by rw [event]; exact ready), event]
    exact congrArg (Keeper.make · _) base

/-! ### The door at a gate's end -/

/-- A gate's alarms as edges of its runs and of low energy (R55, R61). -/
theorem gate_requests {before after : Enu} (apart : after.oob = 3 → after.inb ≠ 3) (s : State) :
    let edge (was now : Bool) (q : AlarmRequest) : List AlarmRequest := asked (!was && now) q
    (gateAlarms before after s).alu = applyRequests (
      edge (before.oob == 3) (after.oob == 3) (.becameTrue .pressureSensor) ++
      edge (before.inb == 3) (after.inb == 3) (.becameFalse .pressureSensor) ++
      edge (energyLow before) (energyLow after) (.becameTrue .energyLow) ++
      edge (energyLow after) (energyLow before) (.becameFalse .energyLow)) s.alu := by
  intro edge
  rw [(gateAlarms_leaves before after s).1]
  refine congrArg (applyRequests · s.alu) ?_
  have pressure : (if before.oob ≠ 3 ∧ after.oob = 3 then [AlarmRequest.becameTrue .pressureSensor]
      else if before.inb ≠ 3 ∧ after.inb = 3 then [.becameFalse .pressureSensor] else []) =
      edge (before.oob == 3) (after.oob == 3) (.becameTrue .pressureSensor) ++
      edge (before.inb == 3) (after.inb == 3) (.becameFalse .pressureSensor) := by
    by_cases out : after.oob = 3
    · by_cases was : before.oob = 3 <;> simp [edge, asked, out, was, apart out]
    · by_cases now : after.inb = 3 <;> by_cases was : before.inb = 3 <;> simp [edge, asked, out, now, was]
  rw [pressure, List.append_assoc _ (edge (energyLow before) _ _)]
  refine congrArg _ ?_
  cases energyLow before <;> cases energyLow after <;> rfl

/-- Pump control behind a move (R64). -/
theorem Moved.pumped {x b u : State} {d : Dcu} (h : Moved x d (setOuts u)) (suc : b.suc = x.suc) (dcu : b.dcu = x.dcu)
    (trm : b.trm = x.trm) (psu : b.psu = x.psu) (alu : b.alu = x.alu) (enu : b.enu = (pumpActs u).enu)
    (hands : HandsOn b (setOuts (pumpActs u))) : Moved b d (setOuts (pumpActs u)) := by
  have conf : b.conf = x.conf := by simp [State.conf, suc]
  have perm : b.enu.permCont = x.enu.permCont := by
    rw [enu, ← h.enu]
    simp [pumpActs]
  have excess : excessNow (setOuts (pumpActs u)) = excessNow (setOuts u) := excessNow_of_eq rfl rfl rfl rfl
  constructor
  case dcu => rw [perm]; exact h.dcu
  case trm => rw [trm, conf]; exact h.trm
  case psu => rw [conf, dcu, psu, excess]; exact h.psu
  case alu => rw [trm, dcu, psu, alu, excess]; exact h.alu
  case enu => exact enu.symm
  case outs => rfl
  case hands => exact hands

/-- A gate's end, step by step: its alarms, the door's event, the offer of the closes available, pump control. -/
structure GateSteps (s : State) (e : Enu) (x v t : State) : Prop where
  alarms : x = gateAlarms s.enu e { s with enu := e }
  event : v = offerCloses s.enu e s.dcu (doorEvent (gateEvent s.enu e) x)
  last : t = setOuts (pumpActs v)

theorem gateHandsOn_steps {s : State} {e : Enu} (feeds : e.permStart = true → e.permCont = true) :
    ∃ x v, GateSteps s e x v (setOuts (gateHandsOn s.enu e { s with enu := e })) :=
  ⟨_, _, rfl, rfl, by rw [gateHandsOn_event (s := { s with enu := e }) rfl feeds]⟩

namespace GateSteps

variable {s x v t : State} {e : Enu} (g : GateSteps s e x v t)
include g

/-- The gate's alarms leave the door as it was. -/
theorem alarmed : x.suc = s.suc ∧ x.dcu = s.dcu ∧ x.trm = s.trm ∧ x.psu = s.psu ∧ x.deb = s.deb ∧ x.enu = e := by
  rw [g.alarms]
  exact ⟨by simp, by simp, by simp, by simp, by simp, (gateAlarms_leaves _ _ _).2⟩

/-- The levers and what is held say what they said. -/
theorem stands : requestStands x = requestStands s := by
  obtain ⟨-, -, trm, -, deb, -⟩ := g.alarmed
  exact (request_of_eq deb trm).2.2

theorem hands : HandsOn { s with enu := t.enu } t := by
  have c := (HandsOn.carried { s with enu := e }).walked
  have first : HandsOn { s with enu := e } x := g.alarms ▸ c.gateAlarms _ _ (.same _)
  have second := c.doorEvent _ (c.toPaced.gateEvent s.enu e first)
  have third : HandsOn { s with enu := e } v := g.event ▸ Carried.ite (P := HandsOn _) second (c.offer _ second)
  rw [g.last]
  exact { third with pump := rfl, pumpDoor := fun _ => rfl }

/-- The energy unit is pump control's of the judged gate (R64). -/
theorem enu : t.enu = pumpControl s.conf s.deb.mains e := by
  have c : Reacts (fun y : State => y.enu = e) :=
    .of_shifted (fun _ h => by simpa using h) (fun b y h => (alarm_condition_enu _ _ _ rfl).trans h) (fun _ _ _ h => h) (fun _ _ _ h => h)
      fun _ _ _ _ _ _ _ _ _ _ _ h k => k.enu.trans h
  have second := c.doorEvent _ (c.toPaced.gateEvent s.enu e g.alarmed.2.2.2.2.2)
  have third : v.enu = e := by
    rw [g.event]
    exact Carried.ite (P := fun y : State => y.enu = e) second (c.offer _ second)
  have hands := g.hands
  have conf : v.conf = s.conf := by rw [State.conf, show v.suc = s.suc by rw [← hands.suc, g.last]; rfl]; rfl
  have mains : v.deb = s.deb := by rw [← hands.deb, g.last]; rfl
  rw [g.last]
  change pumpControl v.conf v.deb.mains v.enu = _
  rw [third, conf, mains]

/-- What a gate's alarms raised or cleared stays so through what the door does. -/
theorem lists {Q : List AlarmRecord → Prop} (h : Outlasts Q moveRequests) (k : Q x.alu) : Q t.alu := by
  have second := h.reacts.doorEvent _ (h.reacts.toPaced.gateEvent s.enu e k)
  rw [g.last]
  change Q v.alu
  rw [g.event]
  exact Carried.ite (P := fun y : State => Q y.alu) second (h.reacts.offer _ second)

/-- Without an event the door is as it was. -/
theorem kept (still : gateEvent s.enu e x = x) : DoorKept s t := by
  obtain ⟨-, dcu, trm, psu, -⟩ := g.alarmed
  have door : v.dcu = x.dcu ∧ v.trm = x.trm ∧ v.psu = x.psu := by
    rw [g.event, doorEvent_same still, offerCloses]
    split <;> simp
  rw [g.last]
  exact ⟨door.1.trans dcu, door.2.1.trans trm, door.2.2.trans psu⟩

/-- A move of the gate's event. -/
theorem moved {d : Dcu} {l : List AlarmRecord} (h : Shifted x d (gateEvent s.enu e x)) (ne : d.ctl ≠ s.dcu.ctl) (list : x.alu = l) :
    Moved { s with enu := t.enu, alu := l } d t := by
  obtain ⟨suc, dcu, trm, psu, -⟩ := g.alarmed
  have gathered : v = doorEvent (gateEvent s.enu e) x := by
    have now : (doorEvent (gateEvent s.enu e) x).dcu.ctl = d.ctl := by
      rw [doorEvent, (report_keeps _ _).2.2.2.2.2.1, h.dcu]
      rfl
    rw [g.event, offerCloses, if_pos (by simp [reportDiffers, now, ne.symm])]
  have handed : Moved x d (setOuts v) := gathered ▸ h.handed (by rw [dcu]; exact ne)
  have hands := g.hands
  rw [g.last] at hands ⊢
  exact handed.pumped suc.symm dcu.symm trm.symm psu.symm list.symm rfl { hands with }

/-- What a gate brings at the door (R12, R13, R58, R59). -/
theorem door {l : List AlarmRecord} (list : x.alu = l) :
    let b : State := { s with enu := t.enu, alu := l }
    let d : Dcu := { s.dcu with cause := .noCause, warnTimer := none, held := .stopped }
    let judged : Prop := requestStands s = true ∧ s.dcu.lockout = false ∧ e.permStart ≠ s.enu.permStart
    let refused : Prop := e.permStart = false ∨ (s.psu.inForce = true ∧ s.suc.startUp ≠ .joined)
    (s.dcu.ctl ≠ .opening → ¬ judged → DoorKept s t) ∧
    (s.dcu.ctl = .opening → s.dcu.vop = true → e.permCont = true → DoorKept s t) ∧
    (s.dcu.ctl ≠ .opening → s.dcu.ctl ≠ .inactive → judged →
      (refused → s.dcu.ctl.isIdle = true → DoorKept s t) ∧
      (refused → s.dcu.ctl.isIdle = false → Moved b { d with ctl := idleFor s.trm.pos } t) ∧
      (e.permStart = true → s.psu.inForce = false → Moved b { d with ctl := .opening } t) ∧
      (e.permStart = true → s.psu.inForce = true → s.suc.startUp = .joined →
        (s.dcu.ctl = .claiming → DoorKept s t) ∧ (s.dcu.ctl ≠ .claiming → Moved b { d with ctl := .claiming } t))) := by
  intro b d judged refused
  obtain ⟨suc, dcu, trm, psu, -, enu⟩ := g.alarmed
  have request := g.stands
  have closed : s.dcu.ctl ≠ .opening → gateEvent s.enu e x =
      if s.enu.permStart = e.permStart then x else evaluateStanding x := fun hc => if_neg (by rw [dcu]; exact hc)
  refine ⟨fun hc unjudged => g.kept ?_, fun hc _ held => g.kept ?_, fun hc live hj => ?_⟩
  · rw [closed hc]
    split
    · rfl
    · rename_i new
      refine if_neg fun asks => unjudged ?_
      rw [request, dcu] at asks
      simp only [Bool.and_eq_true, Bool.not_eq_true'] at asks
      exact ⟨asks.1.1.1, asks.1.1.2, fun same => new same.symm⟩
  · rw [gateEvent, if_pos (by rw [dcu]; exact hc), if_pos held]
  · obtain ⟨asks, unlocked, new⟩ := hj
    have event : gateEvent s.enu e x = evaluate x := by
      rw [closed hc, if_neg new.symm]
      exact if_pos (by simp [request, asks, dcu, unlocked, hc, live])
    have refuses : refused → gateEvent s.enu e x = refuse x := fun h => by
      rw [event, evaluate_refuses (by rw [enu, psu, suc]; exact h)]
    refine ⟨fun h idle => g.kept ?_, fun h busy => ?_, fun held free => ?_, fun held limited joined => ⟨fun claiming => g.kept ?_, fun out => ?_⟩⟩
    · rw [refuses h, refuse_idle (by rw [dcu]; exact idle)]
    · refine g.moved (d := { d with ctl := idleFor s.trm.pos }) ?_ ?_ list
      · rw [refuses h, refuse_busy (by rw [dcu]; exact busy), trm]
        have moved := toIdle_shifted (idleFor s.trm.pos) x
        rw [dcu] at moved
        exact moved
      · rintro same
        rw [← same, isIdle_idleFor] at busy
        nomatch busy
    · refine g.moved (d := { d with ctl := .opening }) ?_ hc.symm list
      rw [event, evaluate_opens (by rw [enu]; exact held) (by rw [psu]; exact free)]
      have moved := toOpening_shifted x
      rw [dcu] at moved
      exact moved
    · rw [event, evaluate, enu, held, psu, limited, suc, joined, dcu, claiming]
      rfl
    · refine g.moved (d := { d with ctl := .claiming }) ?_ (Ne.symm out) list
      rw [event, evaluate_claims (by rw [enu]; exact held) (by rw [psu]; exact limited) (by rw [suc]; exact joined) (by rw [dcu]; exact out)]
      have moved := toClaiming_shifted x
      rw [dcu] at moved
      exact moved

/-- The gate's alarms in the list (R55, R61). -/
theorem alarms_stand :
    (s.enu.oob ≠ 3 → e.oob = 3 → Stands .pressureSensor true t.alu) ∧
      ((e.oob = 3 → e.inb ≠ 3) → s.enu.inb ≠ 3 → e.inb = 3 → Stands .pressureSensor false t.alu) ∧
      (energyLow s.enu ≠ energyLow e → Stands .energyLow (energyLow e) t.alu) := by
  have out : ∀ {k : AlarmKind} (b : Bool), k = .pressureSensor ∨ k = .energyLow → Outlasts (Stands k b) moveRequests := fun b hk =>
    outlasts_stands b fun q hq => by
      simp only [moveRequests, List.mem_cons, List.not_mem_nil, or_false] at hq
      rcases hk with rfl | rfl <;> rcases hq with rfl | rfl | rfl | rfl <;> exact ⟨_, rfl, nofun⟩
  have behind : ∀ b : Bool, Stands .pressureSensor b (pressureAlarm s.enu e { s with enu := e }).alu →
      Stands .pressureSensor b x.alu := fun b h => by
    rw [g.alarms, gateAlarms_eq]
    refine Carried.ite (P := fun y : State => Stands .pressureSensor b y.alu) h ?_
    rw [alarm_alu]
    refine outlasts_stands b (qs := [condition .energyLow (energyLow e)]) (fun q hq => ?_) _ (List.mem_singleton.mpr rfl) _ h
    rw [List.mem_singleton.mp hq]
    cases energyLow e <;> exact ⟨_, rfl, nofun⟩
  refine ⟨fun was now => g.lists (out true (.inl rfl)) (behind true ?_), fun apart was now => g.lists (out false (.inl rfl)) (behind false ?_),
    fun edge => g.lists (out _ (.inr rfl)) ?_⟩
  · rw [pressureAlarm, if_pos ⟨was, now⟩, alarm_alu]
    exact stands_condition .pressureSensor true _
  · rw [pressureAlarm, if_neg fun h => apart h.2 now, if_pos ⟨was, now⟩, alarm_alu]
    exact stands_condition .pressureSensor false _
  · rw [g.alarms, gateAlarms_eq, if_neg edge, alarm_alu]
    exact stands_condition .energyLow _ _

end GateSteps

/-! ### The judgement of a gate -/

/-- Out-of-band and in-band runs exclude each other (R55). -/
theorem judgeGate_apart (c : Cfg) (e : Enu) : (judgeGate c e).oob = 3 → (judgeGate c e).inb ≠ 3 := by
  simp only [judgeGate]
  split <;> simp

theorem atLeast_iff {u : Option Nat} {n : Nat} : atLeast u n = true ↔ ∃ v, u = some v ∧ n ≤ v := by
  cases u <;> simp [atLeast]

/-- The permission to start implies that to continue (R58). -/
theorem judgeGate_feeds (c : Cfg) (e : Enu) (h : (judgeGate c e).permStart = true) : (judgeGate c e).permCont = true := by
  obtain ⟨u, hu, enough⟩ := atLeast_iff.mp (show atLeast (judgeGate c e).u _ = true from h)
  exact atLeast_iff.mpr ⟨u, hu, le_trans (Nat.le_add_left _ _) enough⟩

/-- A gate judged (R54 to R58, R60). -/
theorem judgeGate_items (c : Cfg) (e : Enu) :
    let good : Bool := decide (c.nmin ≤ e.tally ∧ e.tally ≤ c.nmax)
    let g := judgeGate c e
    g.oob = (if good then 0 else min (e.oob + 1) 3) ∧ g.inb = (if good then min (e.inb + 1) 3 else 0) ∧
      (good = true → g.p = some (pressureOf c e.tally)) ∧ (good = false → g.p = if g.oob = 3 then none else e.p) ∧
      g.u = g.p.map (usableOf c) ∧ g.closes = g.u.map (fun u => min (u / c.vc) 15) ∧
      (g.permStart = true ↔ ∃ u, g.u = some u ∧ c.vo + c.vc * c.reserve ≤ u) ∧
      (g.permCont = true ↔ ∃ u, g.u = some u ∧ c.vc * c.reserve ≤ u) := by
  intro good g
  have band : inBand c e.tally = good := by simp [inBand, good]
  refine ⟨?_, ?_, fun h => ?_, fun h => ?_, rfl, rfl, atLeast_iff, atLeast_iff⟩
  · simp only [g, judgeGate, band]
  · simp only [g, judgeGate, band]
  · simp only [g, judgeGate, band, h, if_true]
  · simp only [g, judgeGate, band, h, Bool.false_eq_true, if_false]

/-- A pressure pulse in a running unit (R53). -/
theorem exec_pfqPulse (since : Nat) (s : State) :
    (s.enu.running = true → 1000 ≤ since →
      exec (.pfqPulse since) s = .next { s with enu := { s.enu with tally := min (s.enu.tally + 1) 65535 } }) ∧
    (s.enu.running = false ∨ since < 1000 → exec (.pfqPulse since) s = .next s) := by
  have run : exec (.pfqPulse since) s = execPfqPulse since s := rfl
  rw [run, execPfqPulse]
  refine ⟨fun on spaced => if_pos (by simp [on, spaced, Config.transducerGapNs]), fun off => if_neg ?_⟩
  rcases off with off | early
  · simp [off]
  · simp [Config.transducerGapNs, not_le.mpr early]

/-- Settles O21: the judged gate (`judgeGate`) and its steps (`GateSteps.door`, `GateSteps.alarms_stand`, `gate_snapshot`). -/
theorem gatesCountAndJudge : Obligations.GatesCountAndJudge := by
  refine ⟨exec_pfqPulse, fun s running => ?_⟩
  obtain ⟨e, he⟩ : ∃ e, e = judgeGate s.conf s.enu := ⟨_, rfl⟩
  have feeds : e.permStart = true → e.permCont = true := he ▸ judgeGate_feeds s.conf s.enu
  have apart : e.oob = 3 → e.inb ≠ 3 := he ▸ judgeGate_apart s.conf s.enu
  obtain ⟨t, ht⟩ : ∃ t, t = setOuts (gateHandsOn s.enu e { s with enu := e }) := ⟨_, rfl⟩
  have run : exec .gateEnd s = .next t := by
    rw [ht, he]
    exact exec_gateEnd running
  obtain ⟨x, v, g⟩ := gateHandsOn_steps (s := s) feeds
  rw [← ht] at g
  obtain ⟨onE, gate, tally, lastN, oob, inb, p, u, closes, start, cont, locked⟩ := pumpControl_keeps s.conf s.deb.mains e
  have pump := pumpControl_on (c := s.conf) (m := s.deb.mains) (e := e) (by rw [he]; exact running)
  have low : energyLow (pumpControl s.conf s.deb.mains e) = energyLow e := by rw [energyLow, u, start]; rfl
  rw [← g.enu] at onE gate tally lastN oob inb p u closes start cont locked pump low
  obtain ⟨fault, cleared, lowEdge⟩ := g.alarms_stand
  have lists := gate_requests (before := s.enu) (after := e) apart { s with enu := e }
  rw [← g.alarms, ← oob, ← inb, ← low] at lists
  have door := g.door lists
  rw [← start, ← cont] at door
  obtain ⟨runs, ran, inside, outside, usable, number, toStart, toCont⟩ := judgeGate_items s.conf s.enu
  rw [← he] at runs ran inside outside usable number toStart toCont
  rw [← oob] at runs outside
  rw [← inb] at ran
  rw [← p] at inside outside usable
  rw [← u] at usable number toStart toCont
  rw [← start] at toStart
  rw [← cont] at toCont
  rw [← closes] at number
  obtain ⟨raised, ended⟩ := edge_of_stands (k := .energyLow) (before := energyLow s.enu) (after := energyLow t.enu) (l := t.alu)
    (low ▸ lowEdge)
  refine ⟨t, run, onE.trans (he ▸ running), gate.trans (by rw [he]; rfl), tally.trans (by rw [he]; rfl), lastN.trans (by rw [he]; rfl),
    runs, ran, inside, outside, usable, number, toStart, toCont, fun was now => fault was (oob ▸ now),
    fun was now => cleared apart was (inb ▸ now), ⟨raised, ended⟩, fun joined on ready alu phase => ?_, locked.trans (by rw [he]; rfl), ?_,
    door, g.hands, ?_⟩
  · exact gate_snapshot joined on ready feeds ht alu phase
  · rw [pump, p, he]
    rfl
  · rw [ht]
    rfl

end Sys2Proof.Machine
end

