-- ==== Sys2Proof/Proofs/Told.lean ====
section
/-! SUPPORT and PROOFS. Every change of what a door reports is offered (R31, R126, R127): through each event of the door and each family of
commands, the newest STATE holds the content as it stands, or a change is pending, or the content is one that needs no offer. -/

namespace Sys2Proof.Machine

/-! ### What a STATE says -/

theorem doorContent_congr {s t : State} (conf : t.conf = s.conf) (ctl : t.dcu.ctl = s.dcu.ctl) (mode : t.dcu.mode = s.dcu.mode)
    (cd : t.dcu.cd = s.dcu.cd) (wcause : t.dcu.wcause = s.dcu.wcause) (pos : t.trm.pos = s.trm.pos)
    (figure : positionFigure t = positionFigure s) (closes : t.enu.closes = s.enu.closes) (phase : t.psu.phase = s.psu.phase)
    (active : activeSet t.alu = activeSet s.alu) (unacked : unackedSet t.alu = unackedSet s.alu)
    (goodA : t.laneA.good = s.laneA.good) (goodB : t.laneB.good = s.laneB.good) : doorContent t = doorContent s := by
  simp only [doorContent, conf, ctl, mode, cd, wcause, pos, figure, closes, phase, active, unacked, goodA, goodB]

/-- In a door in JOINED: a change is pending, or the newest STATE holds the content as it stands, or that content needs no offer. -/
def Told (Q : DoorPart → Prop) (s : State) : Prop := s.suc.startUp = .joined → s.conf.role = .door →
  s.snu.state.pending = true ∨ s.snu.state.newest = some (doorContent s) ∨ Q (doorContent s)

variable {Q : DoorPart → Prop}

theorem Told.of_content {s t : State} (h : Told Q s) (suc : t.suc = s.suc) (keeper : t.snu.state = s.snu.state)
    (content : doorContent t = doorContent s) : Told Q t := by
  have conf : t.conf = s.conf := by rw [State.conf, suc]; rfl
  rw [Told, suc, conf, keeper, content]
  exact h

theorem Told.of_eq {s t : State} (h : Told Q s) (suc : t.suc = s.suc) (keeper : t.snu.state = s.snu.state) (dcu : t.dcu = s.dcu)
    (trm : t.trm = s.trm) (closes : t.enu.closes = s.enu.closes) (phase : t.psu.phase = s.psu.phase) (alu : t.alu = s.alu)
    (goodA : t.laneA.good = s.laneA.good) (goodB : t.laneB.good = s.laneB.good) : Told Q t :=
  h.of_content suc keeper (doorContent_of_eq suc dcu trm closes phase alu goodA goodB)

/-- An offer tells the content as it stands, or leaves the change pending (R126, R128). -/
theorem Told.offer (s : State) : Told Q (offer s) := by
  intro joined door
  rw [(offer_keeps s).2.2.2.2.1] at joined
  have role : s.conf.role = .door := by
    rw [← door, State.conf, State.conf, (offer_keeps s).2.2.2.2.1]
  by_cases ready : s.snu.state.ready = true
  · right; left
    rw [offer_makes joined role ready, doorContent_offer]
    rfl
  · left
    have busy : s.ownReady = false := by rw [State.ownReady, role]; exact eq_false_of_ne_true ready
    rw [offer_eq joined, busy, State.snuPending, role]
    rfl

theorem pumpReport_closes (x y : List AlarmRecord) (s : State) : (pumpReport x y s).enu.closes = s.enu.closes := by
  have pump := pumpReport_handed x y s
  rw [PumpHanded] at pump
  exact (congrArg Enu.closes pump).trans rfl

/-- An alarm request offers where either set changes (R95, R127). -/
theorem Told.alarm (q : AlarmRequest) {s : State} (h : Told Q s) : Told Q (alarm q s) := by
  by_cases on : s.doorRuns = true
  · simp only [Machine.alarm, if_pos on]
    split
    · exact Told.offer _
    · rename_i same
      simp only [ne_eq, not_or, not_not] at same
      refine h.of_content (by simp) (by simp) (doorContent_congr (by simp [State.conf]) (by simp) (by simp) (by simp) (by simp)
        (by simp) (by simp [positionFigure, State.conf]) ?_ (by simp) (by simp [same.1]) (by simp [same.2]) (by simp) (by simp))
      exact pumpReport_closes _ _ _
  · intro joined door
    rw [(alarm_keeps q s).2.2.2.2.1] at joined
    rw [State.conf, (alarm_keeps q s).2.2.2.2.1] at door
    exact absurd (by rw [State.doorRuns, joined, show s.conf.role = .door from door]; rfl) on

theorem Told.excessLook {s : State} (h : Told Q s) : Told Q (excessLook s) :=
  Carried.ite (P := Told Q) h (Told.alarm _ (h.of_eq (t := { s with psu := { s.psu with excess := excessNow s } }) rfl rfl rfl rfl rfl rfl rfl rfl rfl))

theorem Told.dcu {s : State} (h : Told Q s) (d : Dcu) (ctl : d.ctl = s.dcu.ctl) (mode : d.mode = s.dcu.mode) (cd : d.cd = s.dcu.cd)
    (wcause : d.wcause = s.dcu.wcause) : Told Q { s with dcu := d } :=
  h.of_content rfl rfl (doorContent_congr rfl ctl mode cd wcause rfl rfl rfl rfl rfl rfl rfl rfl)

theorem Told.trm {s : State} (h : Told Q s) (t : Trm) (pos : t.pos = s.trm.pos) (count : t.count = s.trm.count) (ref : t.ref = s.trm.ref) :
    Told Q { s with trm := t } :=
  h.of_content rfl rfl (doorContent_congr rfl rfl rfl rfl rfl pos (by simp only [positionFigure, figureFor, count, ref]; rfl)
    rfl rfl rfl rfl rfl rfl)

theorem Told.setTrm {s : State} (h : Told Q s) (t : Trm) (pos : t.pos = s.trm.pos) (count : t.count = s.trm.count)
    (ref : t.ref = s.trm.ref) : Told Q (setTrm t s) := h.trm _ pos count ref

theorem Told.strokeEnd {s : State} (h : Told Q s) : Told Q (strokeEnd s) := by
  have ended : Told Q (Machine.setTrm { s.trm with
      stroke := none, strokeTimer := .stopped, slow := false, stall := none, arming := some 0 } s) := h.setTrm _ rfl rfl rfl
  exact Carried.ite (P := Told Q) (Told.alarm _ ended) ended

theorem Told.valves {s : State} (h : Told Q s) : Told Q (valves s) := by
  obtain ⟨y, hy⟩ : ∃ y, y = if s.dcu.vcl && s.dcu.ctl != .closing then
      Machine.strokeEnd { s with dcu := { s.dcu with vcl := false, vopPause := some 0 } } else s := ⟨_, rfl⟩
  obtain ⟨z, hz⟩ : ∃ z, z = if y.dcu.vop && y.dcu.ctl != .opening then
      Machine.strokeEnd { y with dcu := { y.dcu with vop := false, vclPause := some 0 } } else y := ⟨_, rfl⟩
  have first : Told Q y := hy ▸ Carried.ite (P := Told Q) (h.dcu { s.dcu with vcl := false, vopPause := some 0 } rfl rfl rfl rfl).strokeEnd h
  have second : Told Q z := hz ▸ Carried.ite (P := Told Q) (first.dcu { y.dcu with vop := false, vclPause := some 0 } rfl rfl rfl rfl).strokeEnd first
  rw [Machine.valves, ← hy, ← hz]
  exact Carried.ite (P := Told Q) ((second.dcu { z.dcu with vcl := true } rfl rfl rfl rfl).setTrm _ rfl rfl rfl)
    (Carried.ite (P := Told Q) ((second.dcu { z.dcu with vop := true } rfl rfl rfl rfl).setTrm _ rfl rfl rfl) second)

/-! ### Events of the door -/

/-- After an event, before it is handed on: an item of R31 or the claim phase has changed, or all is told. -/
def Reported (Q : DoorPart → Prop) (b s : State) : Prop :=
  reportDiffers b.dcu s.dcu = true ∨ b.psu.phase ≠ s.psu.phase ∨ Told Q s

theorem Told.reported {s : State} (h : Told Q s) (b : State) : Reported Q b s := .inr (.inr h)

theorem Reported.of_ctl {b s : State} (h : s.dcu.ctl ≠ b.dcu.ctl) : Reported Q b s := .inl (by simp [reportDiffers, h.symm])

/-- What has changed is offered (R31, R127). -/
theorem Reported.report {b s : State} (h : Reported Q b s) : Told Q (report b s) := by
  simp only [Machine.report]
  have last : ∀ x : State, Told Q x → Told Q (if b.dcu.ctl ≠ s.dcu.ctl then Machine.excessLook x else x) := fun x k =>
    Carried.ite (P := Told Q) k.excessLook k
  refine last _ ?_
  split
  · exact Told.offer _
  · rename_i phase
    split
    · exact Told.offer _
    · rename_i same
      exact (h.resolve_left same).resolve_left phase

theorem Reported.doorEvent {f : State → State} {s : State} (h : Reported Q s (f s)) : Told Q (doorEvent f s) := h.report

/-- One move: the items have changed, or its alarms are told with them. -/
theorem Told.moveTo {s : State} (h : Told Q s) (d : Dcu) : Reported Q s (moveTo d s) := by
  obtain ⟨ctl, -, wcause, -, -, mode, -, -, cd, -⟩ := moveTo_dcu d s
  by_cases same : reportDiffers s.dcu d = false ∧ (claimFor s.conf.claimHold s.dcu.ctl d.ctl s.psu).phase = s.psu.phase
  · obtain ⟨items, phase⟩ := same
    simp only [reportDiffers, Bool.or_eq_false_iff, bne_eq_false_iff_eq] at items
    obtain ⟨⟨⟨c, m⟩, e⟩, w⟩ := items
    have moved : Told Q (Machine.valves { s with dcu := d, psu := claimFor s.conf.claimHold s.dcu.ctl d.ctl s.psu }) :=
      Told.valves (h.of_content rfl rfl (doorContent_congr rfl c.symm m.symm e.symm w.symm rfl rfl rfl phase rfl rfl rfl rfl))
    exact (Carried.ite (P := Told Q) (Told.alarm _ moved) moved).reported s
  · rw [not_and_or] at same
    refine same.imp (fun differs => ?_) fun phase => .inl ?_
    · have items : reportDiffers s.dcu (Machine.moveTo d s).dcu = reportDiffers s.dcu d := by
        simp only [reportDiffers, ctl, wcause, mode, cd]
      exact items.trans (eq_true_of_ne_false differs)
    · rw [moveTo_psu]
      exact Ne.symm phase

/-- Moves by name (R10 to R26). -/
theorem Told.toIdle {s : State} (h : Told Q s) (c : Ctl) : Reported Q s (toIdle c s) := h.moveTo _

theorem Told.toClosing {s : State} (h : Told Q s) (c : Cause) : Reported Q s (toClosing c s) := h.moveTo _

theorem Told.toOpening {s : State} (h : Told Q s) : Reported Q s (toOpening s) := h.moveTo _

theorem Told.toHeldOpen {s : State} (h : Told Q s) : Reported Q s (toHeldOpen s) := h.moveTo _

theorem Told.toWarning {s : State} (h : Told Q s) (w : WarningCause) : Reported Q s (toWarning w s) := h.moveTo _

theorem Told.refuse {s : State} (h : Told Q s) : Reported Q s (refuse s) :=
  Carried.ite (P := Reported Q s) (h.reported s) (h.toIdle _)

theorem Told.evaluate {s : State} (h : Told Q s) : Reported Q s (evaluate s) := by
  refine Carried.ite (P := Reported Q s) h.refuse (Carried.ite (P := Reported Q s) (Carried.ite (P := Reported Q s) ?_ h.refuse) h.toOpening)
  exact Carried.ite (P := Reported Q s) (h.reported s) (h.moveTo _)

theorem Told.evaluateStanding {s : State} (h : Told Q s) : Reported Q s (evaluateStanding s) :=
  Carried.ite (P := Reported Q s) h.evaluate (h.reported s)

theorem Told.idleRules {s : State} (h : Told Q s) : Reported Q s (idleRules s) :=
  Carried.ite (P := Reported Q s) (h.reported s) <| Carried.ite (P := Reported Q s) (h.toClosing _) <|
    Carried.ite (P := Reported Q s) h.evaluate <| Carried.ite (P := Reported Q s) h.toHeldOpen <|
    Carried.ite (P := Reported Q s) (h.toWarning _) (h.reported s)

/-- A request judged in an idle state opens, claims or is refused there (R12, R13). -/
theorem evaluate_goes {s : State} (idle : s.dcu.ctl.isIdle = true) :
    evaluate s = s ∨ ((evaluate s).dcu.ctl = .opening ∨ (evaluate s).dcu.ctl = .claiming) := by
  rw [evaluate, refuse_idle idle]
  split
  · exact .inl rfl
  · split
    · split
      · split
        · exact .inl rfl
        · exact .inr (.inr (by simp [toClaiming]))
      · exact .inl rfl
    · exact .inr (.inl (by simp [toOpening]))

/-- Where the rules of an idle state take the door, and why. -/
theorem idleRules_goes (s : State) : idleRules s = s ∨
    ((idleRules s).dcu.ctl = .closing ∧ lcHeld s = true) ∨
    (((idleRules s).dcu.ctl = .opening ∨ (idleRules s).dcu.ctl = .claiming) ∧ requestStands s = true ∧ s.dcu.lockout = false) ∨
    ((idleRules s).dcu.ctl = .heldOpen ∧ s.dcu.ctl = .idleOpen) ∨ ((idleRules s).dcu.ctl = .warning ∧ s.dcu.cd = true) := by
  by_cases idle : s.dcu.ctl.isIdle = true
  case neg => exact .inl (idleRules_busy (eq_false_of_ne_true idle))
  rw [idleRules, if_neg (by simp [idle])]
  split
  · rename_i closes
    exact .inr (.inl ⟨by simp [toClosing], by simp_all⟩)
  · split
    · rename_i asks
      have asks : requestStands s = true ∧ s.dcu.lockout = false := by simpa using asks
      rcases evaluate_goes idle with stays | goes
      · exact .inl stays
      · exact .inr (.inr (.inl ⟨goes, asks⟩))
    · split
      · rename_i holds
        exact .inr (.inr (.inr (.inl ⟨by simp [toHeldOpen], by simp_all⟩)))
      · split
        · rename_i warns
          exact .inr (.inr (.inr (.inr ⟨by simp [toWarning], by simp_all⟩)))
        · exact .inl rfl

/-- The way over the matching idle state does not come back to where it began. -/
theorem Told.toMatching {s : State} (h : Told Q s) (closing : s.dcu.ctl = .closing → lcHeld s = false)
    (request : s.dcu.ctl = .opening ∨ s.dcu.ctl = .claiming → requestStands s = false ∨ s.dcu.lockout = true)
    (holds : s.dcu.ctl = .heldOpen → s.trm.pos ≠ .opened) (warns : s.dcu.ctl = .warning → s.dcu.cd = false) :
    Reported Q s (toMatching s) := by
  obtain ⟨y, hy⟩ : ∃ y, y = Machine.toIdle (idleFor s.trm.pos) s := ⟨_, rfl⟩
  have state : Machine.toMatching s = Machine.idleRules y := by rw [hy]; rfl
  obtain ⟨lc, -, rq⟩ := toIdle_request (idleFor s.trm.pos) s
  obtain ⟨-, -, ctl, lockout, cd⟩ := toIdle_energy (idleFor s.trm.pos) s
  have idle : y.dcu.ctl.isIdle = true := by rw [hy, ctl]; exact isIdle_idleFor _
  rw [← hy] at lc rq ctl lockout cd
  rw [state]
  rcases idleRules_goes y with stays | ⟨now, held⟩ | ⟨now, asks, unlocked⟩ | ⟨now, was⟩ | ⟨now, demanded⟩
  · rw [stays, hy]
    exact h.toIdle _
  · refine .of_ctl fun same => ?_
    rw [now] at same
    rw [lc, closing same.symm] at held
    nomatch held
  · refine .of_ctl fun same => ?_
    rw [rq] at asks
    rw [lockout] at unlocked
    rw [same] at now
    rcases request now with none | locked
    · rw [none] at asks
      nomatch asks
    · rw [locked] at unlocked
      nomatch unlocked
  · refine .of_ctl fun same => ?_
    rw [now] at same
    rw [ctl] at was
    have := holds same.symm
    cases hp : s.trm.pos <;> simp_all [idleFor]
  · refine .of_ctl fun same => ?_
    rw [now] at same
    rw [cd, warns same.symm] at demanded
    nomatch demanded

theorem Told.stopOrReclose {s : State} (h : Told Q s) (hc : s.dcu.ctl = .opening ∨ s.dcu.ctl = .claiming)
    (request : requestStands s = false ∨ s.dcu.lockout = true) : Reported Q s (stopOrReclose s) := by
  have away : ∀ c : Ctl, c ≠ .opening → c ≠ .claiming → s.dcu.ctl ≠ c := fun c h1 h2 => by
    rcases hc with hc | hc <;> rw [hc]
    · exact h1.symm
    · exact h2.symm
  exact Carried.ite (P := Reported Q s) (Carried.ite (P := Reported Q s) (h.toIdle _) (h.toWarning _))
    (h.toMatching (fun e => absurd e (away _ nofun nofun)) (fun _ => request) (fun e => absurd e (away _ nofun nofun))
      fun e => absurd e (away _ nofun nofun))

/-- A press of LO (R12 to R16). -/
theorem Told.onLoPressed {s : State} (h : Told Q s) (lo : loHeld s = true) : Reported Q s (onLoPressed s) := by
  have lc : lcHeld s = false := by
    by_contra held
    rw [loHeld_of_lcHeld (eq_true_of_ne_false held)] at lo
    nomatch lo
  simp only [Machine.onLoPressed]
  split
  · exact Carried.ite (P := Reported Q s) h.toHeldOpen h.evaluate
  · rename_i hc
    exact Carried.ite (P := Reported Q s) h.evaluate
      (h.toMatching (fun _ => lc) (fun e => by simp [hc] at e) (fun e => by simp [hc] at e) (fun e => by simp [hc] at e))
  · exact h.idleRules

theorem Told.unlocked {s : State} (h : Told Q s) : Told Q s.unlocked := h.dcu _ rfl rfl rfl rfl

/-- A release of LO (R17, R22, R24, R26). -/
theorem Told.onLoReleased {s : State} (h : Told Q s) (lo : loHeld s = false) : Reported Q s (onLoReleased s) := by
  have k := h.unlocked
  have none : requestStands s.unlocked = false ∨ s.unlocked.dcu.lockout = true := .inl (by
    rw [requestStands_eq, show loHeld s.unlocked = loHeld s from rfl, lo]
    rfl)
  simp only [Machine.onLoReleased]
  split
  · rename_i hc
    exact k.stopOrReclose (.inl hc) none
  · rename_i hc
    exact k.stopOrReclose (.inr hc) none
  · exact k.toWarning _
  · exact k.idleRules

/-- A press of LC (R10, R17, R23). -/
theorem Told.onLcPressed {s : State} (h : Told Q s) (w : Bool) (lc : lcHeld s = true) : Reported Q s (onLcPressed w s) := by
  have lo := loHeld_of_lcHeld lc
  cases w with
  | true => exact Carried.ite (P := Reported Q s) (h.unlocked.toClosing _) (h.unlocked.onLoReleased lo)
  | false => exact Carried.ite (P := Reported Q s) (h.toClosing _) (h.reported s)

theorem idleFor_ne_closing (p : Position) : idleFor p ≠ .closing := by cases p <;> nofun

theorem evaluate_ne_closing {s : State} (hc : s.dcu.ctl ≠ .closing) : (evaluate s).dcu.ctl ≠ .closing := by
  have refused : (refuse s).dcu.ctl ≠ .closing := by
    rw [refuse]
    split
    · exact hc
    · simpa [toIdle] using idleFor_ne_closing s.trm.pos
  have other : (toClaiming s).dcu.ctl = .claiming ∧ (toOpening s).dcu.ctl = .opening := by simp [toClaiming, toOpening]
  refine Carried.ite (P := fun x : State => x.dcu.ctl ≠ .closing) refused (Carried.ite (P := fun x : State => x.dcu.ctl ≠ .closing)
    (Carried.ite (P := fun x : State => x.dcu.ctl ≠ .closing) (Carried.ite (P := fun x : State => x.dcu.ctl ≠ .closing) hc ?_) refused) ?_)
  · rw [other.1]
    nofun
  · rw [other.2]
    nofun

/-- Without LC the rules of an idle state do not close. -/
theorem idleRules_ne_closing {s : State} (hc : s.dcu.ctl ≠ .closing) (lc : lcHeld s = false) : (idleRules s).dcu.ctl ≠ .closing := by
  rcases idleRules_goes s with stays | ⟨-, held⟩ | ⟨now | now, -⟩ | ⟨now, -⟩ | ⟨now, -⟩
  · rw [stays]
    exact hc
  · rw [lc] at held
    nomatch held
  all_goals
    rw [now]
    nofun

theorem onLoPressed_ne_closing {s : State} (hc : s.dcu.ctl ≠ .closing) (lc : lcHeld s = false) : (onLoPressed s).dcu.ctl ≠ .closing := by
  rw [onLoPressed]
  split
  · split
    · simp [toHeldOpen]
    · exact evaluate_ne_closing hc
  · exact absurd ‹_› hc
  · exact idleRules_ne_closing hc lc

/-- A release of LC (R11). -/
theorem Told.onLcReleased {s : State} (h : Told Q s) (lc : lcHeld s = false) : Reported Q s (onLcReleased s) := by
  have pressed : ∀ x : State, Told Q x → Reported Q x (if loHeld x then Machine.onLoPressed x else x) := fun x k => by
    split
    · exact k.onLoPressed ‹_›
    · exact k.reported x
  simp only [Machine.onLcReleased]
  by_cases stops : s.dcu.ctl = .closing ∧ s.dcu.cause = .lever
  · rw [if_pos stops]
    by_cases cd : s.dcu.cd = true
    · rw [if_pos cd]
      exact pressed { s with dcu := { s.dcu with cause := .demand } } (h.dcu _ rfl rfl rfl rfl)
    · rw [if_neg cd]
      have lever : lcHeld (Machine.toMatching s) = false := by
        rw [lcHeld, (toMatching_keeps s).2.1]
        exact lc
      have away : (Machine.toMatching s).dcu.ctl ≠ .closing := by
        obtain ⟨lcIdle, -⟩ := toIdle_request (idleFor s.trm.pos) s
        exact idleRules_ne_closing (by simpa [Machine.toIdle] using idleFor_ne_closing s.trm.pos) (lcIdle.trans lc)
      refine .of_ctl ?_
      rw [stops.1]
      exact Carried.ite (P := fun x : State => x.dcu.ctl ≠ .closing) (onLoPressed_ne_closing away lever) away
  · rw [if_neg stops]
    exact pressed s h

theorem Told.onWarningExpiry {s : State} (h : Told Q s) : Reported Q s (onWarningExpiry s) := by
  simp only [Machine.onWarningExpiry]
  split
  · exact h.toClosing _
  · exact h.toClosing _

theorem Told.onPosition {s : State} (h : Told Q s) : Reported Q s (onPosition s) := by
  have here := h.reported s
  refine Carried.ite (P := Reported Q s) here (Carried.ite (P := Reported Q s) (h.toClosing _) ?_)
  split
  · exact Carried.ite (P := Reported Q s) (h.toIdle _) here
  · exact Carried.ite (P := Reported Q s) (h.toIdle _) here
  · exact Carried.ite (P := Reported Q s) (Carried.ite (P := Reported Q s) h.toHeldOpen (h.toIdle _)) here
  · exact Carried.ite (P := Reported Q s) (Carried.ite (P := Reported Q s) (Carried.ite (P := Reported Q s) h.toHeldOpen
      (h.toWarning _)) (h.toIdle _)) here
  · rename_i hc
    split
    · rename_i pos
      exact Carried.ite (P := Reported Q s) h.evaluate (h.toMatching (fun e => by simp [hc] at e) (fun e => by simp [hc] at e)
        (fun _ => pos) (fun e => by simp [hc] at e))
    · exact here
  · rename_i h1 h2 h3 h4 h5
    exact h.toMatching (fun e => absurd e h2) (fun e => e.elim (fun e => absurd e h4) fun e => absurd e h3) (fun e => absurd e h5) (fun e => absurd e h1)

theorem Told.onStop {s : State} (h : Told Q s) : Reported Q s (onStop s) := by
  simp only [Machine.onStop]
  split
  · rename_i hc
    exact Told.stopOrReclose (s := s.locked) (h.dcu _ rfl rfl rfl rfl) (.inl hc) (.inr rfl)
  · exact h.reported s

theorem Told.evaluateClaim {s : State} (h : Told Q s) : Reported Q s (evaluateClaim s) := by
  have counted : Told Q s.counted := h.of_content rfl rfl rfl
  exact Carried.ite (P := Reported Q s) (Carried.ite (P := Reported Q s) counted.toOpening counted.refuse) (counted.reported s)

/-- A claim that has been judged is waiting or over (R75). -/
theorem evaluateClaim_phase {s : State} (waiting : s.psu.phase = .waiting) : (evaluateClaim s).psu.phase ≠ .fresh := by
  have counted : s.counted.psu.phase = .waiting := waiting
  have ends : ∀ (hold : Nat) (was now : Ctl) (p : Psu), now ≠ .claiming → p.phase = .waiting → (claimFor hold was now p).phase ≠ .fresh :=
    fun hold was now p away hp => by
      rw [claimFor, if_neg away]
      split
      · nofun
      · rw [hp]
        nofun
  have here : s.counted.psu.phase ≠ .fresh := by rw [counted]; nofun
  refine Carried.ite (P := fun x : State => x.psu.phase ≠ .fresh) (Carried.ite (P := fun x : State => x.psu.phase ≠ .fresh) ?_
    (Carried.ite (P := fun x : State => x.psu.phase ≠ .fresh) here ?_)) here
  · rw [(toOpening_shifted _).psu]
    exact ends _ _ _ _ nofun counted
  · rw [(toIdle_shifted _ _).psu]
    exact ends _ _ _ _ (by cases s.trm.pos <;> nofun) counted

/-- The end of a claim hold leaves the first phase of a claim (R71, R75). -/
theorem onHoldExpiry_reported {s : State} (fresh : s.psu.phase = .fresh) : Reported Q s (onHoldExpiry s) := by
  refine .inr (.inl ?_)
  rw [fresh]
  exact (evaluateClaim_phase (s := { s with psu := { s.psu with phase := .waiting, claimTimer := none } }) rfl).symm

/-- A change of CD is an item of R31; without one the mode may be (R31). -/
theorem Told.rederive {s : State} (h : Told Q s) : Reported Q s (rederive s) := by
  by_cases same : s.cdNow = s.dcu.cd
  · rw [rederive_eq, if_pos same]
    by_cases mode : modeNow s = s.dcu.mode
    · exact Told.reported (h.dcu s.readDemand.dcu rfl mode same rfl) s
    · refine .inl ?_
      have differs : (s.dcu.mode != modeNow s) = true := bne_iff_ne.mpr (Ne.symm mode)
      simp [reportDiffers, State.readDemand, differs]
  · have cd : (Machine.rederive s).dcu.cd = s.cdNow := (rederive_reads (.inr same)).items.1
    refine .inl ?_
    have differs : (s.dcu.cd != s.cdNow) = true := bne_iff_ne.mpr (Ne.symm same)
    simp [reportDiffers, cd, differs]

/-! ### The door's commands -/

theorem Told.setDebounced {s : State} (h : Told Q s) (l : Lead) (m : Bool) : Told Q (setDebounced l m s) := h.of_content rfl rfl rfl

theorem Told.outs {s : State} (h : Told Q s) : Told Q (setOuts s) := h.of_content rfl rfl rfl

/-- A lever's change brings its event, with the lever as it then is. -/
theorem Told.lever {s : State} (h : Told Q s) (l : Lead) (m : Bool) (g : PerLead Bool → PerLead Bool → Bool) {f : State → State}
    (event : ∀ x : State, Told Q x → g s.deb x.deb = true → Reported Q x (f x)) : Told Q (leverChange l m g f s) := by
  have start := h.setDebounced l m
  simp only [leverChange]
  refine Carried.ite (P := Told Q) h ?_
  split
  · rename_i changed
    rw [Bool.and_eq_true] at changed
    exact (event _ start changed.2).doorEvent
  · exact start

theorem Told.clearWatch {s : State} (h : Told Q s) (k : AlarmKind) (x y : Watch) : Told Q (clearWatch k x y s) :=
  Carried.ite (P := Told Q) (h.alarm _) h

/-- A change of a limit, where the monitor of a running door runs (R32, R34, R127). -/
theorem Told.limit {s : State} (h : Told Q s) (runs : s.suc.startUp = .joined → s.conf.role = .door → s.trm.running = true) (l : Limit)
    (m : Bool) : Gives (Told Q) (exec (.limitDebouncedChange l m) s) := by
  have start := h.setDebounced l.lead m
  refine .ite (fun _ => .next h) fun _ => .ite (fun _ => .finish (Told.outs ?_)) fun stopped => .finish fun joined door =>
    absurd (runs joined door) stopped
  simp only [limitActs]
  split
  · exact Told.clearWatch (start.setTrm _ (by rfl) (by rfl) (by rfl)) _ _ _
  · refine (Told.onPosition (Told.clearWatch (Told.clearWatch ?_ _ _ _) _ _ _)).doorEvent
    exact Carried.ite (P := Told Q) ((Told.offer _).alarm _) (Told.offer _)

/-- The door's commands (R31, R127). -/
theorem Told.doorCommand {s : State} (h : Told Q s) (runs : s.suc.startUp = .joined → s.conf.role = .door → s.trm.running = true)
    (pulse : ∀ up, Told Q (takePulse up s)) {i : Instr} (hi : DoorCommand i) : Gives (Told Q) (exec i s) := by
  have released : ∀ x : State, falls leverClose s.deb x.deb = true → lcHeld x = false := fun x hx => by simp_all [falls, lcHeld]
  have pressed : ∀ x : State, rises leverClose s.deb x.deb = true → lcHeld x = true := fun x hx => by simp_all [rises, lcHeld]
  have opened : ∀ x : State, rises leverOpen s.deb x.deb = true → loHeld x = true := fun x hx => by simp_all [rises, loHeld]
  have dropped : ∀ x : State, falls leverOpen s.deb x.deb = true → loHeld x = false := fun x hx => by simp_all [falls, loHeld]
  have timer : ∀ t : Trm, t.pos = s.trm.pos → t.count = s.trm.count → t.ref = s.trm.ref → Told Q { s with trm := t } := h.trm
  cases hi with
  | limitDebouncedChange l made => exact h.limit runs l made
  | lcPressed side => exact .finish (Told.outs (h.lever _ _ _ fun x k hx => k.onLcPressed _ (pressed x hx)))
  | lcReleased side => exact .finish (Told.outs (h.lever _ _ _ fun x k hx => k.onLcReleased (released x hx)))
  | loPressed side => exact .finish (Told.outs (h.lever _ _ _ fun x k hx => k.onLoPressed (opened x hx)))
  | loReleased side => exact .finish (Told.outs (h.lever _ _ _ fun x k hx => k.onLoReleased (dropped x hx)))
  | warningTimerExpiry => exact .ite (fun _ => .finish (Told.outs h.onWarningExpiry.doorEvent)) fun _ => .next h
  | pauseTimerExpiry valve =>
    exact .finish (Told.outs (Told.valves (h.dcu (s.dcu.pauseEnds valve) (by cases valve <;> rfl) (by cases valve <;> rfl)
      (by cases valve <;> rfl) (by cases valve <;> rfl))))
  | heldOpenLimit =>
    exact .ite (fun _ => .finish (Told.outs (Told.alarm _ (h.dcu _ (by rfl) (by rfl) (by rfl) (by rfl))))) fun _ => .next h
  | discordTimerExpiry => exact .ite (fun _ => .finish (Told.outs (Told.alarm _ (timer _ (by rfl) (by rfl) (by rfl))))) fun _ => .next h
  | conflictTimerExpiry => exact .ite (fun _ => .finish (Told.outs (Told.alarm _ (timer _ (by rfl) (by rfl) (by rfl))))) fun _ => .next h
  | positionPulse up since => exact .ite (fun _ => .finish (Told.outs (pulse up))) fun _ => .next h
  | closeMaximumPassed => exact .ite (fun _ => .finish (Told.outs (Told.alarm _ (timer _ (by rfl) (by rfl) (by rfl))))) fun _ => .next h
  | openMaximumPassed =>
    exact .ite (fun _ => .finish (Told.outs (Told.onStop (Told.alarm _ (timer _ (by rfl) (by rfl) (by rfl)))).doorEvent)) fun _ =>
      .ite (fun _ => .finish (Told.outs (Told.alarm _ (timer _ (by rfl) (by rfl) (by rfl))))) fun _ => .next h
  | stallWindowEnd =>
    change Gives (Told Q) (execStallWindowEnd s)
    rw [execStallWindowEnd]
    split
    · refine .finish (Told.outs ?_)
      simp only [windowEnds]
      refine Carried.ite (P := Told Q) (Carried.ite (P := Told Q) ?_ ?_) (timer _ (by rfl) (by rfl) (by rfl))
      · exact (Told.onStop (Told.alarm _ (timer _ (by rfl) (by rfl) (by rfl)))).doorEvent
      · exact Told.alarm _ (timer _ (by rfl) (by rfl) (by rfl))
    · exact .ite (fun _ => .finish (Told.outs (Told.alarm _ (timer _ (by rfl) (by rfl) (by rfl))))) fun _ => .next (timer _ (by rfl) (by rfl) (by rfl))
    · exact .next h
  | handMoveArmingExpiry => exact .ite (fun _ => .next (timer _ (by rfl) (by rfl) (by rfl))) fun _ => .next h
  | handMoveWindowEnd => exact .ite (fun _ => .next (timer _ (by rfl) (by rfl) (by rfl))) fun _ => .next h
  | claimHoldExpiry => exact .ite (fun fresh => .finish (Told.outs (onHoldExpiry_reported fresh).doorEvent)) fun _ => .next h

/-! ### The lanes', the snapshot unit's, the port's and the panel's commands -/

/-- Outside a running door in JOINED there is no STATE to make. -/
theorem Told.elsewhere {s t : State} (off : s.doorRuns = false) (suc : t.suc = s.suc) : Told Q t := fun joined door => by
  have on : s.doorRuns = true := by
    rw [State.conf, suc] at door
    rw [State.doorRuns, ← suc, joined, show s.conf.role = .door from door]
    rfl
  rw [off] at on
  nomatch on

theorem Told.pnu {s : State} (h : Told Q s) (p : Pnu) : Told Q { s with pnu := p } := h.of_content rfl rfl rfl

/-- A lane's health is handed on with an offer, where it comes to be good or no longer is (R151). -/
theorem Told.rehealth {s : State} (h : Told Q s) (id : LaneId) : Told Q (rehealth id s) := by
  simp only [Machine.rehealth]
  refine Carried.ite (P := Told Q) h ?_
  split
  · rename_i same
    have good : (s.lane id).good = ({ s.lane id with health := healthOf (s.lane id) } : Lane).good := by
      simpa [Lane.good] using same.symm
    cases id
    · exact h.of_eq rfl rfl rfl rfl rfl rfl rfl good.symm rfl
    · exact h.of_eq rfl rfl rfl rfl rfl rfl rfl rfl good.symm
  · exact Carried.ite (P := Told Q) (Told.pnu (Told.offer _) _) (Told.offer _)

theorem Told.laneKept : LaneKept (Told Q) where
  lane := fun s id l _ health h => by
    have good : l.good = (s.lane id).good := by rw [Lane.good, health]; rfl
    cases id
    · exact h.of_eq rfl rfl rfl rfl rfl rfl rfl good rfl
    · exact h.of_eq rfl rfl rfl rfl rfl rfl rfl rfl good
  rehealth := fun id _ h => h.rehealth id
  rxq := fun _ _ _ h => h.of_content rfl rfl rfl
  dgp := fun _ _ h => h.of_content rfl rfl rfl

/-- A lane that begins keeps its health. -/
theorem Lane.offered_good (n : Snu) (l : Lane) : (l.offered n).good = l.good := by
  rw [Lane.offered]
  (repeat' split) <;> rfl

/-- A making tells the content as it stands (R128). -/
theorem Told.makeOwn (s : State) : Told Q (makeOwn s) := by
  intro joined door
  have suc : (Machine.makeOwn s).suc = s.suc := by simp
  rw [suc] at joined
  have role : s.conf.role = .door := by
    rw [← door, State.conf, State.conf, suc]
  have content : doorContent (Machine.makeOwn s) = doorContent s := by
    rw [makeOwn_eq joined]
    exact doorContent_congr rfl rfl rfl rfl rfl rfl rfl rfl rfl rfl rfl (Lane.offered_good _ _) (Lane.offered_good _ _)
  rw [content, makeOwn_eq joined, State.snuMade, role]
  exact .inr (.inl rfl)

theorem Told.snapshotCommand {s : State} (h : Told Q s) {i : Instr} (hi : SnapshotCommand i) : Gives (Told Q) (exec i s) := by
  cases hi with
  | spacingTimerEnd =>
    have rest : Told Q (restOwn s) := by
      rw [restOwn]
      split
      · exact h
      · exact h.of_content rfl rfl rfl
    exact .ite (fun _ => .ite (fun _ => .next (Told.makeOwn s)) fun _ => .next rest) fun _ => .next h
  | refreshTimerExpiry => exact .ite (fun _ => .next (Told.makeOwn s)) fun _ => .next h
  | identTimerExpiry =>
    refine .ite (fun _ => .next ?_) fun _ => .next h
    have k := Told.laneKept (Q := Q)
    exact k.tryBegin .b (k.tryBegin .a (h.of_content rfl rfl rfl))

theorem Told.pressed : Pressed (Told Q) where
  offer := fun s _ => Told.offer s
  alarm := fun q _ _ h => h.alarm q
  ack := fun _ _ h => h.alarm _
  pnu := fun _ p h => h.pnu p

theorem Told.ported : Ported (Told Q) where
  dgp := fun _ _ h => h.of_content rfl rfl rfl
  clear := fun _ h => h.of_content rfl rfl rfl

/-! ### The commands of the table and of the energy unit -/

theorem Told.derive {s : State} (h : Told Q s) : Told Q (derive s) :=
  derive_survives (P := Told Q) (fun _ _ h => h.of_content rfl rfl rfl) (fun q _ _ h => h.alarm q) h

theorem Told.recompute {s : State} (h : Told Q s) : Told Q (recompute s) := by
  have read : Told Q (Machine.doorEvent Machine.rederive s) := h.rederive.doorEvent
  exact Carried.ite (P := Told Q) (read.alarm _) (Carried.ite (P := Told Q) (read.alarm _) read)

theorem Told.peerNotice {s : State} (h : Told Q s) : Told Q (peerNotice s) :=
  Told.excessLook (Carried.ite (P := Told Q) h.evaluateClaim.doorEvent h)

theorem Told.giveNotice {s : State} (h : Told Q s) (n : Notice) : Told Q (giveNotice n s) := by
  rw [Machine.giveNotice]
  split
  · have read := Carried.ite (P := Told Q) (b := n.ofPanel = true) h.recompute h
    exact Carried.ite (P := Told Q) read.peerNotice read
  · rename_i off
    exact Told.elsewhere (s := s) (eq_false_of_ne_true off) (by split <;> simp)

theorem Told.tableCommand {s : State} (h : Told Q s) {i : Instr} (hi : TableCommand i) : Gives (Told Q) (exec i s) := by
  have entered : ∀ (x : State) (y : Ste), Told Q x → Told Q { x with ste := y } := fun _ _ k => k.of_content rfl rfl rfl
  have degraded : ∀ x : State, Told Q x → Told Q (deriveDegraded x) := fun x k =>
    Carried.ite (P := Told Q) k (Told.alarm _ (entered _ _ k))
  cases hi with
  | telegramTaken =>
    change Gives (Told Q) (execTelegramTaken s)
    rw [execTelegramTaken]
    split
    · rename_i t rest hr hq
      have k : Told Q { s with rxq := { s.rxq with queue := rest } } := h.of_content rfl rfl rfl
      refine .finish (Told.outs (Carried.ite (P := Told Q) ?_ (Carried.ite (P := Told Q) (entered _ _ k) ?_)))
      · refine Carried.ite (P := Told Q) (fun joined _ => ?_) k
        rw [toMute_suc] at joined
        nomatch joined
      · split
        · exact degraded _ (entered _ _ (entered _ _ k))
        · exact degraded _ (entered _ _ (entered _ _ k))
        · exact Told.giveNotice (Told.derive (Carried.ite (P := Told Q) (Told.alarm _ (entered _ _ k)) (entered _ _ k))) _
    · exact .next h
  | entryGoesStale station =>
    change Gives (Told Q) (execEntryGoesStale station s)
    rw [execEntryGoesStale]
    split
    · exact .next h
    · exact .ite (fun _ => .finish (Told.outs (Told.giveNotice (Told.derive (entered _ _ h)) _))) fun _ => .next h
  | laneHeardAgeLimit station lane =>
    change Gives (Told Q) (execLaneHeardAgeLimit station lane s)
    rw [execLaneHeardAgeLimit]
    split
    · exact .next h
    · exact .ite (fun _ => .next (degraded _ (entered _ _ h))) fun _ => .next h

theorem Told.pumpActs {s : State} (h : Told Q s) : Told Q (pumpActs s) := h.of_content rfl rfl (doorContent_pump s)

/-- The gate's figure of the closes available is offered, with the door's change or after it (R62). -/
theorem Told.gateEnd {s : State} (h : Told Q s) : Gives (Told Q) (exec .gateEnd s) := by
  refine .ite (fun _ => .finish (Told.outs ?_)) fun _ => .next h
  obtain ⟨e, he⟩ : ∃ e, e = judgeGate s.conf s.enu := ⟨_, rfl⟩
  obtain ⟨j, hj⟩ : ∃ j : State, j = { s with enu := e } := ⟨_, rfl⟩
  rw [← he, ← hj, gateHandsOn_event (by rw [hj]) (he ▸ judgeGate_feeds s.conf s.enu)]
  obtain ⟨x, hx⟩ : ∃ x, x = gateAlarms s.enu e j := ⟨_, rfl⟩
  have door : x.dcu = j.dcu := by simp [hx]
  rw [← hx]
  refine Told.pumpActs ?_
  rw [offerCloses]
  by_cases same : s.enu.closes = e.closes
  · have start : Told Q j := h.of_eq (by rw [hj]) (by rw [hj]) (by rw [hj]) (by rw [hj]) (by rw [hj]; exact same.symm) (by rw [hj])
      (by rw [hj]) (by rw [hj]) (by rw [hj])
    have alarmed : Told Q x := by
      rw [hx]
      have first : Told Q (pressureAlarm s.enu e j) :=
        Carried.ite (P := Told Q) (start.alarm _) (Carried.ite (P := Told Q) (start.alarm _) start)
      exact Carried.ite (P := Told Q) first (first.alarm _)
    have event : Reported Q x (gateEvent s.enu e x) := Carried.ite (P := Reported Q x)
      (Carried.ite (P := Reported Q x) (alarmed.reported x) alarmed.onStop)
      (Carried.ite (P := Reported Q x) (alarmed.reported x) alarmed.evaluateStanding)
    exact Carried.ite (P := Told Q) event.doorEvent (Told.offer _)
  · split
    · rename_i differs
      rw [← door, doorEvent, (report_keeps _ _).2.2.2.2.2.1] at differs
      have differs : reportDiffers x.dcu (gateEvent s.enu e x).dcu = true := by simpa [same] using differs
      exact Reported.report (.inl differs)
    · exact Told.offer _

theorem Told.energyCommand {s : State} (h : Told Q s) {i : Instr} (hi : EnergyCommand i) : Gives (Told Q) (exec i s) := by
  cases hi with
  | pfqPulse since => exact .ite (fun _ => .next (h.of_content rfl rfl rfl)) fun _ => .next h
  | gateEnd => exact h.gateEnd
  | mainsDebouncedChange made =>
    have k := h.setDebounced .mains made
    exact .ite (fun _ => .next h) fun _ => .ite (fun _ => .finish (Told.outs (Told.pumpActs (k.alarm _)))) fun _ => .finish k.outs
  | pumpRunLimit =>
    refine .ite (fun _ => .finish (Told.outs (Told.pumpActs ?_))) fun _ => .next h
    have off : Told Q { s with enu := { s.enu with pumpOn := false, run := none } } := h.of_content rfl rfl rfl
    exact (off.alarm (.occurred .pumpFail)).of_content rfl rfl rfl
  | alarmAgeTick kind =>
    have sets : ∀ test : AlarmState → Bool, setOf (fun r => test r.st) (s.alu.map fun r => if r.kind = kind then r.older else r) =
        setOf (fun r => test r.st) s.alu := fun test =>
      setOf_map _ _ (fun r => by split <;> rfl) (fun r => by split <;> rfl) _
    exact .next (h.of_content rfl rfl (doorContent_congr rfl rfl rfl rfl rfl rfl rfl rfl rfl (sets _) (sets _) rfl rfl))

/-! ### Every command of a door in JOINED -/

theorem Told.startCommand {s : State} (h : Told Q s) (joined : s.suc.startUp = .joined) {i : Instr} (hi : StartCommand i) :
    Gives (Told Q) (exec i s) := by
  have reads : ¬ s.reads = true := by simp [State.reads, joined]
  cases hi with
  | reset leads straps => exact .next fun loading => nomatch loading
  | configAddressNotAcked => exact .ite (fun hr => absurd hr reads) fun _ => .next h
  | configRetryWaitExpiry => exact .ite (fun _ => .next fun _ door => h joined door) fun _ => .next h
  | configReadDone image keys =>
    refine .ite (fun hr => absurd ?_ reads) fun _ => .next h
    rw [Bool.and_eq_true] at hr
    exact hr.1
  | csdLowAfterNineClocks => exact .ite (fun hr => absurd hr reads) fun _ => .next h
  | listenTimerExpiry => exact .ite (fun listens => absurd (listens.symm.trans joined) nofun) fun _ => .next h
  | flashEdge => exact .finish (Told.outs (h.of_content rfl rfl rfl))
  | levelInputEdge lead made =>
    exact .ite (fun _ => .next (h.of_content rfl rfl rfl)) fun _ => .next (Carried.ite (P := Told Q) h (h.of_content rfl rfl rfl))

/-- A content that needs no offer from a state on: that state's, but for a position figure in the band of the newest STATE (R127). -/
def SaidBefore (s : State) (c : DoorPart) : Prop :=
  { c with figure := none } = { doorContent s with figure := none } ∧ (c.figure ≠ (doorContent s).figure →
    bandOf c.figure = bandOf (newestFigure s) ∧ c.figure.isSome = (doorContent s).figure.isSome)

/-- A position pulse offers a figure in another band, or one that comes or goes (R127). -/
theorem Told.pulse (s : State) (up : Bool) : Told (SaidBefore s) (takePulse up s) := by
  obtain ⟨x, hx⟩ : ∃ x, x = Machine.setTrm (Machine.pulse s.conf up s.trm) s := ⟨_, rfl⟩
  have offered : Told (SaidBefore s) (offerFigure (positionFigure s) x) := by
    rw [offerFigure]
    split
    · exact Told.offer _
    · rename_i near
      intro _ _
      right; right
      have figure : (doorContent x).figure = positionFigure x := rfl
      refine ⟨by rw [hx]; rfl, fun new => ?_⟩
      rw [figure] at new ⊢
      have newest : newestFigure x = newestFigure s := congrArg (fun n : Snu => n.state.newest.bind (·.figure)) (by rw [hx]; rfl)
      rw [newest] at near
      have near := not_or.mp (fun far => near ⟨new, far⟩)
      exact ⟨not_not.mp near.1, not_not.mp near.2⟩
  have dropped := Carried.ite (P := Told (SaidBefore s)) (b := (s.trm.ref && !(Machine.pulse s.conf up s.trm).ref) = true)
    (offered.alarm (.occurred .positionFault)) offered
  rw [takePulse, ← hx]
  exact Carried.ite (P := Told (SaidBefore s)) (dropped.alarm _) dropped

/-- Whatever command changes a reported field of a door in JOINED, it is offered (R31, R126, R127). -/
theorem Told.command {s : State} (joined : s.suc.startUp = .joined) (bounded : CountBounded s) (c : Instr) :
    Gives (Told (SaidBefore s)) (exec c s) := by
  have start : Told (SaidBefore s) s := fun _ _ => .inr (.inr ⟨rfl, fun new => absurd rfl new⟩)
  revert c
  refine Instr.of_families ?door ?lane ?panel ?port ?snapshot ?table ?energy ?start
  case door =>
    refine fun _ hc => start.doorCommand (fun _ door => bounded.monitor ?_) (Told.pulse s) hc
    rw [State.doorRuns, joined, door]
    rfl
  case lane => exact fun _ hc => Told.laneKept.command hc start
  case panel => exact fun _ hc => Told.pressed.panelCommand hc start
  case port => exact fun _ hc => Told.ported.portCommand hc start
  case snapshot => exact fun _ hc => start.snapshotCommand hc
  case table => exact fun _ hc => start.tableCommand hc
  case energy => exact fun _ hc => start.energyCommand hc
  case start => exact fun _ hc => start.startCommand joined hc

end Sys2Proof.Machine
end

