-- ==== Sys2Proof/Proofs/Asked.lean ====
section
/-! SUPPORT and PROOFS. Every change of what a panel reports is offered (R126, R127): the newest DEMAND holds the content as it stands, or a
change is pending, or the content is as it was. -/

namespace Sys2Proof.Machine

/-- In a panel in JOINED: a change is pending, or the newest DEMAND holds the content as it stands, or that content is `c`. -/
def Asked (c : PanelPart) (s : State) : Prop := s.suc.startUp = .joined → s.conf.role = .panel →
  s.snu.demand.pending = true ∨ s.snu.demand.newest = some (panelContent s) ∨ panelContent s = c

variable {c : PanelPart}

theorem panelContent_congr {s t : State} (mode : t.pnu.mode = s.pnu.mode) (groups : t.pnu.groups = s.pnu.groups)
    (ack : t.pnu.ack = s.pnu.ack) (goodA : t.laneA.good = s.laneA.good) (goodB : t.laneB.good = s.laneB.good) :
    panelContent t = panelContent s := by
  simp only [panelContent, mode, groups, ack, goodA, goodB]

theorem Asked.of_content {s t : State} (h : Asked c s) (suc : t.suc = s.suc) (keeper : t.snu.demand = s.snu.demand)
    (content : panelContent t = panelContent s) : Asked c t := by
  have conf : t.conf = s.conf := by rw [State.conf, suc]; rfl
  rw [Asked, suc, conf, keeper, content]
  exact h

/-- Outside a running panel in JOINED there is no DEMAND to make. -/
theorem Asked.elsewhere {s t : State} (off : s.panelRuns = false) (suc : t.suc = s.suc) : Asked c t := fun joined panel => by
  have on : s.panelRuns = true := by
    rw [State.conf, suc] at panel
    rw [State.panelRuns, ← suc, joined, show s.conf.role = .panel from panel]
    rfl
  rw [off] at on
  nomatch on

/-- An offer asks as it stands, or leaves the change pending (R126, R128). -/
theorem Asked.offer (s : State) : Asked c (offer s) := by
  intro joined panel
  rw [(offer_keeps s).2.2.2.2.1] at joined
  have role : s.conf.role = .panel := by
    rw [← panel, State.conf, State.conf, (offer_keeps s).2.2.2.2.1]
  have content : panelContent (Machine.offer s) = panelContent s :=
    panelContent_congr (by simp) (by simp) (by simp) (offer_good s).1 (offer_good s).2
  rw [content, offer_eq joined, State.ownReady, role]
  cases s.snu.demand.ready with
  | true =>
    rw [if_pos rfl, makeOwn_eq joined, State.snuMade, role]
    exact .inr (.inl rfl)
  | false =>
    rw [if_neg (by simp), State.snuPending, role]
    exact .inl rfl

theorem Asked.makeOwn (s : State) : Asked c (makeOwn s) := by
  intro joined panel
  have suc : (Machine.makeOwn s).suc = s.suc := by simp
  rw [suc] at joined
  have role : s.conf.role = .panel := by rw [← panel, State.conf, State.conf, suc]
  have content : panelContent (Machine.makeOwn s) = panelContent s := by
    rw [makeOwn_eq joined]
    exact panelContent_congr rfl rfl rfl (Lane.offered_good _ _) (Lane.offered_good _ _)
  rw [content, makeOwn_eq joined, State.snuMade, role]
  exact .inr (.inl rfl)

/-- The items of the panel unit beside mode, groups and counter. -/
theorem Asked.pnu {s : State} (h : Asked c s) (p : Pnu) (mode : p.mode = s.pnu.mode) (groups : p.groups = s.pnu.groups)
    (ack : p.ack = s.pnu.ack) : Asked c { s with pnu := p } :=
  h.of_content rfl rfl (panelContent_congr mode groups ack rfl rfl)

/-- An alarm request leaves mode, groups, counter and lanes (R97). -/
theorem Asked.alarm (q : AlarmRequest) {s : State} (h : Asked c s) : Asked c (alarm q s) := by
  by_cases on : s.panelRuns = true
  · have off : s.doorRuns = false := panelRuns_not_doorRuns on
    have start : Asked c { s with alu := applyRequest q s.alu } := h.of_content rfl rfl rfl
    simp only [Machine.alarm, off, on, Bool.false_eq_true, if_false, if_true]
    have silenced : Asked c (if newAlarm q s.alu then endSilence { s with alu := applyRequest q s.alu }
        else { s with alu := applyRequest q s.alu }) :=
      Carried.ite (P := Asked c) (start.of_content rfl rfl rfl) start
    exact Carried.ite (P := Asked c) (silenced.of_content rfl rfl rfl) silenced
  · exact Asked.elsewhere (eq_false_of_ne_true on) (by simp)

theorem Asked.carried : Carried (Asked c) where
  door := fun _ _ _ _ h => h.of_content rfl rfl rfl
  offer := fun s _ => Asked.offer s
  alarm := fun q _ _ h => h.alarm q

theorem Asked.outs {s : State} (h : Asked c s) : Asked c (setOuts s) := h.of_content rfl rfl rfl

theorem Asked.rehealth {s : State} (h : Asked c s) (id : LaneId) : Asked c (rehealth id s) := by
  simp only [Machine.rehealth]
  refine Carried.ite (P := Asked c) h ?_
  split
  · rename_i same
    have good : (s.lane id).good = ({ s.lane id with health := healthOf (s.lane id) } : Lane).good := by
      simpa [Lane.good] using same.symm
    cases id
    · exact h.of_content rfl rfl (panelContent_congr rfl rfl rfl good.symm rfl)
    · exact h.of_content rfl rfl (panelContent_congr rfl rfl rfl rfl good.symm)
  · exact Carried.ite (P := Asked c) ((Asked.offer _).of_content rfl rfl rfl) (Asked.offer _)

theorem Asked.laneKept : LaneKept (Asked c) where
  lane := fun s id l _ health h => by
    have good : l.good = (s.lane id).good := by rw [Lane.good, health]; rfl
    cases id
    · exact h.of_content rfl rfl (panelContent_congr rfl rfl rfl good rfl)
    · exact h.of_content rfl rfl (panelContent_congr rfl rfl rfl rfl good)
  rehealth := fun id _ h => h.rehealth id
  rxq := fun _ _ _ h => h.of_content rfl rfl rfl
  dgp := fun _ _ h => h.of_content rfl rfl rfl

theorem Asked.snapshotCommand {s : State} (h : Asked c s) {i : Instr} (hi : SnapshotCommand i) : Gives (Asked c) (exec i s) := by
  cases hi with
  | spacingTimerEnd =>
    have rest : Asked c (restOwn s) := by
      rw [restOwn]
      split
      · exact h.of_content rfl rfl rfl
      · exact h
    exact .ite (fun _ => .ite (fun _ => .next (Asked.makeOwn s)) fun _ => .next rest) fun _ => .next h
  | refreshTimerExpiry => exact .ite (fun _ => .next (Asked.makeOwn s)) fun _ => .next h
  | identTimerExpiry =>
    refine .ite (fun _ => .next ?_) fun _ => .next h
    have k := Asked.laneKept (c := c)
    exact k.tryBegin .b (k.tryBegin .a (h.of_content rfl rfl rfl))

theorem Asked.ported : Ported (Asked c) where
  dgp := fun _ _ h => h.of_content rfl rfl rfl
  clear := fun _ h => h.of_content rfl rfl rfl

theorem Asked.judgeConflict {s : State} (h : Asked c s) : Asked c (judgeConflict s) := by
  have k := h.pnu { s.pnu with conflict := .stopped } rfl rfl rfl
  exact Carried.ite (P := Asked c) (Carried.ite (P := Asked c) (h.of_content rfl rfl rfl) h) (Carried.ite (P := Asked c) (k.alarm _) k)

/-- A notice at a panel leaves mode, groups and counter (R157 to R167). -/
theorem Asked.panelNotice {s : State} (h : Asked c s) (n : Notice) : Asked c (panelNotice n s) := by
  have seen : Asked c (seeAlarms n.num (summarise s)) :=
    Carried.ite (P := Asked c) (h.of_content rfl rfl rfl) (h.of_content rfl rfl rfl)
  have judged := Carried.ite (P := Asked c) (b := n.ofPanel = true) seen.judgeConflict seen
  exact judged.of_content rfl rfl rfl

theorem Asked.table : TableWalked (Asked c) where
  toWalked := Asked.carried.walked
  ste := fun _ _ h => h.of_content rfl rfl rfl
  panel := fun n _ _ h => h.panelNotice n
  ack := fun _ h => h.alarm _
  rederive := fun _ _ h => Asked.carried.rederive h
  judged := fun _ _ h => Asked.carried.evaluateClaim h

theorem Asked.releaseKey {s : State} (h : Asked c s) (key : Nat) : Asked c (releaseKey key s) := by
  have k := h.pnu (s.pnu.change key false) rfl rfl rfl
  exact Carried.ite (P := Asked c) (k.alarm _) k

/-- The panel's own commands: what changes the demand record is offered (R87, R94, R126, R154 to R156). -/
theorem Asked.panelCommand {s : State} (h : Asked c s) {i : Instr} (hi : PanelCommand i) : Gives (Asked c) (exec i s) := by
  have pressed : ∀ key, Asked c { s with pnu := s.pnu.change key true } := fun key => h.pnu _ rfl rfl rfl
  cases hi with
  | keyScan keys => exact .ite (fun _ => .next (h.of_content rfl rfl rfl)) fun _ => .next h
  | groupClosePress group => exact .ite (fun _ => .press h fun _ => Asked.offer _) fun _ => .next h
  | modeSelectorChange made => exact .ite (fun _ => .next (Asked.offer _)) fun _ => .next h
  | ackPress =>
    unfold exec execAckPress
    exact .press h fun _ => Asked.offer _
  | silencePress =>
    unfold exec execSilencePress
    refine .press h fun _ => Carried.ite (P := Asked c) ?_ (pressed _)
    exact (pressed silenceKey).of_content rfl rfl rfl
  | lampTestPress =>
    unfold exec execLampTestPress
    exact .press h fun _ => Carried.ite (P := Asked c) (pressed _) (h.of_content rfl rfl rfl)
  | lampTestRelease =>
    have ends : Asked c { s with pnu := { s.pnu with lampTest := none, lockout := false } } := h.pnu _ rfl rfl rfl
    exact .ite (fun _ => .next (ends.releaseKey _)) fun _ => .next h
  | keyRelease position => exact .ite (fun _ => .next (h.releaseKey _)) fun _ => .next h
  | lampTestTimeout => exact .ite (fun _ => .next (h.of_content rfl rfl rfl)) fun _ => .next h
  | keyHeldLimit position =>
    have held : ∀ l : List Watch, Asked c { s with pnu := { s.pnu with heldKeys := l } } := fun _ => h.pnu _ rfl rfl rfl
    exact .ite (fun _ => .next (Carried.ite (P := Asked c) (held _) ((held _).alarm _))) fun _ => .next h
  | modeConflictTimerExpiry =>
    have timed : ∀ w : Watch, Asked c { s with pnu := { s.pnu with conflict := w } } := fun _ => h.pnu _ rfl rfl rfl
    exact .ite (fun _ => .next ((timed _).alarm _)) fun _ => .next h
  | lampFrame => exact .ite (fun _ => .next h) fun _ => .next (h.of_content rfl rfl rfl)

theorem Asked.energyCommand {s : State} (h : Asked c s) {i : Instr} (hi : EnergyCommand i) : Gives (Asked c) (exec i s) :=
  Asked.carried.energyCommand (fun _ _ h => h.of_content rfl rfl rfl) (fun _ _ h => h.of_content rfl rfl rfl)
    (fun _ h => h.alarm _) (fun _ _ h => h.of_content rfl rfl rfl) (fun _ h => h.outs) hi h

theorem Asked.startCommand {s : State} (h : Asked c s) (joined : s.suc.startUp = .joined) {i : Instr} (hi : StartCommand i) :
    Gives (Asked c) (exec i s) := by
  have reads : ¬ s.reads = true := by simp [State.reads, joined]
  cases hi with
  | reset leads straps => exact .next fun loading => nomatch loading
  | configAddressNotAcked => exact .ite (fun hr => absurd hr reads) fun _ => .next h
  | configRetryWaitExpiry => exact .ite (fun _ => .next fun _ panel => h joined panel) fun _ => .next h
  | configReadDone image keys =>
    refine .ite (fun hr => absurd ?_ reads) fun _ => .next h
    rw [Bool.and_eq_true] at hr
    exact hr.1
  | csdLowAfterNineClocks => exact .ite (fun hr => absurd hr reads) fun _ => .next h
  | listenTimerExpiry => exact .ite (fun listens => absurd (listens.symm.trans joined) nofun) fun _ => .next h
  | flashEdge => exact .finish (Asked.outs (h.of_content rfl rfl rfl))
  | levelInputEdge lead made =>
    exact .ite (fun _ => .next (h.of_content rfl rfl rfl)) fun _ => .next (Carried.ite (P := Asked c) h (h.of_content rfl rfl rfl))

/-- Whatever command changes a reported field of a panel in JOINED, it is offered (R126, R127). -/
theorem Asked.command {s : State} (joined : s.suc.startUp = .joined) (i : Instr) : Gives (Asked (panelContent s)) (exec i s) := by
  have start : Asked (panelContent s) s := fun _ _ => .inr (.inr rfl)
  have mute : ∀ x, x.suc.startUp = .listen ∨ x.suc.startUp = .joined → Asked (panelContent s) x → Asked (panelContent s) (toMute x) :=
    fun x _ _ joined _ => by
      rw [toMute_suc] at joined
      nomatch joined
  revert i
  refine Instr.of_families ?door ?lane ?panel ?port ?snapshot ?table ?energy ?start
  case door => exact fun _ hc => Asked.carried.command (fun _ _ _ _ h => h.of_content rfl rfl rfl) (fun _ h => h.outs) hc start
  case lane => exact fun _ hc => Asked.laneKept.command hc start
  case panel => exact fun _ hc => start.panelCommand hc
  case port => exact fun _ hc => Asked.ported.portCommand hc start
  case snapshot => exact fun _ hc => start.snapshotCommand hc
  case table => exact fun _ hc => Asked.table.tableCommand (fun _ _ h => h.of_content rfl rfl rfl) mute (fun _ h => h.outs) hc start
  case energy => exact fun _ hc => start.energyCommand hc
  case start => exact fun _ hc => start.startCommand joined hc

/-! ### The configuration of a part that stays in JOINED -/

/-- In JOINED the configuration is `c`. -/
def Configured (c : Cfg) (s : State) : Prop := s.suc.startUp = .joined → s.conf = c

theorem Configured.of_suc {c : Cfg} {s t : State} (h : Configured c s) (suc : t.suc = s.suc) : Configured c t := by
  have conf : t.conf = s.conf := by rw [State.conf, suc]; rfl
  rw [Configured, suc, conf]
  exact h

theorem Configured.wide (c : Cfg) : CarriedWide (Configured c) where
  door := fun _ _ _ _ h => h.of_suc rfl
  offer := fun _ h => h.of_suc (by simp)
  alarm := fun _ _ _ h => h.of_suc (by simp)
  ste := fun _ _ h => h.of_suc rfl
  pnu := fun _ _ h => h.of_suc rfl
  ack := fun _ h => h.of_suc (by simp)

theorem Configured.aside (c : Cfg) : Aside (Configured c) where
  offer := (wide c).offer
  alarm := (wide c).alarm
  ack := fun s _ => (wide c).ack s
  lane := fun _ _ _ _ h => h.of_suc (by simp)
  rxq := fun _ _ _ h => h.of_suc rfl
  snu := fun _ _ h => h.of_suc rfl
  pnu := (wide c).pnu
  dgp := fun _ _ h => h.of_suc rfl
  clear := fun _ h => h.of_suc (by simp)

theorem Configured.toMute {c : Cfg} (s : State) : Configured c (toMute s) := fun joined => by
  rw [toMute_suc] at joined
  nomatch joined

/-- Images are read in LOADING alone (R169). -/
theorem Configured.startCommand {s : State} (joined : s.suc.startUp = .joined) {i : Instr} (hi : StartCommand i) :
    Gives (Configured s.conf) (exec i s) := by
  have h : Configured s.conf s := fun _ => rfl
  have reads : ¬ s.reads = true := by simp [State.reads, joined]
  cases hi with
  | reset leads straps => exact .next fun loading => nomatch loading
  | configAddressNotAcked => exact .ite (fun hr => absurd hr reads) fun _ => .next h
  | configRetryWaitExpiry => exact .ite (fun _ => .next fun _ => rfl) fun _ => .next h
  | configReadDone image keys =>
    refine .ite (fun hr => absurd ?_ reads) fun _ => .next h
    rw [Bool.and_eq_true] at hr
    exact hr.1
  | csdLowAfterNineClocks => exact .ite (fun hr => absurd hr reads) fun _ => .next h
  | listenTimerExpiry => exact .ite (fun listens => absurd (listens.symm.trans joined) nofun) fun _ => .next h
  | flashEdge => exact .finish (h.of_suc rfl)
  | levelInputEdge lead made => exact .ite (fun _ => .next (h.of_suc rfl)) fun _ => .next (h.of_suc (by simp))

/-- A part that stays in JOINED keeps its configuration. -/
theorem Configured.command {s : State} (joined : s.suc.startUp = .joined) (i : Instr) : Gives (Configured s.conf) (exec i s) := by
  have h : Configured s.conf s := fun _ => rfl
  have outs : ∀ x, Configured s.conf x → Configured s.conf (setOuts x) := fun _ h => h.of_suc rfl
  have a := aside s.conf
  have w := wide s.conf
  revert i
  refine Instr.of_families ?door ?lane ?panel ?port ?snapshot ?table ?energy ?start
  case door => exact fun _ hc => w.command (fun _ _ _ _ h => h.of_suc rfl) outs hc h
  case lane => exact fun _ hc => a.laneKept.command hc h
  case panel => exact fun _ hc => a.panelCommand hc h
  case port => exact fun _ hc => a.portCommand hc h
  case snapshot => exact fun _ hc => a.snapshotCommand hc h
  case table => exact fun _ hc => w.tableCommand (fun _ _ _ h => h.of_suc rfl) (fun x _ => toMute x) outs hc h
  case energy =>
    exact fun _ hc => w.energyCommand (fun _ _ h => h.of_suc rfl) (fun _ _ h => h.of_suc rfl) (fun _ h => h.of_suc (by simp))
      (fun _ _ h => h.of_suc rfl) outs hc h
  case start => exact fun _ hc => startCommand joined hc

/-! ### The snapshot timers -/

/-- The part with the snapshots `n` made, offered to both lanes (R134). -/
def State.tells (s : State) (n : Snu) : State := { s with snu := n, laneA := s.laneA.offered n, laneB := s.laneB.offered n }

/-- What a making leaves of a class: the content, the serial after the last or 0 for the first, both timers from 0 and nothing pending
(R125, R128). -/
theorem Keeper.make_eq {α : Type} [DecidableEq α] (k : Keeper α) (c : α) :
    k.make c = ⟨some c, if k.newest = none then 0 else k.serial + 1, false, some 0, some 0⟩ := by
  simp only [Keeper.make, Option.isNone_iff_eq_none]

theorem identMade_eq (s : State) : identMade s s.snu = { s.snu with
    ident := ⟨some (identContent s), if s.snu.ident.newest = none then 0 else s.snu.ident.serial + 1, some 0⟩ } := by
  simp only [identMade, Option.isNone_iff_eq_none]

theorem makeOwn_tells {s : State} (joined : s.suc.startUp = .joined) : Machine.makeOwn s = s.tells s.snuMade := makeOwn_eq joined

/-- The spacing timer's end in JOINED: at its limit the pending snapshot, or the timer stopped (R128). -/
theorem spacingTimerEnd_runs {s : State} (joined : s.suc.startUp = .joined) {spacing : Option Nat} {pending : Bool}
    (own : ownSpacing s = (spacing, pending)) :
    (reached spacing 50 = true → pending = true → exec .spacingTimerEnd s = .next (s.tells s.snuMade)) ∧
    (reached spacing 50 = true → pending = false → exec .spacingTimerEnd s = .next (restOwn s)) ∧
    (reached spacing 50 = false → exec .spacingTimerEnd s = .next s) := by
  have run : exec .spacingTimerEnd s = execSpacingTimerEnd s := rfl
  rw [run, execSpacingTimerEnd, own, makeOwn_tells joined]
  refine ⟨fun due waits => ?_, fun due rests => ?_, fun early => ?_⟩
  · rw [if_pos ⟨joined, due⟩, if_pos waits]
  · rw [if_pos ⟨joined, due⟩, if_neg (by simp [rests])]
  · exact if_neg fun due => by
      rw [show reached spacing Config.spacingMs = false from early] at due
      nomatch due.2

/-- The refresh timer's expiry in JOINED: a snapshot at its limit, nothing below (R129, R133). -/
theorem refreshTimerExpiry_runs {s : State} (joined : s.suc.startUp = .joined) {refresh : Option Nat} (own : ownRefresh s = refresh) :
    (reached refresh (100 * s.conf.refresh) = true → exec .refreshTimerExpiry s = .next (s.tells s.snuMade)) ∧
    (reached refresh (100 * s.conf.refresh) = false → exec .refreshTimerExpiry s = .next s) := by
  have run : exec .refreshTimerExpiry s = execRefreshTimerExpiry s := rfl
  rw [run, execRefreshTimerExpiry, own, refreshMs_eq, makeOwn_tells joined]
  exact ⟨fun due => if_pos ⟨joined, due⟩, fun early => if_neg (by simp [early])⟩

/-- The IDENT timer's expiry (R131). -/
theorem identTimerExpiry_runs (s : State) :
    (s.suc.startUp = .joined → reached s.snu.ident.timer (1000 * s.conf.refresh) = true →
      exec .identTimerExpiry s = .next (s.tells (identMade s s.snu))) ∧
    (s.suc.startUp ≠ .joined ∨ reached s.snu.ident.timer (1000 * s.conf.refresh) = false → exec .identTimerExpiry s = .next s) := by
  have limit : 10 * s.refreshMs = 1000 * s.conf.refresh := by
    rw [refreshMs_eq]
    omega
  have run : exec .identTimerExpiry s = execIdentTimerExpiry s := rfl
  rw [run, execIdentTimerExpiry, limit]
  refine ⟨fun joined due => ?_, fun rests => if_neg fun due => ?_⟩
  · rw [if_pos ⟨joined, due⟩, makeIdent_eq joined]
    rfl
  · rcases rests with elsewhere | early
    · exact elsewhere due.1
    · rw [early] at due
      nomatch due.2

/-- Outside JOINED neither timer of the own class makes anything (R124). -/
theorem ownTimers_rest {s : State} (elsewhere : s.suc.startUp ≠ .joined) :
    exec .spacingTimerEnd s = .next s ∧ exec .refreshTimerExpiry s = .next s :=
  ⟨if_neg fun due => elsewhere due.1, if_neg fun due => elsewhere due.1⟩

/-- A door's reported content that differs from before, the position figure in more than its place in the band, is offered. -/
theorem doorChange_offered {s t : State} {i : Instr} (bounded : CountBounded s) (run : exec i s = .next t) (joined : s.suc.startUp = .joined)
    (stays : t.suc.startUp = .joined) (door : s.conf.role = .door)
    (changed : { doorContent t with figure := none } ≠ { doorContent s with figure := none } ∨
      ((doorContent t).figure ≠ (doorContent s).figure ∧ (bandOf (doorContent t).figure ≠ bandOf (newestFigure s) ∨
        (doorContent t).figure.isSome ≠ (doorContent s).figure.isSome))) :
    t.snu.state.pending = true ∨ t.snu.state.newest = some (doorContent t) := by
  have conf : t.conf = s.conf := (Configured.command joined i).of_next run stays
  have told := (Told.command joined bounded i).of_next run stays (by rw [conf]; exact door)
  refine told.imp_right fun said => said.resolve_right fun before => ?_
  obtain ⟨rest, figure⟩ := before
  rcases changed with other | ⟨new, band | some⟩
  · exact other rest
  · exact band (figure new).1
  · exact some (figure new).2

/-- A panel's reported content that differs from before is offered. -/
theorem panelChange_offered {s t : State} {i : Instr} (run : exec i s = .next t) (joined : s.suc.startUp = .joined)
    (stays : t.suc.startUp = .joined) (panel : s.conf.role = .panel) (changed : panelContent t ≠ panelContent s) :
    t.snu.demand.pending = true ∨ t.snu.demand.newest = some (panelContent t) := by
  have conf : t.conf = s.conf := (Configured.command joined i).of_next run stays
  have asked := (Asked.command joined i).of_next run stays (by rw [conf]; exact panel)
  exact asked.imp_right fun said => said.resolve_right changed

/-- Settles O32: each timer's command by its conditions; and whatever the command, a changed content is offered (`Told.command`,
`Asked.command`). -/
theorem snapshotTimersMakeSnapshots : Obligations.SnapshotTimersMakeSnapshots := by
  intro s
  obtain ⟨identMakes, identRests⟩ := identTimerExpiry_runs s
  rw [identMade_eq] at identMakes
  refine ⟨fun joined door => ?_, fun joined panel => ?_, identMakes, identRests, ownTimers_rest,
    fun i t bounded run joined stays => ⟨fun door => doorChange_offered bounded run joined stays door,
      fun panel => panelChange_offered run joined stays panel⟩⟩
  · have made : s.snuMade = { s.snu with state := s.snu.state.make (doorContent s) } := by rw [State.snuMade, door]
    have rest : restOwn s = { s with snu := { s.snu with state := s.snu.state.rest } } := by rw [restOwn, door]
    obtain ⟨waits, rests, early⟩ := spacingTimerEnd_runs joined (show ownSpacing s = (s.snu.state.spacing, s.snu.state.pending) by
      rw [ownSpacing, door])
    obtain ⟨due, below⟩ := refreshTimerExpiry_runs joined (show ownRefresh s = s.snu.state.refresh by rw [ownRefresh, door])
    rw [made, Keeper.make_eq] at waits due
    rw [rest] at rests
    exact ⟨waits, rests, early, due, below⟩
  · have made : s.snuMade = { s.snu with demand := s.snu.demand.make (panelContent s) } := by rw [State.snuMade, panel]
    have rest : restOwn s = { s with snu := { s.snu with demand := s.snu.demand.rest } } := by rw [restOwn, panel]
    obtain ⟨waits, rests, early⟩ := spacingTimerEnd_runs joined (show ownSpacing s = (s.snu.demand.spacing, s.snu.demand.pending) by
      rw [ownSpacing, panel])
    obtain ⟨due, below⟩ := refreshTimerExpiry_runs joined (show ownRefresh s = s.snu.demand.refresh by rw [ownRefresh, panel])
    rw [made, Keeper.make_eq] at waits due
    rw [rest] at rests
    exact ⟨waits, rests, early, due, below⟩

end Sys2Proof.Machine
end
